-- ==== Sys2Proof/Word.lean ====
section
/-! DEFINITION. The words the manual treats as bits: bytes, lines, line addresses, sequences, times. -/

namespace Sys2Proof

/-- One byte. -/
abbrev Byte := BitVec 8

/-- One line: 64 bytes, byte n at bits 8n+7 to 8n (0.8.2: every multi-byte field is little-endian). -/
abbrev Line := BitVec 512

/-- A line address: bits 39-6 of the byte address (Table 12-7), so every value names an aligned line of the 1 TiB space. -/
abbrev LineAddr := BitVec 34

/-- The byte mask of a write: flag n stands for data byte n (Table 12-7). -/
abbrev ByteMask := BitVec 64

/-- A 128-byte place of the journal area: a record slot or a header copy (R38), byte n at bits 8n+7 to 8n. -/
abbrev Place := BitVec 1024

/-- The 256-byte parameter block (Table 12-6), byte n at bits 8n+7 to 8n. -/
abbrev ParamBlock := BitVec 2048

/-- The 2048 bits the part samples on CFG_DI in one transfer (R136), in the order of their arrival: bit i is the
(i + 1)-th. -/
abbrev SampledBits := BitVec 2048

/-- A journal sequence, open number or header generation: 32 bits that wrap (0.8.4). -/
abbrev Serial := BitVec 32

/-- A timebase value in microseconds (R1). -/
abbrev Time := BitVec 64

/-- A 64-bit field of software's: signature, key or label. -/
abbrev Word64 := BitVec 64

/-- A requester number; the context of the same number belongs to it (R2). -/
abbrev RequesterId := Fin 16

/-- The tag of an outstanding request (R59). -/
abbrev Tag := Fin 64

/-- One of the eight access slots of the memory link (R124). -/
abbrev AccessSlot := Fin 8

/-- 0.8.4: a is older than b when (b - a) mod 2^32 lies between 1 and 2^31 - 1. -/
def Serial.older (a b : Serial) : Bool := 1 ≤ (b - a).toNat && (b - a).toNat ≤ 2 ^ 31 - 1

end Sys2Proof
end

