-- ==== Sys2Proof/Config.lean ====
section
/-! DEFINITION. What the part fixes (Table 0-4) and the free values the manual leaves open. -/

namespace Sys2Proof

/-- Hold table entries (R19). -/
def Config.holdEntries : Nat := 512
/-- Journal operation table entries (R71). -/
def Config.opEntries : Nat := 16
/-- Forward queue entries (R70). -/
def Config.forwardEntries : Nat := 32
/-- Memory-link access slots (R124). -/
def Config.accessSlots : Nat := 8
/-- End-record reserve (R43). -/
def Config.endReserve : Nat := 16
/-- Attempts in all for header writes and rollback accesses (R131). -/
def Config.attempts : Nat := 3
/-- Load attempts (R140). -/
def Config.loadAttempts : Nat := 3
/-- Pause between load attempts, 10 ms in microseconds (R140). -/
def Config.loadPause : Nat := 10000
/-- Failure total at which the abuse indicator is set (R120). -/
def Config.abuseThreshold : Nat := 64
/-- Value at which the failure total and the recovery count saturate (R120, R151). -/
def Config.saturation : Nat := 65535
/-- One second of the timebase (chapter 7). -/
def Config.second : Nat := 1000000
/-- Byte address space, 1 TiB (Table 0-4). -/
def Config.addressSpace : Nat := 2 ^ 40
/-- The header format code "UNDOJRN1" (12.1), its first byte least significant. -/
def Config.formatCode : Word64 := 0x314E524A4F444E55#64
/-- The generator polynomial of the CRC-32 (0.8.5). -/
def Config.crcPolynomial : BitVec 32 := 0x04C11DB7#32

/-- Free value: which of the free access slots the Recovery Sequencer's access number n takes
(R127: the slot numbers "are of no consequence to any block"; log 8). -/
opaque Config.slotChoice : Nat → Nat

/-- Free value: how many of the accesses it wants the Recovery Sequencer issues at its n-th opportunity
(R145 "up to eight outstanding", "it may read ahead"; R151 "may be in flight together"; log 9). -/
opaque Config.sequencerIssue : Nat → Nat

/-- Free value: the order in which formatting zeroes n half slots, for the draw d (R58 "in any order of slots"; log 10). -/
opaque Config.zeroOrder (d n : Nat) : Equiv.Perm (Fin n)

end Sys2Proof
end

