-- ==== Sys2Proof/Syntax.lean ====
section
/-! DEFINITION. The commands: one constructor of Instr for each row of spec/opcode_table.json, with the row's operands. -/

namespace Sys2Proof

/-- The fields of a control line other than its command code (Table 12-2). -/
structure ControlFields where
  /-- bytes 0-7 -/
  signature : Word64
  /-- bytes 8-15 -/
  key : Word64
  /-- bytes 17-23, must be zero -/
  zeroLow : BitVec 56
  /-- bytes 24-31 -/
  label : Word64
  /-- bytes 32-59, must be zero -/
  zeroHigh : BitVec 224
  /-- bytes 60-63 -/
  check : BitVec 32
  deriving DecidableEq, Repr

/-- The memory link's answer to a read (R124, Table 12-7). -/
inductive ReadResult where
  | okay (data : Line)
  | error
  deriving DecidableEq, Repr

/-- The memory link's answer to a write (R124, Table 12-7). -/
inductive WriteResult where
  | okay
  | error
  deriving DecidableEq, Repr

/-- The commands of spec/opcode_table.json, in its order. -/
inductive Instr where
  | porstNAssert
  | porstNDeassert
  | linkReset
  | lrstNDeassert
  | pfailNAssert
  | pfailNDeassert
  | readRequest (requester : RequesterId) (tag : Tag) (line : LineAddr)
  | writeRequest (requester : RequesterId) (tag : Tag) (line : LineAddr) (mask : ByteMask) (data : Line)
  | queryRead (requester : RequesterId) (tag : Tag) (line : LineAddr)
  | openTransaction (requester : RequesterId) (tag : Tag) (line : LineAddr) (fields : ControlFields)
  | commit (requester : RequesterId) (tag : Tag) (line : LineAddr) (fields : ControlFields)
  | abort (requester : RequesterId) (tag : Tag) (line : LineAddr) (fields : ControlFields)
  | query (requester : RequesterId) (tag : Tag) (line : LineAddr) (fields : ControlFields)
  | acknowledge (requester : RequesterId) (tag : Tag) (line : LineAddr) (fields : ControlFields)
  | controlLineUnknownCommand (requester : RequesterId) (tag : Tag) (line : LineAddr) (code : Byte) (fields : ControlFields)
  | conflictTimerExpiry (waiter : RequesterId)
  | lockoutExpiry
  | loadPauseEnd
  | configurationTransferEnd (sampled : SampledBits)
  | forwardAccessComplete (slot : AccessSlot) (result : ReadResult)
  | oldLineReadComplete (slot : AccessSlot) (result : ReadResult)
  | recordWriteComplete (slot : AccessSlot) (result : WriteResult)
  | operationForwardedWriteComplete (slot : AccessSlot) (result : WriteResult)
  | headerWriteComplete (slot : AccessSlot) (result : WriteResult)
  | rollbackReadComplete (slot : AccessSlot) (result : ReadResult)
  | restoreWriteComplete (slot : AccessSlot) (result : WriteResult)
  | recoveryHeaderReadComplete (slot : AccessSlot) (result : ReadResult)
  | zeroingWriteComplete (slot : AccessSlot) (result : WriteResult)
  | formatHeaderWriteComplete (slot : AccessSlot) (result : WriteResult)
  | forwardWalkReadComplete (slot : AccessSlot) (result : ReadResult)
  | undoPassReadComplete (slot : AccessSlot) (result : ReadResult)
  | recoveryRestoreComplete (slot : AccessSlot) (result : WriteResult)
  | reinitHeaderWriteComplete (slot : AccessSlot) (result : WriteResult)
  | memoryResponseUnknownSlot (slot : AccessSlot) (result : ReadResult)
  | arbiterGrant (slot : AccessSlot)
  | undoSlotRequest (line : LineAddr)
  | endRecordRequest (context : RequesterId)
  | commitRecordAsk (context : RequesterId)
  | rollbackQueueAppend (context : RequesterId)
  | rollbackTakeContext
  | abortRecordAsk
  | timebaseAdvance
  deriving DecidableEq, Repr

end Sys2Proof
end

