-- ==== Sys2Proof/Decode.lean ====
section
/-! DEFINITION. The host's view of the opcode table's words. No row of spec/opcode_table.json gives bits (every
row's "fields" is empty and none has "fixed"), so no word spells a command. -/

namespace Sys2Proof

/-- The command a word spells by the table's bits: none, since the table gives no row any bits. -/
def decodeTableWord (_nbits _w : Nat) : Option Instr := none

end Sys2Proof
end

