-- ==== Sys2Proof/Machine/State.lean ====
section
/-! DEFINITION. The state of the D4816: every piece of state the manual gives the part, block by block (Table 0-1),
and the queue of waiting commands. Plain data. -/

namespace Sys2Proof.Machine

/-- Why a step could stop: never. The manual gives the part no event that stops it; a fault report moves the
device to the state FAULTED (R158), which is a next state here. No constructor: nobody raises one (safe). -/
inductive Fault where
  deriving DecidableEq, Repr

/-- Why a command is not run. -/
inductive Refusal where
  /-- A command whose meaning is not written yet, by its mnemonic; raised by a refused arm of exec only (safe). -/
  | notModelled (mnemonic : String)
  deriving DecidableEq, Repr

/-- R156: the device states. -/
inductive DeviceState where
  | loading | recovering | passthrough | serving | draining | faulted | halted
  deriving DecidableEq, Repr

/-- R156, Table 11-1: the fault causes. -/
inductive FaultCause where
  | noCause | journalWrite | headerWrite | rollbackAccess | endRecord | recovery | noValidHeader
  deriving DecidableEq, Repr

/-- R2: the context states. `opened` is the manual's OPEN. -/
inductive ContextState where
  | idle | opened | committing | abortPending | rollingBack | aborted
  deriving DecidableEq, Repr

/-- Table 1-3: the abort reasons. -/
inductive AbortReason where
  | requested | conflict | quota | holdTableFull | journalFull | memoryError | linkReset
  deriving DecidableEq, Repr

/-- Table 6-3: the control outcome codes. -/
inductive ControlOutcome where
  | noOutcome | done | nothingPending | nested | noTransaction | alreadyCommitting | alreadyAborting
  | tooLate | noticePending | lockedOut | keyMismatch | malformed | notAvailable
  deriving DecidableEq, Repr

/-- 0.8.6: the response codes. -/
inductive ResponseCode where
  | okay | retry | error
  deriving DecidableEq, Repr

/-- Table 4-1: the response details. -/
inductive ResponseDetail where
  | noDetail | notReady | inFlight | conflict | queueFull | busy | reservedArea | aborted | memoryError
  | controlRefused | tagInUse | fault
  deriving DecidableEq, Repr

/-- A system-link response (Table 12-7). -/
structure Response where
  requester : RequesterId
  tag : Tag
  code : ResponseCode
  detail : ResponseDetail
  /-- present on a read answered OKAY -/
  data : Option Line
  deriving DecidableEq, Repr

/-- A wait record (R27). -/
structure WaitRecord where
  line : LineAddr
  holder : RequesterId
  start : Time
  deriving DecidableEq, Repr

/-- A context record (Table 1-1). -/
structure Context where
  state : ContextState
  openNumber : Option Serial
  label : Option Word64
  reason : Option AbortReason
  noticeDue : Option Bool
  firstSlot : Option Nat
  lastSlot : Option Nat
  undoCount : Nat
  holdsCount : Nat
  opsInFlight : Nat
  forwardedOutstanding : Nat
  /-- held control responses, oldest first -/
  held : List Tag
  wait : Option WaitRecord
  lastOutcome : ControlOutcome
  arming : Option LineAddr
  deriving DecidableEq, Repr

/-- R16: a context record after power-on reset. -/
def Context.reset : Context :=
  { state := .idle, openNumber := none, label := none, reason := none, noticeDue := none, firstSlot := none,
    lastSlot := none, undoCount := 0, holdsCount := 0, opsInFlight := 0, forwardedOutstanding := 0, held := [],
    wait := none, lastOutcome := .noOutcome, arming := none }

/-- R19: the state of a hold entry. -/
inductive HoldState where
  | journaling | held
  deriving DecidableEq, Repr

/-- R19: a hold entry. -/
structure HoldEntry where
  line : LineAddr
  owner : RequesterId
  state : HoldState
  deriving DecidableEq, Repr

/-- A read, or a write with its byte mask and data (Table 12-7). -/
inductive AccessKind where
  | read
  | write (mask : ByteMask) (data : Line)
  deriving DecidableEq, Repr

/-- A control line that the Request Classifier has recognised and passed on, and whose command the Context Table has
not yet taken (R107, R108): its mask is full. -/
structure WaitingLine where
  requester : RequesterId
  tag : Tag
  line : LineAddr
  data : Line
  deriving DecidableEq, Repr

/-- A Forward Queue entry (R70). `issued` is the access slot that carries it once issued (R128). -/
structure ForwardEntry where
  requester : RequesterId
  tag : Tag
  kind : AccessKind
  line : LineAddr
  journaled : Bool
  forgotten : Bool
  issued : Option AccessSlot
  deriving DecidableEq, Repr

/-- A place on the ring: a slot index with the sequence of its record (3.3). -/
structure Position where
  slot : Nat
  seq : Serial
  deriving DecidableEq, Repr

/-- 4.7: the stages of a journaling operation. -/
inductive OpStage where
  | readingOld | appending | waitingDurable | forwarding
  deriving DecidableEq, Repr

/-- A journaling operation (Table 4-3). `access` is the access slot of its old-line read or forwarded write while
that access is in flight. -/
structure Operation where
  requester : RequesterId
  tag : Tag
  line : LineAddr
  mask : ByteMask
  data : Line
  stage : OpStage
  slot : Option Position
  old : Option Line
  cancelled : Bool
  forgotten : Bool
  access : Option AccessSlot
  deriving DecidableEq, Repr

/-- R38: the two halves of a 128-byte place. -/
inductive Half where
  | first | second
  deriving DecidableEq, Repr

/-- The progress of the write of one half. -/
inductive HalfWrite where
  | waiting | issued | okay | failed
  deriving DecidableEq, Repr

/-- The progress of the read of one half. -/
inductive HalfRead where
  | waiting | issued
  | got (data : Line)
  deriving DecidableEq, Repr

/-- R39: the kinds of journal record. -/
inductive RecordKind where
  | undo | commit | abort
  deriving DecidableEq, Repr

/-- The fields of a journal record (Table 3-1), as they stand in its bytes: the context number and the abort reason
are the bytes of Table 12-4. The line address is bits 39-6 of its field (R164). -/
structure JournalRecord where
  kind : RecordKind
  context : Byte
  reason : Byte
  seq : Serial
  openNumber : Serial
  line : LineAddr
  label : Word64
  old : Line
  deriving DecidableEq, Repr

/-- An assigned slot from the durable head up to the head (R41): its record, the context that owns it, the progress
of its two line writes and its completion mark. -/
structure AssignedRecord where
  owner : RequesterId
  slot : Nat
  record : JournalRecord
  first : HalfWrite
  second : HalfWrite
  mark : Bool
  deriving DecidableEq, Repr

/-- A request for an end record that the Journal Writer has not yet taken (R7, R79, R90). -/
structure EndRequest where
  context : RequesterId
  kind : RecordKind
  openNumber : Serial
  label : Word64
  reason : Byte
  deriving DecidableEq, Repr

/-- The Journal Writer (R41). -/
structure Journal where
  /-- the Journal Writer has taken its starting values (R41, R152); never in a start-up that failed (R153) -/
  started : Bool
  head : Position
  durableHead : Position
  published : Position
  /-- the assigned slots from the durable head up to the head, in sequence order -/
  records : List AssignedRecord
  /-- end-record requests waiting to be taken, oldest first -/
  requests : List EndRequest
  deriving DecidableEq, Repr

/-- R40: the two header copies. -/
inductive Copy where
  | a | b
  deriving DecidableEq, Repr

/-- A header image (R51). -/
structure HeaderImage where
  copy : Copy
  generation : Serial
  tail : Position
  recoveryCount : BitVec 16
  deriving DecidableEq, Repr

/-- How far the halves of the image in flight have come (R51, R131). -/
inductive HeaderStage where
  | firstWaiting | firstIssued | secondWaiting | secondIssued
  deriving DecidableEq, Repr

/-- The image in flight with its attempt number (R41, R53). -/
structure HeaderWrite where
  image : HeaderImage
  attempt : Nat
  stage : HeaderStage
  deriving DecidableEq, Repr

/-- The Header Writer (R41). -/
structure HeaderWriter where
  lastCopy : Copy
  generation : Serial
  recoveryCount : BitVec 16
  pendingImage : Option HeaderImage
  inFlight : Option HeaderWrite
  deriving DecidableEq, Repr

/-- R83: the phases of the Rollback Engine. -/
inductive EnginePhase where
  | free | walking | closing | stopped
  deriving DecidableEq, Repr

/-- The engine's slot-half read, claimed (`issued` no) or in flight (R83, R130). -/
structure EngineRead where
  slot : Nat
  half : Half
  attempt : Nat
  issued : Bool
  deriving DecidableEq, Repr

/-- The engine's restore write, claimed (`issued` no) or in flight (R83, R130). -/
structure EngineRestore where
  line : LineAddr
  old : Line
  attempt : Nat
  issued : Bool
  deriving DecidableEq, Repr

/-- The Rollback Engine (Table 5-2). -/
structure Engine where
  phase : EnginePhase
  current : Option RequesterId
  walkPosition : Option Nat
  walkEnded : Bool
  foundCount : Nat
  read : Option EngineRead
  /-- slot under read: the first half's 64 bytes -/
  firstHalf : Option Line
  /-- restores waiting, oldest found first -/
  waiting : List (LineAddr × Line)
  restore : Option EngineRestore
  deriving DecidableEq, Repr

/-- R126: the claimants of the Memory Arbiter. -/
inductive Claimant where
  | forward | journal | rollback | header
  deriving DecidableEq, Repr

/-- Whose access it is and what it carries (Table 8-2). -/
inductive Purpose where
  /-- a Forward Queue entry (the one issued in this access slot) -/
  | forwarded
  /-- the old-line read of the operation on this access's line -/
  | oldLineRead
  /-- the forwarded write of the operation on this access's line -/
  | operationWrite
  | recordHalf (seq : Serial) (half : Half)
  | headerHalf (half : Half)
  | rollbackRead
  | rollbackRestore
  | recoveryHeaderRead (copy : Copy) (half : Half)
  | zeroing
  | formatHeader (half : Half)
  | forwardWalkRead (half : Half)
  | undoPassRead (slot : Nat) (half : Half)
  | recoveryRestore
  | reinitHeader (half : Half)
  deriving DecidableEq, Repr

/-- A memory-link access (R124). `order` is its place in the order of issue (R125). -/
structure Access where
  purpose : Purpose
  line : LineAddr
  kind : AccessKind
  order : Nat
  deriving DecidableEq, Repr

/-- Table 7-1: the Key Checker's state with, in LOCKED_OUT, the lockout end time. -/
inductive CheckerState where
  | openChannel
  | lockedOut (endTime : Time)
  deriving DecidableEq, Repr

/-- The Key Checker (R116). -/
structure KeyChecker where
  checker : CheckerState
  /-- failure-time list, oldest first -/
  failures : List Time
  total : Nat
  abuse : Bool
  deriving DecidableEq, Repr

/-- A range entry of the parameter block (R137), in bytes. -/
structure Range where
  base : Nat
  length : Nat
  deriving DecidableEq, Repr

/-- The validated parameter set: every field of Table 9-1 (R141). -/
structure Params where
  version : Nat
  signature : Word64
  key : Word64
  journalBase : Nat
  journalSize : Nat
  rangeCount : Nat
  /-- the eight range entries; the first `rangeCount` are the journaled ranges -/
  ranges : List Range
  holdQuota : Nat
  /-- microseconds -/
  conflictTimeout : Nat
  failureThreshold : Nat
  /-- seconds -/
  failureWindow : Nat
  /-- seconds -/
  lockoutDuration : Nat
  formatPermitted : Nat
  checkWord : BitVec 32
  deriving DecidableEq, Repr

/-- What the Configuration Loader is doing (R136, R140). -/
inductive LoaderPhase where
  | idle
  | transfer
  | pausing (endTime : Time)
  deriving DecidableEq, Repr

/-- The Configuration Loader (R140, R141). -/
structure Loader where
  attempt : Nat
  phase : LoaderPhase
  params : Option Params
  deriving DecidableEq, Repr

/-- R145: the phases of the Recovery Sequencer. -/
inductive RecoveryPhase where
  | idle | headers | formatting | forwardWalk | undoPass | reinit | done | stopped
  deriving DecidableEq, Repr

/-- The chosen copy with its fields (Table 10-1). -/
structure Chosen where
  copy : Copy
  generation : Serial
  tail : Position
  recoveryCount : BitVec 16
  deriving DecidableEq, Repr

/-- An entry of the unended table (R148). -/
structure Unended where
  context : Byte
  openNumber : Serial
  deriving DecidableEq, Repr

/-- The reads of a place's two halves. -/
structure PlaceRead where
  first : HalfRead
  second : HalfRead
  deriving DecidableEq, Repr

/-- The writes of a place's two halves. -/
structure PlaceWrite where
  first : HalfWrite
  second : HalfWrite
  deriving DecidableEq, Repr

/-- A slot read, or being read, in the undo pass (R150). -/
structure UndoRead where
  slot : Nat
  place : PlaceRead
  deriving DecidableEq, Repr

/-- What the Recovery Sequencer has asked of the memory link and received (R58, R145). -/
structure SequencerIO where
  headerA : PlaceRead
  headerB : PlaceRead
  /-- number of zeroing writes issued so far -/
  zeroIssued : Nat
  formatHeader : PlaceWrite
  walk : PlaceRead
  /-- slots read or being read in the undo pass, in walk order from the walk position -/
  undo : List UndoRead
  reinit : PlaceWrite
  deriving DecidableEq, Repr

/-- The Recovery Sequencer (Table 10-1). -/
structure Recovery where
  phase : RecoveryPhase
  chosen : Option Chosen
  walkPosition : Option Nat
  expected : Option Serial
  examined : Nat
  unended : List Unended
  stop : Option Position
  undone : Nat
  restoresOutstanding : Nat
  formatted : Bool
  /-- number of zeroing writes completed -/
  zeroDone : Nat
  /-- the draw of the zeroing order taken at the start of this formatting -/
  zeroDraw : Nat
  io : SequencerIO
  deriving DecidableEq, Repr

/-- The input pins: whether each is asserted (Table 12-8). -/
structure Pins where
  porst : Bool
  lrst : Bool
  pfail : Bool
  deriving DecidableEq, Repr

/-- The Device State Controller (R156). -/
structure Device where
  state : DeviceState
  cause : FaultCause
  powerFailPending : Bool
  noticesStanding : Bool
  deriving DecidableEq, Repr

/-- The whole part. -/
structure State where
  pins : Pins
  timebase : Time
  device : Device
  loader : Loader
  /-- the device-wide open-number counter (R3) -/
  openCounter : Serial
  contexts : Vector Context 16
  holds : List HoldEntry
  /-- the table of outstanding requests (R59) -/
  outstanding : List (RequesterId × Tag)
  /-- control lines classified and not yet taken (R107, R108) -/
  classified : List WaitingLine
  forward : List ForwardEntry
  /-- journaling operations in the order of their creation (R71) -/
  ops : List Operation
  /-- lines of operations whose forwarded write waits to be issued, in the order of their durability reports (R129) -/
  reports : List LineAddr
  journal : Journal
  header : HeaderWriter
  engine : Engine
  rollbackQueue : List RequesterId
  /-- drains of ABORT_PENDING contexts that have been taken and whose context is not yet appended to the rollback
  queue, oldest first; contexts of one group reached their drain together (R6, R11, R82) -/
  drains : List (List RequesterId)
  /-- the eight access slots (R124, R126) -/
  link : Vector (Option Access) 8
  /-- the round-robin pointer (R126) -/
  pointer : Claimant
  /-- accesses issued so far: the model's own counter -/
  issued : Nat
  key : KeyChecker
  recovery : Recovery
  /-- transactions undone at last start-up (R57) -/
  startupUndone : Nat
  /-- formatted-at-last-start-up indicator (R57) -/
  startupFormatted : Bool
  /-- responses sent on the system link, oldest first: the model's own trace of the output -/
  sent : List Response
  /-- draws of the free values so far: the model's own counter -/
  draws : Nat
  /-- commands waiting, first in first out -/
  pending : List Instr
  deriving DecidableEq, Repr

/-- R41: the Journal Writer after power-on reset. The positions' values are the model's (log 17). -/
def Journal.reset : Journal :=
  { started := false, head := ⟨0, 0⟩, durableHead := ⟨0, 0⟩, published := ⟨0, 0⟩, records := [], requests := [] }

/-- R41: the Header Writer after power-on reset. Copy, generation and count are the model's (log 17). -/
def HeaderWriter.reset : HeaderWriter :=
  { lastCopy := .a, generation := 0, recoveryCount := 0, pendingImage := none, inFlight := none }

/-- R83: the Rollback Engine after power-on reset. -/
def Engine.reset : Engine :=
  { phase := .free, current := none, walkPosition := none, walkEnded := false, foundCount := 0, read := none,
    firstHalf := none, waiting := [], restore := none }

/-- R123: the Key Checker after power-on reset. -/
def KeyChecker.reset : KeyChecker := { checker := .openChannel, failures := [], total := 0, abuse := false }

/-- A place none of whose halves has been asked for. -/
def PlaceRead.fresh : PlaceRead := { first := .waiting, second := .waiting }

/-- A place none of whose halves has been issued. -/
def PlaceWrite.fresh : PlaceWrite := { first := .waiting, second := .waiting }

/-- Nothing asked for. -/
def SequencerIO.reset : SequencerIO :=
  { headerA := .fresh, headerB := .fresh, zeroIssued := 0, formatHeader := .fresh, walk := .fresh, undo := [],
    reinit := .fresh }

/-- R145: the Recovery Sequencer after power-on reset. -/
def Recovery.reset : Recovery :=
  { phase := .idle, chosen := none, walkPosition := none, expected := none, examined := 0, unended := [],
    stop := none, undone := 0, restoresOutstanding := 0, formatted := false, zeroDone := 0, zeroDraw := 0,
    io := .reset }

/-- R156: the Device State Controller at the deassertion of PORST_N. -/
def Device.reset : Device :=
  { state := .loading, cause := .noCause, powerFailPending := false, noticesStanding := false }

/-- The part right after power-on reset: PORST_N just deasserted (R156), LRST_N and PFAIL_N not asserted (log 2), the
first configuration transfer under way (R140), every block at its power-on reset values. -/
def State.reset : State :=
  { pins := { porst := false, lrst := false, pfail := false }
    timebase := 0
    device := .reset
    loader := { attempt := 1, phase := .transfer, params := none }
    openCounter := 1
    contexts := Vector.replicate 16 Context.reset
    holds := []
    outstanding := []
    classified := []
    forward := []
    ops := []
    reports := []
    journal := .reset
    header := .reset
    engine := .reset
    rollbackQueue := []
    drains := []
    link := Vector.replicate 8 none
    pointer := .forward
    issued := 0
    key := .reset
    recovery := .reset
    startupUndone := 0
    startupFormatted := false
    sent := []
    draws := 0
    pending := [] }

end Sys2Proof.Machine
end

