-- ==== Sys2Proof/WellFormed.lean ====
section
/-! DEFINITION. What a command must satisfy beyond its types. Requester numbers, tags, access slots, line
addresses and byte masks are bounded by their types (Table 12-7); what is left is that a control line of an
unknown command does not carry one of the five known codes (R100). -/

namespace Sys2Proof

/-- R100: the five command codes. -/
def knownCommand (code : Byte) : Bool := 1 ≤ code.toNat && code.toNat ≤ 5

/-- The check on one command. -/
def Instr.wellFormed : Instr → Bool
  | .controlLineUnknownCommand _ _ _ code _ => !knownCommand code
  | .porstNAssert => true
  | .porstNDeassert => true
  | .linkReset => true
  | .lrstNDeassert => true
  | .pfailNAssert => true
  | .pfailNDeassert => true
  | .readRequest _ _ _ => true
  | .writeRequest _ _ _ _ _ => true
  | .queryRead _ _ _ => true
  | .openTransaction _ _ _ _ => true
  | .commit _ _ _ _ => true
  | .abort _ _ _ _ => true
  | .query _ _ _ _ => true
  | .acknowledge _ _ _ _ => true
  | .conflictTimerExpiry _ => true
  | .lockoutExpiry => true
  | .loadPauseEnd => true
  | .configurationTransferEnd _ => true
  | .forwardAccessComplete _ _ => true
  | .oldLineReadComplete _ _ => true
  | .recordWriteComplete _ _ => true
  | .operationForwardedWriteComplete _ _ => true
  | .headerWriteComplete _ _ => true
  | .rollbackReadComplete _ _ => true
  | .restoreWriteComplete _ _ => true
  | .recoveryHeaderReadComplete _ _ => true
  | .zeroingWriteComplete _ _ => true
  | .formatHeaderWriteComplete _ _ => true
  | .forwardWalkReadComplete _ _ => true
  | .undoPassReadComplete _ _ => true
  | .recoveryRestoreComplete _ _ => true
  | .reinitHeaderWriteComplete _ _ => true
  | .memoryResponseUnknownSlot _ _ => true
  | .arbiterGrant _ => true
  | .undoSlotRequest _ => true
  | .endRecordRequest _ => true
  | .commitRecordAsk _ => true
  | .rollbackQueueAppend _ => true
  | .rollbackTakeContext => true
  | .abortRecordAsk => true
  | .timebaseAdvance => true

end Sys2Proof
end

