-- ==== Sys2Proof/Machine/Operands.lean ====
section
/-! DEFINITION. The byte layouts and codes of chapter 12, the CRC-32, line addresses inside the journal area and the
journaled ranges, and the validation of a parameter block (chapter 9). -/

namespace Sys2Proof.Machine

/-! The check word (0.8.5). -/

/-- The generator polynomial in reflected form. -/
def crcReflected : BitVec 32 := 0xEDB88320#32

/-- The register after n message bits, least significant bit first. -/
def crcRun : Nat → Nat → BitVec 32 → BitVec 32
  | 0, _, c => c
  | n + 1, v, c =>
    if (c.toNat + v) % 2 = 1 then crcRun n (v / 2) ((c >>> 1) ^^^ crcReflected) else crcRun n (v / 2) (c >>> 1)

/-- CRC-32 of the bytes of v, byte 0 first (0.8.5): initial value all ones, final result complemented. -/
def crc32 {w : Nat} (v : BitVec w) : BitVec 32 := ~~~ crcRun w v.toNat (BitVec.allOnes 32)

/-! Codes (Table 12-1). -/

def ContextState.code : ContextState → Byte
  | .idle => 0 | .opened => 1 | .committing => 2 | .abortPending => 3 | .rollingBack => 4 | .aborted => 5

def AbortReason.code : AbortReason → Byte
  | .requested => 1 | .conflict => 2 | .quota => 3 | .holdTableFull => 4 | .journalFull => 5 | .memoryError => 6
  | .linkReset => 7

/-- An absent abort reason is 00h. -/
def reasonCode : Option AbortReason → Byte
  | none => 0
  | some r => r.code

def ControlOutcome.code : ControlOutcome → Byte
  | .noOutcome => 0 | .done => 1 | .nothingPending => 2 | .nested => 3 | .noTransaction => 4
  | .alreadyCommitting => 5 | .alreadyAborting => 6 | .tooLate => 7 | .noticePending => 8 | .lockedOut => 9
  | .keyMismatch => 10 | .malformed => 11 | .notAvailable => 12

def DeviceState.code : DeviceState → Byte
  | .loading => 0 | .recovering => 1 | .passthrough => 2 | .serving => 3 | .draining => 4 | .faulted => 5
  | .halted => 6

def FaultCause.code : FaultCause → Byte
  | .noCause => 0 | .journalWrite => 1 | .headerWrite => 2 | .rollbackAccess => 3 | .endRecord => 4 | .recovery => 5
  | .noValidHeader => 6

def ResponseCode.code : ResponseCode → BitVec 2
  | .okay => 0 | .retry => 1 | .error => 2

def ResponseDetail.code : ResponseDetail → BitVec 4
  | .noDetail => 0 | .notReady => 1 | .inFlight => 2 | .conflict => 3 | .queueFull => 4 | .busy => 5
  | .reservedArea => 6 | .aborted => 7 | .memoryError => 8 | .controlRefused => 9 | .tagInUse => 10 | .fault => 11

def RecordKind.code : RecordKind → Byte
  | .undo => 1 | .commit => 2 | .abort => 3

/-- Table 12-1: any other value means no record. -/
def RecordKind.ofCode (b : Byte) : Option RecordKind :=
  if b = 1 then some .undo else if b = 2 then some .commit else if b = 3 then some .abort else none

/-- The five commands (R100). -/
inductive Command where
  | openTransaction | commit | abort | query | acknowledge
  deriving DecidableEq, Repr

def Command.code : Command → Byte
  | .openTransaction => 1 | .commit => 2 | .abort => 3 | .query => 4 | .acknowledge => 5

/-- R100: the command of a command code. -/
def Command.ofCode (b : Byte) : Option Command :=
  if b = 1 then some .openTransaction else if b = 2 then some .commit else if b = 3 then some .abort
  else if b = 4 then some .query else if b = 5 then some .acknowledge else none

/-! Control lines (Table 12-2). -/

/-- The bytes 0-59 of a control line with command code `code`. -/
def controlLineBody (code : Byte) (f : ControlFields) : BitVec 480 :=
  f.zeroHigh ++ (f.label ++ (f.zeroLow ++ (code ++ (f.key ++ f.signature))))

/-- The 64 bytes of a control line. -/
def controlLineData (code : Byte) (f : ControlFields) : Line := f.check ++ controlLineBody code f

def lineSignature (d : Line) : Word64 := d.extractLsb' 0 64
def lineKey (d : Line) : Word64 := d.extractLsb' 64 64
def lineCommand (d : Line) : Byte := d.extractLsb' 128 8
def lineZeroLow (d : Line) : BitVec 56 := d.extractLsb' 136 56
def lineLabel (d : Line) : Word64 := d.extractLsb' 192 64
def lineZeroHigh (d : Line) : BitVec 224 := d.extractLsb' 256 224
def lineCheck (d : Line) : BitVec 32 := d.extractLsb' 480 32
/-- Bytes 0-59. -/
def lineBody (d : Line) : BitVec 480 := d.extractLsb' 0 480

/-- A byte mask with all 64 flags set (Table 0-2). -/
def fullMask : ByteMask := BitVec.allOnes 64

/-- R97: the three conditions, in order: full mask, signature, check word. -/
def isControlLine (signature : Word64) (mask : ByteMask) (d : Line) : Bool :=
  decide (mask = fullMask) && decide (lineSignature d = signature) && decide (lineCheck d = crc32 (lineBody d))

/-- R100: a must-be-zero byte is not zero, or the command code is unknown. -/
def malformedLine (d : Line) : Bool :=
  decide (lineZeroLow d ≠ 0) || decide (lineZeroHigh d ≠ 0) || (Command.ofCode (lineCommand d)).isNone

/-! Places of the journal area (R38). -/

/-- The parameter set of a part that has none; no run reaches a state that reads it (log 16). -/
def Params.absent : Params :=
  { version := 0, signature := 0, key := 0, journalBase := 0, journalSize := 0, rangeCount := 0, ranges := [],
    holdQuota := 0, conflictTimeout := 0, failureThreshold := 0, failureWindow := 0, lockoutDuration := 0,
    formatPermitted := 0, checkWord := 0 }

/-- R38, R141: the record slot count N. -/
def Params.slotCount (p : Params) : Nat := p.journalSize / 128 - 2

/-- The byte address of a line. -/
def byteAddress (l : LineAddr) : Nat := l.toNat * 64

/-- R63: the line lies within the journal area. -/
def Params.inJournalArea (p : Params) (l : LineAddr) : Bool :=
  decide (p.journalBase ≤ byteAddress l) && decide (byteAddress l < p.journalBase + p.journalSize)

/-- R137: the line lies in a range. -/
def Range.holds (r : Range) (l : LineAddr) : Bool :=
  decide (r.base ≤ byteAddress l) && decide (byteAddress l < r.base + r.length)

/-- R137: ranges 0 to count - 1 are the journaled ranges. -/
def Params.journaledRanges (p : Params) : List Range := p.ranges.take p.rangeCount

/-- The line lies in a journaled range. -/
def Params.inJournaledRange (p : Params) (l : LineAddr) : Bool := p.journaledRanges.any (·.holds l)

def Half.offset : Half → Nat
  | .first => 0
  | .second => 64

def Copy.offset : Copy → Nat
  | .a => 0
  | .b => 128

def Copy.other : Copy → Copy
  | .a => .b
  | .b => .a

/-- The line at a byte offset within the journal area. -/
def Params.areaLine (p : Params) (offset : Nat) : LineAddr := BitVec.ofNat 34 ((p.journalBase + offset) / 64)

/-- R38: a half of record slot `slot`. -/
def Params.slotLine (p : Params) (slot : Nat) (h : Half) : LineAddr := p.areaLine (256 + 128 * slot + h.offset)

/-- R38: a half of a header copy. -/
def Params.headerLine (p : Params) (c : Copy) (h : Half) : LineAddr := p.areaLine (c.offset + h.offset)

/-- One half of a 128-byte place. -/
def placeHalf (v : Place) : Half → Line
  | .first => v.extractLsb' 0 512
  | .second => v.extractLsb' 512 512

/-- The 128 bytes of two halves. -/
def placeOf (first second : Line) : Place := second ++ first

/-- 3.3: the slot after `slot` round a ring of n slots. -/
def nextSlot (n slot : Nat) : Nat := (slot + 1) % n

/-- The slot before `slot` round a ring of n slots. -/
def prevSlot (n slot : Nat) : Nat := if slot = 0 then n - 1 else slot - 1

/-- The number of places from slot a forward round the ring to slot b, in 0 to n - 1. -/
def slotDistance (n a b : Nat) : Nat := (b + n - a % n) % n

/-! Journal records (Table 12-4). -/

/-- Bytes 0-123. -/
def JournalRecord.body (r : JournalRecord) : BitVec 992 :=
  0#224 ++ (r.old ++ (r.label ++ (0#24 ++ (r.line ++ (0#6 ++ (0#32 ++ (r.openNumber ++ (r.seq ++
    (0#8 ++ (r.reason ++ (r.context ++ r.kind.code)))))))))))

/-- The 128 bytes, with the check word over bytes 0-123. -/
def JournalRecord.image (r : JournalRecord) : Place := crc32 r.body ++ r.body

/-- R39, R164: the record a slot holds, or none: its check word must match and its kind be known; bytes marked zero
are not examined, and the line address is bits 39-6 of its field. -/
def JournalRecord.parse (v : Place) : Option JournalRecord :=
  if v.extractLsb' 992 32 = crc32 (v.extractLsb' 0 992) then
    match RecordKind.ofCode (v.extractLsb' 0 8) with
    | some k =>
      some { kind := k, context := v.extractLsb' 8 8, reason := v.extractLsb' 16 8, seq := v.extractLsb' 32 32,
             openNumber := v.extractLsb' 64 32, line := v.extractLsb' 134 34, label := v.extractLsb' 192 64,
             old := v.extractLsb' 256 512 }
    | none => none
  else none

/-! Header copies (Table 12-5). -/

/-- Bytes 0-123 of the header copy of an image, for a ring of n slots. -/
def HeaderImage.body (n : Nat) (h : HeaderImage) : BitVec 992 :=
  0#784 ++ (h.recoveryCount ++ (h.tail.seq ++ (BitVec.ofNat 32 h.tail.slot ++ (BitVec.ofNat 32 n ++
    (h.generation ++ Config.formatCode)))))

/-- The 128 bytes, with the check word over bytes 0-123. -/
def HeaderImage.bytes (n : Nat) (h : HeaderImage) : Place := crc32 (h.body n) ++ h.body n

/-- R40, R164: the header a copy holds if it is valid for a ring of n slots: check word, format code, slot count. -/
def parseHeader (n : Nat) (c : Copy) (v : Place) : Option Chosen :=
  if v.extractLsb' 992 32 = crc32 (v.extractLsb' 0 992) ∧ v.extractLsb' 0 64 = Config.formatCode
      ∧ (v.extractLsb' 96 32).toNat = n then
    some { copy := c, generation := v.extractLsb' 64 32,
           tail := { slot := (v.extractLsb' 128 32).toNat, seq := v.extractLsb' 160 32 },
           recoveryCount := v.extractLsb' 192 16 }
  else none

/-! The parameter block (Table 12-6). -/

/-- R136: the block whose bits were sampled in this order: byte 0 arrives first, and the most significant bit of each
byte first. -/
def blockOfSampled (sampled : SampledBits) : ParamBlock :=
  BitVec.ofFnLE (fun i : Fin 2048 => sampled.getLsbD (8 * (i.val / 8) + (7 - i.val % 8)))

/-- R136: the bits the part sends on CFG_DO at the start of a transfer: the read command 03h and the address 0000h,
most significant bit first. -/
def transferCommand : List Bool :=
  [false, false, false, false, false, false, true, true] ++ List.replicate 16 false

/-- A range entry. -/
def rangeOf (b : ParamBlock) (r : Nat) : Range :=
  { base := (b.extractLsb' (512 + 128 * r) 64).toNat, length := (b.extractLsb' (576 + 128 * r) 64).toNat }

/-- The fields of a block, each at its place. -/
def Params.ofBlock (b : ParamBlock) : Params :=
  { version := (b.extractLsb' 0 8).toNat, signature := b.extractLsb' 64 64, key := b.extractLsb' 128 64,
    journalBase := (b.extractLsb' 192 64).toNat, journalSize := (b.extractLsb' 256 32).toNat,
    holdQuota := (b.extractLsb' 288 16).toNat, rangeCount := (b.extractLsb' 304 8).toNat,
    formatPermitted := (b.extractLsb' 312 8).toNat, conflictTimeout := (b.extractLsb' 320 32).toNat,
    failureThreshold := (b.extractLsb' 352 8).toNat, failureWindow := (b.extractLsb' 360 8).toNat,
    lockoutDuration := (b.extractLsb' 368 16).toNat,
    ranges := [rangeOf b 0, rangeOf b 1, rangeOf b 2, rangeOf b 3, rangeOf b 4, rangeOf b 5, rangeOf b 6, rangeOf b 7],
    checkWord := b.extractLsb' 2016 32 }

/-- R138, stage 1: the check word over bytes 0-251. -/
def blockCheckWord (b : ParamBlock) : Bool := decide (b.extractLsb' 2016 32 = crc32 (b.extractLsb' 0 2016))

/-- R138: the bytes that belong to no field (1-7, 48-63, 192-251) are zero. -/
def blockUnusedZero (b : ParamBlock) : Bool :=
  decide (b.extractLsb' 8 56 = 0) && decide (b.extractLsb' 384 128 = 0) && decide (b.extractLsb' 1536 480 = 0)

/-- R137: a range's own valid values. -/
def Range.valid (r : Range) : Bool :=
  decide (r.base % 4096 = 0) && decide (r.base < Config.addressSpace) && decide (r.length ≠ 0)
    && decide (r.length % 4096 = 0)

/-- R137: the valid journal area sizes, 64 KiB times 2^k for k = 0 to 8. -/
def journalSizes : List Nat := [65536, 131072, 262144, 524288, 1048576, 2097152, 4194304, 8388608, 16777216]

/-- R138, stage 2: each field within its valid values (Table 9-1). -/
def Params.fieldsValid (p : Params) : Bool :=
  decide (p.version = 1) && decide (p.signature ≠ 0) && decide (p.signature ≠ BitVec.allOnes 64)
    && decide (p.journalBase % 64 = 0) && decide (p.journalBase < Config.addressSpace)
    && journalSizes.contains p.journalSize && decide (p.rangeCount ≤ 8) && p.journaledRanges.all (·.valid)
    && decide (1 ≤ p.holdQuota) && decide (p.holdQuota ≤ 512)
    && decide (10 ≤ p.conflictTimeout) && decide (p.conflictTimeout ≤ 1000000)
    && decide (2 ≤ p.failureThreshold) && decide (p.failureThreshold ≤ 15)
    && decide (1 ≤ p.failureWindow) && decide (p.failureWindow ≤ 60)
    && decide (1 ≤ p.lockoutDuration) && decide (p.lockoutDuration ≤ 300)
    && decide (p.formatPermitted ≤ 1)

/-- Two regions share no byte; ranges and the area are whole lines, so they share no line (R139). -/
def regionsApart (a b : Range) : Bool := decide (a.base + a.length ≤ b.base) || decide (b.base + b.length ≤ a.base)

/-- Every region is apart from every later one. -/
def allApart : List Range → Bool
  | [] => true
  | r :: rest => rest.all (regionsApart r) && allApart rest

/-- R138, stage 3: the cross-checks of R139. -/
def Params.crossValid (p : Params) : Bool :=
  decide (p.journalBase % p.journalSize = 0) && decide (p.journalBase + p.journalSize ≤ Config.addressSpace)
    && p.journaledRanges.all (fun r => decide (r.base + r.length ≤ Config.addressSpace))
    && allApart p.journaledRanges
    && p.journaledRanges.all (regionsApart { base := p.journalBase, length := p.journalSize })

/-- R138: a block passes validation when all three stages pass. -/
def blockValid (b : ParamBlock) : Bool :=
  blockCheckWord b && ((Params.ofBlock b).fieldsValid && blockUnusedZero b) && (Params.ofBlock b).crossValid

end Sys2Proof.Machine
end

