-- ==== Sys2Proof/Machine/Ops.lean ====
section
/-! DEFINITION. The shared operations over State that the commands' meanings call: responses, contexts, holds,
operations, the journal, the header writer, faults, link reset, power fail, and the delivery of completions. -/

namespace Sys2Proof.Machine

/-- The outcome of a command. -/
abbrev Result := Host.Outcome State Fault Refusal

/-- The contexts, in number order. -/
def allContexts : List RequesterId := [0, 1, 2, 3, 4, 5, 6, 7, 8, 9, 10, 11, 12, 13, 14, 15]

/-- The access slots, in number order. -/
def allSlots : List AccessSlot := [0, 1, 2, 3, 4, 5, 6, 7]

/-- The parameter set in force (R141). -/
def State.params (s : State) : Params := s.loader.params.getD Params.absent

/-- The record slot count N (R141). -/
def State.slotCount (s : State) : Nat := s.params.slotCount

/-! ## Contexts -/

/-- The context record of a requester (R2). -/
def State.ctx (s : State) (c : RequesterId) : Context := s.contexts[c]

/-- Replace a context record. -/
def State.setCtx (s : State) (c : RequesterId) (x : Context) : State := { s with contexts := s.contexts.set c x }

/-- Change a context record. -/
def State.modCtx (s : State) (c : RequesterId) (f : Context → Context) : State := s.setCtx c (f (s.ctx c))

/-- Change every context record. -/
def State.modAll (s : State) (f : Context → Context) : State := allContexts.foldl (fun t c => t.modCtx c f) s

/-- R6: both in-flight counts are zero. -/
def Context.drained (x : Context) : Bool := decide (x.opsInFlight = 0) && decide (x.forwardedOutstanding = 0)

/-- The context is being aborted. -/
def Context.aborting (x : Context) : Bool := decide (x.state = .abortPending) || decide (x.state = .rollingBack)

/-- R13: the Context Table reports whether any context is ABORTED. -/
def State.syncNotices (s : State) : State :=
  { s with device := { s.device with noticesStanding := allContexts.any (fun c => decide ((s.ctx c).state = .aborted)) } }

/-! ## Responses (R59) -/

/-- Send a response. -/
def State.respond (s : State) (r : RequesterId) (t : Tag) (code : ResponseCode) (detail : ResponseDetail)
    (data : Option Line := none) : State :=
  { s with sent := s.sent ++ [{ requester := r, tag := t, code := code, detail := detail, data := data }] }

/-- Enter a request in the table of outstanding requests. -/
def State.takeTag (s : State) (r : RequesterId) (t : Tag) : State := { s with outstanding := s.outstanding ++ [(r, t)] }

/-- Answer an outstanding request: its entry leaves the table as its response is sent. Forgotten work (R78) sends
nothing, and its entry left the table at the link reset. -/
def State.finish (s : State) (forgotten : Bool) (r : RequesterId) (t : Tag) (code : ResponseCode)
    (detail : ResponseDetail) (data : Option Line := none) : State :=
  { s with
    outstanding := if forgotten then s.outstanding else s.outstanding.filter (fun e => decide (e ≠ (r, t)))
    sent := if forgotten then s.sent
            else s.sent ++ [{ requester := r, tag := t, code := code, detail := detail, data := data }] }

/-- Send every held control response of a context, oldest first, empty the list, and set the last outcome if at
least one was sent (R8, R12, R15). -/
def State.answerHeld (s : State) (c : RequesterId) (code : ResponseCode) (detail : ResponseDetail)
    (outcome : ControlOutcome) : State :=
  let tags := (s.ctx c).held
  let t := tags.foldl (fun (t : State) tag => t.finish false c tag code detail) s
  t.modCtx c (fun x => { x with held := [], lastOutcome := if tags.isEmpty then x.lastOutcome else outcome })

/-! ## Holds (chapter 2) -/

/-- R20: look a line up. -/
def State.hold? (s : State) (l : LineAddr) : Option HoldEntry := s.holds.find? (fun e => decide (e.line = l))

/-- What an insertion answers (R21). -/
inductive InsertResult where
  | inserted (s : State)
  | refused (reason : AbortReason)
  deriving DecidableEq, Repr

/-- R21: quota, capacity, insertion. -/
def State.insertHold (s : State) (c : RequesterId) (l : LineAddr) : InsertResult :=
  if (s.ctx c).holdsCount = s.params.holdQuota then .refused .quota
  else if Config.holdEntries ≤ s.holds.length then .refused .holdTableFull
  else .inserted (State.modCtx { s with holds := s.holds ++ [{ line := l, owner := c, state := .journaling }] } c
    (fun x => { x with holdsCount := x.holdsCount + 1 }))

/-- R24: remove the entry of a line singly; its owner's holds count falls by one (R5). -/
def State.removeHold (s : State) (l : LineAddr) : State :=
  match s.hold? l with
  | none => s
  | some e => State.modCtx { s with holds := s.holds.eraseP (fun e => decide (e.line = l)) } e.owner
      (fun x => { x with holdsCount := x.holdsCount - 1 })

/-- R23: set the entry of a line to HELD. -/
def State.promoteHold (s : State) (l : LineAddr) : State :=
  { s with holds := s.holds.map (fun e => if e.line = l then { e with state := .held } else e) }

/-- R25: remove every entry of a context; its holds count becomes 0. -/
def State.releaseHolds (s : State) (c : RequesterId) : State :=
  State.modCtx { s with holds := s.holds.filter (fun e => decide (e.owner ≠ c)) } c (fun x => { x with holdsCount := 0 })

/-! ## Journaling operations (4.7) -/

/-- The operation on a line. Two operations never stand for one line, since each has the line's hold entry. -/
def State.op? (s : State) (l : LineAddr) : Option Operation := s.ops.find? (fun o => decide (o.line = l))

/-- Change the operation on a line. -/
def State.modOp (s : State) (l : LineAddr) (f : Operation → Operation) : State :=
  { s with ops := s.ops.map (fun o => if o.line = l then f o else o) }

/-- R71: remove an operation; its context's operations in flight fall by one (R5). -/
def State.removeOp (s : State) (o : Operation) : State :=
  State.modCtx { s with ops := s.ops.eraseP (fun p => decide (p.line = o.line)) } o.requester
    (fun x => { x with opsInFlight := x.opsInFlight - 1 })

/-- End an operation with a response, unless it is forgotten. -/
def State.endOp (s : State) (o : Operation) (code : ResponseCode) (detail : ResponseDetail) : State :=
  (s.removeOp o).finish o.forgotten o.requester o.tag code detail

/-- An operation in APPENDING whose slot request the Journal Writer has not yet taken (R73). -/
def Operation.asking (o : Operation) : Bool := decide (o.stage = .appending) && o.slot.isNone

/-- R76: set the cancelled mark of the operations `who` picks, and withdraw those whose slot request is not yet
taken: ERROR ABORTED, entry removed singly, operation removed. R76 has no exception for the power-fail wind-down: what R56
says of a waiting request there is what the Journal Writer does with it (log 28). -/
def State.cancelOps (s : State) (who : Operation → Bool) : State :=
  let withdrawn := s.ops.filter (fun o => who o && o.asking)
  let t := { s with ops := s.ops.map (fun o => if who o then { o with cancelled := true } else o) }
  withdrawn.foldl (fun t o => (t.removeHold o.line).endOp o .error .aborted) t

/-- R9: notice due is no for REQUESTED and LINK_RESET, yes for any other reason. -/
def AbortReason.noticeDue : AbortReason → Bool
  | .requested => false
  | .linkReset => false
  | .conflict => true
  | .quota => true
  | .holdTableFull => true
  | .journalFull => true
  | .memoryError => true

/-- R9: the record of an OPEN context that an abort request reaches. That the wait record is cleared in FAULTED and in the
wind-down too (R28), where R35 keeps the wait records, is read from the spec (log 13, DEDUCED). -/
def Context.toAbortPending (x : Context) (reason : AbortReason) : Context :=
  { x with state := .abortPending, reason := some reason, noticeDue := some reason.noticeDue, wait := none, held := [] }

/-- R6, R11: the drain of an ABORT_PENDING context is reached: both counts are zero, and this abort's drain has not been
taken yet. A drain reached in FAULTED queues nothing (R15). In the wind-down the state keeps its name, and the drain is
taken there too (R81). -/
def State.drainDue (s : State) (c : RequesterId) : Bool :=
  decide ((s.ctx c).state = .abortPending) && (s.ctx c).drained
    && (decide (s.device.state = .serving) || decide (s.device.state = .draining))
    && !s.drains.any (·.contains c) && !s.rollbackQueue.contains c

/-- R6, R82: the drain of a context is taken, after those taken before it, if it is reached (log 6). -/
def State.noteDrain (s : State) (c : RequesterId) : State :=
  if s.drainDue c then { s with drains := s.drains ++ [[c]] } else s

/-- R82: the drains that one event brings about reach the Context Table together (log 6). -/
def State.noteDrains (s : State) : State :=
  let together := allContexts.filter s.drainDue
  if together.isEmpty then s else { s with drains := s.drains ++ [together] }

/-- R76: an operation ends with a response, and its context may so reach its drain. -/
def State.retireOp (s : State) (o : Operation) (code : ResponseCode) (detail : ResponseDetail) : State :=
  (s.endOp o code detail).noteDrain o.requester

/-- R9: an abort request reaches a context; only an OPEN one takes it. -/
def State.abortRequest (s : State) (c : RequesterId) (reason : AbortReason) : State :=
  if (s.ctx c).state = .opened then
    State.noteDrain ((s.modCtx c (fun x => x.toAbortPending reason)).cancelOps (fun o => decide (o.requester = c))) c
  else s

/-- R73, R75: an operation ends with ERROR, and its context receives an abort request. -/
def State.failOp (s : State) (o : Operation) (detail : ResponseDetail) (reason : AbortReason) : State :=
  ((s.endOp o .error detail).abortRequest o.requester reason).noteDrain o.requester

/-! ## The journal (chapter 3) -/

/-- R43: slots from the published tail up to the head. -/
def State.occupied (s : State) : Nat := (s.journal.head.seq - s.journal.published.seq).toNat

/-- R43: N less the occupied slots. -/
def State.freeSlots (s : State) : Nat := s.slotCount - s.occupied

/-- R41: the sequence that belongs to a slot. -/
def State.slotSeq (s : State) (slot : Nat) : Serial :=
  s.journal.published.seq + BitVec.ofNat 32 (slotDistance s.slotCount s.journal.published.slot slot)

/-- R42: the position after p round the ring. -/
def State.nextPosition (s : State) (p : Position) : Position := { slot := nextSlot s.slotCount p.slot, seq := p.seq + 1 }

/-- R42: assign the head slot to a record of context c, and move the head. -/
def State.grantSlot (s : State) (c : RequesterId) (record : JournalRecord) : State :=
  { s with journal := { s.journal with
      head := s.nextPosition s.journal.head
      records := s.journal.records ++ [
        { owner := c, slot := s.journal.head.slot, record := { record with seq := s.journal.head.seq }
          first := .waiting, second := .waiting, mark := false }] } }

/-- R39, R46: the UNDO record of an operation, its sequence yet to be assigned. -/
def State.undoRecord (s : State) (o : Operation) : JournalRecord :=
  { kind := .undo, context := BitVec.ofNat 8 o.requester, reason := 0, seq := 0,
    openNumber := (s.ctx o.requester).openNumber.getD 0, line := o.line, label := 0, old := o.old.getD 0 }

/-- R39, R46: the end record of a request, its sequence yet to be assigned. -/
def EndRequest.record (q : EndRequest) : JournalRecord :=
  { kind := q.kind, context := BitVec.ofNat 8 q.context, reason := q.reason, seq := 0, openNumber := q.openNumber,
    line := 0, label := q.label, old := 0 }

/-- The context's end record has been asked for: the request waits, or its record is not yet durable. -/
def State.endAsked (s : State) (c : RequesterId) : Bool :=
  s.journal.requests.any (fun q => decide (q.context = c))
    || s.journal.records.any (fun r => decide (r.owner = c) && decide (r.record.kind ≠ .undo))

/-- R79, R90: ask the Journal Writer for an end record, which carries the context number, open number, label and,
for ABORT, the recorded reason. -/
def State.askEndRecord (s : State) (c : RequesterId) (kind : RecordKind) : State :=
  let x := s.ctx c
  let q : EndRequest :=
    { context := c, kind := kind, openNumber := x.openNumber.getD 0, label := x.label.getD 0
      reason := if kind = .abort then reasonCode x.reason else 0 }
  { s with journal := { s.journal with requests := s.journal.requests ++ [q] } }

/-- R49: the slot a context contributes to the working tail. -/
def State.contributed (s : State) (c : RequesterId) : Option Nat :=
  let x := s.ctx c
  if x.state = .opened ∨ x.state = .committing ∨ x.state = .abortPending ∨ x.state = .rollingBack then
    match x.firstSlot with
    | some f => some f
    | none => (s.journal.records.find? (fun r => decide (r.owner = c) && decide (r.record.kind ≠ .undo))).map (·.slot)
  else none

/-- R49: of two tails, the one that lies fewer places beyond the published tail. -/
def State.nearerTail (s : State) (p q : Position) : Position :=
  if (p.seq - s.journal.published.seq).toNat < (q.seq - s.journal.published.seq).toNat then p else q

/-- R49: the working tail. -/
def State.workingTail (s : State) : Position :=
  allContexts.foldl (fun best c =>
    match s.contributed c with
    | some slot => s.nearerTail { slot := slot, seq := s.slotSeq slot } best
    | none => best) s.journal.head

/-- R50: the latest tail. -/
def State.latestTail (s : State) : Position :=
  match s.header.pendingImage, s.header.inFlight with
  | some i, _ => i.tail
  | none, some w => w.image.tail
  | none, none => s.journal.published

/-- R51: hand the Header Writer a new image with this tail. -/
def HeaderWriter.handImage (h : HeaderWriter) (tail : Position) : HeaderWriter :=
  match h.inFlight, h.pendingImage with
  | none, _ =>
    let image : HeaderImage :=
      { copy := h.lastCopy.other, generation := h.generation + 1, tail := tail, recoveryCount := h.recoveryCount }
    { h with inFlight := some { image := image, attempt := 1, stage := .firstWaiting } }
  | some w, none =>
    let image : HeaderImage :=
      { copy := w.image.copy.other, generation := w.image.generation + 1, tail := tail
        recoveryCount := h.recoveryCount }
    { h with pendingImage := some image }
  | some _, some i => { h with pendingImage := some { i with tail := tail } }

/-- R50: re-evaluate the working tail; a tail beyond the latest one is handed to the Header Writer. From the assertion
of PFAIL_N no header write is issued and no image is kept pending, so none is handed over (R56). -/
def State.reevaluateTail (s : State) : State :=
  let tail := s.workingTail
  if s.device.powerFailPending = false ∧ (s.latestTail.seq - s.journal.published.seq).toNat < (tail.seq - s.journal.published.seq).toNat then
    { s with header := s.header.handImage tail }
  else s

/-! ## Faults (R158) -/

/-- R92, R94: the engine stops: it keeps its current context and its accesses in flight, and abandons the rest. That the
first half of the slot under read goes too is the model's (log 31). -/
def Engine.halt (e : Engine) : Engine :=
  { phase := .stopped, current := e.current, walkPosition := none, walkEnded := false, foundCount := 0,
    read := e.read.filter (·.issued), firstHalf := none, waiting := [], restore := e.restore.filter (·.issued) }

/-- R54: no pending image is kept, and an image of which no half of this attempt has been issued makes no claim. -/
def HeaderWriter.stop (h : HeaderWriter) : HeaderWriter :=
  { h with pendingImage := none, inFlight := h.inFlight.filter (fun w => decide (w.stage ≠ .firstWaiting)) }

/-- R77: the operations that wait for their record are ended with ERROR FAULT; their hold entries stay. -/
def State.faultOps (s : State) : State :=
  (s.ops.filter (fun o => decide (o.stage = .appending) || decide (o.stage = .waitingDurable))).foldl
    (fun t o => t.endOp o .error .fault) s

/-- R15: every held control response is answered ERROR FAULT. -/
def State.faultHeld (s : State) : State :=
  allContexts.foldl (fun t c => t.answerHeld c .error .fault .notAvailable) s

/-- R158: the entry into FAULTED with a cause. A sequencer that stops keeps its other fields as they stand (log 30). -/
def State.enterFaulted (s : State) (cause : FaultCause) : State :=
  let t := s.faultHeld.faultOps
  { t with
    device := { t.device with state := .faulted, cause := cause }
    header := t.header.stop
    engine := t.engine.halt
    recovery := if t.recovery.phase = .idle ∨ t.recovery.phase = .done then t.recovery
                else { t.recovery with phase := .stopped } }

/-! ## Link reset (R159) -/

/-- R78, R108: the outstanding-request table is emptied, and with it the control lines not yet taken; queued work and
operations are marked forgotten. -/
def State.forget (s : State) : State :=
  { s with
    outstanding := []
    classified := []
    forward := s.forward.map (fun e => { e with forgotten := true })
    ops := s.ops.map (fun o => { o with forgotten := true }) }

/-- R17: a context at a link reset in SERVING or DRAINING. -/
def Context.linkReset (x : Context) : Context :=
  match x.state with
  | .idle => { x with wait := none, arming := none }
  | .opened => { x.toAbortPending .linkReset with arming := none }
  | .committing => { x with held := [], wait := none, arming := none }
  | .abortPending => { x with held := [], noticeDue := some false, wait := none, arming := none }
  | .rollingBack => { x with held := [], noticeDue := some false, wait := none, arming := none }
  | .aborted => { x with state := .idle, openNumber := none, label := none, reason := none, wait := none, arming := none }

/-- R160: no context is ABORT_PENDING or ROLLING_BACK. -/
def State.noneAborting (s : State) : Bool := allContexts.all (fun c => !(s.ctx c).aborting)

/-- R160: leave DRAINING if LRST_N is deasserted and no context is aborting. In the wind-down the state keeps its name. -/
def State.drainTest (s : State) : State :=
  if s.device.state = .draining ∧ s.pins.lrst = false ∧ s.device.powerFailPending = false ∧ s.noneAborting = true then
    { s with device := { s.device with state := .serving } }
  else s

/-- R159: a link reset is taken; its effect depends on the device state. -/
def State.takeLinkReset (s : State) : State :=
  if s.device.powerFailPending then s
  else match s.device.state with
  | .serving | .draining =>
    let t := ((s.forget.cancelOps (fun _ => true)).modAll Context.linkReset).syncNotices.noteDrains
    State.drainTest { t with device := { t.device with state := .draining } }
  | .faulted => s.forget.modAll (fun x => { x with arming := none })
  | .passthrough => s.forget
  | .loading | .recovering | .halted => s

/-- R159: a link reset is also taken at an entry from LOADING or RECOVERING while LRST_N is asserted. -/
def State.entryLinkReset (s : State) : State := if s.pins.lrst then s.takeLinkReset else s

/-- R158, R161: a fault report is taken. In the wind-down, in FAULTED and elsewhere it is discarded. A start-up that
ends in FAULTED takes a standing link reset at that entry (R159). -/
def State.reportFault (s : State) (cause : FaultCause) : State :=
  if s.device.powerFailPending then s
  else match s.device.state with
  | .serving | .draining => s.enterFaulted cause
  | .recovering => (s.enterFaulted cause).entryLinkReset
  | .loading | .passthrough | .faulted | .halted => s

/-! ## End records and durability -/

/-- R8: the record of a context whose COMMIT record is durable. That the wait record is cleared in the wind-down too (R28),
where R35 keeps the wait records, is read from the spec (log 13, DEDUCED). -/
def Context.committed (x : Context) : Context :=
  { x with state := .idle, openNumber := none, label := none, firstSlot := none, lastSlot := none, noticeDue := none,
           undoCount := 0, wait := none }

/-- R12: the record of a context whose ABORT record is durable: ABORTED if a notice is due, otherwise IDLE. For the wait
record in the wind-down see `Context.committed` (log 13, DEDUCED). -/
def Context.abortEnded (x : Context) : Context :=
  if x.noticeDue = some true then
    { x with state := .aborted, firstSlot := none, lastSlot := none, noticeDue := none, undoCount := 0, wait := none }
  else
    { x with state := .idle, openNumber := none, label := none, reason := none, firstSlot := none, lastSlot := none,
             noticeDue := none, undoCount := 0, wait := none }

/-- R8, R12, R25: the Context Table takes the report that a context's end record is durable. -/
def State.endDurable (s : State) (c : RequesterId) (kind : RecordKind) : State :=
  (((s.releaseHolds c).modCtx c (if kind = .abort then Context.abortEnded else Context.committed)).answerHeld c
    .okay .noDetail .done).syncNotices

/-- R74: an operation's UNDO record is durable: its entry is promoted, and it forwards its write or, if cancelled, ends. -/
def State.undoDurable (s : State) (l : LineAddr) : State :=
  let t := s.promoteHold l
  match t.op? l with
  | none => t
  | some o =>
    if o.cancelled then t.retireOp o .error .aborted
    else { t.modOp l (fun o => { o with stage := .forwarding, access := none }) with reports := t.reports ++ [l] }

/-- R47: the report of one record the durable head passes. -/
def State.reportDurable (s : State) (r : AssignedRecord) : State :=
  match r.record.kind with
  | .undo => s.undoDurable r.record.line
  | .commit => s.endDurable r.owner .commit
  | .abort => s.endDurable r.owner .abort

/-- R90: the engine takes the report of its ABORT record: it becomes FREE (or stays STOPPED), and a FREE engine with
an empty queue reports so to the Device State Controller, which tests the end of DRAINING (R160). -/
def State.engineFreed (s : State) : State :=
  let e : Engine :=
    { s.engine with
      current := none
      foundCount := 0
      phase := if s.engine.phase = .stopped then .stopped else .free }
  let t := { s with engine := e }
  if t.engine.phase = .free ∧ t.rollbackQueue = [] then t.drainTest else t

/-- n positions on round the ring. -/
def State.advancePosition (s : State) (p : Position) : Nat → Position
  | 0 => p
  | n + 1 => s.advancePosition (s.nextPosition p) n

/-- R47, R50, R90: the durable head moves over every following record whose mark is set, each is reported in sequence
order, the working tail is re-evaluated once if an end record was among them, and the engine is freed by its ABORT. -/
def State.advanceDurable (s : State) : State :=
  let passed := s.journal.records.takeWhile (·.mark)
  let t := { s with journal := { s.journal with
      records := s.journal.records.dropWhile (·.mark)
      durableHead := s.advancePosition s.journal.durableHead passed.length } }
  let t := passed.foldl (fun t r => t.reportDurable r) t
  let t := if passed.any (fun r => decide (r.record.kind ≠ .undo)) then t.reevaluateTail else t
  if passed.any (fun r => decide (r.record.kind = .abort)) then t.engineFreed else t

/-! ## The memory link (chapter 8) -/

/-- The access in a slot. -/
def State.access (s : State) (k : AccessSlot) : Option Access := s.link[k]

/-- R124: a completion frees its slot at once. -/
def State.freeAccess (s : State) (k : AccessSlot) : State := { s with link := s.link.set k none }

/-- Put an access in a slot, with the next place in the order of issue. -/
def State.putAccess (s : State) (k : AccessSlot) (p : Purpose) (l : LineAddr) (kind : AccessKind) : State :=
  { s with link := s.link.set k (some { purpose := p, line := l, kind := kind, order := s.issued }),
           issued := s.issued + 1 }

/-- No access slot is occupied (R134). -/
def State.linkIdle (s : State) : Bool := allSlots.all (fun k => (s.access k).isNone)

/-- R161: with power-fail pending and the memory link idle, the device enters HALTED. -/
def State.haltIfIdle (s : State) : State :=
  if s.device.powerFailPending = true ∧ s.linkIdle = true then
    { s with device := { s.device with state := .halted, powerFailPending := false } }
  else s

/-- R94: in the wind-down the engine becomes STOPPED when neither a read nor a restore of its own is in flight. -/
def Engine.windDown (e : Engine) : Engine :=
  if (e.read.any (·.issued)) || (e.restore.any (·.issued)) then e else e.halt

/-- What the wind-down adds after a completion or at the assertion of PFAIL_N (R94, R134, R161). -/
def State.settle (s : State) : State :=
  if s.device.powerFailPending then State.haltIfIdle { s with engine := s.engine.windDown } else s

/-- R124, R132: a response names slot k. If the slot holds an access of the kind the command names, the slot is freed
and the completion delivered to its owner; otherwise nothing happens (a free slot: R124; another owner's: log 4). -/
def State.complete (s : State) (k : AccessSlot) (mine : Purpose → Bool) (deliver : Access → State → State) : State :=
  match s.access k with
  | some a => if mine a.purpose then (deliver a (s.freeAccess k)).settle else s
  | none => s

end Sys2Proof.Machine
end

