-- ==== Sys2Proof/Machine/JournalWriter.lean ====
section
/-! DEFINITION. The Journal Writer and the Header Writer (chapter 3): RECORD_WRITE_COMPLETE, HEADER_WRITE_COMPLETE,
END_RECORD_REQUEST, COMMIT_RECORD_ASK, ROLLBACK_QUEUE_APPEND. -/

namespace Sys2Proof.Machine

/-! ## Record writes -/

/-- Set the progress of a half of a record. -/
def AssignedRecord.setHalf (r : AssignedRecord) (h : Half) (v : HalfWrite) : AssignedRecord :=
  match h with
  | .first => { r with first := v }
  | .second => { r with second := v }

/-- Change the assigned record with a sequence. -/
def State.modRecord (s : State) (seq : Serial) (f : AssignedRecord → AssignedRecord) : State :=
  { s with journal := { s.journal with
    records := s.journal.records.map (fun r => if r.record.seq = seq then f r else r) } }

/-- The assigned record with a sequence. -/
def State.record? (s : State) (seq : Serial) : Option AssignedRecord :=
  s.journal.records.find? (fun r => decide (r.record.seq = seq))

/-- What a half's answer makes of it. -/
def answeredHalf (result : WriteResult) : HalfWrite := if result = .okay then .okay else .failed

/-- R38, R46: a half has been answered; the completion mark is set when both halves have been written with OKAY. -/
def AssignedRecord.answer (r : AssignedRecord) (h : Half) (result : WriteResult) : AssignedRecord :=
  let q := r.setHalf h (answeredHalf result)
  { q with mark := decide (q.first = .okay) && decide (q.second = .okay) }

/-- A half's write has been answered. -/
def HalfWrite.answered : HalfWrite → Bool
  | .okay => true
  | .failed => true
  | .waiting => false
  | .issued => false

/-- R38: the record write has completed with error: both line writes have been answered, one of them ERROR (log 11). -/
def AssignedRecord.failed (r : AssignedRecord) : Bool :=
  r.first.answered && r.second.answered && (decide (r.first = .failed) || decide (r.second = .failed))

/-- R73: the UNDO record of an operation in APPENDING has been written without error. -/
def State.operationWaits (s : State) (r : AssignedRecord) : State :=
  if r.record.kind = .undo then
    s.modOp r.record.line (fun o => { o with stage := .waitingDurable })
  else s

/-- R73: the operation of a failed UNDO record is answered ERROR FAULT and removed; its hold entry stays. Where the
fault was taken, the entry into FAULTED has ended the operation already (R77). -/
def State.failUndo (s : State) (r : AssignedRecord) : State :=
  match r.record.kind, s.op? r.record.line with
  | .undo, some o =>
    if o.stage = .appending ∧ o.slot.map (·.seq) = some r.record.seq then s.retireOp o .error .fault else s
  | _, _ => s

/-- R48: the fault cause of a record. -/
def RecordKind.faultCause : RecordKind → FaultCause
  | .undo => .journalWrite
  | .commit => .endRecord
  | .abort => .endRecord

/-- R48, R73, R129: the write of record r has completed with error. -/
def State.recordFailed (s : State) (r : AssignedRecord) : State :=
  (s.reportFault r.record.kind.faultCause).failUndo r

/-- R38, R46, R47, R48: what follows the answer of a half of record r, which the answer has made what it is: the
record write has completed without error, with error, or not yet. -/
def State.recordAnswered (s : State) (r : AssignedRecord) : State :=
  if r.mark then (s.operationWaits r).advanceDurable
  else if r.failed then s.recordFailed r
  else s

/-- R54, R132: in FAULTED the result is discarded: the half is answered, and no mark is set. -/
def State.recordDiscarded (s : State) (r : AssignedRecord) (h : Half) (result : WriteResult) : State :=
  s.modRecord r.record.seq (fun r => r.setHalf h (answeredHalf result))

/-- A record half's completion, delivered. -/
def State.recordWritten (result : WriteResult) (a : Access) (s : State) : State :=
  match a.purpose with
  | .recordHalf seq h =>
    match s.record? seq with
    | none => s
    | some r =>
      if s.device.state = .faulted then s.recordDiscarded r h result
      else (s.modRecord seq (fun r => r.answer h result)).recordAnswered (r.answer h result)
  | _ => s

def Purpose.isRecordHalf : Purpose → Bool
  | .recordHalf _ _ => true
  | _ => false

/-- RECORD_WRITE_COMPLETE (R46). -/
def execRecordWriteComplete (k : AccessSlot) (result : WriteResult) (s : State) : Result :=
  .next (s.complete k Purpose.isRecordHalf (State.recordWritten result))

/-! ## Header writes -/

/-- R52: the image in flight has been written: publish its tail, and issue a pending image. In the wind-down no header
write is issued, and none is kept to be (R56). -/
def State.publish (s : State) (i : HeaderImage) : State :=
  { s with
    journal := { s.journal with published := i.tail }
    header := { s.header with
      lastCopy := i.copy, generation := i.generation, pendingImage := none
      inFlight := if s.device.powerFailPending then none
        else s.header.pendingImage.map (fun p => { image := p, attempt := 1, stage := .firstWaiting }) } }

/-- Set the image in flight. -/
def State.setInFlight (s : State) (w : Option HeaderWrite) : State := { s with header := { s.header with inFlight := w } }

/-- R53, R56, R131: a half of the image in flight has been answered ERROR: the image is written again, three times in
all; in the wind-down it is not repeated. -/
def State.headerError (s : State) (w : HeaderWrite) : State :=
  if s.device.powerFailPending then (s.setInFlight none).reportFault .headerWrite
  else if w.attempt < Config.attempts then
    s.setInFlight (some { w with attempt := w.attempt + 1, stage := .firstWaiting })
  else (s.setInFlight none).reportFault .headerWrite

/-- R51, R52, R54: a half of the image in flight completes. In FAULTED the result is discarded; the second half of an
image begun is still issued (R133). -/
def State.headerWritten (result : WriteResult) (a : Access) (s : State) : State :=
  match s.header.inFlight, a.purpose with
  | some w, .headerHalf h =>
    if s.device.state = .faulted then
      match h with
      | .first => s.setInFlight (some { w with stage := .secondWaiting })
      | .second => s.setInFlight none
    else match result, h with
    | .okay, .first => s.setInFlight (some { w with stage := .secondWaiting })
    | .okay, .second => s.publish w.image
    | .error, _ => s.headerError w
  | _, _ => s

def Purpose.isHeaderHalf : Purpose → Bool
  | .headerHalf _ => true
  | _ => false

/-- HEADER_WRITE_COMPLETE (R52). -/
def execHeaderWriteComplete (k : AccessSlot) (result : WriteResult) (s : State) : Result :=
  .next (s.complete k Purpose.isHeaderHalf (State.headerWritten result))

/-! ## End records -/

/-- R44: an end record that is not written is reported durable at once; the tail is re-evaluated and the engine freed. -/
def State.endWithoutRecord (s : State) (q : EndRequest) : State :=
  let t := (s.endDurable q.context q.kind).reevaluateTail
  if q.kind = .abort then t.engineFreed else t

/-- R44: the Journal Writer takes an end-record request. -/
def State.takeEndRequest (s : State) (q : EndRequest) : State :=
  let t := { s with journal := { s.journal with
    requests := s.journal.requests.eraseP (fun p => decide (p.context = q.context)) } }
  if (s.ctx q.context).firstSlot.isSome ∨ Config.endReserve < s.freeSlots then t.grantSlot q.context q.record
  else t.endWithoutRecord q

/-- END_RECORD_REQUEST (R44): in SERVING and DRAINING; in FAULTED nothing is granted (R54), and from the assertion of
PFAIL_N no request is taken (R56). -/
def execEndRecordRequest (c : RequesterId) (s : State) : Result :=
  match s.journal.requests.find? (fun q => decide (q.context = c)) with
  | some q =>
    if !s.device.powerFailPending && (decide (s.device.state = .serving) || decide (s.device.state = .draining)) then
      .next (s.takeEndRequest q) else .next s
  | none => .next s

/-- COMMIT_RECORD_ASK (R79): at a committing context's drain the Context Table asks for the COMMIT record, once. The
drain may have been the last event before HALTED (log 6). -/
def execCommitRecordAsk (c : RequesterId) (s : State) : Result :=
  if (s.ctx c).state = .committing ∧ (s.ctx c).drained = true ∧ s.endAsked c = false then
    .next (s.askEndRecord c .commit)
  else .next s

/-- R82: a context leaves the group of drains that reached the Context Table together. -/
def dropDrain (c : RequesterId) (group : List RequesterId) (rest : List (List RequesterId)) : List (List RequesterId) :=
  if (group.erase c).isEmpty then rest else group.erase c :: rest

/-- ROLLBACK_QUEUE_APPEND (R11, R81, R82): the context whose drain was taken first joins the rollback queue; of drains
taken together, any. The drain was taken in SERVING, in DRAINING or in the wind-down, whatever the device has become
since (log 6). -/
def execRollbackQueueAppend (c : RequesterId) (s : State) : Result :=
  match s.drains with
  | group :: rest =>
    if group.contains c then .next { s with rollbackQueue := s.rollbackQueue ++ [c], drains := dropDrain c group rest }
    else .next s
  | [] => .next s

end Sys2Proof.Machine
end

