-- ==== Sys2Proof/Machine/Recovery.lean ====
section
/-! DEFINITION. The Recovery Sequencer (chapter 10) and formatting (R58): RECOVERY_HEADER_READ_COMPLETE,
ZEROING_WRITE_COMPLETE, FORMAT_HEADER_WRITE_COMPLETE, FORWARD_WALK_READ_COMPLETE, UNDO_PASS_READ_COMPLETE,
RECOVERY_RESTORE_COMPLETE, REINIT_HEADER_WRITE_COMPLETE. -/

namespace Sys2Proof.Machine

/-! ## What the sequencer wants to issue -/

/-- An access the sequencer wants to issue, other than a restore. -/
inductive SeqJob where
  | headerRead (copy : Copy) (half : Half)
  | zeroWrite
  | formatHeader (half : Half)
  | walkRead (half : Half)
  | undoRead (slot : Nat) (half : Half)
  | reinit (half : Half)
  deriving DecidableEq, Repr

/-- The halves of a place not yet asked for, first half first. -/
def PlaceRead.wanted (p : PlaceRead) (job : Half → SeqJob) : List SeqJob :=
  (if p.first = .waiting then [job .first] else []) ++ (if p.second = .waiting then [job .second] else [])

/-- The halves of a place not yet issued, first half first. -/
def PlaceWrite.wanted (p : PlaceWrite) (job : Half → SeqJob) : List SeqJob :=
  (if p.first = .waiting then [job .first] else []) ++ (if p.second = .waiting then [job .second] else [])

/-- Up to `fuel` slots from `slot` back to the tail slot, in walk order (R150). -/
def slotsBack (n tail : Nat) : Nat → Nat → List Nat
  | 0, _ => []
  | fuel + 1, slot => slot :: (if slot = tail then [] else slotsBack n tail fuel (prevSlot n slot))

/-- R150: slots not yet read ahead: those behind the last one read, back to the published tail slot. -/
def State.undoAhead (s : State) : List Nat :=
  match s.recovery.walkPosition, s.recovery.chosen with
  | some w, some c =>
    match s.recovery.io.undo.getLast? with
    | none => slotsBack s.slotCount c.tail.slot Config.accessSlots w
    | some u => if u.slot = c.tail.slot then []
                else slotsBack s.slotCount c.tail.slot Config.accessSlots (prevSlot s.slotCount u.slot)
  | _, _ => []

/-- The accesses the sequencer wants, in order (R58, R145 to R151). -/
def State.seqWanted (s : State) : List SeqJob :=
  match s.recovery.phase with
  | .headers => s.recovery.io.headerA.wanted (.headerRead .a) ++ s.recovery.io.headerB.wanted (.headerRead .b)
  | .formatting =>
    if s.recovery.zeroDone < 2 * s.slotCount then
      List.replicate (min Config.accessSlots (2 * s.slotCount - s.recovery.io.zeroIssued)) .zeroWrite
    else s.recovery.io.formatHeader.wanted .formatHeader
  | .forwardWalk => s.recovery.io.walk.wanted .walkRead
  | .undoPass =>
    s.recovery.io.undo.flatMap (fun u => u.place.wanted (.undoRead u.slot))
      ++ s.undoAhead.flatMap (fun slot => [.undoRead slot .first, .undoRead slot .second])
  | .reinit => s.recovery.io.reinit.wanted .reinit
  | .idle => []
  | .done => []
  | .stopped => []

/-- R58, R151: the header image formatting writes, and the one re-initialisation writes. -/
def formatImage : HeaderImage := { copy := .a, generation := 1, tail := { slot := 0, seq := 1 }, recoveryCount := 0 }

/-- R151: the recovery count of the re-initialisation header. -/
def Recovery.newCount (r : Recovery) (c : Chosen) : BitVec 16 :=
  if 1 ≤ r.undone ∧ c.recoveryCount.toNat < Config.saturation then c.recoveryCount + 1 else c.recoveryCount

/-- R151: the header image re-initialisation writes. -/
def State.reinitImage (s : State) : HeaderImage :=
  let c := s.recovery.chosen.getD { copy := .b, generation := 0, tail := { slot := 0, seq := 0 }, recoveryCount := 0 }
  let p := s.recovery.stop.getD { slot := 0, seq := 0 }
  { copy := c.copy.other, generation := c.generation + 1
    tail := { slot := p.slot, seq := p.seq + BitVec.ofNat 32 s.slotCount }
    recoveryCount := s.recovery.newCount c }

/-- R58: the line the i-th zeroing write goes to, in the free order of this formatting. -/
def State.zeroLine (s : State) (i : Nat) : LineAddr :=
  if h : i < 2 * s.slotCount then
    let j := (Config.zeroOrder s.recovery.zeroDraw (2 * s.slotCount) ⟨i, h⟩).val
    s.params.slotLine (j / 2) (if j % 2 = 0 then .first else .second)
  else s.params.slotLine 0 .first

/-- A wanted access as it goes out (R58, R145, R163: every write has a full mask). `i` counts zeroing writes. -/
def State.jobAccess (s : State) (i : Nat) : SeqJob → Purpose × LineAddr × AccessKind
  | .headerRead c h => (.recoveryHeaderRead c h, s.params.headerLine c h, .read)
  | .zeroWrite => (.zeroing, s.zeroLine i, .write fullMask 0)
  | .formatHeader h =>
    (.formatHeader h, s.params.headerLine .a h, .write fullMask (placeHalf (formatImage.bytes s.slotCount) h))
  | .walkRead h => (.forwardWalkRead h, s.params.slotLine (s.recovery.walkPosition.getD 0) h, .read)
  | .undoRead slot h => (.undoPassRead slot h, s.params.slotLine slot h, .read)
  | .reinit h =>
    (.reinitHeader h, s.params.headerLine s.reinitImage.copy h, .write fullMask (placeHalf (s.reinitImage.bytes s.slotCount) h))

/-- Mark a half of a place. -/
def PlaceRead.set (p : PlaceRead) (h : Half) (v : HalfRead) : PlaceRead :=
  match h with
  | .first => { p with first := v }
  | .second => { p with second := v }

/-- Mark a half of a place. -/
def PlaceWrite.set (p : PlaceWrite) (h : Half) (v : HalfWrite) : PlaceWrite :=
  match h with
  | .first => { p with first := v }
  | .second => { p with second := v }

/-- Set a half of the read of a slot in the undo pass, adding the slot if it is new. -/
def setUndo (slot : Nat) (h : Half) (v : HalfRead) (l : List UndoRead) : List UndoRead :=
  if l.any (fun u => decide (u.slot = slot)) then
    l.map (fun u => if u.slot = slot then { u with place := u.place.set h v } else u)
  else l ++ [{ slot := slot, place := PlaceRead.fresh.set h v }]

/-- Mark a job as issued. -/
def SequencerIO.markIssued (io : SequencerIO) : SeqJob → SequencerIO
  | .headerRead .a h => { io with headerA := io.headerA.set h .issued }
  | .headerRead .b h => { io with headerB := io.headerB.set h .issued }
  | .zeroWrite => { io with zeroIssued := io.zeroIssued + 1 }
  | .formatHeader h => { io with formatHeader := io.formatHeader.set h .issued }
  | .walkRead h => { io with walk := io.walk.set h .issued }
  | .undoRead slot h => { io with undo := setUndo slot h .issued io.undo }
  | .reinit h => { io with reinit := io.reinit.set h .issued }

/-! ## Issuing (R126, R133, R145) -/

/-- The free access slots. -/
def freeSlotsOf (link : Vector (Option Access) 8) : List AccessSlot := allSlots.filter (fun k => (link[k]).isNone)

/-- Put an access into one of the free slots; which one is a free value (log 8). -/
def placeAccess (link : Vector (Option Access) 8) (order : Nat) (p : Purpose) (l : LineAddr) (kind : AccessKind) :
    Vector (Option Access) 8 :=
  let free := freeSlotsOf link
  match free[Config.slotChoice order % free.length]? with
  | some k => link.set k (some { purpose := p, line := l, kind := kind, order := order })
  | none => link

/-- Put the accesses of a list of jobs into free slots, one after another. -/
def State.placeJobs (s : State) : List SeqJob → Nat → Nat → Vector (Option Access) 8 → Vector (Option Access) 8
  | [], _, _, link => link
  | j :: rest, i, order, link =>
    let a := s.jobAccess i j
    s.placeJobs rest (i + 1) (order + 1) (placeAccess link order a.1 a.2.1 a.2.2)

/-- The access is the Recovery Sequencer's own (R126). -/
def Purpose.sequencer : Purpose → Bool
  | .recoveryHeaderRead _ _ => true
  | .zeroing => true
  | .formatHeader _ => true
  | .forwardWalkRead _ => true
  | .undoPassRead _ _ => true
  | .recoveryRestore => true
  | .reinitHeader _ => true
  | .forwarded => false
  | .oldLineRead => false
  | .operationWrite => false
  | .recordHalf _ _ => false
  | .headerHalf _ => false
  | .rollbackRead => false
  | .rollbackRestore => false

/-- Number of accesses of the sequencer in flight. -/
def State.seqOutstanding (s : State) : Nat :=
  allSlots.countP (fun k => (s.access k).any (fun a => a.purpose.sequencer))

/-- How many wanted accesses are issued now: a free value within the room left, but at least one if none is in flight
(log 9). -/
def State.issueCount (s : State) : Nat :=
  min (freeSlotsOf s.link).length
    (max (if s.seqOutstanding = 0 then 1 else 0) (Config.sequencerIssue s.draws))

/-- R145: the sequencer issues some of the accesses it wants. In the wind-down it issues nothing (R154). -/
def State.pump (s : State) : State :=
  if s.device.powerFailPending then s
  else
    let jobs := s.seqWanted.take s.issueCount
    { s with
      link := s.placeJobs jobs s.recovery.io.zeroIssued s.issued s.link
      issued := s.issued + jobs.length
      draws := s.draws + 1
      recovery := { s.recovery with io := jobs.foldl SequencerIO.markIssued s.recovery.io } }

/-- R150: issue the restore of a record. The caller has made sure that a slot is free. -/
def State.issueRestore (s : State) (r : JournalRecord) : State :=
  { s with
    link := placeAccess s.link s.issued .recoveryRestore r.line (.write fullMask r.old)
    issued := s.issued + 1
    recovery := { s.recovery with restoresOutstanding := s.recovery.restoresOutstanding + 1 } }

/-! ## Phases -/

/-- The 128 bytes of a place both of whose halves have been read. -/
def PlaceRead.image (p : PlaceRead) : Option Place :=
  match p.first, p.second with
  | .got a, .got b => some (placeOf a b)
  | _, _ => none

/-- Both halves have been written with OKAY. -/
def PlaceWrite.whole (p : PlaceWrite) : Bool := decide (p.first = .okay) && decide (p.second = .okay)

/-- R157, R145: the device enters RECOVERING and the sequencer begins. -/
def State.beginRecovery (s : State) : State :=
  State.pump { s with
    device := { s.device with state := .recovering }
    recovery := { Recovery.reset with phase := .headers } }

/-- R146, R147: the walk begins at the chosen copy's tail. -/
def State.beginWalk (s : State) (c : Chosen) : State :=
  State.pump { s with recovery := { s.recovery with
    phase := .forwardWalk, chosen := some c, walkPosition := some c.tail.slot, expected := some c.tail.seq
    examined := 0, unended := [], io := { s.recovery.io with walk := .fresh } } }

/-- R146: the choice between two valid copies. -/
def chooseYounger (a b : Chosen) : Chosen :=
  if a.generation = b.generation + 1 then a
  else if b.generation = a.generation + 1 then b
  else if b.generation.toNat ≤ a.generation.toNat then a
  else b

/-- R146: the choice of a header copy. -/
def chooseHeader : Option Chosen → Option Chosen → Option Chosen
  | some a, some b => some (chooseYounger a b)
  | some a, none => some a
  | none, some b => some b
  | none, none => none

/-- R147: neither copy is valid. That the formatted field becomes yes as FORMATTING begins is the model's (log 34). -/
def State.noHeader (s : State) : State :=
  if s.params.formatPermitted = 1 then
    State.pump { s with
      draws := s.draws + 1
      recovery := { s.recovery with
        phase := .formatting, formatted := true, zeroDone := 0, zeroDraw := s.draws
        io := { s.recovery.io with zeroIssued := 0, formatHeader := .fresh } } }
  else s.reportFault .noValidHeader

/-- R146: once both copies have been read, a header is chosen. -/
def State.judgeHeaders (s : State) : State :=
  match s.recovery.io.headerA.image, s.recovery.io.headerB.image with
  | some a, some b =>
    match chooseHeader (parseHeader s.slotCount .a a) (parseHeader s.slotCount .b b) with
    | some c => s.beginWalk c
    | none => s.noHeader
  | _, _ => s.pump

/-- R151: the phase becomes REINIT. -/
def State.beginReinit (s : State) : State :=
  State.pump { s with recovery := { s.recovery with phase := .reinit, io := { s.recovery.io with reinit := .fresh } } }

/-- R149: the forward walk stops at a position. The slots examined keep their last count (log 32). -/
def State.stopWalk (s : State) (p : Position) : State :=
  let t := { s with recovery := { s.recovery with
    stop := some p, undone := s.recovery.unended.length, walkPosition := none, expected := none } }
  if t.recovery.undone = 0 then t.beginReinit
  else State.pump { t with recovery := { t.recovery with
    phase := .undoPass, walkPosition := some (prevSlot s.slotCount p.slot), restoresOutstanding := 0
    io := { t.recovery.io with undo := [] } } }

/-- What a record does to the unended table; none where the walk stops (R148). -/
def unendedAfter (table : List Unended) (r : JournalRecord) : Option (List Unended) :=
  match table.find? (fun u => decide (u.context = r.context)), r.kind with
  | none, .undo => some (table ++ [{ context := r.context, openNumber := r.openNumber }])
  | some u, .undo => if u.openNumber = r.openNumber then some table else none
  | none, .commit => some table
  | none, .abort => some table
  | some u, .commit => if u.openNumber = r.openNumber then some (table.eraseP (fun v => decide (v.context = r.context))) else none
  | some u, .abort => if u.openNumber = r.openNumber then some (table.eraseP (fun v => decide (v.context = r.context))) else none

/-- R148: the record at the walk position has acted; the walk goes on, or stops after N slots. -/
def State.walkOn (s : State) (slot : Nat) (seq : Serial) (table : List Unended) : State :=
  let next : Position := { slot := nextSlot s.slotCount slot, seq := seq + 1 }
  let t := { s with recovery := { s.recovery with
    unended := table, examined := s.recovery.examined + 1, walkPosition := some next.slot, expected := some next.seq
    io := { s.recovery.io with walk := .fresh } } }
  if s.slotCount ≤ t.recovery.examined then t.stopWalk next else t.pump

/-- R148, R149: the slot at the walk position is examined. -/
def State.examineWalk (s : State) (v : Place) : State :=
  let slot := s.recovery.walkPosition.getD 0
  let seq := s.recovery.expected.getD 0
  let stop : Position := { slot := slot, seq := seq }
  match JournalRecord.parse v with
  | none => s.stopWalk stop
  | some r =>
    if r.seq ≠ seq then s.stopWalk stop
    else match unendedAfter s.recovery.unended r with
    | none => s.stopWalk stop
    | some table => s.walkOn slot seq table

/-- R150: the sequence that belongs to a slot of the undo pass: the stop sequence less the slots back from the stop slot. -/
def State.undoSeq (s : State) (slot : Nat) : Serial :=
  let p := s.recovery.stop.getD { slot := 0, seq := 0 }
  let back := slotDistance s.slotCount slot p.slot
  p.seq - BitVec.ofNat 32 (if back = 0 then s.slotCount else back)

/-- R150: the record is an UNDO record of an unended transaction. -/
def State.undoMatches (s : State) (r : JournalRecord) : Bool :=
  decide (r.kind = .undo)
    && s.recovery.unended.any (fun u => decide (u.context = r.context) && decide (u.openNumber = r.openNumber))

/-- The slot at the walk position has been examined; the pass moves one slot back, or has examined the tail slot, and
the walk position is then absent (log 29). -/
def State.undoMoved (s : State) (slot : Nat) : State :=
  let tail := (s.recovery.chosen.map (fun c => c.tail.slot)).getD 0
  { s with recovery := { s.recovery with
    walkPosition := if slot = tail then none else some (prevSlot s.slotCount slot)
    io := { s.recovery.io with undo := s.recovery.io.undo.tail } } }

/-- R150: examine the slots read, strictly in walk order, for as long as the next one has been read and, if it is to be
restored, a slot of the link is free for its restore. -/
def State.undoExamine : Nat → State → State
  | 0, s => s
  | fuel + 1, s =>
    match s.recovery.io.undo with
    | [] => s
    | u :: _ =>
      match u.place.image with
      | none => s
      | some v =>
        match JournalRecord.parse v with
        | none => s.reportFault .recovery
        | some r =>
          if r.seq ≠ s.undoSeq u.slot then s.reportFault .recovery
          else if s.undoMatches r then
            if (freeSlotsOf s.link).isEmpty then s
            else State.undoExamine fuel ((s.issueRestore r).undoMoved u.slot)
          else State.undoExamine fuel (s.undoMoved u.slot)

/-- R150: go on with the undo pass; it ends when the tail slot has been examined and every restore has completed. -/
def State.undoGoOn (s : State) : State :=
  let t := State.undoExamine (s.recovery.io.undo.length) s
  if t.recovery.phase = .undoPass then
    if t.recovery.walkPosition.isNone ∧ t.recovery.restoresOutstanding = 0 then t.beginReinit else t.pump
  else t

/-- R41, R152, R157: re-initialisation has completed: the results are handed over and the device enters SERVING. -/
def State.recoverySuccess (s : State) : State :=
  let i := s.reinitImage
  let j : Journal :=
    { started := true, head := i.tail, durableHead := i.tail, published := i.tail, records := [], requests := [] }
  let h : HeaderWriter :=
    { lastCopy := i.copy, generation := i.generation, recoveryCount := i.recoveryCount, pendingImage := none
      inFlight := none }
  State.entryLinkReset { s with
    device := { s.device with state := .serving }
    journal := j
    header := h
    startupUndone := s.recovery.undone
    startupFormatted := s.recovery.formatted
    recovery := { s.recovery with phase := .done } }

/-! ## Completions -/

/-- RECOVERY_HEADER_READ_COMPLETE (R146), delivered. -/
def State.headerRead (result : ReadResult) (a : Access) (s : State) : State :=
  match s.recovery.phase, a.purpose, result with
  | .headers, .recoveryHeaderRead .a h, .okay d =>
    State.judgeHeaders { s with recovery := { s.recovery with io :=
      { s.recovery.io with headerA := s.recovery.io.headerA.set h (.got d) } } }
  | .headers, .recoveryHeaderRead .b h, .okay d =>
    State.judgeHeaders { s with recovery := { s.recovery with io :=
      { s.recovery.io with headerB := s.recovery.io.headerB.set h (.got d) } } }
  | .headers, _, .error => s.reportFault .recovery
  | _, _, _ => s

/-- ZEROING_WRITE_COMPLETE (R58), delivered. -/
def State.zeroed (result : WriteResult) (_a : Access) (s : State) : State :=
  match s.recovery.phase, result with
  | .formatting, .okay => State.pump { s with recovery := { s.recovery with zeroDone := s.recovery.zeroDone + 1 } }
  | .formatting, .error => s.reportFault .recovery
  | _, _ => s

/-- R147: header A as the chosen copy after formatting. -/
def formatChosen : Chosen :=
  { copy := .a, generation := formatImage.generation, tail := formatImage.tail, recoveryCount := formatImage.recoveryCount }

/-- FORMAT_HEADER_WRITE_COMPLETE (R147), delivered. -/
def State.formatHeaderWritten (result : WriteResult) (a : Access) (s : State) : State :=
  match s.recovery.phase, a.purpose, result with
  | .formatting, .formatHeader h, .okay =>
    let t := { s with recovery := { s.recovery with io :=
      { s.recovery.io with formatHeader := s.recovery.io.formatHeader.set h .okay } } }
    if t.recovery.io.formatHeader.whole then t.beginWalk formatChosen else t.pump
  | .formatting, _, .error => s.reportFault .recovery
  | _, _, _ => s

/-- FORWARD_WALK_READ_COMPLETE (R148), delivered. -/
def State.walkRead (result : ReadResult) (a : Access) (s : State) : State :=
  match s.recovery.phase, a.purpose, result with
  | .forwardWalk, .forwardWalkRead h, .okay d =>
    let t := { s with recovery := { s.recovery with io := { s.recovery.io with walk := s.recovery.io.walk.set h (.got d) } } }
    match t.recovery.io.walk.image with
    | some v => t.examineWalk v
    | none => t.pump
  | .forwardWalk, _, .error => s.reportFault .recovery
  | _, _, _ => s

/-- UNDO_PASS_READ_COMPLETE (R150), delivered. -/
def State.undoSlotRead (result : ReadResult) (a : Access) (s : State) : State :=
  match s.recovery.phase, a.purpose, result with
  | .undoPass, .undoPassRead slot h, .okay d =>
    State.undoGoOn { s with recovery := { s.recovery with io :=
      { s.recovery.io with undo := setUndo slot h (.got d) s.recovery.io.undo } } }
  | .undoPass, _, .error => s.reportFault .recovery
  | _, _, _ => s

/-- RECOVERY_RESTORE_COMPLETE (R150), delivered. -/
def State.recoveryRestored (result : WriteResult) (_a : Access) (s : State) : State :=
  match s.recovery.phase, result with
  | .undoPass, .okay =>
    State.undoGoOn { s with recovery := { s.recovery with restoresOutstanding := s.recovery.restoresOutstanding - 1 } }
  | .undoPass, .error => s.reportFault .recovery
  | _, _ => s

/-- REINIT_HEADER_WRITE_COMPLETE (R151), delivered. -/
def State.reinitWritten (result : WriteResult) (a : Access) (s : State) : State :=
  match s.recovery.phase, a.purpose, result with
  | .reinit, .reinitHeader h, .okay =>
    let t := { s with recovery := { s.recovery with io := { s.recovery.io with reinit := s.recovery.io.reinit.set h .okay } } }
    if t.recovery.io.reinit.whole then t.recoverySuccess else t.pump
  | .reinit, _, .error => s.reportFault .recovery
  | _, _, _ => s

def Purpose.isRecoveryHeaderRead : Purpose → Bool
  | .recoveryHeaderRead _ _ => true
  | _ => false

def Purpose.isFormatHeader : Purpose → Bool
  | .formatHeader _ => true
  | _ => false

def Purpose.isForwardWalkRead : Purpose → Bool
  | .forwardWalkRead _ => true
  | _ => false

def Purpose.isUndoPassRead : Purpose → Bool
  | .undoPassRead _ _ => true
  | _ => false

def Purpose.isReinitHeader : Purpose → Bool
  | .reinitHeader _ => true
  | _ => false

/-- RECOVERY_HEADER_READ_COMPLETE (R146). -/
def execRecoveryHeaderReadComplete (k : AccessSlot) (result : ReadResult) (s : State) : Result :=
  .next (s.complete k Purpose.isRecoveryHeaderRead (State.headerRead result))

/-- ZEROING_WRITE_COMPLETE (R58). -/
def execZeroingWriteComplete (k : AccessSlot) (result : WriteResult) (s : State) : Result :=
  .next (s.complete k (fun p => decide (p = .zeroing)) (State.zeroed result))

/-- FORMAT_HEADER_WRITE_COMPLETE (R147). -/
def execFormatHeaderWriteComplete (k : AccessSlot) (result : WriteResult) (s : State) : Result :=
  .next (s.complete k Purpose.isFormatHeader (State.formatHeaderWritten result))

/-- FORWARD_WALK_READ_COMPLETE (R148). -/
def execForwardWalkReadComplete (k : AccessSlot) (result : ReadResult) (s : State) : Result :=
  .next (s.complete k Purpose.isForwardWalkRead (State.walkRead result))

/-- UNDO_PASS_READ_COMPLETE (R150). -/
def execUndoPassReadComplete (k : AccessSlot) (result : ReadResult) (s : State) : Result :=
  .next (s.complete k Purpose.isUndoPassRead (State.undoSlotRead result))

/-- RECOVERY_RESTORE_COMPLETE (R150). -/
def execRecoveryRestoreComplete (k : AccessSlot) (result : WriteResult) (s : State) : Result :=
  .next (s.complete k (fun p => decide (p = .recoveryRestore)) (State.recoveryRestored result))

/-- REINIT_HEADER_WRITE_COMPLETE (R151). -/
def execReinitHeaderWriteComplete (k : AccessSlot) (result : WriteResult) (s : State) : Result :=
  .next (s.complete k Purpose.isReinitHeader (State.reinitWritten result))

end Sys2Proof.Machine
end

