-- ==== Sys2Proof/Machine/Rollback.lean ====
section
/-! DEFINITION. The Rollback Engine (chapter 5): ROLLBACK_TAKE_CONTEXT, ROLLBACK_READ_COMPLETE, RESTORE_WRITE_COMPLETE,
ABORT_RECORD_ASK. -/

namespace Sys2Proof.Machine

/-- Replace the engine. -/
def State.setEngine (s : State) (e : Engine) : State := { s with engine := e }

/-- R84: the engine takes context c. -/
def State.takeContext (s : State) (c : RequesterId) (rest : List RequesterId) : State :=
  let t := State.modCtx { s with rollbackQueue := rest } c (fun x => { x with state := .rollingBack })
  let x := s.ctx c
  if x.undoCount = 0 then
    let e : Engine := { Engine.reset with phase := .closing, current := some c }
    (t.setEngine e).askEndRecord c .abort
  else
    let last := x.lastSlot.getD 0
    let e : Engine :=
      { Engine.reset with
        phase := .walking, current := some c, walkPosition := some last
        read := some { slot := last, half := .first, attempt := 1, issued := false } }
    t.setEngine e

/-- ROLLBACK_TAKE_CONTEXT (R84): a FREE engine in SERVING or DRAINING takes the head of the queue. -/
def execRollbackTakeContext (s : State) : Result :=
  match s.rollbackQueue with
  | c :: rest =>
    if s.engine.phase = .free ∧ s.device.powerFailPending = false
        ∧ (s.device.state = .serving ∨ s.device.state = .draining) then
      .next (s.takeContext c rest) else .next s
  | [] => .next s

/-- R87: claim the restore at the front of the list if none is in flight; in the wind-down nothing is claimed (R94). -/
def State.claimRestore (s : State) : State :=
  if s.device.powerFailPending then s
  else match s.engine.restore, s.engine.waiting with
  | none, (l, d) :: rest =>
    s.setEngine { s.engine with waiting := rest, restore := some { line := l, old := d, attempt := 1, issued := false } }
  | _, _ => s

/-- R85: claim the read of a half of a slot; in the wind-down nothing is claimed (R94). -/
def State.claimRead (s : State) (slot : Nat) (h : Half) : State :=
  s.setEngine { s.engine with
    read := if s.device.powerFailPending then none else some { slot := slot, half := h, attempt := 1, issued := false } }

/-- R85: the record is an UNDO record of the current context's transaction, at the sequence that belongs to the slot. -/
def State.slotMatches (s : State) (c : RequesterId) (slot : Nat) (r : JournalRecord) : Bool :=
  decide (r.kind = .undo) && decide (r.context = BitVec.ofNat 8 c) && decide (some r.openNumber = (s.ctx c).openNumber)
    && decide (r.seq = s.slotSeq slot)

/-- R85: what the 128 bytes of a slot add to the restore list. -/
def State.foundIn (s : State) (c : RequesterId) (slot : Nat) (v : Place) : List (LineAddr × Line) :=
  match JournalRecord.parse v with
  | some r => if s.slotMatches c slot r then [(r.line, r.old)] else []
  | none => []

/-- R86: after slot has been examined: the walk ends, short of records or not, or goes on one slot back. -/
def State.afterExamine (s : State) (c : RequesterId) (slot : Nat) : State :=
  let x := s.ctx c
  if x.undoCount ≤ s.engine.foundCount ∨ x.firstSlot = some slot then
    let t := s.setEngine { s.engine with walkEnded := true, walkPosition := none }
    if s.engine.foundCount < x.undoCount then t.reportFault .rollbackAccess else t.claimRestore
  else
    let p := prevSlot s.slotCount slot
    ((s.setEngine { s.engine with walkPosition := some p }).claimRead p .first).claimRestore

/-- R85: both halves of a slot have been read. -/
def State.examineSlot (s : State) (slot : Nat) (v : Place) : State :=
  match s.engine.current with
  | none => s
  | some c =>
    let found := s.foundIn c slot v
    let e : Engine :=
      { s.engine with
        read := none, firstHalf := none, foundCount := s.engine.foundCount + found.length
        waiting := s.engine.waiting ++ found }
    (s.setEngine e).afterExamine c slot

/-- R88, R94: the engine's read has been answered ERROR. -/
def State.readError (s : State) (rd : EngineRead) : State :=
  if s.device.powerFailPending = false ∧ rd.attempt < Config.attempts then
    s.setEngine { s.engine with read := some { rd with attempt := rd.attempt + 1, issued := false } }
  else State.reportFault (s.setEngine { s.engine with read := none }) .rollbackAccess

/-- R85: the engine's read has been answered OKAY. -/
def State.readOkay (s : State) (rd : EngineRead) (d : Line) : State :=
  match rd.half with
  | .first => (s.setEngine { s.engine with firstHalf := some d }).claimRead rd.slot .second
  | .second => s.examineSlot rd.slot (placeOf (s.engine.firstHalf.getD 0) d)

/-- A slot-half read completes, delivered. In STOPPED the result is discarded (R92). -/
def State.rollbackRead (result : ReadResult) (_a : Access) (s : State) : State :=
  match s.engine.read with
  | none => s
  | some rd =>
    if s.engine.phase = .stopped then s.setEngine { s.engine with read := none }
    else match result with
    | .okay d => s.readOkay rd d
    | .error => s.readError rd

/-- ROLLBACK_READ_COMPLETE (R85). -/
def execRollbackReadComplete (k : AccessSlot) (result : ReadResult) (s : State) : Result :=
  .next (s.complete k (fun p => decide (p = .rollbackRead)) (State.rollbackRead result))

/-- R88, R94: the engine's restore has been answered ERROR. -/
def State.restoreError (s : State) (w : EngineRestore) : State :=
  if s.device.powerFailPending = false ∧ w.attempt < Config.attempts then
    s.setEngine { s.engine with restore := some { w with attempt := w.attempt + 1, issued := false } }
  else State.reportFault (s.setEngine { s.engine with restore := none }) .rollbackAccess

/-- A restore completes, delivered. In STOPPED the result is discarded (R92). -/
def State.restored (result : WriteResult) (_a : Access) (s : State) : State :=
  match s.engine.restore with
  | none => s
  | some w =>
    if s.engine.phase = .stopped then s.setEngine { s.engine with restore := none }
    else match result with
    | .okay => (s.setEngine { s.engine with restore := none }).claimRestore
    | .error => s.restoreError w

/-- RESTORE_WRITE_COMPLETE (R87). -/
def execRestoreWriteComplete (k : AccessSlot) (result : WriteResult) (s : State) : Result :=
  .next (s.complete k (fun p => decide (p = .rollbackRestore)) (State.restored result))

/-- R87: the walk has ended, the restore list is empty and no restore is in flight. -/
def Engine.finished (e : Engine) : Bool :=
  decide (e.phase = .walking) && e.walkEnded && e.waiting.isEmpty && e.restore.isNone

/-- ABORT_RECORD_ASK (R90): when every restore is complete the engine enters CLOSING and asks for the ABORT record. -/
def execAbortRecordAsk (s : State) : Result :=
  match s.engine.current with
  | some c =>
    if s.engine.finished = true ∧ s.device.powerFailPending = false then
      .next (State.askEndRecord (s.setEngine { s.engine with phase := .closing, walkEnded := false }) c .abort)
    else .next s
  | none => .next s

end Sys2Proof.Machine
end

