-- ==== Sys2Proof/Machine/Arbiter.lean ====
section
/-! DEFINITION. The Memory Arbiter (chapter 8): ARBITER_GRANT. -/

namespace Sys2Proof.Machine

/-- R126: the claimant that owns an access; the Recovery Sequencer's own accesses belong to none. -/
def Purpose.claimant : Purpose → Option Claimant
  | .forwarded => some .forward
  | .oldLineRead => some .journal
  | .operationWrite => some .journal
  | .recordHalf _ _ => some .journal
  | .headerHalf _ => some .header
  | .rollbackRead => some .rollback
  | .rollbackRestore => some .rollback
  | .recoveryHeaderRead _ _ => none
  | .zeroing => none
  | .formatHeader _ => none
  | .forwardWalkRead _ => none
  | .undoPassRead _ _ => none
  | .recoveryRestore => none
  | .reinitHeader _ => none

/-- R126: the round-robin order. -/
def Claimant.next : Claimant → Claimant
  | .forward => .journal
  | .journal => .rollback
  | .rollback => .header
  | .header => .forward

/-- Table 8-1: the share of the eight slots. -/
def Claimant.share : Claimant → Nat
  | .forward => 8
  | .journal => 8
  | .rollback => 2
  | .header => 1

/-- R126: the number of slots a claimant's accesses occupy. -/
def State.claimantCount (s : State) (c : Claimant) : Nat :=
  allSlots.countP (fun k => (s.access k).any (fun a => decide (a.purpose.claimant = some c)))

/-- An access a claimant puts forward. -/
structure Claim where
  purpose : Purpose
  line : LineAddr
  kind : AccessKind
  deriving DecidableEq, Repr

/-- R126, R133, R134: the arbiter grants in this state at all. -/
def State.arbiterRuns (s : State) : Bool :=
  !s.pins.porst && !s.device.powerFailPending && decide (s.seqOutstanding = 0)
    && (decide (s.device.state = .passthrough) || decide (s.device.state = .serving)
      || decide (s.device.state = .draining) || decide (s.device.state = .faulted))

/-- The device is in SERVING or DRAINING. -/
def State.inService (s : State) : Bool := decide (s.device.state = .serving) || decide (s.device.state = .draining)

/-- R128: the oldest Forward Queue entry not yet issued. -/
def State.forwardClaim (s : State) : Option Claim :=
  (s.forward.find? (fun e => e.issued.isNone)).map (fun e => { purpose := .forwarded, line := e.line, kind := e.kind })

/-- R129, first: the forwarded write of the operation whose report came first. -/
def State.operationClaim (s : State) : Option Claim :=
  s.reports.findSome? (fun l => (s.op? l).map (fun o =>
    { purpose := .operationWrite, line := o.line, kind := .write o.mask o.data }))

/-- The half of a record that is written next, if any. In FAULTED a record not yet begun is withdrawn (R133). -/
def AssignedRecord.nextHalf (faulted : Bool) (r : AssignedRecord) : Option Half :=
  if r.first = .waiting then (if faulted then none else some .first)
  else if r.second = .waiting then some .second
  else none

/-- R129, second: the next record half in sequence order. -/
def State.recordClaim (s : State) : Option Claim :=
  s.journal.records.findSome? (fun r =>
    (r.nextHalf (decide (s.device.state = .faulted))).map (fun h =>
      { purpose := .recordHalf r.record.seq h, line := s.params.slotLine r.slot h,
        kind := .write fullMask (placeHalf r.record.image h) }))

/-- R129, third: the oldest old-line read not yet issued. -/
def State.oldReadClaim (s : State) : Option Claim :=
  (s.ops.find? (fun o => decide (o.stage = .readingOld) && o.access.isNone)).map (fun o =>
    { purpose := .oldLineRead, line := o.line, kind := .read })

/-- R129: what the JOURNAL claimant puts forward. -/
def State.journalClaim (s : State) : Option Claim :=
  s.operationClaim.or (s.recordClaim.or s.oldReadClaim)

/-- R130: what the ROLLBACK claimant puts forward: a restore waiting to be issued before a read. -/
def State.rollbackClaim (s : State) : Option Claim :=
  match s.engine.restore.filter (fun w => !w.issued) with
  | some w => some { purpose := .rollbackRestore, line := w.line, kind := .write fullMask w.old }
  | none => (s.engine.read.filter (fun r => !r.issued)).map (fun r =>
      { purpose := .rollbackRead, line := s.params.slotLine r.slot r.half, kind := .read })

/-- A half of the image in flight. -/
def State.headerHalfClaim (s : State) (w : HeaderWrite) (h : Half) : Claim :=
  { purpose := .headerHalf h, line := s.params.headerLine w.image.copy h,
    kind := .write fullMask (placeHalf (w.image.bytes s.slotCount) h) }

/-- R130, R133: what the HEADER claimant puts forward; in FAULTED only a second half. -/
def State.headerClaim (s : State) : Option Claim :=
  match s.header.inFlight with
  | none => none
  | some w =>
    match w.stage with
    | .firstWaiting => if s.device.state = .faulted then none else some (s.headerHalfClaim w .first)
    | .secondWaiting => some (s.headerHalfClaim w .second)
    | .firstIssued => none
    | .secondIssued => none

/-- R127, R133: the pending access of a claimant in the device state. -/
def State.claim (s : State) : Claimant → Option Claim
  | .forward => s.forwardClaim
  | .journal => if s.device.state = .passthrough then none else s.journalClaim
  | .rollback => if s.inService then s.rollbackClaim else none
  | .header => if s.device.state = .passthrough then none else s.headerClaim

/-- R127: the claimant has a pending access and its count is below its share. -/
def State.eligible (s : State) (c : Claimant) : Bool := (s.claim c).isSome && decide (s.claimantCount c < c.share)

/-- R127: the round-robin order from the pointer. -/
def Claimant.roundFrom (c : Claimant) : List Claimant := [c, c.next, c.next.next, c.next.next.next]

/-- R127: the first claimant from the pointer that qualifies. -/
def State.nextClaimant (s : State) : Option Claimant := s.pointer.roundFrom.find? s.eligible

/-- Replace the first element that satisfies p. -/
def modifyFirst {α : Type} (p : α → Bool) (f : α → α) : List α → List α
  | [] => []
  | a :: rest => if p a then f a :: rest else a :: modifyFirst p f rest

/-- The image in flight moves on as a half is issued. -/
def HeaderWrite.issue (w : HeaderWrite) : Half → HeaderWrite
  | .first => { w with stage := .firstIssued }
  | .second => { w with stage := .secondIssued }

/-- What its owner keeps of an access issued in slot k. -/
def State.markIssued (s : State) (k : AccessSlot) (c : Claim) : State :=
  match c.purpose with
  | .forwarded => { s with forward := modifyFirst (fun e => e.issued.isNone) (fun e => { e with issued := some k }) s.forward }
  | .operationWrite =>
    { s.modOp c.line (fun o => { o with access := some k }) with reports := s.reports.erase c.line }
  | .oldLineRead => s.modOp c.line (fun o => { o with access := some k })
  | .recordHalf seq h => s.modRecord seq (fun r => r.setHalf h .issued)
  | .headerHalf h => s.setInFlight (s.header.inFlight.map (fun w => w.issue h))
  | .rollbackRead => s.setEngine { s.engine with read := s.engine.read.map (fun r => { r with issued := true }) }
  | .rollbackRestore => s.setEngine { s.engine with restore := s.engine.restore.map (fun w => { w with issued := true }) }
  | .recoveryHeaderRead _ _ => s
  | .zeroing => s
  | .formatHeader _ => s
  | .forwardWalkRead _ => s
  | .undoPassRead _ _ => s
  | .recoveryRestore => s
  | .reinitHeader _ => s

/-- R127: the pending access of claimant c is issued in slot k, and the pointer names the claimant after c. -/
def State.grant (s : State) (k : AccessSlot) (c : Claimant) : State :=
  match s.claim c with
  | some a => { (s.putAccess k a.purpose a.line a.kind).markIssued k a with pointer := c.next }
  | none => s

/-- ARBITER_GRANT (R127): the arbiter issues the next access in the free slot k. Which free slot it uses is of no
consequence (R127), so the command names it; a slot that is not free takes no access. -/
def execArbiterGrant (k : AccessSlot) (s : State) : Result :=
  if s.arbiterRuns && (s.access k).isNone then
    match s.nextClaimant with
    | some c => .next (s.grant k c)
    | none => .next s
  else .next s

end Sys2Proof.Machine
end

