-- ==== Sys2Proof/Machine/Flags.lean ====
section
/-! DEFINITION. What the part shows outside: RDY and ATTN, the lines of the configuration port, the lockout
remaining, and the status record (R111, R112). -/

namespace Sys2Proof.Machine

/-- R162: RDY. -/
def State.rdy (s : State) : Bool :=
  !s.pins.porst && !s.device.powerFailPending &&
    (decide (s.device.state = .serving) || decide (s.device.state = .passthrough) || decide (s.device.state = .faulted))

/-- R162: ATTN. -/
def State.attn (s : State) : Bool :=
  !s.pins.porst &&
    (decide (s.device.state = .passthrough) || decide (s.device.state = .faulted) || s.device.noticesStanding)

/-- R136, R156: CFG_CS_N is low during a transfer only. -/
def State.cfgCsN (s : State) : Bool := decide (s.loader.phase ≠ .transfer)

/-- R136: the bits the part sends on CFG_DO in the transfer under way, first bit first; it sends nothing outside one. -/
def State.cfgDo (s : State) : List Bool := if s.loader.phase = .transfer then transferCommand else []

/-- R136: the clock pulses of CFG_CLK in the transfer under way, one for each bit sent and each bit sampled. Outside a
transfer there is none: the clock is low. -/
def State.cfgClkPulses (s : State) : Nat := if s.loader.phase = .transfer then s.cfgDo.length + 2048 else 0

/-- R121: the time left in a lockout, in milliseconds rounded up; 0 while not locked out. -/
def State.lockoutRemaining (s : State) : Nat :=
  match s.key.checker with
  | .openChannel => 0
  | .lockedOut endTime => (endTime.toNat - s.timebase.toNat + 999) / 1000

/-- R57, R153: free slots as reported. -/
def State.reportedFree (s : State) : Nat := if s.journal.started then s.freeSlots else 0

/-- R153: the chosen copy's tail sequence, or 0 if none was chosen. -/
def State.chosenTailSeq (s : State) : Serial :=
  match s.recovery.chosen with
  | some c => c.tail.seq
  | none => 0

/-- R57, R153: the published tail sequence as reported. -/
def State.reportedTailSeq (s : State) : Serial := if s.journal.started then s.journal.published.seq else s.chosenTailSeq

/-- R57, R153: the head sequence as reported. -/
def State.reportedHeadSeq (s : State) : Serial := if s.journal.started then s.journal.head.seq else s.chosenTailSeq

/-- R57, R153: the recovery count as reported. -/
def State.reportedRecoveryCount (s : State) : BitVec 16 :=
  if s.journal.started then s.header.recoveryCount
  else match s.recovery.chosen with
  | some c => c.recoveryCount
  | none => 0

/-- Table 12-3, byte 21: bit 0 abuse indicator, bit 1 formatted at last start-up. -/
def State.indicators (s : State) : Byte := BitVec.ofNat 8 (s.key.abuse.toNat + 2 * s.startupFormatted.toNat)

/-- Bytes 0-23 of the status record: the requester part of context x with the device state and the small device fields. -/
def State.statusLow (s : State) (x : Context) : BitVec 192 :=
  BitVec.ofNat 8 s.startupUndone ++ (s.device.cause.code ++ (s.indicators ++ (BitVec.ofNat 8 x.opsInFlight ++
    (BitVec.ofNat 16 x.undoCount ++ (BitVec.ofNat 16 x.holdsCount ++ (x.openNumber.getD 0 ++ (x.label.getD 0 ++
      (s.device.state.code ++ (x.lastOutcome.code ++ (reasonCode x.reason ++ x.state.code))))))))))

/-- Bytes 24-63 of the status record. -/
def State.statusHigh (s : State) : BitVec 320 :=
  0#112 ++ (s.reportedRecoveryCount ++ (BitVec.ofNat 32 s.lockoutRemaining ++ (BitVec.ofNat 16 s.key.total ++
    (BitVec.ofNat 16 s.holds.length ++ (s.reportedHeadSeq ++ (s.reportedTailSeq ++
      (BitVec.ofNat 32 s.reportedFree ++ BitVec.ofNat 32 s.slotCount)))))))

/-- R111, R112, Table 12-3: the status record of requester c, as the part stands. -/
def State.statusRecord (s : State) (c : RequesterId) : Line := s.statusHigh ++ s.statusLow (s.ctx c)

end Sys2Proof.Machine
end

