-- ==== Sys2Proof/Machine/Commands.lean ====
section
/-! DEFINITION. The Control Line Decoder and the Key Checker (chapters 6 and 7): the checks of Table 6-1 and the five
commands against the context state (Table 6-2). A line is checked and acts in one step, when it is taken (log 7). -/

namespace Sys2Proof.Machine

/-- R14, Table 6-3: answer a control line at once and set its outcome. -/
def State.answerLine (s : State) (r : RequesterId) (t : Tag) (code : ResponseCode) (detail : ResponseDetail)
    (outcome : ControlOutcome) : State :=
  (s.modCtx r (fun x => { x with lastOutcome := outcome })).respond r t code detail

/-- A control line refused: ERROR CONTROL_REFUSED. -/
def State.refuseLine (s : State) (r : RequesterId) (t : Tag) (outcome : ControlOutcome) : State :=
  s.answerLine r t .error .controlRefused outcome

/-- A control line answered OKAY NONE. -/
def State.acceptLine (s : State) (r : RequesterId) (t : Tag) (outcome : ControlOutcome) : State :=
  s.answerLine r t .okay .noDetail outcome

/-! ## The Key Checker -/

/-- The failure window in microseconds. -/
def Params.windowMicros (p : Params) : Nat := p.failureWindow * Config.second

/-- R118, step 1 and 2: age the failure-time list at time T, then append T. -/
def agedFailures (window : Nat) (now : Time) (failures : List Time) : List Time :=
  failures.dropWhile (fun t => decide (window < now.toNat - t.toNat)) ++ [now]

/-- R118: record a mismatch: age, append, count, threshold. -/
def KeyChecker.recordMismatch (k : KeyChecker) (p : Params) (now : Time) : KeyChecker :=
  let failures := agedFailures p.windowMicros now k.failures
  let total := if k.total < Config.saturation then k.total + 1 else k.total
  let abuse := k.abuse || (decide (k.total < Config.saturation) && decide (k.total + 1 = Config.abuseThreshold))
  if p.failureThreshold ≤ failures.length then
    { checker := .lockedOut (now + BitVec.ofNat 64 (p.lockoutDuration * Config.second)), failures := [], total := total,
      abuse := abuse }
  else { checker := .openChannel, failures := failures, total := total, abuse := abuse }

/-! ## The commands in SERVING -/

/-- R4, R102. -/
def State.takeOpen (s : State) (r : RequesterId) (t : Tag) (label : Word64) : State :=
  match (s.ctx r).state with
  | .idle =>
    State.acceptLine ({ (s.modCtx r (fun x =>
      { x with
        state := .opened, openNumber := some s.openCounter, label := some label, undoCount := 0, holdsCount := 0
        opsInFlight := 0, forwardedOutstanding := 0, firstSlot := none, lastSlot := none, reason := none
        noticeDue := none, held := [] })) with openCounter := s.openCounter + 1 }) r t .done
  | .opened => s.refuseLine r t .nested
  | .committing => s.refuseLine r t .nested
  | .abortPending => s.respond r t .retry .busy
  | .rollingBack => s.respond r t .retry .busy
  | .aborted => s.refuseLine r t .noticePending

/-- R7, R103. A context with nothing in flight asks for its COMMIT record at once (R79). -/
def State.takeCommit (s : State) (r : RequesterId) (t : Tag) : State :=
  match (s.ctx r).state with
  | .idle => s.refuseLine r t .noTransaction
  | .opened =>
    let u := (s.modCtx r (fun x => { x with state := .committing, held := x.held ++ [t] })).takeTag r t
    if (s.ctx r).drained then u.askEndRecord r .commit else u
  | .committing => s.refuseLine r t .alreadyCommitting
  | .abortPending => s.refuseLine r t .alreadyAborting
  | .rollingBack => s.refuseLine r t .alreadyAborting
  | .aborted => s.refuseLine r t .noticePending

/-- R10: an ABORT joins the abort under way. -/
def State.joinAbort (s : State) (r : RequesterId) (t : Tag) : State :=
  (s.modCtx r (fun x => { x with held := x.held ++ [t], noticeDue := some false })).takeTag r t

/-- R9, R10, R104. -/
def State.takeAbort (s : State) (r : RequesterId) (t : Tag) : State :=
  match (s.ctx r).state with
  | .idle => s.refuseLine r t .noTransaction
  | .opened => ((s.abortRequest r .requested).modCtx r (fun x => { x with held := [t] })).takeTag r t
  | .committing => s.refuseLine r t .tooLate
  | .abortPending => s.joinAbort r t
  | .rollingBack => s.joinAbort r t
  | .aborted => s.refuseLine r t .noticePending

/-- R106, R109. -/
def State.takeQuery (s : State) (r : RequesterId) (t : Tag) (l : LineAddr) : State :=
  (s.modCtx r (fun x => { x with arming := some l })).acceptLine r t .done

/-- R13, R105. -/
def State.takeAcknowledge (s : State) (r : RequesterId) (t : Tag) : State :=
  match (s.ctx r).state with
  | .idle => s.acceptLine r t .nothingPending
  | .opened => s.acceptLine r t .nothingPending
  | .committing => s.acceptLine r t .nothingPending
  | .abortPending => s.acceptLine r t .nothingPending
  | .rollingBack => s.acceptLine r t .nothingPending
  | .aborted =>
    ((s.modCtx r (fun x => { x with state := .idle, openNumber := none, label := none, reason := none })).acceptLine r t
      .done).syncNotices

/-- R101: a command in SERVING. -/
def State.takeCommand (s : State) (r : RequesterId) (t : Tag) (l : LineAddr) (label : Word64) : Command → State
  | .openTransaction => s.takeOpen r t label
  | .commit => s.takeCommit r t
  | .abort => s.takeAbort r t
  | .query => s.takeQuery r t l
  | .acknowledge => s.takeAcknowledge r t

/-- R115: a command in FAULTED: QUERY is taken, the others are refused with NOT_AVAILABLE. -/
def State.takeFaulted (s : State) (r : RequesterId) (t : Tag) (l : LineAddr) : Command → State
  | .query => s.takeQuery r t l
  | .openTransaction => s.refuseLine r t .notAvailable
  | .commit => s.refuseLine r t .notAvailable
  | .abort => s.refuseLine r t .notAvailable
  | .acknowledge => s.refuseLine r t .notAvailable

/-- R100, R101: what follows a matching key: the format check, then the command. -/
def State.takeMatched (s : State) (r : RequesterId) (t : Tag) (l : LineAddr) (d : Line) : State :=
  if malformedLine d then s.refuseLine r t .malformed
  else match Command.ofCode (lineCommand d) with
  | none => s.refuseLine r t .malformed
  | some c => if s.device.state = .faulted then s.takeFaulted r t l c else s.takeCommand r t l (lineLabel d) c

/-- R99, R117: the lockout check, the key comparison, then the rest. -/
def State.controlLine (s : State) (r : RequesterId) (t : Tag) (l : LineAddr) (d : Line) : State :=
  match s.key.checker with
  | .lockedOut _ => s.refuseLine r t .lockedOut
  | .openChannel =>
    if lineKey d = s.params.key then s.takeMatched r t l d
    else State.refuseLine { s with key := s.key.recordMismatch s.params s.timebase } r t .keyMismatch

end Sys2Proof.Machine
end

