-- ==== Sys2Proof/Machine/Classifier.lean ====
section
/-! DEFINITION. The Request Classifier (chapter 4): every system-link request, by device state and in the order of
Table 4-2 and R62. A request is what its contents make it (log 5). -/

namespace Sys2Proof.Machine

/-- R65: the line has a pending forwarded write: a write in the Forward Queue, issued or not, or an operation in
FORWARDING. -/
def State.pendingWrite (s : State) (l : LineAddr) : Bool :=
  s.forward.any (fun e => decide (e.line = l) && decide (e.kind ≠ .read))
    || s.ops.any (fun o => decide (o.line = l) && decide (o.stage = .forwarding))

/-- The line has a hold entry in JOURNALING (R20). -/
def State.lineJournaling (s : State) (l : LineAddr) : Bool :=
  (s.hold? l).any (fun e => decide (e.state = .journaling))

/-- The context that holds the line in HELD, if that is not context r (R66). -/
def State.heldByOther (s : State) (r : RequesterId) (l : LineAddr) : Option RequesterId :=
  match s.hold? l with
  | some e => if e.state = .held ∧ e.owner ≠ r then some e.owner else none
  | none => none

/-- R28: a taken data write clears the requester's wait record. -/
def State.clearWait (s : State) (r : RequesterId) : State := s.modCtx r (fun x => { x with wait := none })

/-- R27: a write refused RETRY CONFLICT sets the wait record, unless one names this line already. -/
def State.updateWait (s : State) (r : RequesterId) (l : LineAddr) (holder : RequesterId) : State :=
  s.modCtx r (fun x =>
    if x.wait.any (fun w => decide (w.line = l)) then x
    else { x with wait := some { line := l, holder := holder, start := s.timebase } })

/-- R68, R70: place a request at the tail of the Forward Queue, or answer RETRY QUEUE_FULL. A write so placed is
taken and clears the wait record (R28). -/
def State.enqueue (s : State) (r : RequesterId) (t : Tag) (l : LineAddr) (kind : AccessKind) (journaled : Bool) : State :=
  if Config.forwardEntries ≤ s.forward.length then s.respond r t .retry .queueFull
  else
    let e : ForwardEntry :=
      { requester := r, tag := t, kind := kind, line := l, journaled := journaled, forgotten := false, issued := none }
    let u := State.takeTag { s with forward := s.forward ++ [e] } r t
    if kind = .read then u else u.clearWait r

/-- R67, R71: start a journaling operation for a first write, in three steps. -/
def State.startOperation (s : State) (r : RequesterId) (t : Tag) (l : LineAddr) (mask : ByteMask) (d : Line) : State :=
  if Config.opEntries ≤ s.ops.length then s.respond r t .retry .queueFull
  else match s.insertHold r l with
  | .refused reason => ((s.abortRequest r reason).clearWait r).respond r t .error .aborted
  | .inserted u =>
    let o : Operation :=
      { requester := r, tag := t, line := l, mask := mask, data := d, stage := .readingOld, slot := none, old := none
        cancelled := false, forgotten := false, access := none }
    (State.takeTag { u with ops := u.ops ++ [o] } r t).modCtx r
      (fun x => { x with opsInFlight := x.opsInFlight + 1, wait := none })

/-- R67: a write in a journaled range that has passed the earlier steps, by context state. -/
def State.journaledWrite (s : State) (r : RequesterId) (t : Tag) (l : LineAddr) (mask : ByteMask) (d : Line) : State :=
  match (s.ctx r).state with
  | .opened =>
    match s.hold? l with
    | none => s.startOperation r t l mask d
    | some _ =>
      if Config.forwardEntries ≤ s.forward.length then s.respond r t .retry .queueFull
      else (s.enqueue r t l (.write mask d) true).modCtx r
        (fun x => { x with forwardedOutstanding := x.forwardedOutstanding + 1 })
  | .committing => s.respond r t .retry .busy
  | .abortPending => (s.clearWait r).respond r t .error .aborted
  | .rollingBack => (s.clearWait r).respond r t .error .aborted
  | .aborted => (s.clearWait r).respond r t .error .aborted
  | .idle => s.enqueue r t l (.write mask d) false

/-- R64, R110: the requester's arming equals the line. -/
def State.queryArmed (s : State) (r : RequesterId) (l : LineAddr) : Bool := decide ((s.ctx r).arming = some l)

/-- R110: a query read: the status record, and the arming is cleared. -/
def State.answerQuery (s : State) (r : RequesterId) (t : Tag) : State :=
  (s.modCtx r (fun x => { x with arming := none })).respond r t .okay .noDetail (some (s.statusRecord r))

/-- R97: recognition, which needs a parameter set. -/
def State.recognises (s : State) (mask : ByteMask) (d : Line) : Bool :=
  s.loader.params.any (fun p => isControlLine p.signature mask d)

/-- Table 4-2, steps 6 to 9 for a write. -/
def State.dataWrite (s : State) (r : RequesterId) (t : Tag) (l : LineAddr) (mask : ByteMask) (d : Line) : State :=
  if s.lineJournaling l || s.pendingWrite l then s.respond r t .retry .inFlight
  else match s.heldByOther r l with
  | some holder => (s.updateWait r l holder).respond r t .retry .conflict
  | none => if s.params.inJournaledRange l then s.journaledWrite r t l mask d else s.enqueue r t l (.write mask d) false

/-- R62, steps 6 to 8 for a write in FAULTED. -/
def State.faultedWrite (s : State) (r : RequesterId) (t : Tag) (l : LineAddr) (mask : ByteMask) (d : Line) : State :=
  if s.params.inJournaledRange l then (s.clearWait r).respond r t .error .fault
  else if s.pendingWrite l then s.respond r t .retry .inFlight
  else s.enqueue r t l (.write mask d) false

/-- R107, R108: a recognised control line waits for its command to be taken, its tag in use (log 7). -/
def State.awaitLine (s : State) (r : RequesterId) (t : Tag) (l : LineAddr) (d : Line) : State :=
  State.takeTag { s with classified := s.classified ++ [{ requester := r, tag := t, line := l, data := d }] } r t

/-- Table 4-2 and R62, steps 1 to 4 for a write, then the rest. A control line is taken at once if `take` says so, and
otherwise waits to be taken. -/
def State.classifyWrite (s : State) (take : Bool) (r : RequesterId) (t : Tag) (l : LineAddr) (mask : ByteMask)
    (d : Line) : State :=
  if s.outstanding.contains (r, t) then s.respond r t .error .tagInUse
  else if s.params.inJournalArea l then (s.clearWait r).respond r t .error .reservedArea
  else if mask = 0 then (s.clearWait r).respond r t .okay .noDetail
  else if s.recognises mask d then (if take then s.controlLine r t l d else s.awaitLine r t l d)
  else if s.device.state = .faulted then s.faultedWrite r t l mask d else s.dataWrite r t l mask d

/-- Table 4-2 and R62 for a read. In FAULTED no read is checked against hold entries. -/
def State.classifyRead (s : State) (r : RequesterId) (t : Tag) (l : LineAddr) : State :=
  if s.outstanding.contains (r, t) then s.respond r t .error .tagInUse
  else if s.params.inJournalArea l then s.respond r t .error .reservedArea
  else if s.queryArmed r l then s.answerQuery r t
  else if s.lineJournaling l && decide (s.device.state ≠ .faulted) then s.respond r t .retry .inFlight
  else s.enqueue r t l .read false

/-- R61: the states in which every request is answered RETRY NOT_READY. -/
def State.notReady (s : State) : Bool :=
  s.device.powerFailPending || decide (s.device.state = .loading) || decide (s.device.state = .recovering)
    || decide (s.device.state = .draining) || decide (s.device.state = .halted)

/-- R61, R143, R156: a read arrives. While PORST_N is asserted no request is taken and no response sent. -/
def State.handleRead (s : State) (r : RequesterId) (t : Tag) (l : LineAddr) : State :=
  if s.pins.porst then s
  else if s.notReady then s.respond r t .retry .notReady
  else if s.device.state = .passthrough then
    if s.outstanding.contains (r, t) then s.respond r t .error .tagInUse else s.enqueue r t l .read false
  else s.classifyRead r t l

/-- R61, R143, R156: a write arrives. -/
def State.handleWrite (s : State) (take : Bool) (r : RequesterId) (t : Tag) (l : LineAddr) (mask : ByteMask)
    (d : Line) : State :=
  if s.pins.porst then s
  else if s.notReady then s.respond r t .retry .notReady
  else if s.device.state = .passthrough then
    if s.outstanding.contains (r, t) then s.respond r t .error .tagInUse
    else if mask = 0 then (s.clearWait r).respond r t .okay .noDetail
    else s.enqueue r t l (.write mask d) false
  else s.classifyWrite take r t l mask d

/-- The control line waits to be taken. -/
def State.lineWaits (s : State) (w : WaitingLine) : Bool :=
  s.classified.contains w && s.outstanding.contains (w.requester, w.tag)

/-- R107, R108: the command of a control line that waits is taken, in the device state that holds now. From the
assertion of PFAIL_N it is not taken and the line is left as it stands; nor is it in a state that examines no
request. -/
def State.takeWaiting (s : State) (w : WaitingLine) : State :=
  if !s.device.powerFailPending && (decide (s.device.state = .serving) || decide (s.device.state = .faulted)) then
    State.controlLine { s with
      classified := s.classified.erase w
      outstanding := s.outstanding.filter (fun e => decide (e ≠ (w.requester, w.tag))) } w.requester w.tag w.line w.data
  else s

/-- A control line's command: the line is taken if it waits, and otherwise it arrives and is taken at once (log 7). -/
def State.handleLine (s : State) (r : RequesterId) (t : Tag) (l : LineAddr) (d : Line) : State :=
  let w : WaitingLine := { requester := r, tag := t, line := l, data := d }
  if s.lineWaits w then s.takeWaiting w else s.handleWrite true r t l fullMask d

end Sys2Proof.Machine
end

