-- ==== Sys2Proof/Machine/ControlLines.lean ====
section
/-! DEFINITION. OPEN, COMMIT, ABORT, QUERY, ACKNOWLEDGE, CONTROL_LINE_UNKNOWN_COMMAND: full-mask writes whose 64 bytes
are those of Table 12-2. The classifier recognises them by their contents (R97); one that is not recognised is data. A line
that WRITE_REQUEST has classified already is only taken here (R107, R108; log 7). -/

namespace Sys2Proof.Machine

/-- OPEN (R102). -/
def execOpen (r : RequesterId) (t : Tag) (l : LineAddr) (f : ControlFields) (s : State) : Result :=
  .next (s.handleLine r t l (controlLineData Command.openTransaction.code f))

/-- COMMIT (R103). -/
def execCommit (r : RequesterId) (t : Tag) (l : LineAddr) (f : ControlFields) (s : State) : Result :=
  .next (s.handleLine r t l (controlLineData Command.commit.code f))

/-- ABORT (R104). -/
def execAbort (r : RequesterId) (t : Tag) (l : LineAddr) (f : ControlFields) (s : State) : Result :=
  .next (s.handleLine r t l (controlLineData Command.abort.code f))

/-- QUERY (R106). -/
def execQuery (r : RequesterId) (t : Tag) (l : LineAddr) (f : ControlFields) (s : State) : Result :=
  .next (s.handleLine r t l (controlLineData Command.query.code f))

/-- ACKNOWLEDGE (R105). -/
def execAcknowledge (r : RequesterId) (t : Tag) (l : LineAddr) (f : ControlFields) (s : State) : Result :=
  .next (s.handleLine r t l (controlLineData Command.acknowledge.code f))

/-- CONTROL_LINE_UNKNOWN_COMMAND (R100). -/
def execControlLineUnknownCommand (r : RequesterId) (t : Tag) (l : LineAddr) (code : Byte) (f : ControlFields)
    (s : State) : Result :=
  .next (s.handleLine r t l (controlLineData code f))

end Sys2Proof.Machine
end

