-- ==== Sys2Proof/Machine/Forwarding.lean ====
section
/-! DEFINITION. FORWARD_ACCESS_COMPLETE (R70) and MEMORY_RESPONSE_UNKNOWN_SLOT (R124). -/

namespace Sys2Proof.Machine

/-- R70: the response of a completed forwarded access. -/
def State.answerForwarded (s : State) (e : ForwardEntry) (result : ReadResult) : State :=
  match e.kind, result with
  | .read, .okay d => s.finish e.forgotten e.requester e.tag .okay .noDetail (some d)
  | .read, .error => s.finish e.forgotten e.requester e.tag .error .memoryError
  | .write _ _, .okay _ => s.finish e.forgotten e.requester e.tag .okay .noDetail
  | .write _ _, .error => s.finish e.forgotten e.requester e.tag .error .memoryError

/-- R5, R70: for an entry with the journaled mark, the count falls, an ERROR raises an abort request, and the
context may so reach its drain. -/
def State.forwardedCounted (s : State) (e : ForwardEntry) (result : ReadResult) : State :=
  if e.journaled then
    let t := s.modCtx e.requester (fun x => { x with forwardedOutstanding := x.forwardedOutstanding - 1 })
    let u := if result = .error then t.abortRequest e.requester .memoryError else t
    u.noteDrain e.requester
  else s

/-- R70: the Forward Queue entry issued in slot k completes: it leaves the queue, its response is sent, its count falls. -/
def State.forwardComplete (k : AccessSlot) (result : ReadResult) (_a : Access) (s : State) : State :=
  match s.forward.find? (fun e => decide (e.issued = some k)) with
  | none => s
  | some e =>
    (State.answerForwarded { s with forward := s.forward.eraseP (fun e => decide (e.issued = some k)) } e
      result).forwardedCounted e result

/-- FORWARD_ACCESS_COMPLETE (R70). For a write the data of the result are not used (R164). -/
def execForwardAccessComplete (k : AccessSlot) (result : ReadResult) (s : State) : Result :=
  .next (s.complete k (fun p => decide (p = .forwarded)) (State.forwardComplete k result))

/-- MEMORY_RESPONSE_UNKNOWN_SLOT (R124): a response that names a slot holding no access is discarded. -/
def execMemoryResponseUnknownSlot (_k : AccessSlot) (_result : ReadResult) (s : State) : Result := .next s

end Sys2Proof.Machine
end

