-- ==== Sys2Proof/Machine/Journaling.lean ====
section
/-! DEFINITION. The journaling operations (4.7): OLD_LINE_READ_COMPLETE, UNDO_SLOT_REQUEST,
OPERATION_FORWARDED_WRITE_COMPLETE. -/

namespace Sys2Proof.Machine

/-- R72: the old-line read of operation o completes. -/
def State.oldLineRead (s : State) (o : Operation) (result : ReadResult) : State :=
  if o.cancelled then (s.removeHold o.line).retireOp o .error .aborted
  else match result with
  | .error => (s.removeHold o.line).failOp o .memoryError .memoryError
  | .okay d => s.modOp o.line (fun p => { p with stage := .appending, old := some d, access := none })

/-- R72, delivered to the operation on the access's line. -/
def State.oldLineReadDelivered (result : ReadResult) (a : Access) (s : State) : State :=
  match s.op? a.line with
  | none => s
  | some o => s.oldLineRead o result

/-- OLD_LINE_READ_COMPLETE (R72). -/
def execOldLineReadComplete (k : AccessSlot) (result : ReadResult) (s : State) : Result :=
  .next (s.complete k (fun p => decide (p = .oldLineRead)) (State.oldLineReadDelivered result))

/-- R5, R42, R73: the slot request of operation o is granted. -/
def State.grantUndo (s : State) (o : Operation) : State :=
  let slot := s.journal.head
  ((s.grantSlot o.requester (s.undoRecord o)).modOp o.line (fun p => { p with slot := some slot })).modCtx o.requester
    (fun x => { x with
      undoCount := x.undoCount + 1, lastSlot := some slot.slot, firstSlot := x.firstSlot.or (some slot.slot) })

/-- R43, R73: the slot request of operation o is refused for want of free slots. -/
def State.refuseUndo (s : State) (o : Operation) : State :=
  (s.removeHold o.line).failOp o .aborted .journalFull

/-- R43, R54, R73: the Journal Writer takes the slot request of operation o. -/
def State.undoRequest (s : State) (o : Operation) : State :=
  match s.device.state with
  | .serving | .draining => if Config.endReserve < s.freeSlots then s.grantUndo o else s.refuseUndo o
  | .faulted => s.endOp o .error .fault
  | .loading | .recovering | .passthrough | .halted => s

/-- UNDO_SLOT_REQUEST (R43): the Journal Writer takes the slot request of the operation on this line. From the assertion
of PFAIL_N no slot request is taken (R56). -/
def execUndoSlotRequest (l : LineAddr) (s : State) : Result :=
  match s.op? l with
  | some o => if o.asking && !s.device.powerFailPending then .next (s.undoRequest o) else .next s
  | none => .next s

/-- R75: the forwarded write of operation o completes. -/
def State.operationWritten (s : State) (o : Operation) (result : WriteResult) : State :=
  match result with
  | .okay => s.retireOp o .okay .noDetail
  | .error => s.failOp o .memoryError .memoryError

/-- R75, delivered to the operation on the access's line. -/
def State.operationWrittenDelivered (result : WriteResult) (a : Access) (s : State) : State :=
  match s.op? a.line with
  | none => s
  | some o => s.operationWritten o result

/-- OPERATION_FORWARDED_WRITE_COMPLETE (R75). -/
def execOperationForwardedWriteComplete (k : AccessSlot) (result : WriteResult) (s : State) : Result :=
  .next (s.complete k (fun p => decide (p = .operationWrite)) (State.operationWrittenDelivered result))

end Sys2Proof.Machine
end

