-- ==== Sys2Proof/Machine/Loading.lean ====
section
/-! DEFINITION. CONFIGURATION_TRANSFER_END (R136, R138 to R141). -/

namespace Sys2Proof.Machine

/-- R140, R141, R157: a block that passed validation becomes the parameter set and the device enters RECOVERING. The
attempt count keeps its last value (log 33). -/
def State.loadSuccess (s : State) (b : ParamBlock) : State :=
  State.beginRecovery { s with loader := { s.loader with phase := .idle, params := some (Params.ofBlock b) } }

/-- R140: a failed attempt: another one after the pause, or PASSTHROUGH after the third, the attempt count
keeping its last value (log 33). -/
def State.loadFailure (s : State) : State :=
  if s.loader.attempt < Config.loadAttempts then
    { s with loader := { s.loader with
      attempt := s.loader.attempt + 1, phase := .pausing (s.timebase + BitVec.ofNat 64 Config.loadPause) } }
  else
    State.entryLinkReset { s with
      loader := { s.loader with phase := .idle, params := none }
      device := { s.device with state := .passthrough } }

/-- CONFIGURATION_TRANSFER_END (R136, R138): the transfer in progress ends with these 256 bytes sampled. -/
def execConfigurationTransferEnd (sampled : SampledBits) (s : State) : Result :=
  match s.loader.phase with
  | .transfer =>
    if blockValid (blockOfSampled sampled) then .next (s.loadSuccess (blockOfSampled sampled)) else .next s.loadFailure
  | .idle => .next s
  | .pausing _ => .next s

end Sys2Proof.Machine
end

