-- ==== Sys2Proof/Machine/Requests.lean ====
section
/-! DEFINITION. READ_REQUEST, WRITE_REQUEST, QUERY_READ. -/

namespace Sys2Proof.Machine

/-- READ_REQUEST (R68): a read on the system link. -/
def execReadRequest (r : RequesterId) (t : Tag) (l : LineAddr) (s : State) : Result := .next (s.handleRead r t l)

/-- WRITE_REQUEST (R67): a write on the system link. One whose bytes make a control line is classified here, and its
command is taken by the row of that command (R107, R108; log 7). -/
def execWriteRequest (r : RequesterId) (t : Tag) (l : LineAddr) (mask : ByteMask) (d : Line) (s : State) : Result :=
  .next (s.handleWrite false r t l mask d)

/-- QUERY_READ (R110): a read on the system link; at the requester's armed line it is answered with the status record. -/
def execQueryRead (r : RequesterId) (t : Tag) (l : LineAddr) (s : State) : Result := .next (s.handleRead r t l)

end Sys2Proof.Machine
end

