-- ==== Sys2Proof/Machine/ResetPins.lean ====
section
/-! DEFINITION. PORST_N_ASSERT, PORST_N_DEASSERT, LINK_RESET, LRST_N_DEASSERT, PFAIL_N_ASSERT, PFAIL_N_DEASSERT. A pin
command stands for a change of level that passed the input filter (R165). A command that names the level the pin
already has is no change. -/

namespace Sys2Proof.Machine

/-- What a power-on reset does not touch: the levels of the other pins, the commands that wait, and the model's own
trace of responses and counters of accesses and draws. -/
def State.powerOnValues (s : State) (porst : Bool) : State :=
  { State.reset with
    pins := { s.pins with porst := porst }
    sent := s.sent, issued := s.issued, draws := s.draws, pending := s.pending }

/-- R56, R94, R142, R154, R161: the assertion of PFAIL_N is taken. A sequencer that stops keeps its other fields as they
stand (log 30), and a loader that stops its attempt count (log 33). -/
def State.takePowerFail (s : State) : State :=
  if s.device.state = .halted ∨ s.device.powerFailPending = true then s
  else
    State.settle { s with
      device := { s.device with powerFailPending := true }
      loader := { s.loader with phase := .idle }
      header := { s.header with pendingImage := none }
      recovery := if s.device.state = .recovering then { s.recovery with phase := .stopped } else s.recovery }

/-- PORST_N_ASSERT (R156): the whole part is reset in any state; the timebase is held at 0 (R1), the configuration port
idle. -/
def execPorstNAssert (s : State) : Result :=
  .next (if s.pins.porst then s
    else
      let t := s.powerOnValues true
      { t with loader := { t.loader with phase := .idle } })

/-- PORST_N_DEASSERT (R156, R140): LOADING with power-on reset values and the first transfer; an assertion of PFAIL_N
that already stands is taken at once (R157). -/
def execPorstNDeassert (s : State) : Result :=
  .next (if s.pins.porst then
      let t := s.powerOnValues false
      if t.pins.pfail then t.takePowerFail else t
    else s)

/-- LINK_RESET (R159): the assertion of LRST_N. While PORST_N is asserted only the level is taken. -/
def execLinkReset (s : State) : Result :=
  .next (if s.pins.lrst then s
    else
      let t := { s with pins := { s.pins with lrst := true } }
      if s.pins.porst then t else t.takeLinkReset)

/-- LRST_N_DEASSERT (R160). -/
def execLrstNDeassert (s : State) : Result :=
  .next (State.drainTest { s with pins := { s.pins with lrst := false } })

/-- PFAIL_N_ASSERT (R161). While PORST_N is asserted only the level is taken. -/
def execPfailNAssert (s : State) : Result :=
  .next (if s.pins.pfail then s
    else
      let t := { s with pins := { s.pins with pfail := true } }
      if s.pins.porst then t else t.takePowerFail)

/-- PFAIL_N_DEASSERT (R161): nothing but the level changes. -/
def execPfailNDeassert (s : State) : Result := .next { s with pins := { s.pins with pfail := false } }

end Sys2Proof.Machine
end

