-- ==== Sys2Proof/Machine/Timers.lean ====
section
/-! DEFINITION. CONFLICT_TIMER_EXPIRY, LOCKOUT_EXPIRY, LOAD_PAUSE_END, TIMEBASE_ADVANCE. A timer command before its
time, or where its timer does not run, changes nothing (log 4). -/

namespace Sys2Proof.Machine

/-- R1: the timebase has reached t. -/
def State.reached (s : State) (t : Nat) : Bool := decide (t ≤ s.timebase.toNat)

/-- R29, R35: conflict timers run in SERVING and DRAINING, until PFAIL_N is asserted. -/
def State.conflictTimersRun (s : State) : Bool :=
  !s.device.powerFailPending && (decide (s.device.state = .serving) || decide (s.device.state = .draining))

/-- R3, R31: of two open transactions, whether context a with open number n is the younger against context b with m. -/
def younger (a : RequesterId) (n : Serial) (b : RequesterId) (m : Serial) : Bool :=
  if (n - m).toNat = 2 ^ 31 then decide (b < a) else Serial.older m n

/-- Set the start time of a wait record to the current timebase value. -/
def State.restartWait (s : State) (c : RequesterId) : State :=
  s.modCtx c (fun x => { x with wait := x.wait.map (fun w => { w with start := s.timebase }) })

/-- R32: the holder is the victim; the waiter's record is kept and restarted. -/
def State.victimHolder (s : State) (waiter holder : RequesterId) : State :=
  (s.abortRequest holder .conflict).restartWait waiter

/-- R31: the line is held by the recorded holder. -/
def State.chooseVictim (s : State) (waiter holder : RequesterId) : State :=
  match (s.ctx waiter).state, (s.ctx holder).state with
  | .committing, _ => s.modCtx waiter (fun x => { x with wait := none })
  | .abortPending, _ => s.modCtx waiter (fun x => { x with wait := none })
  | .rollingBack, _ => s.modCtx waiter (fun x => { x with wait := none })
  | .aborted, _ => s.modCtx waiter (fun x => { x with wait := none })
  | .idle, .committing => s.restartWait waiter
  | .idle, .abortPending => s.restartWait waiter
  | .idle, .rollingBack => s.restartWait waiter
  | .opened, .committing => s.restartWait waiter
  | .opened, .abortPending => s.restartWait waiter
  | .opened, .rollingBack => s.restartWait waiter
  | .idle, .opened => s.victimHolder waiter holder
  | .opened, .opened =>
    if younger waiter ((s.ctx waiter).openNumber.getD 0) holder ((s.ctx holder).openNumber.getD 0)
    then s.abortRequest waiter .conflict else s.victimHolder waiter holder
  | .idle, .idle => s
  | .idle, .aborted => s
  | .opened, .idle => s
  | .opened, .aborted => s

/-- R30: an expiry first looks up the record's line. -/
def State.conflictExpiry (s : State) (waiter : RequesterId) (w : WaitRecord) : State :=
  match s.hold? w.line with
  | none => s.modCtx waiter (fun x => { x with wait := none })
  | some e =>
    if e.owner = w.holder then s.chooseVictim waiter w.holder
    else s.modCtx waiter (fun x => { x with wait := some { w with holder := e.owner, start := s.timebase } })

/-- CONFLICT_TIMER_EXPIRY (R30). -/
def execConflictTimerExpiry (waiter : RequesterId) (s : State) : Result :=
  match (s.ctx waiter).wait with
  | some w =>
    if s.conflictTimersRun && s.reached (w.start.toNat + s.params.conflictTimeout) then
      .next (s.conflictExpiry waiter w) else .next s
  | none => .next s

/-- R122: the device states in which the lockout timer runs, the wind-down from any of them included. -/
def State.lockoutTimerRuns (s : State) : Bool :=
  !s.pins.porst && (decide (s.device.state = .serving) || decide (s.device.state = .faulted)
    || decide (s.device.state = .draining) || s.device.powerFailPending)

/-- LOCKOUT_EXPIRY (R119). -/
def execLockoutExpiry (s : State) : Result :=
  match s.key.checker with
  | .lockedOut endTime =>
    if s.lockoutTimerRuns && s.reached endTime.toNat then .next { s with key := { s.key with checker := .openChannel } }
    else .next s
  | .openChannel => .next s

/-- LOAD_PAUSE_END (R140): the pause ends and the next transfer starts. -/
def execLoadPauseEnd (s : State) : Result :=
  match s.loader.phase with
  | .pausing endTime =>
    if s.reached endTime.toNat then .next { s with loader := { s.loader with phase := .transfer } } else .next s
  | .idle => .next s
  | .transfer => .next s

/-- TIMEBASE_ADVANCE (R1): held at 0 while PORST_N is asserted; otherwise one microsecond on, in every device state. -/
def execTimebaseAdvance (s : State) : Result :=
  if s.pins.porst then .next { s with timebase := 0 } else .next { s with timebase := s.timebase + 1 }

end Sys2Proof.Machine
end

