-- ==== Sys2Proof/Machine/Dispatch.lean ====
section
/-! DEFINITION. One arm for each command: a direct call of its meaning. -/

namespace Sys2Proof.Machine

def exec (i : Instr) (s : State) : Host.Outcome State Fault Refusal :=
  match i with
  | .porstNAssert => Sys2Proof.Machine.execPorstNAssert s
  | .porstNDeassert => Sys2Proof.Machine.execPorstNDeassert s
  | .linkReset => Sys2Proof.Machine.execLinkReset s
  | .lrstNDeassert => Sys2Proof.Machine.execLrstNDeassert s
  | .pfailNAssert => Sys2Proof.Machine.execPfailNAssert s
  | .pfailNDeassert => Sys2Proof.Machine.execPfailNDeassert s
  | .readRequest r t l => Sys2Proof.Machine.execReadRequest r t l s
  | .writeRequest r t l m d => Sys2Proof.Machine.execWriteRequest r t l m d s
  | .queryRead r t l => Sys2Proof.Machine.execQueryRead r t l s
  | .openTransaction r t l f => Sys2Proof.Machine.execOpen r t l f s
  | .commit r t l f => Sys2Proof.Machine.execCommit r t l f s
  | .abort r t l f => Sys2Proof.Machine.execAbort r t l f s
  | .query r t l f => Sys2Proof.Machine.execQuery r t l f s
  | .acknowledge r t l f => Sys2Proof.Machine.execAcknowledge r t l f s
  | .controlLineUnknownCommand r t l c f => Sys2Proof.Machine.execControlLineUnknownCommand r t l c f s
  | .conflictTimerExpiry w => Sys2Proof.Machine.execConflictTimerExpiry w s
  | .lockoutExpiry => Sys2Proof.Machine.execLockoutExpiry s
  | .loadPauseEnd => Sys2Proof.Machine.execLoadPauseEnd s
  | .configurationTransferEnd b => Sys2Proof.Machine.execConfigurationTransferEnd b s
  | .forwardAccessComplete k r => Sys2Proof.Machine.execForwardAccessComplete k r s
  | .oldLineReadComplete k r => Sys2Proof.Machine.execOldLineReadComplete k r s
  | .recordWriteComplete k r => Sys2Proof.Machine.execRecordWriteComplete k r s
  | .operationForwardedWriteComplete k r => Sys2Proof.Machine.execOperationForwardedWriteComplete k r s
  | .headerWriteComplete k r => Sys2Proof.Machine.execHeaderWriteComplete k r s
  | .rollbackReadComplete k r => Sys2Proof.Machine.execRollbackReadComplete k r s
  | .restoreWriteComplete k r => Sys2Proof.Machine.execRestoreWriteComplete k r s
  | .recoveryHeaderReadComplete k r => Sys2Proof.Machine.execRecoveryHeaderReadComplete k r s
  | .zeroingWriteComplete k r => Sys2Proof.Machine.execZeroingWriteComplete k r s
  | .formatHeaderWriteComplete k r => Sys2Proof.Machine.execFormatHeaderWriteComplete k r s
  | .forwardWalkReadComplete k r => Sys2Proof.Machine.execForwardWalkReadComplete k r s
  | .undoPassReadComplete k r => Sys2Proof.Machine.execUndoPassReadComplete k r s
  | .recoveryRestoreComplete k r => Sys2Proof.Machine.execRecoveryRestoreComplete k r s
  | .reinitHeaderWriteComplete k r => Sys2Proof.Machine.execReinitHeaderWriteComplete k r s
  | .memoryResponseUnknownSlot k r => Sys2Proof.Machine.execMemoryResponseUnknownSlot k r s
  | .arbiterGrant k => Sys2Proof.Machine.execArbiterGrant k s
  | .undoSlotRequest l => Sys2Proof.Machine.execUndoSlotRequest l s
  | .endRecordRequest c => Sys2Proof.Machine.execEndRecordRequest c s
  | .commitRecordAsk c => Sys2Proof.Machine.execCommitRecordAsk c s
  | .rollbackQueueAppend c => Sys2Proof.Machine.execRollbackQueueAppend c s
  | .rollbackTakeContext => Sys2Proof.Machine.execRollbackTakeContext s
  | .abortRecordAsk => Sys2Proof.Machine.execAbortRecordAsk s
  | .timebaseAdvance => Sys2Proof.Machine.execTimebaseAdvance s

end Sys2Proof.Machine
end

