-- ==== Sys2Proof/Safety.lean ====
section
/-! DEFINITION. The vocabulary of the statements (when the part takes a request, what a control line carries, what
stands placed in the Forward Queue) and the invariants of the model. -/

namespace Sys2Proof

/-! ## Requests -/

/-- The requester and tag of a request on the system link. -/
def Instr.request? : Instr → Option (RequesterId × Tag)
  | .readRequest r t _ => some (r, t)
  | .writeRequest r t _ _ _ => some (r, t)
  | .queryRead r t _ => some (r, t)
  | .openTransaction r t _ _ => some (r, t)
  | .commit r t _ _ => some (r, t)
  | .abort r t _ _ => some (r, t)
  | .query r t _ _ => some (r, t)
  | .acknowledge r t _ _ => some (r, t)
  | .controlLineUnknownCommand r t _ _ _ => some (r, t)
  | _ => none

/-- A write as it arrives: requester, tag, line, byte mask, data. -/
structure WriteArrival where
  requester : RequesterId
  tag : Tag
  line : LineAddr
  mask : ByteMask
  data : Line
  deriving DecidableEq, Repr

/-- A control line as it arrives: requester, tag, line, command code, the other fields of Table 12-2. -/
structure LineArrival where
  requester : RequesterId
  tag : Tag
  line : LineAddr
  code : Byte
  fields : ControlFields
  deriving DecidableEq, Repr

/-- The control line of a command that is one. -/
def Instr.controlLine? : Instr → Option LineArrival
  | .openTransaction r t l f => some ⟨r, t, l, Machine.Command.openTransaction.code, f⟩
  | .commit r t l f => some ⟨r, t, l, Machine.Command.commit.code, f⟩
  | .abort r t l f => some ⟨r, t, l, Machine.Command.abort.code, f⟩
  | .query r t l f => some ⟨r, t, l, Machine.Command.query.code, f⟩
  | .acknowledge r t l f => some ⟨r, t, l, Machine.Command.acknowledge.code, f⟩
  | .controlLineUnknownCommand r t l code f => some ⟨r, t, l, code, f⟩
  | _ => none

/-- The write of a command that is one: a data write, or a control line with its full mask and 64 bytes. -/
def Instr.write? : Instr → Option WriteArrival
  | .writeRequest r t l mask d => some ⟨r, t, l, mask, d⟩
  | c => c.controlLine?.map (fun a => ⟨a.requester, a.tag, a.line, Machine.fullMask, Machine.controlLineData a.code a.fields⟩)

/-- The control line of a command, as it waits to be taken (R107). -/
def Instr.waitingLine? (c : Instr) : Option Machine.WaitingLine :=
  c.controlLine?.map (fun a =>
    { requester := a.requester, tag := a.tag, line := a.line, data := Machine.controlLineData a.code a.fields })

/-- The read of a command that is one. -/
def Instr.read? : Instr → Option (RequesterId × Tag × LineAddr)
  | .readRequest r t l => some (r, t, l)
  | .queryRead r t l => some (r, t, l)
  | _ => none

/-- The must-be-zero bytes of Table 12-2 are zero (R100). -/
abbrev ControlFields.clean (f : ControlFields) : Prop := f.zeroLow = 0 ∧ f.zeroHigh = 0

/-- The access slot that a memory-link response names (R124, R132). -/
def Instr.respondedSlot? : Instr → Option AccessSlot
  | .forwardAccessComplete k _ => some k
  | .oldLineReadComplete k _ => some k
  | .recordWriteComplete k _ => some k
  | .operationForwardedWriteComplete k _ => some k
  | .headerWriteComplete k _ => some k
  | .rollbackReadComplete k _ => some k
  | .restoreWriteComplete k _ => some k
  | .recoveryHeaderReadComplete k _ => some k
  | .zeroingWriteComplete k _ => some k
  | .formatHeaderWriteComplete k _ => some k
  | .forwardWalkReadComplete k _ => some k
  | .undoPassReadComplete k _ => some k
  | .recoveryRestoreComplete k _ => some k
  | .reinitHeaderWriteComplete k _ => some k
  | .memoryResponseUnknownSlot k _ => some k
  | _ => none

/-- The command is the completion of an access made for this purpose (R132). -/
def Instr.completes (c : Instr) (p : Machine.Purpose) : Prop :=
  match c with
  | .forwardAccessComplete _ _ => p = .forwarded
  | .oldLineReadComplete _ _ => p = .oldLineRead
  | .recordWriteComplete _ _ => ∃ seq h, p = .recordHalf seq h
  | .operationForwardedWriteComplete _ _ => p = .operationWrite
  | .headerWriteComplete _ _ => ∃ h, p = .headerHalf h
  | .rollbackReadComplete _ _ => p = .rollbackRead
  | .restoreWriteComplete _ _ => p = .rollbackRestore
  | .recoveryHeaderReadComplete _ _ => ∃ copy h, p = .recoveryHeaderRead copy h
  | .zeroingWriteComplete _ _ => p = .zeroing
  | .formatHeaderWriteComplete _ _ => ∃ h, p = .formatHeader h
  | .forwardWalkReadComplete _ _ => ∃ h, p = .forwardWalkRead h
  | .undoPassReadComplete _ _ => ∃ slot h, p = .undoPassRead slot h
  | .recoveryRestoreComplete _ _ => p = .recoveryRestore
  | .reinitHeaderWriteComplete _ _ => ∃ h, p = .reinitHeader h
  | _ => False

/-- The Recovery Sequencer is at work (R145). -/
def Machine.RecoveryPhase.active (p : Machine.RecoveryPhase) : Prop := p ≠ .idle ∧ p ≠ .done ∧ p ≠ .stopped

end Sys2Proof

namespace Sys2Proof.Machine

/-! ## When the part acts -/

/-- Powered, no power-fail pending, and in device state d. -/
abbrev State.runsIn (s : State) (d : DeviceState) : Prop :=
  s.pins.porst = false ∧ s.device.powerFailPending = false ∧ s.device.state = d

/-- The command brings a request that arrives: it is not the taking of a control line that waits (R107, R108). -/
abbrev State.arrives (s : State) (c : Instr) : Prop := ∀ w, c.waitingLine? = some w → s.lineWaits w = false

/-- SERVING or DRAINING, the wind-down from either included: the states in which record and header writes, slot reads
and restores take effect (R56, R94). -/
abbrev State.journals (s : State) : Prop := s.device.state = .serving ∨ s.device.state = .draining

/-- SERVING or FAULTED, the states in which requests are examined (R61). -/
abbrev State.examines (s : State) : Prop := s.runsIn .serving ∨ s.runsIn .faulted

/-- SERVING or DRAINING, the states in which the journal side works (R133). -/
abbrev State.works (s : State) : Prop := s.runsIn .serving ∨ s.runsIn .draining

/-- R61: every request is answered RETRY NOT_READY. -/
abbrev State.answersNotReady (s : State) : Prop :=
  s.pins.porst = false ∧ (s.device.powerFailPending = true ∨ s.device.state = .loading ∨ s.device.state = .recovering
    ∨ s.device.state = .draining ∨ s.device.state = .halted)

/-- Steps 1 and 2 of Table 4-2 do not decide: the tag is free and the line lies outside the journal area. -/
abbrev State.unclaimed (s : State) (r : RequesterId) (t : Tag) (l : LineAddr) : Prop :=
  (r, t) ∉ s.outstanding ∧ s.params.inJournalArea l = false

/-- Steps 1 to 4 of Table 4-2 do not decide: the write is a data write with a flag set. -/
abbrev State.isDataWrite (s : State) (r : RequesterId) (t : Tag) (l : LineAddr) (mask : ByteMask) (d : Line) : Prop :=
  s.unclaimed r t l ∧ mask ≠ 0 ∧ s.recognises mask d = false

/-- R65: the line is not in flight for a write. -/
abbrev State.lineQuiet (s : State) (l : LineAddr) : Prop := s.lineJournaling l = false ∧ s.pendingWrite l = false

/-- R97: the fields make a control line under the parameter set in force. -/
abbrev State.recognisesFields (s : State) (code : Byte) (f : ControlFields) : Prop :=
  s.loader.params.map Params.signature = some f.signature ∧ f.check = crc32 (controlLineBody code f)

/-- A control line reaches the Control Line Decoder: the earlier steps do not decide, and it is recognised. -/
abbrev State.decodes (s : State) (a : LineArrival) : Prop :=
  s.unclaimed a.requester a.tag a.line ∧ s.recognisesFields a.code a.fields

/-- A control line passes the lockout and key checks (R99, R117). -/
abbrev State.admits (s : State) (a : LineArrival) : Prop :=
  s.decodes a ∧ s.key.checker = .openChannel ∧ a.fields.key = s.params.key

/-- A control line whose command is taken in SERVING (R101). -/
abbrev State.takes (s : State) (a : LineArrival) : Prop := s.runsIn .serving ∧ s.admits a ∧ a.fields.clean

/-- R136: the block these sampled bits stand for: byte 0 comes first, and the most significant bit of each byte first. -/
abbrev sampledAs (sampled : SampledBits) (b : ParamBlock) : Prop :=
  ∀ byte < 256, ∀ bit < 8, b.getLsbD (8 * byte + bit) = sampled.getLsbD (8 * byte + (7 - bit))

/-! ## Shapes of next states -/

/-- R68: a request placed at the tail of the Forward Queue, with its entry in the outstanding-request table. -/
def State.placed (s : State) (r : RequesterId) (t : Tag) (l : LineAddr) (kind : AccessKind) (journaled : Bool) : State :=
  { s with
    forward := s.forward ++ [{ requester := r, tag := t, kind := kind, line := l, journaled := journaled
                               forgotten := false, issued := none }]
    outstanding := s.outstanding ++ [(r, t)] }

/-- R161, R134, R94: what the wind-down adds to a completion. The engine is STOPPED once no access of its own is in
flight, keeping its current context; that it drops the first half of the slot under read is the model's choice
(log 31). The device enters HALTED once no access slot is occupied. Outside the wind-down nothing is added. -/
def State.woundDown (u : State) : State :=
  if u.device.powerFailPending = false then u
  else { u with
    engine :=
      if (∃ r ∈ u.engine.read, r.issued = true) ∨ (∃ w ∈ u.engine.restore, w.issued = true) then u.engine
      else { phase := .stopped, current := u.engine.current, walkPosition := none, walkEnded := false, foundCount := 0
             read := none, firstHalf := none, waiting := [], restore := none }
    device :=
      if ∀ k, u.access k = none then { u.device with state := .halted, powerFailPending := false } else u.device }

/-- R6, R11, R15: the drain of an ABORT_PENDING context is reached, in SERVING, in DRAINING or in their wind-down, and
this abort's drain has not been taken before. -/
abbrev State.drainReached (u : State) (c : RequesterId) : Prop :=
  (u.ctx c).state = .abortPending ∧ (u.ctx c).opsInFlight = 0 ∧ (u.ctx c).forwardedOutstanding = 0 ∧ u.journals
    ∧ (∀ g ∈ u.drains, c ∉ g) ∧ c ∉ u.rollbackQueue

/-- R6, R82: the drain is taken, after those taken before it (log 6). -/
def State.drainTaken (u : State) (c : RequesterId) : State :=
  { u with drains := u.drains ++ if u.drainReached c then [[c]] else [] }

/-- R71, R5: an operation has ended with a response: it is removed, its context's operations in flight fall by one, and
its response is sent and its entry leaves the table, unless it is forgotten (R78). -/
def State.opGone (u : State) (o : Operation) (code : ResponseCode) (detail : ResponseDetail) : State :=
  { u with
    ops := u.ops.eraseP (fun p => decide (p.line = o.line))
    contexts := u.contexts.set o.requester { u.ctx o.requester with opsInFlight := (u.ctx o.requester).opsInFlight - 1 }
    outstanding := if o.forgotten = true then u.outstanding
      else u.outstanding.filter (fun e => decide (e ≠ (o.requester, o.tag)))
    sent := if o.forgotten = true then u.sent
      else u.sent ++ [{ requester := o.requester, tag := o.tag, code := code, detail := detail, data := none }] }

/-- R76, second row: the operations of context c whose slot request is not yet taken, in the wind-down as elsewhere
(log 28). -/
def State.withdrawn (u : State) (c : RequesterId) : List Operation :=
  u.ops.filter (fun o => decide (o.requester = c ∧ o.stage = .appending ∧ o.slot = none))

/-- One operation and one hold entry for a line (R20, R71), or no slot request to withdraw. -/
abbrev State.withdrawable (u : State) (c : RequesterId) : Prop :=
  u.withdrawn c = [] ∨ ((u.ops.map (fun o => o.line)).Nodup ∧ (u.holds.map (fun e => e.line)).Nodup)

/-- R9: the record of an OPEN context that an abort request has reached. Every other field is kept. That the wait record is
cleared in FAULTED and in the wind-down too is the model's reading of R28 beside R35 (log 13, DEDUCED). -/
def Context.abortBegun (x : Context) (reason : AbortReason) (due : Bool) : Context :=
  { x with state := .abortPending, reason := some reason, noticeDue := some due, wait := none, held := [] }

/-- R9, R76, R24, R5, R11: an abort request has reached the OPEN context c. Its record changes, its operations carry the
cancelled mark, each slot request not yet taken is withdrawn (its hold entry and its operation removed, the counts
lowered, and ERROR ABORTED sent unless it is forgotten), and a context with nothing in flight has reached its drain.
The order of the responses within the step is log 14's. -/
def State.abortBegins (u : State) (c : RequesterId) (reason : AbortReason) (due : Bool) : State :=
  let gone := u.withdrawn c
  State.drainTaken { u with
    ops := (u.ops.filter (fun o => decide (o ∉ gone))).map (fun o =>
      if o.requester = c then { o with cancelled := true } else o)
    holds := u.holds.filter (fun e => decide (∀ o ∈ gone, o.line ≠ e.line))
    sent := u.sent ++ (gone.filter (fun o => !o.forgotten)).map (fun o =>
      { requester := o.requester, tag := o.tag, code := .error, detail := .aborted, data := none })
    outstanding := u.outstanding.filter (fun e => decide (∀ o ∈ gone, o.forgotten = false → e ≠ (o.requester, o.tag)))
    contexts := Vector.ofFn (fun d =>
      let lost := u.holds.countP (fun e => decide (e.owner = d ∧ ∃ o ∈ gone, o.line = e.line))
      if d = c then { (u.ctx c).abortBegun reason due with
        holdsCount := (u.ctx c).holdsCount - lost, opsInFlight := (u.ctx c).opsInFlight - gone.length }
      else { u.ctx d with holdsCount := (u.ctx d).holdsCount - lost }) } c

/-- R8, R12: a context record once the end record of this kind is reported durable: ABORTED where an abort's notice is
due, which keeps open number, label and reason, and IDLE otherwise. That the wait record is cleared in the wind-down too is
the model's reading of R28 beside R35 (log 13, DEDUCED). -/
def Context.endReported (x : Context) (kind : RecordKind) : Context :=
  let notice := kind = .abort ∧ x.noticeDue = some true
  { x with
    state := if notice then .aborted else .idle
    openNumber := if notice then x.openNumber else none
    label := if notice then x.label else none
    reason := if kind = .abort ∧ x.noticeDue ≠ some true then none else x.reason
    noticeDue := none, firstSlot := none, lastSlot := none, undoCount := 0, holdsCount := 0, held := [], wait := none
    lastOutcome := if x.held = [] then x.lastOutcome else .done }

/-- R8, R12, R13, R25: the end record of context c is reported durable: its holds are released, its held responses are
answered OKAY, and its record is that of an ended transaction. -/
def State.endReported (u : State) (c : RequesterId) (kind : RecordKind) : State :=
  let x := (u.ctx c).endReported kind
  { u with
    holds := u.holds.filter (fun e => decide (e.owner ≠ c))
    sent := u.sent ++ (u.ctx c).held.map (fun tag =>
      { requester := c, tag := tag, code := .okay, detail := .noDetail, data := none })
    outstanding := u.outstanding.filter (fun e => decide (¬(e.1 = c ∧ e.2 ∈ (u.ctx c).held)))
    contexts := u.contexts.set c x
    device := { u.device with
      noticesStanding := decide (∃ d, (if d = c then x else u.ctx d).state = .aborted) } }

/-- R23, R74: the UNDO record of a line is reported durable: the line's entry becomes HELD, and its operation queues its
write or, if cancelled, ends with ERROR ABORTED, and its context may so reach its drain (log 6). -/
def State.undoReported (u : State) (l : LineAddr) : State :=
  let v := { u with holds := u.holds.map (fun e => if e.line = l then { e with state := .held } else e) }
  match u.ops.find? (fun o => decide (o.line = l)) with
  | none => v
  | some o =>
    if o.cancelled = true then State.drainTaken (v.opGone o .error .aborted) o.requester
    else { v with
      ops := u.ops.map (fun p => if p.line = l then { p with stage := .forwarding, access := none } else p)
      reports := u.reports ++ [l] }

/-- R47: the records the durable head passes are reported to their owners one after another, in sequence order. -/
def State.allReported (u : State) (passed : List AssignedRecord) : State :=
  passed.foldl (fun t r => if r.record.kind = .undo then t.undoReported r.record.line
    else t.endReported r.owner r.record.kind) u

/-- R14: a control line answered at once, its outcome the requester's last outcome. -/
def State.lineAnswered (s : State) (r : RequesterId) (t : Tag) (code : ResponseCode) (detail : ResponseDetail)
    (outcome : ControlOutcome) : State :=
  { s with
    contexts := s.contexts.set r { s.ctx r with lastOutcome := outcome }
    sent := s.sent ++ [{ requester := r, tag := t, code := code, detail := detail, data := none }] }

/-- Every block but the Configuration Loader, the Device State Controller and the pins holds its power-on reset
values (R16, R36, R41, R59, R70, R71, R82, R83, R123, R126, R145, R153): of the Recovery Sequencer every field (R145), and
of the Journal Writer and the Header Writer that nothing is waiting or in flight and that the positions have not been
handed over, which is how the model says that their values are empty or undefined (R41, log 17). -/
abbrev State.blocksAtPowerOn (s : State) : Prop :=
  s.openCounter = 1 ∧ (∀ c, s.ctx c = Context.reset) ∧ s.holds = [] ∧ s.outstanding = [] ∧ s.classified = [] ∧ s.forward = []
    ∧ s.ops = []
    ∧ s.reports = [] ∧ s.rollbackQueue = [] ∧ s.drains = [] ∧ s.engine = Engine.reset ∧ (∀ k, s.access k = none) ∧ s.pointer = .forward
    ∧ s.journal.started = false ∧ s.journal.records = [] ∧ s.journal.requests = [] ∧ s.header.pendingImage = none ∧ s.header.inFlight = none
    ∧ s.key = { checker := .openChannel, failures := [], total := 0, abuse := false } ∧ s.recovery = Recovery.reset
    ∧ s.startupUndone = 0 ∧ s.startupFormatted = false

/-- R77: the operations that wait for their record: they end at the entry into FAULTED. -/
def State.faultEnds (s : State) : List Operation :=
  s.ops.filter (fun o => decide (o.stage = .appending ∨ o.stage = .waitingDurable))

/-- R15, R77, R73: the responses at the entry into FAULTED, ERROR FAULT each: the held ones, oldest first within each
context, then those of the operations that end, unless forgotten. The order of the contexts, and of the two groups, is
the model's (log 14). -/
def State.faultAnswers (s : State) : List (RequesterId × Tag) :=
  allContexts.flatMap (fun c => (s.ctx c).held.map (fun tag => (c, tag)))
    ++ (s.faultEnds.filter (fun o => !o.forgotten)).map (fun o => (o.requester, o.tag))

/-- R159: a link reset is taken at the entry into FAULTED from RECOVERING while LRST_N is asserted. -/
abbrev State.resetAtEntry (s : State) : Prop := s.device.state = .recovering ∧ s.pins.lrst = true

/-- R158: what every entry into FAULTED with a cause leaves, seen from the state before it: the responses sent (R15,
R77), the requests left outstanding and the control lines left to be taken (R108; none after a link reset at the entry,
R159), the context records (R15), the operations left (R77), the holds, and the blocks that stop (R54, R92). -/
abbrev State.faultedFrom (s t : State) (cause : FaultCause) : Prop :=
  t.device.state = .faulted ∧ t.device.cause = cause ∧ t.rdy = true ∧ t.attn = true
    ∧ (∀ c, t.ctx c = { s.ctx c with
        held := []
        lastOutcome := if (s.ctx c).held = [] then (s.ctx c).lastOutcome else .notAvailable
        opsInFlight := (s.ctx c).opsInFlight - s.faultEnds.countP (fun o => decide (o.requester = c))
        arming := if s.resetAtEntry then none else (s.ctx c).arming })
    ∧ t.sent = s.sent ++ s.faultAnswers.map (fun e =>
        { requester := e.1, tag := e.2, code := .error, detail := .fault, data := none })
    ∧ t.outstanding = (if s.resetAtEntry then [] else s.outstanding.filter (fun e => decide (e ∉ s.faultAnswers)))
    ∧ t.classified = (if s.resetAtEntry then [] else s.classified)
    ∧ ((s.ops.map (fun o => o.line)).Nodup → t.ops =
        (s.ops.filter (fun o => decide (o ∉ s.faultEnds))).map (fun o =>
          if s.resetAtEntry then { o with forgotten := true } else o))
    ∧ t.header.pendingImage = none ∧ t.engine.phase = .stopped ∧ t.engine.current = s.engine.current
    ∧ t.holds = s.holds ∧ t.drains = s.drains ∧ t.rollbackQueue = s.rollbackQueue

/-- R9: an abort request has reached context c, which was OPEN: the record it leaves, and the cancelled marks. -/
abbrev State.abortBegun (t : State) (c : RequesterId) (reason : AbortReason) (due : Bool) : Prop :=
  (t.ctx c).state = .abortPending ∧ (t.ctx c).reason = some reason ∧ (t.ctx c).noticeDue = some due
    ∧ (t.ctx c).wait = none ∧ (∀ o ∈ t.ops, o.requester = c → o.cancelled = true)

/-- The younger of two open numbers (0.8.4, R3): a of context x is younger than b of context y. -/
abbrev youngerThan (x : RequesterId) (a : Serial) (y : RequesterId) (b : Serial) : Prop :=
  (1 ≤ (a - b).toNat ∧ (a - b).toNat ≤ 2 ^ 31 - 1) ∨ ((a - b).toNat = 2 ^ 31 ∧ y < x)

/-- R49: context d contributes this slot to the working tail: its first slot, or, where it has none, the slot of its
end record that is granted and not yet reported durable. -/
abbrev State.contributes (t : State) (d : RequesterId) (slot : Nat) : Prop :=
  ((t.ctx d).state = .opened ∨ (t.ctx d).state = .committing ∨ (t.ctx d).state = .abortPending
      ∨ (t.ctx d).state = .rollingBack)
    ∧ ((t.ctx d).firstSlot = some slot ∨ ((t.ctx d).firstSlot = none
      ∧ ∃ r, t.journal.records.find? (fun r => decide (r.owner = d ∧ r.record.kind ≠ .undo)) = some r ∧ r.slot = slot))

/-- The places a position lies beyond the published tail, by its sequence (log 22). -/
def State.beyondPublished (t : State) (p : Position) : Nat := (p.seq - t.journal.published.seq).toNat

/-- R49: p is the working tail: the contributed slot, with its sequence, that lies fewest places beyond the published
tail, or the head if no context contributes a slot. -/
abbrev State.isWorkingTail (t : State) (p : Position) : Prop :=
  (p = t.journal.head ∧ ∀ d slot, ¬ t.contributes d slot)
    ∨ (∃ d, t.contributes d p.slot ∧ p.seq = t.slotSeq p.slot)
      ∧ ∀ d slot, t.contributes d slot →
          t.beyondPublished p ≤ t.beyondPublished { slot := slot, seq := t.slotSeq slot }

/-- R49, which says that the working tail always lies between the published tail and the head: every contributed slot
lies nearer than the head. -/
abbrev State.tailsBeforeHead (t : State) : Prop :=
  ∀ d slot, t.contributes d slot →
    t.beyondPublished { slot := slot, seq := t.slotSeq slot } < t.beyondPublished t.journal.head

/-- R50, R51, R56: the Journal Writer has re-evaluated the working tail: where it lies beyond the latest tail, a header
image with it has been handed to the Header Writer, and otherwise the Header Writer is unchanged. From the assertion of
PFAIL_N no image is handed over. -/
abbrev State.tailHanded (s t : State) : Prop :=
  t.tailsBeforeHead → ∃ p, t.isWorkingTail p ∧
    let latest := (s.header.pendingImage.map (·.tail)).getD ((s.header.inFlight.map (·.image.tail)).getD
      s.journal.published)
    ((s.device.powerFailPending = true ∨ s.beyondPublished p ≤ s.beyondPublished latest) → t.header = s.header)
    ∧ (s.device.powerFailPending = false → s.beyondPublished latest < s.beyondPublished p →
      (s.header.inFlight = none → t.header = { s.header with
        inFlight := some { attempt := 1, stage := .firstWaiting, image := {
          copy := if s.header.lastCopy = .a then .b else .a, generation := s.header.generation + 1, tail := p
          recoveryCount := s.header.recoveryCount } } })
      ∧ (∀ w, s.header.inFlight = some w → s.header.pendingImage = none → t.header = { s.header with
        pendingImage := some {
          copy := if w.image.copy = .a then .b else .a, generation := w.image.generation + 1, tail := p
          recoveryCount := s.header.recoveryCount } })
      ∧ (∀ w i, s.header.inFlight = some w → s.header.pendingImage = some i → t.header = { s.header with
        pendingImage := some { i with tail := p } }))

/-- R90, R160: the device state after the engine's report that it is FREE: with an empty queue, LRST_N deasserted and no
context being aborted, DRAINING ends. In the wind-down it does not (log 27). -/
def State.stateAfterFree (s t : State) : DeviceState :=
  if s.engine.phase ≠ .stopped ∧ s.rollbackQueue = [] ∧ s.device.state = .draining ∧ s.pins.lrst = false
      ∧ s.device.powerFailPending = false ∧ (∀ d, (t.ctx d).state ≠ .abortPending ∧ (t.ctx d).state ≠ .rollingBack)
  then .serving else s.device.state

/-- R8, R12, R25: what the durable end record of context c leaves in the holds, the responses and its record, other than
the fields that R8 and R12 set differently. -/
abbrev State.endedFrom (s t : State) (c : RequesterId) : Prop :=
  t.holds = s.holds.filter (fun e => decide (e.owner ≠ c))
    ∧ t.sent = s.sent ++ (s.ctx c).held.map (fun tag =>
        { requester := c, tag := tag, code := .okay, detail := .noDetail, data := none })
    ∧ t.outstanding = s.outstanding.filter (fun e => decide (¬(e.1 = c ∧ e.2 ∈ (s.ctx c).held)))
    ∧ (t.ctx c).holdsCount = 0 ∧ (t.ctx c).firstSlot = none ∧ (t.ctx c).lastSlot = none ∧ (t.ctx c).noticeDue = none
    ∧ (t.ctx c).undoCount = 0 ∧ (t.ctx c).held = [] ∧ (t.ctx c).wait = none
    ∧ (t.ctx c).lastOutcome = (if (s.ctx c).held = [] then (s.ctx c).lastOutcome else .done)
    ∧ (∀ d, d ≠ c → t.ctx d = s.ctx d)
    ∧ (t.device.noticesStanding = true ↔ ∃ d, (t.ctx d).state = .aborted)

/-- R8: the end of a commit; R12: the end of an abort, according to whether a notice is due. -/
abbrev State.recordEnded (s t : State) (c : RequesterId) (kind : RecordKind) : Prop :=
  s.endedFrom t c
    ∧ (kind ≠ .abort → (t.ctx c).state = .idle ∧ (t.ctx c).openNumber = none ∧ (t.ctx c).label = none)
    ∧ (kind = .abort → (s.ctx c).noticeDue = some true → (t.ctx c).state = .aborted
        ∧ (t.ctx c).openNumber = (s.ctx c).openNumber ∧ (t.ctx c).label = (s.ctx c).label
        ∧ (t.ctx c).reason = (s.ctx c).reason)
    ∧ (kind = .abort → (s.ctx c).noticeDue ≠ some true → (t.ctx c).state = .idle
        ∧ (t.ctx c).openNumber = none ∧ (t.ctx c).label = none ∧ (t.ctx c).reason = none)
    ∧ (kind = .abort → s.engine.phase ≠ .stopped → t.engine.phase = .free ∧ t.engine.current = none)
    ∧ t.device.state = (if kind = .abort then s.stateAfterFree t else s.device.state)
    ∧ s.tailHanded t

/-! ## Invariants -/

/-- R26: the Line Hold Table and the Context Table agree: every context's holds count is the number of entries it owns,
and a context in IDLE or ABORTED owns none. -/
def State.holdsCounted (s : State) : Prop :=
  ∀ c, s.holds.countP (fun e => decide (e.owner = c)) = (s.ctx c).holdsCount
    ∧ ((s.ctx c).state = .idle ∨ (s.ctx c).state = .aborted → (s.ctx c).holdsCount = 0)

/-- The tables stay within what the part has (R19, R59, R70, R71, R124), no line has two hold entries (R19), no request
is outstanding twice (R59), and no claimant occupies more access slots than its share (R127). -/
def State.tablesBounded (s : State) : Prop :=
  s.holds.length ≤ 512 ∧ (s.holds.map (fun e => e.line)).Nodup ∧ s.forward.length ≤ 32 ∧ s.ops.length ≤ 16 ∧ s.outstanding.Nodup
    ∧ s.outstanding.length ≤ 1024 ∧ ∀ c : Claimant, s.claimantCount c ≤ c.share

/-- R116: in LOCKED_OUT the failure-time list is empty, the failure total saturates, and the abuse indicator is set
exactly when the total has reached 64. -/
def State.keyConsistent (s : State) : Prop :=
  (∀ e, s.key.checker = .lockedOut e → s.key.failures = []) ∧ s.key.total ≤ 65535
    ∧ (s.key.abuse = true ↔ 64 ≤ s.key.total)

/-- R156: the Device State Controller agrees with the blocks: the loader works in LOADING only and the sequencer in
RECOVERING only, never once power-fail is pending; a fault cause stands in FAULTED, and none in the states before a
fault; HALTED has no power-fail pending; and the states after a successful load have a parameter set. -/
def State.deviceConsistent (s : State) : Prop :=
  (s.loader.phase ≠ .idle → s.device.state = .loading ∧ s.device.powerFailPending = false)
    ∧ (s.recovery.phase.active → s.device.state = .recovering ∧ s.device.powerFailPending = false)
    ∧ (s.device.state = .faulted → s.device.cause ≠ .noCause)
    ∧ (s.device.state ≠ .faulted → s.device.state ≠ .halted → s.device.cause = .noCause)
    ∧ (s.device.state = .halted → s.device.powerFailPending = false)
    ∧ (s.device.state ≠ .loading → s.device.state ≠ .passthrough → s.device.state ≠ .halted →
        s.loader.params.isSome = true)

/-- The contexts whose end record has been asked for and is not yet durable. -/
def State.endOwners (s : State) : List RequesterId :=
  s.journal.requests.map (·.context)
    ++ (s.journal.records.filter (fun r => decide (r.record.kind ≠ .undo))).map (·.owner)

/-- R13, R162: the Device State Controller's notices standing agree with the contexts. What keeps them so: a context
whose drain is taken or which is queued for rollback is ABORT_PENDING, once (R11, R82); one whose end record is asked for
is COMMITTING or ROLLING_BACK, once (R7, R79, R90); and the context a walking engine rolls back is ROLLING_BACK, its
ABORT record not yet asked for (R84). -/
def State.noticesTracked (s : State) : Prop :=
  (s.device.noticesStanding = true ↔ ∃ c, (s.ctx c).state = .aborted)
    ∧ (s.drains.flatten ++ s.rollbackQueue).Nodup
    ∧ (∀ c ∈ s.drains.flatten ++ s.rollbackQueue, (s.ctx c).state = .abortPending)
    ∧ s.endOwners.Nodup
    ∧ (∀ c ∈ s.endOwners, (s.ctx c).state = .committing ∨ (s.ctx c).state = .rollingBack)
    ∧ (s.engine.phase = .walking → ∀ c, s.engine.current = some c →
        (s.ctx c).state = .rollingBack ∧ c ∉ s.endOwners)

/-- R41, R42, R47: the assigned records from the durable head up to the head carry consecutive sequences from the
durable head's, the head's sequence is the next one, and the record at the durable head is not yet written. -/
def State.journalContiguous (s : State) : Prop :=
  s.journal.records.map (fun r => r.record.seq) =
      (List.range s.journal.records.length).map (fun i => s.journal.durableHead.seq + BitVec.ofNat 32 i)
    ∧ s.journal.head.seq = s.journal.durableHead.seq + BitVec.ofNat 32 s.journal.records.length
    ∧ ∀ r, s.journal.records.head? = some r → r.mark = false

/-- R125, an assumption about the memory link that the model does not enforce (log 18): the access in slot k is the
first issued of those to its line. A sender that keeps the link's promise completes only such accesses. -/
def State.linkOrderKept (s : State) (k : AccessSlot) : Prop :=
  ∀ a b j, s.access k = some a → s.access j = some b → a.line = b.line → a.order ≤ b.order

end Sys2Proof.Machine
end

