-- ==== Sys2Proof/Certificates/Slice0/Obligations.lean ====
section
/-! DEFINITION. The statements for the provers. -/

section Statements

open Sys2Proof Sys2Proof.Machine

/-! ## The queue -/

/-- A step runs the command at the front of the queue on the state with the queue's rest; an empty queue idles (log 1). -/
def Obligations.StepRunsTheFrontCommand : Prop :=
  (∀ (s : State) (c : Instr) (rest : List Instr), s.pending = c :: rest →
      step s = exec c { s with pending := rest })
    ∧ ∀ s : State, s.pending = [] → step s = .next s

/-- Every command answers a next state, and leaves the queue as it stands (log 1). -/
def Obligations.CommandsCompleteAndKeepTheQueue : Prop :=
  ∀ (c : Instr) (s : State), ∃ t : State, exec c s = .next t ∧ t.pending = s.pending

/-! ## Resets and pins -/

/-- R16. -/
def Obligations.PowerOnResetClearsContexts : Prop :=
  ∀ s : State, s.pins.porst = true → ∃ t : State, exec .porstNDeassert s = .next t ∧ t.openCounter = 1 ∧
    ∀ c, t.ctx c =
      { state := .idle, openNumber := none, label := none, reason := none, noticeDue := none, firstSlot := none
        lastSlot := none, undoCount := 0, holdsCount := 0, opsInFlight := 0, forwardedOutstanding := 0, held := []
        wait := none, lastOutcome := .noOutcome, arming := none }

/-- R156, R157, R140, and what every block holds after power-on reset. The model's are: that State.reset is the moment
after the deassertion with the other two pins deasserted (log 2), that the state of the device is called LOADING while
PORST_N is asserted (log 3), that the trace of responses is kept (log 14), and the field that says the journal positions
have not been handed over (log 17). A command that names the level PORST_N has changes nothing (log 4). -/
def Obligations.PowerOnResetOfThePart : Prop :=
  (∀ s : State, s.pins.porst = false → ∃ t : State, exec .porstNAssert s = .next t
      ∧ t.pins = { s.pins with porst := true } ∧ t.timebase = 0 ∧ t.blocksAtPowerOn ∧ t.rdy = false ∧ t.attn = false
      ∧ t.cfgCsN = true ∧ t.cfgClkPulses = 0 ∧ t.loader.params = none ∧ t.sent = s.sent)
    ∧ (∀ s : State, s.pins.porst = true → s.pins.pfail = false → ∃ t : State, exec .porstNDeassert s = .next t
      ∧ t.pins = { s.pins with porst := false } ∧ t.timebase = 0 ∧ t.blocksAtPowerOn
      ∧ t.device = { state := .loading, cause := .noCause, powerFailPending := false, noticesStanding := false }
      ∧ t.loader = { attempt := 1, phase := .transfer, params := none } ∧ t.sent = s.sent)
    ∧ (∀ s : State, s.pins.porst = true → s.pins.pfail = true → ∃ t : State, exec .porstNDeassert s = .next t
      ∧ t.pins = { s.pins with porst := false } ∧ t.timebase = 0 ∧ t.rdy = false ∧ t.attn = false
      ∧ t.device = { state := .halted, cause := .noCause, powerFailPending := false, noticesStanding := false }
      ∧ t.loader.phase = .idle ∧ t.loader.params = none ∧ t.sent = s.sent
      ∧ t.engine = { Engine.reset with phase := .stopped } ∧ ({ t with engine := Engine.reset } : State).blocksAtPowerOn)
    ∧ (∀ s : State, (s.pins.porst = true → exec .porstNAssert s = .next s)
      ∧ (s.pins.porst = false → exec .porstNDeassert s = .next s))
    ∧ State.reset.blocksAtPowerOn ∧ State.reset.timebase = 0
    ∧ State.reset.device = { state := .loading, cause := .noCause, powerFailPending := false, noticesStanding := false }
    ∧ State.reset.loader = { attempt := 1, phase := .transfer, params := none } ∧ State.reset.pending = []

/-- R159, the SERVING and DRAINING rows, with R17, R9, R37, R78 and, for the control lines that wait, R108. Every context
record is given whole but for its two counts, which fall only by what is withdrawn. A slot request
not yet taken is withdrawn without a response (R76, R78). The drains that the reset brings about are taken together (R11,
R82; log 6). -/
def Obligations.LinkResetInServiceDrains : Prop :=
  ∀ s : State, s.works → s.pins.lrst = false → ∃ t : State, exec .linkReset s = .next t
    ∧ t.device = { s.device with state := .draining, noticesStanding := false } ∧ t.rdy = false
    ∧ (∀ c x, x = { s.ctx c with
          wait := none, arming := none, holdsCount := (t.ctx c).holdsCount, opsInFlight := (t.ctx c).opsInFlight } →
        ((s.ctx c).state = .idle → t.ctx c = x)
        ∧ ((s.ctx c).state = .opened → t.ctx c = { x with
            state := .abortPending, reason := some .linkReset, noticeDue := some false, held := [] })
        ∧ ((s.ctx c).state = .committing → t.ctx c = { x with held := [] })
        ∧ ((s.ctx c).state = .abortPending ∨ (s.ctx c).state = .rollingBack → t.ctx c = { x with
            held := [], noticeDue := some false })
        ∧ ((s.ctx c).state = .aborted → t.ctx c = { x with
            state := .idle, openNumber := none, label := none, reason := none }))
    ∧ ((∀ o ∈ s.ops, o.asking = false) →
        t.ops = s.ops.map (fun o => { o with cancelled := true, forgotten := true }) ∧ t.holds = s.holds
        ∧ ∀ c, (t.ctx c).holdsCount = (s.ctx c).holdsCount ∧ (t.ctx c).opsInFlight = (s.ctx c).opsInFlight)
    ∧ ((s.ops.map (fun o => o.line)).Nodup → (s.holds.map (fun e => e.line)).Nodup →
        ∀ gone, gone = s.ops.filter (fun o => decide (o.stage = .appending ∧ o.slot = none)) →
        t.ops = (s.ops.filter (fun o => decide (o ∉ gone))).map (fun o => { o with cancelled := true, forgotten := true })
        ∧ t.holds = s.holds.filter (fun e => decide (∀ o ∈ gone, o.line ≠ e.line))
        ∧ ∀ c, (t.ctx c).holdsCount = (s.ctx c).holdsCount
              - s.holds.countP (fun e => decide (e.owner = c ∧ ∃ o ∈ gone, o.line = e.line))
            ∧ (t.ctx c).opsInFlight = (s.ctx c).opsInFlight - gone.countP (fun o => decide (o.requester = c)))
    ∧ (∀ together, together = allContexts.filter (fun c => decide ((t.ctx c).state = .abortPending
          ∧ (t.ctx c).opsInFlight = 0 ∧ (t.ctx c).forwardedOutstanding = 0 ∧ (∀ g ∈ s.drains, c ∉ g)
          ∧ c ∉ s.rollbackQueue)) → t.drains = s.drains ++ if together = [] then [] else [together])
    ∧ t = { s with
        pins := { s.pins with lrst := true }, device := t.device, contexts := t.contexts, holds := t.holds, ops := t.ops
        drains := t.drains, outstanding := [], classified := []
        forward := s.forward.map (fun e => { e with forgotten := true }) }

/-- R159, the other rows; with power-fail pending a link reset has no effect. An assertion of LRST_N where it is
asserted already is none (the model's, log 4). -/
def Obligations.LinkResetElsewhere : Prop :=
  (∀ s : State, s.pins.lrst = false →
    (s.runsIn .faulted → ∃ t : State, exec .linkReset s = .next t
      ∧ (∀ c, t.ctx c = { s.ctx c with arming := none })
      ∧ t = { s with
          pins := { s.pins with lrst := true }, contexts := t.contexts, outstanding := [], classified := []
          forward := s.forward.map (fun e => { e with forgotten := true })
          ops := s.ops.map (fun o => { o with forgotten := true }) })
    ∧ (s.runsIn .passthrough → exec .linkReset s = .next { s with
        pins := { s.pins with lrst := true }, outstanding := [], classified := []
        forward := s.forward.map (fun e => { e with forgotten := true })
        ops := s.ops.map (fun o => { o with forgotten := true }) })
    ∧ (s.pins.porst = true ∨ s.device.powerFailPending = true ∨ s.device.state = .loading
        ∨ s.device.state = .recovering ∨ s.device.state = .halted →
        exec .linkReset s = .next { s with pins := { s.pins with lrst := true } }))
    ∧ ∀ s : State, s.pins.lrst = true → exec .linkReset s = .next s

/-- R160 for LRST_N; R161: the deassertion of PFAIL_N changes nothing but the pin's level. In the wind-down DRAINING
keeps its name (log 27). -/
def Obligations.PinDeassertions : Prop :=
  (∀ s : State, s.device.state = .draining → s.device.powerFailPending = false →
      (∀ c, (s.ctx c).state ≠ .abortPending ∧ (s.ctx c).state ≠ .rollingBack) →
      exec .lrstNDeassert s =
        .next { s with pins := { s.pins with lrst := false }, device := { s.device with state := .serving } })
    ∧ (∀ s : State, ¬(s.device.state = .draining ∧ s.device.powerFailPending = false ∧
        ∀ c, (s.ctx c).state ≠ .abortPending ∧ (s.ctx c).state ≠ .rollingBack) →
      exec .lrstNDeassert s = .next { s with pins := { s.pins with lrst := false } })
    ∧ ∀ s : State, exec .pfailNDeassert s = .next { s with pins := { s.pins with pfail := false } }

/-- R161, with R56, R94, R142 and R154. That a sequencer stopped here keeps its other fields is the model's (log 30),
and so is that a loader stopped here keeps its attempt count (log 33). While PORST_N is asserted only the pin's level is
taken (R156, R157); an assertion where PFAIL_N is asserted already is none (the model's, log 4). -/
def Obligations.PowerFailBeginsTheWindDown : Prop :=
  (∀ s : State, s.pins.porst = false → s.pins.pfail = false →
    (s.device.state ≠ .halted → s.device.powerFailPending = false → ∃ t : State, exec .pfailNAssert s = .next t
      ∧ t.rdy = false ∧ t.loader = { s.loader with phase := .idle } ∧ t.header = { s.header with pendingImage := none }
      ∧ ((∀ k, s.access k = none) → t.device = { s.device with state := .halted })
      ∧ ((∃ k, s.access k ≠ none) → t.device = { s.device with powerFailPending := true })
      ∧ (s.device.state = .recovering → t.recovery = { s.recovery with phase := .stopped })
      ∧ (s.device.state ≠ .recovering → t.recovery = s.recovery)
      ∧ (s.engine.read.any (fun r => r.issued) = false → s.engine.restore.any (fun w => w.issued) = false →
          t.engine.phase = .stopped ∧ t.engine.current = s.engine.current)
      ∧ (s.engine.read.any (fun r => r.issued) = true ∨ s.engine.restore.any (fun w => w.issued) = true →
          t.engine = s.engine)
      ∧ t = { s with
          pins := { s.pins with pfail := true }, device := t.device, loader := t.loader, header := t.header
          engine := t.engine, recovery := t.recovery })
    ∧ (s.device.state = .halted ∨ s.device.powerFailPending = true →
        exec .pfailNAssert s = .next { s with pins := { s.pins with pfail := true } }))
    ∧ ∀ s : State, (s.pins.pfail = true → exec .pfailNAssert s = .next s)
      ∧ (s.pins.porst = true → exec .pfailNAssert s = .next { s with pins := { s.pins with pfail := true } })

/-- R162. -/
def Obligations.ReadyAndAttention : Prop :=
  ∀ s : State,
    (s.rdy = true ↔ s.pins.porst = false ∧ s.device.powerFailPending = false ∧
      (s.device.state = .serving ∨ s.device.state = .passthrough ∨ s.device.state = .faulted))
    ∧ (s.attn = true ↔ s.pins.porst = false ∧
      (s.device.state = .passthrough ∨ s.device.state = .faulted ∨ s.device.noticesStanding = true))

/-! ## Requests -/

/-- R60, for a request that arrives. A control line classified and not yet taken keeps its tag in use; its own command
takes it in SERVING and FAULTED, with the effect it would have on arrival, and from the assertion of PFAIL_N leaves it
as it stands, in the wind-down and in HALTED (R107, R108; log 7). That it does so in the other states too, where no line
waits in a run, is the model's (log 4). -/
def Obligations.TagInUseIsRefused : Prop :=
  (∀ (s : State) (c : Instr) (r : RequesterId) (tag : Tag), c.request? = some (r, tag) → (r, tag) ∈ s.outstanding →
      s.arrives c →
      (s.examines ∨ s.runsIn .passthrough → exec c s = .next (s.respond r tag .error .tagInUse))
      ∧ (s.answersNotReady → exec c s = .next (s.respond r tag .retry .notReady)))
    ∧ (∀ (s : State) (r : RequesterId) (tag : Tag) (l : LineAddr) (d : Line), s.examines → s.unclaimed r tag l →
      s.recognises fullMask d = true →
      exec (.writeRequest r tag l fullMask d) s = .next { s with
        classified := s.classified ++ [{ requester := r, tag := tag, line := l, data := d }]
        outstanding := s.outstanding ++ [(r, tag)] })
    ∧ (∀ (s : State) (c : Instr) (w : WaitingLine), c.waitingLine? = some w → s.lineWaits w = true →
      (s.examines → s.params.inJournalArea w.line = false → s.recognises fullMask w.data = true →
        exec c s = exec c { s with
          classified := s.classified.erase w
          outstanding := s.outstanding.filter (fun e => decide (e ≠ (w.requester, w.tag))) })
      ∧ (s.device.powerFailPending = true ∨ s.device.state = .halted → exec c s = .next s)
      ∧ (s.device.state ≠ .serving → s.device.state ≠ .faulted → exec c s = .next s))

/-- R61, the rows of LOADING to HALTED and of PASSTHROUGH, for a request that arrives (in HALTED and in the wind-down a
control line may still wait from before, R108); and while PORST_N is asserted, when no request is taken and no response
sent (R156). That a write taken in PASSTHROUGH clears its requester's wait record is the model's reading of R28 (log 13,
DEDUCED). -/
def Obligations.RequestsByDeviceState : Prop :=
  (∀ (s : State) (c : Instr) (r : RequesterId) (tag : Tag), c.request? = some (r, tag) → s.arrives c →
      s.answersNotReady → exec c s = .next (s.respond r tag .retry .notReady))
    ∧ (∀ (s : State) (c : Instr) (r : RequesterId) (tag : Tag) (l : LineAddr), c.read? = some (r, tag, l) →
      s.runsIn .passthrough → (r, tag) ∉ s.outstanding →
      exec c s = .next (if s.forward.length < 32 then s.placed r tag l .read false
        else s.respond r tag .retry .queueFull))
    ∧ (∀ (s : State) (c : Instr) (a : WriteArrival), c.write? = some a → s.runsIn .passthrough →
      (a.requester, a.tag) ∉ s.outstanding →
      exec c s = .next (
        if a.mask = 0 then (s.clearWait a.requester).respond a.requester a.tag .okay .noDetail
        else if s.forward.length < 32 then
          (s.placed a.requester a.tag a.line (.write a.mask a.data) false).clearWait a.requester
        else s.respond a.requester a.tag .retry .queueFull))
    ∧ (∀ (s : State) (c : Instr) (r : RequesterId) (tag : Tag), c.request? = some (r, tag) → s.pins.porst = true →
      s.arrives c → exec c s = .next s)

/-- R63 and the empty byte mask, in SERVING and FAULTED. A write so answered clears its requester's wait record (R28). That
it does so where a RESERVED_AREA write's bytes are a control line's, and in FAULTED, where R35 keeps the wait records, is
the model's reading of R28 (log 13, DEDUCED). -/
def Obligations.ReservedAreaAndEmptyMask : Prop :=
  (∀ (s : State) (c : Instr) (r : RequesterId) (tag : Tag) (l : LineAddr), c.read? = some (r, tag, l) → s.examines →
      (r, tag) ∉ s.outstanding → s.params.inJournalArea l = true →
      exec c s = .next (s.respond r tag .error .reservedArea))
    ∧ (∀ (s : State) (c : Instr) (a : WriteArrival), c.write? = some a → s.examines →
      (a.requester, a.tag) ∉ s.outstanding → s.params.inJournalArea a.line = true →
      exec c s = .next ((s.clearWait a.requester).respond a.requester a.tag .error .reservedArea))
    ∧ (∀ (s : State) (c : Instr) (a : WriteArrival), c.write? = some a → s.examines →
      s.unclaimed a.requester a.tag a.line → a.mask = 0 →
      exec c s = .next ((s.clearWait a.requester).respond a.requester a.tag .okay .noDetail))

/-- R65, R68, R69, and R62 in FAULTED: a read that is not a query read. -/
def Obligations.ReadIsForwardedOrRetried : Prop :=
  ∀ (s : State) (c : Instr) (r : RequesterId) (tag : Tag) (l : LineAddr), c.read? = some (r, tag, l) → s.examines →
    s.unclaimed r tag l → (s.ctx r).arming ≠ some l →
    exec c s = .next (
      if s.device.state = .serving ∧ s.lineJournaling l = true then s.respond r tag .retry .inFlight
      else if s.forward.length < 32 then s.placed r tag l .read false
      else s.respond r tag .retry .queueFull)

/-- R110: a query read is answered with the status record at once, and the arming is cleared. -/
def Obligations.QueryReadReturnsTheStatusRecord : Prop :=
  ∀ (s : State) (r : RequesterId) (tag : Tag) (l : LineAddr), s.examines → s.unclaimed r tag l →
    (s.ctx r).arming = some l → ∀ c, (c = .queryRead r tag l ∨ c = .readRequest r tag l) →
    exec c s = .next (State.respond { s with contexts := s.contexts.set r { s.ctx r with arming := none } } r tag
      .okay .noDetail (some (s.statusRecord r)))

/-- R111, R112, R121, R57, R153, Table 12-3: every field of the status record at its bytes, with the codes of Table 12-1.
What a status record carries before the journal positions are handed over follows R153 (log 17). -/
def Obligations.StatusRecordFields : Prop :=
  (∀ (s : State) (r : RequesterId),
    (s.statusRecord r).extractLsb' 0 8 = (s.ctx r).state.code
    ∧ (s.statusRecord r).extractLsb' 8 8 = reasonCode (s.ctx r).reason
    ∧ (s.statusRecord r).extractLsb' 16 8 = (s.ctx r).lastOutcome.code
    ∧ (s.statusRecord r).extractLsb' 24 8 = s.device.state.code
    ∧ (s.statusRecord r).extractLsb' 32 64 = (s.ctx r).label.getD 0
    ∧ (s.statusRecord r).extractLsb' 96 32 = (s.ctx r).openNumber.getD 0
    ∧ (s.statusRecord r).extractLsb' 128 16 = BitVec.ofNat 16 (s.ctx r).holdsCount
    ∧ (s.statusRecord r).extractLsb' 144 16 = BitVec.ofNat 16 (s.ctx r).undoCount
    ∧ (s.statusRecord r).extractLsb' 160 8 = BitVec.ofNat 8 (s.ctx r).opsInFlight
    ∧ (s.statusRecord r).getLsbD 168 = s.key.abuse ∧ (s.statusRecord r).getLsbD 169 = s.startupFormatted
    ∧ (s.statusRecord r).extractLsb' 170 6 = 0
    ∧ (s.statusRecord r).extractLsb' 176 8 = s.device.cause.code
    ∧ (s.statusRecord r).extractLsb' 184 8 = BitVec.ofNat 8 s.startupUndone
    ∧ (s.statusRecord r).extractLsb' 192 32 = BitVec.ofNat 32 s.slotCount
    ∧ (s.journal.started = true →
        (s.statusRecord r).extractLsb' 224 32 =
          BitVec.ofNat 32 (s.slotCount - (s.journal.head.seq - s.journal.published.seq).toNat)
        ∧ (s.statusRecord r).extractLsb' 256 32 = s.journal.published.seq
        ∧ (s.statusRecord r).extractLsb' 288 32 = s.journal.head.seq
        ∧ (s.statusRecord r).extractLsb' 384 16 = s.header.recoveryCount)
    ∧ (s.journal.started = false → (s.statusRecord r).extractLsb' 224 32 = 0
        ∧ (∀ c, s.recovery.chosen = some c → (s.statusRecord r).extractLsb' 256 32 = c.tail.seq
          ∧ (s.statusRecord r).extractLsb' 288 32 = c.tail.seq
          ∧ (s.statusRecord r).extractLsb' 384 16 = c.recoveryCount)
        ∧ (s.recovery.chosen = none → (s.statusRecord r).extractLsb' 256 32 = 0
          ∧ (s.statusRecord r).extractLsb' 288 32 = 0 ∧ (s.statusRecord r).extractLsb' 384 16 = 0))
    ∧ (s.statusRecord r).extractLsb' 320 16 = BitVec.ofNat 16 s.holds.length
    ∧ (s.statusRecord r).extractLsb' 336 16 = BitVec.ofNat 16 s.key.total
    ∧ (s.key.checker = .openChannel → (s.statusRecord r).extractLsb' 352 32 = 0)
    ∧ (∀ e, s.key.checker = .lockedOut e → (s.statusRecord r).extractLsb' 352 32 =
        BitVec.ofNat 32 ((e.toNat - s.timebase.toNat + 999) / 1000))
    ∧ (s.statusRecord r).extractLsb' 400 112 = 0)
    ∧ [ContextState.idle, .opened, .committing, .abortPending, .rollingBack, .aborted].map ContextState.code
      = [0, 1, 2, 3, 4, 5]
    ∧ [none, some AbortReason.requested, some .conflict, some .quota, some .holdTableFull, some .journalFull
        , some .memoryError, some .linkReset].map reasonCode = [0, 1, 2, 3, 4, 5, 6, 7]
    ∧ [ControlOutcome.noOutcome, .done, .nothingPending, .nested, .noTransaction, .alreadyCommitting, .alreadyAborting
        , .tooLate, .noticePending, .lockedOut, .keyMismatch, .malformed, .notAvailable].map ControlOutcome.code
      = [0, 1, 2, 3, 4, 5, 6, 7, 8, 9, 10, 11, 12]
    ∧ [DeviceState.loading, .recovering, .passthrough, .serving, .draining, .faulted, .halted].map DeviceState.code
      = [0, 1, 2, 3, 4, 5, 6]
    ∧ [FaultCause.noCause, .journalWrite, .headerWrite, .rollbackAccess, .endRecord, .recovery, .noValidHeader].map
      FaultCause.code = [0, 1, 2, 3, 4, 5, 6]

/-- R21, with the steps in which R67 starts a journaling operation. That the write's own ERROR ABORTED is the last
response of the step, after those of slot requests withdrawn (R76), is the model's order (log 14). -/
def Obligations.FirstWriteInsertsAHold : Prop :=
  ∀ (s : State) (r : RequesterId) (tag : Tag) (l : LineAddr) (mask : ByteMask) (d : Line), s.runsIn .serving →
    s.isDataWrite r tag l mask d → s.params.inJournaledRange l = true → (s.ctx r).state = .opened →
    s.hold? l = none → s.pendingWrite l = false →
    (16 ≤ s.ops.length → exec (.writeRequest r tag l mask d) s = .next (s.respond r tag .retry .queueFull))
    ∧ (s.ops.length < 16 → (s.ctx r).holdsCount = s.params.holdQuota → ∃ t : State,
        exec (.writeRequest r tag l mask d) s = .next t ∧ t.abortBegun r .quota true
        ∧ (s.withdrawable r → t = (s.abortBegins r .quota true).respond r tag .error .aborted)
        ∧ t.sent.getLast? = some { requester := r, tag := tag, code := .error, detail := .aborted, data := none }
        ∧ ((∀ o ∈ s.ops, o.requester = r → o.asking = false) → t.holds = s.holds ∧ t.outstanding = s.outstanding
            ∧ (t.ctx r).holdsCount = (s.ctx r).holdsCount))
    ∧ (s.ops.length < 16 → (s.ctx r).holdsCount ≠ s.params.holdQuota → 512 ≤ s.holds.length → ∃ t : State,
        exec (.writeRequest r tag l mask d) s = .next t ∧ t.abortBegun r .holdTableFull true
        ∧ (s.withdrawable r → t = (s.abortBegins r .holdTableFull true).respond r tag .error .aborted)
        ∧ t.sent.getLast? = some { requester := r, tag := tag, code := .error, detail := .aborted, data := none }
        ∧ ((∀ o ∈ s.ops, o.requester = r → o.asking = false) → t.holds = s.holds ∧ t.outstanding = s.outstanding
            ∧ (t.ctx r).holdsCount = (s.ctx r).holdsCount))
    ∧ (s.ops.length < 16 → (s.ctx r).holdsCount ≠ s.params.holdQuota → s.holds.length < 512 →
        exec (.writeRequest r tag l mask d) s = .next { s with
          holds := s.holds ++ [{ line := l, owner := r, state := .journaling }]
          ops := s.ops ++ [{ requester := r, tag := tag, line := l, mask := mask, data := d, stage := .readingOld
                             slot := none, old := none, cancelled := false, forgotten := false, access := none }]
          outstanding := s.outstanding ++ [(r, tag)]
          contexts := s.contexts.set r { s.ctx r with
            holdsCount := (s.ctx r).holdsCount + 1, opsInFlight := (s.ctx r).opsInFlight + 1, wait := none } })

/-- R67, the rows that start no journaling operation, and R68 for a write outside the journaled ranges. -/
def Obligations.DataWriteByContextState : Prop :=
  ∀ (s : State) (r : RequesterId) (tag : Tag) (l : LineAddr) (mask : ByteMask) (d : Line), s.runsIn .serving →
    s.isDataWrite r tag l mask d → s.lineQuiet l → s.heldByOther r l = none →
    (s.params.inJournaledRange l = true → (s.ctx r).state = .opened → (s.hold? l).isSome = true →
      exec (.writeRequest r tag l mask d) s = .next (
        if s.forward.length < 32 then
          { s.placed r tag l (.write mask d) true with
            contexts := s.contexts.set r { s.ctx r with
              forwardedOutstanding := (s.ctx r).forwardedOutstanding + 1, wait := none } }
        else s.respond r tag .retry .queueFull))
    ∧ (s.params.inJournaledRange l = true → (s.ctx r).state = .committing →
        exec (.writeRequest r tag l mask d) s = .next (s.respond r tag .retry .busy))
    ∧ (s.params.inJournaledRange l = true →
        ((s.ctx r).state = .abortPending ∨ (s.ctx r).state = .rollingBack ∨ (s.ctx r).state = .aborted) →
        exec (.writeRequest r tag l mask d) s = .next ((s.clearWait r).respond r tag .error .aborted))
    ∧ ((s.params.inJournaledRange l = true ∧ (s.ctx r).state = .idle) ∨ s.params.inJournaledRange l = false →
        exec (.writeRequest r tag l mask d) s = .next (
          if s.forward.length < 32 then (s.placed r tag l (.write mask d) false).clearWait r
          else s.respond r tag .retry .queueFull))

/-- R27, for a write that R66 refuses. -/
def Obligations.ConflictSetsTheWaitRecord : Prop :=
  ∀ (s : State) (r : RequesterId) (tag : Tag) (l : LineAddr) (mask : ByteMask) (d : Line) (e : HoldEntry),
    s.runsIn .serving → s.isDataWrite r tag l mask d → s.pendingWrite l = false →
    s.hold? l = some e → e.state = .held → e.owner ≠ r →
    (∀ w, (s.ctx r).wait = some w → w.line = l →
      exec (.writeRequest r tag l mask d) s = .next (s.respond r tag .retry .conflict))
    ∧ ((∀ w, (s.ctx r).wait = some w → w.line ≠ l) →
      exec (.writeRequest r tag l mask d) s = .next (State.respond { s with
        contexts := s.contexts.set r { s.ctx r with
          wait := some { line := l, holder := e.owner, start := s.timebase } } } r tag .retry .conflict))

/-- R65: a write that is in flight. -/
def Obligations.WriteInFlightIsRetried : Prop :=
  ∀ (s : State) (r : RequesterId) (tag : Tag) (l : LineAddr) (mask : ByteMask) (d : Line), s.runsIn .serving →
    s.isDataWrite r tag l mask d →
    ((∃ e, s.hold? l = some e ∧ e.state = .journaling)
      ∨ (∃ e ∈ s.forward, e.line = l ∧ e.kind ≠ .read)
      ∨ (∃ o ∈ s.ops, o.line = l ∧ o.stage = .forwarding)) →
    exec (.writeRequest r tag l mask d) s = .next (s.respond r tag .retry .inFlight)

/-- R62, cases 6 to 8, for a write. That a write taken in FAULTED clears its requester's wait record is the model's
reading of R28, beside R35, which keeps wait records in FAULTED (log 13, DEDUCED). -/
def Obligations.FaultedWrite : Prop :=
  ∀ (s : State) (r : RequesterId) (tag : Tag) (l : LineAddr) (mask : ByteMask) (d : Line), s.runsIn .faulted →
    s.isDataWrite r tag l mask d →
    exec (.writeRequest r tag l mask d) s = .next (
      if s.params.inJournaledRange l = true then (s.clearWait r).respond r tag .error .fault
      else if s.pendingWrite l = true then s.respond r tag .retry .inFlight
      else if s.forward.length < 32 then (s.placed r tag l (.write mask d) false).clearWait r
      else s.respond r tag .retry .queueFull)

/-! ## Control lines -/

/-- R102, and the other rows of Table 6-2 for OPEN. -/
def Obligations.OpenCommand : Prop :=
  ∀ (s : State) (r : RequesterId) (tag : Tag) (l : LineAddr) (f : ControlFields), s.takes ⟨r, tag, l, 1, f⟩ →
    ((s.ctx r).state = .idle → exec (.openTransaction r tag l f) s = .next { s with
      openCounter := s.openCounter + 1
      contexts := s.contexts.set r { s.ctx r with
        state := .opened, openNumber := some s.openCounter, label := some f.label, undoCount := 0, holdsCount := 0
        opsInFlight := 0, forwardedOutstanding := 0, firstSlot := none, lastSlot := none, reason := none
        noticeDue := none, held := [], lastOutcome := .done }
      sent := s.sent ++ [{ requester := r, tag := tag, code := .okay, detail := .noDetail, data := none }] })
    ∧ ((s.ctx r).state = .opened ∨ (s.ctx r).state = .committing →
        exec (.openTransaction r tag l f) s = .next (s.lineAnswered r tag .error .controlRefused .nested))
    ∧ ((s.ctx r).state = .abortPending ∨ (s.ctx r).state = .rollingBack →
        exec (.openTransaction r tag l f) s = .next (s.respond r tag .retry .busy))
    ∧ ((s.ctx r).state = .aborted →
        exec (.openTransaction r tag l f) s = .next (s.lineAnswered r tag .error .controlRefused .noticePending))

/-- R7, R79, R103, and the other rows of Table 6-2 for COMMIT. -/
def Obligations.CommitCommand : Prop :=
  ∀ (s : State) (r : RequesterId) (tag : Tag) (l : LineAddr) (f : ControlFields), s.takes ⟨r, tag, l, 2, f⟩ →
    ((s.ctx r).state = .opened → exec (.commit r tag l f) s = .next { s with
      contexts := s.contexts.set r { s.ctx r with state := .committing, held := (s.ctx r).held ++ [tag] }
      outstanding := s.outstanding ++ [(r, tag)]
      journal := if (s.ctx r).opsInFlight = 0 ∧ (s.ctx r).forwardedOutstanding = 0 then
          { s.journal with requests := s.journal.requests ++ [{
              context := r, kind := .commit, openNumber := (s.ctx r).openNumber.getD 0
              label := (s.ctx r).label.getD 0, reason := 0 }] }
        else s.journal })
    ∧ ((s.ctx r).state = .idle →
        exec (.commit r tag l f) s = .next (s.lineAnswered r tag .error .controlRefused .noTransaction))
    ∧ ((s.ctx r).state = .committing →
        exec (.commit r tag l f) s = .next (s.lineAnswered r tag .error .controlRefused .alreadyCommitting))
    ∧ ((s.ctx r).state = .abortPending ∨ (s.ctx r).state = .rollingBack →
        exec (.commit r tag l f) s = .next (s.lineAnswered r tag .error .controlRefused .alreadyAborting))
    ∧ ((s.ctx r).state = .aborted →
        exec (.commit r tag l f) s = .next (s.lineAnswered r tag .error .controlRefused .noticePending))

/-- R9, R10, R76, R104, and the other rows of Table 6-2 for ABORT. In OPEN the record changes in the fields R9 names and
in no other; a slot request of the context not yet taken is withdrawn (R76), which lowers the counts (R5). The step at
which its drain is taken and the order of the responses are the model's (logs 6 and 14). -/
def Obligations.AbortCommand : Prop :=
  ∀ (s : State) (r : RequesterId) (tag : Tag) (l : LineAddr) (f : ControlFields), s.takes ⟨r, tag, l, 3, f⟩ →
    ((s.ctx r).state = .opened → ∃ t : State, exec (.abort r tag l f) s = .next t
      ∧ t.abortBegun r .requested false ∧ (t.ctx r).held = [tag] ∧ (r, tag) ∈ t.outstanding
      ∧ (t.ctx r).lastOutcome = (s.ctx r).lastOutcome
      ∧ ((∀ o ∈ s.ops, o.requester = r → o.asking = false) →
          t.ops = s.ops.map (fun o => if o.requester = r then { o with cancelled := true } else o)
          ∧ t.holds = s.holds ∧ t.sent = s.sent ∧ t.outstanding = s.outstanding ++ [(r, tag)]
          ∧ t.ctx r = { s.ctx r with
              state := .abortPending, reason := some .requested, noticeDue := some false, wait := none, held := [tag] }
          ∧ ∀ c, c ≠ r → t.ctx c = s.ctx c)
      ∧ (s.withdrawable r → t = { s.abortBegins r .requested false with
          contexts := (s.abortBegins r .requested false).contexts.set r
            { (s.abortBegins r .requested false).ctx r with held := [tag] }
          outstanding := (s.abortBegins r .requested false).outstanding ++ [(r, tag)] })
      ∧ t = { s with
          contexts := t.contexts, holds := t.holds, ops := t.ops, outstanding := t.outstanding, sent := t.sent
          drains := t.drains })
    ∧ ((s.ctx r).state = .abortPending ∨ (s.ctx r).state = .rollingBack →
        exec (.abort r tag l f) s = .next { s with
          contexts := s.contexts.set r { s.ctx r with held := (s.ctx r).held ++ [tag], noticeDue := some false }
          outstanding := s.outstanding ++ [(r, tag)] })
    ∧ ((s.ctx r).state = .idle →
        exec (.abort r tag l f) s = .next (s.lineAnswered r tag .error .controlRefused .noTransaction))
    ∧ ((s.ctx r).state = .committing →
        exec (.abort r tag l f) s = .next (s.lineAnswered r tag .error .controlRefused .tooLate))
    ∧ ((s.ctx r).state = .aborted →
        exec (.abort r tag l f) s = .next (s.lineAnswered r tag .error .controlRefused .noticePending))

/-- R106, in SERVING and in FAULTED (R115), in every context state. -/
def Obligations.QueryCommandArms : Prop :=
  ∀ (s : State) (r : RequesterId) (tag : Tag) (l : LineAddr) (f : ControlFields), s.examines →
    s.admits ⟨r, tag, l, 4, f⟩ → f.clean →
    exec (.query r tag l f) s = .next { s with
      contexts := s.contexts.set r { s.ctx r with arming := some l, lastOutcome := .done }
      sent := s.sent ++ [{ requester := r, tag := tag, code := .okay, detail := .noDetail, data := none }] }

/-- R13, R105, and the other row of Table 6-2 for ACKNOWLEDGE. -/
def Obligations.AcknowledgeCommand : Prop :=
  ∀ (s : State) (r : RequesterId) (tag : Tag) (l : LineAddr) (f : ControlFields), s.takes ⟨r, tag, l, 5, f⟩ →
    ((s.ctx r).state = .aborted → ∃ t : State, exec (.acknowledge r tag l f) s = .next t
      ∧ (t.device.noticesStanding = true ↔ ∃ c, c ≠ r ∧ (s.ctx c).state = .aborted)
      ∧ (t.attn = true ↔ ∃ c, c ≠ r ∧ (s.ctx c).state = .aborted)
      ∧ t = { s with
          contexts := s.contexts.set r { s.ctx r with
            state := .idle, openNumber := none, label := none, reason := none, lastOutcome := .done }
          sent := s.sent ++ [{ requester := r, tag := tag, code := .okay, detail := .noDetail, data := none }]
          device := { s.device with noticesStanding := t.device.noticesStanding } })
    ∧ ((s.ctx r).state ≠ .aborted →
        exec (.acknowledge r tag l f) s = .next (s.lineAnswered r tag .okay .noDetail .nothingPending))

/-- R100: a control line whose key matches is malformed when a must-be-zero byte is not zero or its code is unknown. And
what a control line is: the places of Table 12-2 in the 64 bytes of a control line command and in those of any write, the
three conditions of R97, the command codes, and the CRC-32 of 0.8.5, its bits taken least significant first, with its test
value. -/
def Obligations.MalformedLineIsRefused : Prop :=
  (∀ (s : State) (c : Instr) (a : LineArrival), c.controlLine? = some a → s.examines → s.admits a →
      (¬ a.fields.clean ∨ a.code.toNat = 0 ∨ 5 < a.code.toNat) →
      exec c s = .next (s.lineAnswered a.requester a.tag .error .controlRefused .malformed))
    ∧ (∀ (s : State) (r : RequesterId) (tag : Tag) (l : LineAddr) (code : Byte) (f : ControlFields),
      (Instr.controlLineUnknownCommand r tag l code f).wellFormed = true → s.examines →
      s.admits ⟨r, tag, l, code, f⟩ →
      exec (.controlLineUnknownCommand r tag l code f) s =
        .next (s.lineAnswered r tag .error .controlRefused .malformed))
    ∧ (∀ (code : Byte) (f : ControlFields) (d : Line), d = controlLineData code f →
      d.extractLsb' 0 64 = f.signature ∧ d.extractLsb' 64 64 = f.key ∧ d.extractLsb' 128 8 = code
      ∧ d.extractLsb' 136 56 = f.zeroLow ∧ d.extractLsb' 192 64 = f.label ∧ d.extractLsb' 256 224 = f.zeroHigh
      ∧ d.extractLsb' 480 32 = f.check ∧ d.extractLsb' 0 480 = controlLineBody code f)
    ∧ (∀ d : Line, lineSignature d = d.extractLsb' 0 64 ∧ lineKey d = d.extractLsb' 64 64
      ∧ lineCommand d = d.extractLsb' 128 8 ∧ lineZeroLow d = d.extractLsb' 136 56 ∧ lineLabel d = d.extractLsb' 192 64
      ∧ lineZeroHigh d = d.extractLsb' 256 224 ∧ lineCheck d = d.extractLsb' 480 32
      ∧ (malformedLine d = true ↔ d.extractLsb' 136 56 ≠ 0 ∨ d.extractLsb' 256 224 ≠ 0
        ∨ d.extractLsb' 128 8 ∉ [1#8, 2#8, 3#8, 4#8, 5#8]))
    ∧ (∀ (s : State) (mask : ByteMask) (d : Line), s.recognises mask d = true ↔
      mask = BitVec.allOnes 64 ∧ (∃ p, s.loader.params = some p ∧ d.extractLsb' 0 64 = p.signature)
      ∧ d.extractLsb' 480 32 = crc32 (d.extractLsb' 0 480))
    ∧ [Command.openTransaction, .commit, .abort, .query, .acknowledge].map Command.code = [1, 2, 3, 4, 5]
    ∧ (∀ (w : Nat) (v : BitVec w), crc32 v = ~~~ (List.range w).foldl (fun (c : BitVec 32) i =>
        if c.getLsbD 0 = v.getLsbD i then c >>> 1 else (c >>> 1) ^^^ 0xEDB88320#32) (BitVec.allOnes 32))
    ∧ crc32 0x393837363534333231#72 = 0xCBF43926#32

/-- R99: a control line while the Key Checker is locked out. -/
def Obligations.LockedOutLineIsRefused : Prop :=
  ∀ (s : State) (c : Instr) (a : LineArrival) (e : Time), c.controlLine? = some a → s.examines → s.decodes a →
    s.key.checker = .lockedOut e →
    exec c s = .next (s.lineAnswered a.requester a.tag .error .controlRefused .lockedOut)

/-- R118: a key mismatch at the current timebase value, with R117. -/
def Obligations.KeyMismatchIsRecorded : Prop :=
  ∀ (s : State) (c : Instr) (a : LineArrival) (failures : List Time), c.controlLine? = some a → s.examines →
    s.decodes a → s.key.checker = .openChannel → a.fields.key ≠ s.params.key →
    failures = s.key.failures.dropWhile
        (fun t => decide (s.params.failureWindow * 1000000 < s.timebase.toNat - t.toNat)) ++ [s.timebase] →
    ∃ k : KeyChecker, exec c s =
        .next { s.lineAnswered a.requester a.tag .error .controlRefused .keyMismatch with key := k }
      ∧ k.total = (if s.key.total < 65535 then s.key.total + 1 else s.key.total)
      ∧ (k.abuse = true ↔ s.key.abuse = true ∨ (s.key.total < 65535 ∧ s.key.total + 1 = 64))
      ∧ (failures.length < s.params.failureThreshold → k.checker = .openChannel ∧ k.failures = failures)
      ∧ (s.params.failureThreshold ≤ failures.length → k.failures = []
          ∧ k.checker = .lockedOut (s.timebase + BitVec.ofNat 64 (s.params.lockoutDuration * 1000000)))

/-- R115: OPEN, COMMIT, ABORT and ACKNOWLEDGE in FAULTED. -/
def Obligations.FaultedCommandsAreRefused : Prop :=
  ∀ (s : State) (c : Instr) (a : LineArrival), c.controlLine? = some a → s.runsIn .faulted → s.admits a →
    a.fields.clean → (a.code = 1 ∨ a.code = 2 ∨ a.code = 3 ∨ a.code = 5) →
    exec c s = .next (s.lineAnswered a.requester a.tag .error .controlRefused .notAvailable)

/-! ## Timers and the configuration port -/

/-- R30, R31 and R32. The step at which the victim's drain is taken, and the order of the responses to slot requests so
withdrawn, are the model's (logs 6 and 14). No expiry is taken in FAULTED or in another state in which the timers do not
run, nor from the assertion of PFAIL_N on (R29, R35, R161). That one before its time, or without a wait record, changes
nothing is the model's (log 4). -/
def Obligations.ConflictTimerExpiry : Prop :=
  (∀ (s : State) (waiter : RequesterId) (w : WaitRecord), s.works → (s.ctx waiter).wait = some w →
    w.start.toNat + s.params.conflictTimeout ≤ s.timebase.toNat →
    (s.hold? w.line = none → exec (.conflictTimerExpiry waiter) s =
      .next { s with contexts := s.contexts.set waiter { s.ctx waiter with wait := none } })
    ∧ (∀ e, s.hold? w.line = some e → e.owner ≠ w.holder → exec (.conflictTimerExpiry waiter) s =
      .next { s with contexts := s.contexts.set waiter { s.ctx waiter with
        wait := some { line := w.line, holder := e.owner, start := s.timebase } } })
    ∧ (∀ e, s.hold? w.line = some e → e.owner = w.holder →
      ((s.ctx waiter).state = .committing ∨ (s.ctx waiter).state = .abortPending
          ∨ (s.ctx waiter).state = .rollingBack ∨ (s.ctx waiter).state = .aborted →
        exec (.conflictTimerExpiry waiter) s =
          .next { s with contexts := s.contexts.set waiter { s.ctx waiter with wait := none } })
      ∧ ((s.ctx waiter).state = .idle ∨ (s.ctx waiter).state = .opened →
        (s.ctx w.holder).state = .committing ∨ (s.ctx w.holder).state = .abortPending
          ∨ (s.ctx w.holder).state = .rollingBack →
        exec (.conflictTimerExpiry waiter) s =
          .next { s with contexts := s.contexts.set waiter { s.ctx waiter with
            wait := some { w with start := s.timebase } } })
      ∧ ((s.ctx waiter).state = .idle → (s.ctx w.holder).state = .opened →
        ∃ t : State, exec (.conflictTimerExpiry waiter) s = .next t ∧ t.abortBegun w.holder .conflict true
          ∧ (t.ctx waiter).wait = some { w with start := s.timebase } ∧ (t.ctx waiter).state = .idle
          ∧ (s.withdrawable w.holder → t = { s.abortBegins w.holder .conflict true with
              contexts := (s.abortBegins w.holder .conflict true).contexts.set waiter
                { (s.abortBegins w.holder .conflict true).ctx waiter with
                  wait := some { w with start := s.timebase } } }))
      ∧ (∀ n m, (s.ctx waiter).state = .opened → (s.ctx w.holder).state = .opened → w.holder ≠ waiter →
        (s.ctx waiter).openNumber = some n → (s.ctx w.holder).openNumber = some m →
        (youngerThan w.holder m waiter n →
          ∃ t : State, exec (.conflictTimerExpiry waiter) s = .next t ∧ t.abortBegun w.holder .conflict true
            ∧ (t.ctx waiter).wait = some { w with start := s.timebase } ∧ (t.ctx waiter).state = .opened
            ∧ (s.withdrawable w.holder → t = { s.abortBegins w.holder .conflict true with
                contexts := (s.abortBegins w.holder .conflict true).contexts.set waiter
                  { (s.abortBegins w.holder .conflict true).ctx waiter with
                    wait := some { w with start := s.timebase } } }))
        ∧ (youngerThan waiter n w.holder m →
          ∃ t : State, exec (.conflictTimerExpiry waiter) s = .next t ∧ t.abortBegun waiter .conflict true
            ∧ (t.ctx w.holder).state = .opened
            ∧ (s.withdrawable waiter → t = s.abortBegins waiter .conflict true)))))
    ∧ (∀ (s : State) (waiter : RequesterId) (w : WaitRecord), (s.ctx waiter).wait = some w →
      s.timebase.toNat < w.start.toNat + s.params.conflictTimeout → exec (.conflictTimerExpiry waiter) s = .next s)
    ∧ (∀ (s : State) (waiter : RequesterId), (s.ctx waiter).wait = none → exec (.conflictTimerExpiry waiter) s = .next s)
    ∧ (∀ (s : State) (waiter : RequesterId), (s.device.state = .faulted ∨ s.device.state = .halted
        ∨ s.device.state = .loading ∨ s.device.state = .recovering ∨ s.device.state = .passthrough
        ∨ s.device.powerFailPending = true) → exec (.conflictTimerExpiry waiter) s = .next s)

/-- R119, R122, R161: no expiry is taken in HALTED, or in another state in which the timer does not run. That an expiry
before its time, or without a lockout, changes nothing is the model's (log 4). -/
def Obligations.LockoutExpiryOpensTheChannel : Prop :=
  (∀ (s : State) (e : Time), s.key.checker = .lockedOut e →
    (e ≤ s.timebase → s.pins.porst = false →
      (s.device.state = .serving ∨ s.device.state = .faulted ∨ s.device.state = .draining
        ∨ s.device.powerFailPending = true) →
      exec .lockoutExpiry s = .next { s with key := { s.key with checker := .openChannel } }
      ∧ (s.keyConsistent → s.key.failures = []))
    ∧ (s.timebase < e → exec .lockoutExpiry s = .next s))
    ∧ (∀ s : State, s.device.powerFailPending = false →
      (s.device.state = .halted ∨ s.device.state = .loading ∨ s.device.state = .recovering
        ∨ s.device.state = .passthrough) → exec .lockoutExpiry s = .next s)
    ∧ (∀ s : State, s.deviceConsistent → s.device.state = .halted → exec .lockoutExpiry s = .next s)
    ∧ ∀ s : State, s.pins.porst = true ∨ s.key.checker = .openChannel → exec .lockoutExpiry s = .next s

/-- R136, R140, R141, R145, R157: the lines of the configuration port, and the end of a transfer, whose sampled bits
make the block; a block that passes starts the Recovery Sequencer, which has read nothing yet. A final failure with
LRST_N asserted takes a link reset at the entry into PASSTHROUGH (R159). That the attempt count keeps its last value
once the load has ended is the model's (log 33). A pause lasts its 10 ms (R140). That the end of a pause before them, or
without a pause, and the end of a transfer that is not under way change nothing is the model's (log 4). -/
def Obligations.ConfigurationLoading : Prop :=
  (∀ (s : State) (sampled : SampledBits) (b : ParamBlock), s.loader.phase = .transfer → sampledAs sampled b →
      blockValid b = true → ∃ t : State, exec (.configurationTransferEnd sampled) s = .next t
      ∧ t.loader = { s.loader with phase := .idle, params := some (Params.ofBlock b) }
      ∧ t.device = { s.device with state := .recovering }
      ∧ t.recovery.phase = .headers ∧ t.recovery.chosen = none ∧ t.recovery.walkPosition = none
      ∧ t.recovery.expected = none ∧ t.recovery.examined = 0 ∧ t.recovery.unended = [] ∧ t.recovery.stop = none
      ∧ t.recovery.undone = 0 ∧ t.recovery.restoresOutstanding = 0 ∧ t.recovery.formatted = false
      ∧ t.recovery.zeroDone = 0
      ∧ (∀ p ∈ [t.recovery.io.headerA, t.recovery.io.headerB], ∀ v ∈ [p.first, p.second], v = .waiting ∨ v = .issued)
      ∧ t = { s with loader := t.loader, device := t.device, recovery := t.recovery, link := t.link
                     issued := t.issued, draws := t.draws }
      ∧ t = State.pump { s with
          loader := t.loader, device := t.device, recovery := { Recovery.reset with phase := .headers } })
    ∧ (∀ (s : State) (sampled : SampledBits) (b : ParamBlock), s.loader.phase = .transfer → sampledAs sampled b →
      blockValid b = false → s.loader.attempt < 3 →
      exec (.configurationTransferEnd sampled) s = .next { s with loader := { s.loader with
        attempt := s.loader.attempt + 1, phase := .pausing (s.timebase + 10000) } })
    ∧ (∀ (s : State) (sampled : SampledBits) (b : ParamBlock), s.loader.phase = .transfer → sampledAs sampled b →
      blockValid b = false → 3 ≤ s.loader.attempt →
      ∃ t : State, exec (.configurationTransferEnd sampled) s = .next t ∧ t.device.state = .passthrough
        ∧ t.loader = { s.loader with phase := .idle, params := none }
        ∧ (s.pins.lrst = false → t = { s with device := { s.device with state := .passthrough }, loader := t.loader })
        ∧ (s.pins.lrst = true → s.device.powerFailPending = false → t = { s with
            device := { s.device with state := .passthrough }, loader := t.loader, outstanding := [], classified := []
            forward := s.forward.map (fun e => { e with forgotten := true })
            ops := s.ops.map (fun o => { o with forgotten := true }) }))
    ∧ (∀ (s : State) (e : Time), s.loader.phase = .pausing e → e ≤ s.timebase →
      exec .loadPauseEnd s = .next { s with loader := { s.loader with phase := .transfer } })
    ∧ (∀ (s : State) (e : Time), s.loader.phase = .pausing e → s.timebase < e → exec .loadPauseEnd s = .next s)
    ∧ (∀ s : State, (∀ e, s.loader.phase ≠ .pausing e) → exec .loadPauseEnd s = .next s)
    ∧ (∀ (s : State) (sampled : SampledBits), s.loader.phase ≠ .transfer →
      exec (.configurationTransferEnd sampled) s = .next s)
    ∧ (∀ s : State, s.loader.phase = .transfer → s.cfgCsN = false
      ∧ s.cfgDo = [false, false, false, false, false, false, true, true] ++ List.replicate 16 false
      ∧ s.cfgClkPulses = 3 * 8 + 256 * 8)
    ∧ (∀ s : State, s.loader.phase ≠ .transfer → s.cfgCsN = true ∧ s.cfgDo = [] ∧ s.cfgClkPulses = 0)

/-- R137, R138, R139: which blocks pass validation, and the fields of a block, by the byte positions of Table 12-6. -/
def Obligations.ParameterBlockValidation : Prop :=
  ∀ b : ParamBlock,
    let field := fun (byte width : Nat) => (b.extractLsb' (8 * byte) width).toNat
    let base := fun (i : Nat) => field (64 + 16 * i) 64
    let length := fun (i : Nat) => field (72 + 16 * i) 64
    let count := field 38 8
    (blockValid b = true ↔
      b.extractLsb' 2016 32 = crc32 (b.extractLsb' 0 2016)
      ∧ field 0 8 = 1 ∧ field 8 64 ≠ 0 ∧ field 8 64 ≠ 2 ^ 64 - 1
      ∧ field 24 64 < 2 ^ 40 ∧ (∃ k ≤ 8, field 32 32 = 65536 * 2 ^ k) ∧ field 24 64 % field 32 32 = 0
      ∧ field 24 64 + field 32 32 ≤ 2 ^ 40
      ∧ count ≤ 8
      ∧ (∀ i < count, base i % 4096 = 0 ∧ length i % 4096 = 0 ∧ 0 < length i ∧ base i + length i ≤ 2 ^ 40)
      ∧ (∀ i < count, ∀ j < i, base i + length i ≤ base j ∨ base j + length j ≤ base i)
      ∧ (∀ i < count, base i + length i ≤ field 24 64 ∨ field 24 64 + field 32 32 ≤ base i)
      ∧ (1 ≤ field 36 16 ∧ field 36 16 ≤ 512) ∧ (10 ≤ field 40 32 ∧ field 40 32 ≤ 1000000)
      ∧ (2 ≤ field 44 8 ∧ field 44 8 ≤ 15) ∧ (1 ≤ field 45 8 ∧ field 45 8 ≤ 60)
      ∧ (1 ≤ field 46 16 ∧ field 46 16 ≤ 300) ∧ field 39 8 ≤ 1
      ∧ field 1 56 = 0 ∧ field 48 128 = 0 ∧ field 192 480 = 0)
    ∧ Params.ofBlock b = {
        version := field 0 8, signature := BitVec.ofNat 64 (field 8 64), key := BitVec.ofNat 64 (field 16 64)
        journalBase := field 24 64, journalSize := field 32 32, holdQuota := field 36 16, rangeCount := field 38 8
        formatPermitted := field 39 8, conflictTimeout := field 40 32, failureThreshold := field 44 8
        failureWindow := field 45 8, lockoutDuration := field 46 16
        ranges := (List.range 8).map (fun r => { base := base r, length := length r })
        checkWord := BitVec.ofNat 32 (field 252 32) }

/-- R1: one microsecond on; held at 0 while PORST_N is asserted. -/
def Obligations.TimebaseAdvances : Prop :=
  ∀ s : State, exec .timebaseAdvance s =
    .next { s with timebase := if s.pins.porst = true then 0 else s.timebase + 1 }

/-! ## Completions of forwarded work -/

/-- R70 and, for a response that names a slot holding no access, R124. That a completion, of this or of any other kind,
for a slot whose access is another's changes nothing is the model's (log 4). What the drain (R11, log 6) and the
wind-down (R134, R161) add is part of the next state; the order of the responses is log 14's. That an abort request of
the wind-down withdraws a slot request that waits, as elsewhere (R76), is read beside R56 (log 28), and that the engine
stopped there drops the first half of the slot under read is the model's (log 31). That an abort which begins in FAULTED
or in the wind-down clears the wait record, which R35 keeps there, is the model's reading of R28 (log 13, DEDUCED). -/
def Obligations.ForwardedAccessCompletes : Prop :=
  (∀ (s : State) (k : AccessSlot) (result : ReadResult) (a : Access) (e : ForwardEntry), s.access k = some a →
      a.purpose = .forwarded → s.forward.find? (fun e => decide (e.issued = some k)) = some e →
      let left : State := { s with
        link := s.link.set k none, forward := s.forward.eraseP (fun e => decide (e.issued = some k)) }
      let counted := fun (t : State) => { t with contexts := t.contexts.set e.requester { t.ctx e.requester with
        forwardedOutstanding := (t.ctx e.requester).forwardedOutstanding - 1 } }
      (∀ d, e.kind = .read → e.journaled = false → result = .okay d → exec (.forwardAccessComplete k result) s =
        .next (left.finish e.forgotten e.requester e.tag .okay .noDetail (some d)).woundDown)
      ∧ (e.journaled = false → result = .error → exec (.forwardAccessComplete k result) s =
        .next (left.finish e.forgotten e.requester e.tag .error .memoryError).woundDown)
      ∧ (e.kind ≠ .read → e.journaled = false → result ≠ .error → exec (.forwardAccessComplete k result) s =
        .next (left.finish e.forgotten e.requester e.tag .okay .noDetail).woundDown)
      ∧ (e.kind ≠ .read → e.journaled = true → result ≠ .error → exec (.forwardAccessComplete k result) s =
        .next ((counted (left.finish e.forgotten e.requester e.tag .okay .noDetail)).drainTaken e.requester).woundDown)
      ∧ (e.kind ≠ .read → e.journaled = true → result = .error → (s.ctx e.requester).state ≠ .opened →
        exec (.forwardAccessComplete k result) s =
          .next ((counted (left.finish e.forgotten e.requester e.tag .error .memoryError)).drainTaken
            e.requester).woundDown)
      ∧ (e.kind ≠ .read → e.journaled = true → result = .error → (s.ctx e.requester).state = .opened →
        ∃ t : State, exec (.forwardAccessComplete k result) s = .next t
          ∧ t.abortBegun e.requester .memoryError true
          ∧ (t.ctx e.requester).forwardedOutstanding = (s.ctx e.requester).forwardedOutstanding - 1
          ∧ t.forward = left.forward ∧ t.link = left.link
          ∧ (e.forgotten = false → { requester := e.requester, tag := e.tag, code := .error, detail := .memoryError
                                     data := none } ∈ t.sent)
          ∧ (s.withdrawable e.requester → t = ((counted (left.finish e.forgotten e.requester e.tag .error
              .memoryError)).abortBegins e.requester .memoryError true).woundDown)))
    ∧ (∀ (s : State) (k : AccessSlot) (result : ReadResult), s.access k = none →
      exec (.memoryResponseUnknownSlot k result) s = .next s)
    ∧ ∀ (s : State) (c : Instr) (k : AccessSlot), c.respondedSlot? = some k →
      (∀ a, s.access k = some a → ¬ c.completes a.purpose) → exec c s = .next s

/-- R72: an operation's old-line read completes. What the drain (R11, log 6) and the wind-down (R77, R134, R161) add is
part of the next state; the order of the responses is log 14's. That an abort request of the wind-down withdraws a slot
request that waits (R76) is read beside R56 (log 28), and that the engine stopped there drops the first half of the slot
under read is the model's (log 31). That an abort which begins in FAULTED or in the wind-down clears the wait record,
which R35 keeps there, is the model's reading of R28 (log 13, DEDUCED). -/
def Obligations.OldLineReadCompletes : Prop :=
  ∀ (s : State) (k : AccessSlot) (result : ReadResult) (a : Access) (o : Operation), s.access k = some a →
    a.purpose = .oldLineRead → s.op? a.line = some o →
    let left : State := { s with link := s.link.set k none }
    (o.cancelled = true → ∃ t : State, exec (.oldLineReadComplete k result) s = .next t
      ∧ t.holds = s.holds.eraseP (fun e => decide (e.line = a.line))
      ∧ t.ops = s.ops.eraseP (fun p => decide (p.line = a.line))
      ∧ t.sent = (if o.forgotten = true then s.sent else s.sent ++ [{
          requester := o.requester, tag := o.tag, code := .error, detail := .aborted, data := none }])
      ∧ t.link = s.link.set k none
      ∧ t = (((left.removeHold a.line).opGone o .error .aborted).drainTaken o.requester).woundDown)
    ∧ (o.cancelled = false → result = .error → ∃ t : State, exec (.oldLineReadComplete k result) s = .next t
      ∧ (∀ e ∈ t.holds, e ∈ s.holds.eraseP (fun e => decide (e.line = a.line)))
      ∧ (∀ p ∈ t.ops, ∃ q ∈ s.ops.eraseP (fun p => decide (p.line = a.line)), q.line = p.line ∧ q.tag = p.tag)
      ∧ (o.forgotten = false → { requester := o.requester, tag := o.tag, code := .error, detail := .memoryError
                                 data := none } ∈ t.sent)
      ∧ ((s.ctx o.requester).state = .opened → t.abortBegun o.requester .memoryError true)
      ∧ ((s.ctx o.requester).state ≠ .opened → (t.ctx o.requester).state = (s.ctx o.requester).state)
      ∧ (∀ u, u = (left.removeHold a.line).opGone o .error .memoryError →
          ((s.ctx o.requester).state = .opened → u.withdrawable o.requester →
            t = (u.abortBegins o.requester .memoryError true).woundDown)
          ∧ ((s.ctx o.requester).state ≠ .opened → t = (u.drainTaken o.requester).woundDown)))
    ∧ (∀ d, o.cancelled = false → result = .okay d → ∃ t : State, exec (.oldLineReadComplete k result) s = .next t
      ∧ t.ops = s.ops.map (fun p => if p.line = a.line then
          { p with stage := .appending, old := some d, access := none } else p)
      ∧ t = ({ left with ops := t.ops } : State).woundDown)

/-- R75: an operation's forwarded write completes. What the drain (R11, log 6) and the wind-down (R77, R134, R161) add
is part of the next state; the order of the responses is log 14's. That an abort request of the wind-down withdraws a
slot request that waits (R76) is read beside R56 (log 28), and that the engine stopped there drops the first half of the
slot under read is the model's (log 31). That an abort which begins in FAULTED or in the wind-down clears the wait
record, which R35 keeps there, is the model's reading of R28 (log 13, DEDUCED). -/
def Obligations.OperationWriteCompletes : Prop :=
  ∀ (s : State) (k : AccessSlot) (a : Access) (o : Operation), s.access k = some a → a.purpose = .operationWrite →
    s.op? a.line = some o →
    let left : State := { s with link := s.link.set k none }
    (∃ t : State, exec (.operationForwardedWriteComplete k .okay) s = .next t
      ∧ t.ops = s.ops.eraseP (fun p => decide (p.line = a.line))
      ∧ t.contexts = s.contexts.set o.requester { s.ctx o.requester with
          opsInFlight := (s.ctx o.requester).opsInFlight - 1 }
      ∧ t.sent = (if o.forgotten = true then s.sent else s.sent ++ [{
          requester := o.requester, tag := o.tag, code := .okay, detail := .noDetail, data := none }])
      ∧ t = ((left.opGone o .okay .noDetail).drainTaken o.requester).woundDown)
    ∧ (∃ t : State, exec (.operationForwardedWriteComplete k .error) s = .next t
      ∧ (∀ p ∈ t.ops, ∃ q ∈ s.ops.eraseP (fun p => decide (p.line = a.line)), q.line = p.line ∧ q.tag = p.tag)
      ∧ (o.forgotten = false → { requester := o.requester, tag := o.tag, code := .error, detail := .memoryError
                                 data := none } ∈ t.sent)
      ∧ ((s.ctx o.requester).state = .opened → t.abortBegun o.requester .memoryError true)
      ∧ ((s.ctx o.requester).state ≠ .opened → (t.ctx o.requester).state = (s.ctx o.requester).state)
      ∧ (∀ u, u = left.opGone o .error .memoryError →
          ((s.ctx o.requester).state = .opened → u.withdrawable o.requester →
            t = (u.abortBegins o.requester .memoryError true).woundDown)
          ∧ ((s.ctx o.requester).state ≠ .opened → t = (u.drainTaken o.requester).woundDown)))

/-! ## The journal -/

/-- R43, R73, R5, R71: the Journal Writer takes a slot request. From the assertion of PFAIL_N none is taken, in HALTED
neither, and the operation waits until power-on reset (R56). That a request for a line without an operation in APPENDING
and without a slot, or in another state, changes nothing is the model's (log 4). What the drain adds is log 6's, the
order of the responses log 14's. -/
def Obligations.UndoSlotRequest : Prop :=
  (∀ (s : State) (l : LineAddr) (o : Operation), s.op? l = some o → o.stage = .appending → o.slot = none →
    s.device.powerFailPending = false →
    (s.device.state = .serving ∨ s.device.state = .draining → 16 < s.freeSlots →
      exec (.undoSlotRequest l) s = .next { s with
        journal := { s.journal with
          head := { slot := (s.journal.head.slot + 1) % s.slotCount, seq := s.journal.head.seq + 1 }
          records := s.journal.records ++ [{
            owner := o.requester, slot := s.journal.head.slot
            record := { kind := .undo, context := BitVec.ofNat 8 o.requester, reason := 0, seq := s.journal.head.seq
                        openNumber := (s.ctx o.requester).openNumber.getD 0, line := l, label := 0
                        old := o.old.getD 0 }
            first := .waiting, second := .waiting, mark := false }] }
        ops := s.ops.map (fun p => if p.line = l then { p with slot := some s.journal.head } else p)
        contexts := s.contexts.set o.requester { s.ctx o.requester with
          undoCount := (s.ctx o.requester).undoCount + 1, lastSlot := some s.journal.head.slot
          firstSlot := some ((s.ctx o.requester).firstSlot.getD s.journal.head.slot) } })
    ∧ (s.device.state = .serving ∨ s.device.state = .draining → s.freeSlots ≤ 16 → ∃ t : State,
      exec (.undoSlotRequest l) s = .next t ∧ t.journal = s.journal
      ∧ (∀ e ∈ t.holds, e ∈ s.holds.eraseP (fun e => decide (e.line = l)))
      ∧ (∀ p ∈ t.ops, ∃ q ∈ s.ops.eraseP (fun p => decide (p.line = l)), q.line = p.line ∧ q.tag = p.tag)
      ∧ (o.forgotten = false → { requester := o.requester, tag := o.tag, code := .error, detail := .aborted
                                 data := none } ∈ t.sent)
      ∧ ((s.ctx o.requester).state = .opened → t.abortBegun o.requester .journalFull true)
      ∧ (∀ u, u = (s.removeHold l).opGone o .error .aborted →
          ((s.ctx o.requester).state = .opened → u.withdrawable o.requester →
            t = u.abortBegins o.requester .journalFull true)
          ∧ ((s.ctx o.requester).state ≠ .opened → t = u.drainTaken o.requester)))
    ∧ (s.device.state = .faulted → ∃ t : State, exec (.undoSlotRequest l) s = .next t
      ∧ t = s.opGone o .error .fault
      ∧ t.ops = s.ops.eraseP (fun p => decide (p.line = l)) ∧ t.holds = s.holds ∧ t.journal = s.journal
      ∧ t.contexts = s.contexts.set o.requester { s.ctx o.requester with
          opsInFlight := (s.ctx o.requester).opsInFlight - 1 }
      ∧ t.outstanding = (if o.forgotten = true then s.outstanding
          else s.outstanding.filter (fun e => decide (e ≠ (o.requester, o.tag))))
      ∧ t.sent = (if o.forgotten = true then s.sent else s.sent ++ [{
          requester := o.requester, tag := o.tag, code := .error, detail := .fault, data := none }])))
    ∧ (∀ (s : State) (l : LineAddr), s.device.powerFailPending = true ∨ s.device.state = .halted
      ∨ s.device.state = .loading ∨ s.device.state = .recovering ∨ s.device.state = .passthrough →
      exec (.undoSlotRequest l) s = .next s)
    ∧ (∀ (s : State) (l : LineAddr), (∀ o, s.op? l = some o → o.stage ≠ .appending ∨ o.slot ≠ none) →
      exec (.undoSlotRequest l) s = .next s)

/-- R46: a half written without error sets the completion mark once both halves are; R73: the operation of an UNDO record
whose write so completes waits for durability; R47: where the durable head's slot is still unmarked, nothing is
reported. The same holds in the wind-down (R56), where the engine stopped drops the first half of the slot under read (the
model's, log 31). -/
def Obligations.RecordHalfWritten : Prop :=
  ∀ (s : State) (k : AccessSlot) (a : Access) (seq : Serial) (h : Half) (r : AssignedRecord)
    (records : List AssignedRecord), s.access k = some a → a.purpose = .recordHalf seq h → s.record? seq = some r →
    s.journals → (s.journal.records.map (fun q => q.record.seq)).Nodup →
    (if h = .first then r.second else r.first) ≠ .failed →
    records = s.journal.records.map (fun q => if q.record.seq = seq then { r with
      first := (if h = .first then .okay else r.first), second := (if h = .second then .okay else r.second)
      mark := (if h = .first then decide (r.second = .okay) else decide (r.first = .okay)) } else q) →
    (∀ q, records.head? = some q → q.mark = false) →
    exec (.recordWriteComplete k .okay) s = .next ({ s with
      link := s.link.set k none
      journal := { s.journal with records := records }
      ops := if r.record.kind = .undo ∧ (if h = .first then r.second else r.first) = .okay then
          s.ops.map (fun o => if o.line = r.record.line then { o with stage := .waitingDurable } else o)
        else s.ops } : State).woundDown

/-- R23, R47, R74: the durable head passes one UNDO record, in the wind-down too (R56). What the drain adds is log 6's, and
that the engine stopped in the wind-down drops the first half of the slot under read log 31's. -/
def Obligations.UndoRecordDurable : Prop :=
  ∀ (s : State) (k : AccessSlot) (a : Access) (h : Half) (r : AssignedRecord) (rest : List AssignedRecord)
    (o : Operation), s.access k = some a → a.purpose = .recordHalf r.record.seq h → s.journals →
    s.journal.records = r :: rest → (∀ q ∈ rest, q.record.seq ≠ r.record.seq) →
    (∀ q, rest.head? = some q → q.mark = false) → r.record.kind = .undo →
    (if h = .first then r.second else r.first) = .okay → s.op? r.record.line = some o →
    ∃ t : State, exec (.recordWriteComplete k .okay) s = .next t.woundDown
      ∧ t.journal = { s.journal with
          durableHead := { slot := (s.journal.durableHead.slot + 1) % s.slotCount, seq := s.journal.durableHead.seq + 1 }
          records := rest }
      ∧ t.holds = s.holds.map (fun e => if e.line = r.record.line then { e with state := .held } else e)
      ∧ (o.cancelled = false → t.reports = s.reports ++ [r.record.line] ∧ t.sent = s.sent ∧ t.contexts = s.contexts
          ∧ t.ops = s.ops.map (fun p => if p.line = r.record.line then
              { p with stage := .forwarding, access := none } else p)
          ∧ t.outstanding = s.outstanding ∧ t.drains = s.drains)
      ∧ (o.cancelled = true → t.reports = s.reports ∧ (∀ p ∈ t.ops, ∃ q ∈ s.ops.eraseP
            (fun p => decide (p.line = r.record.line)), q.line = p.line ∧ q.tag = p.tag)
          ∧ t.sent = (if o.forgotten = true then s.sent else s.sent ++ [{
              requester := o.requester, tag := o.tag, code := .error, detail := .aborted, data := none }])
          ∧ ((s.ops.map (fun o => o.line)).Nodup → t = State.drainTaken (State.opGone { s with
              link := t.link, journal := t.journal, holds := t.holds } o .error .aborted) o.requester))
      ∧ t = { s with
          link := s.link.set k none, journal := t.journal, holds := t.holds, reports := t.reports, sent := t.sent
          outstanding := t.outstanding, contexts := t.contexts, ops := t.ops, drains := t.drains }

/-- R8, R12, R25, R47, R90: the durable head passes one end record, in the wind-down too (R56); and it passes records of
any kind completed before, together with the one whose last half is now written: they are reported in sequence order
(R46, R47). The working tail is re-evaluated once, after all reports (R49, R50, R51; log 22), and the engine's report
that it is FREE ends DRAINING where R160 says so (log 27). What the drain adds is log 6's, and that the engine stopped
in the wind-down drops the first half of the slot under read log 31's. That an end record reported in the wind-down
clears the wait record, which R35 keeps there, is the model's reading of R28 (log 13, DEDUCED). -/
def Obligations.EndRecordDurable : Prop :=
  (∀ (s : State) (k : AccessSlot) (a : Access) (h : Half) (r : AssignedRecord) (rest : List AssignedRecord),
    s.access k = some a → a.purpose = .recordHalf r.record.seq h → s.journals →
    s.journal.records = r :: rest → (∀ q ∈ rest, q.record.seq ≠ r.record.seq) →
    (∀ q, rest.head? = some q → q.mark = false) → r.record.kind ≠ .undo →
    (if h = .first then r.second else r.first) = .okay →
    ∃ t : State, exec (.recordWriteComplete k .okay) s = .next t.woundDown ∧ s.recordEnded t r.owner r.record.kind
      ∧ t.journal = { s.journal with
          durableHead := { slot := (s.journal.durableHead.slot + 1) % s.slotCount, seq := s.journal.durableHead.seq + 1 }
          records := rest }
      ∧ t.ops = s.ops ∧ t.reports = s.reports ∧ t.forward = s.forward)
    ∧ (∀ (s : State) (k : AccessSlot) (a : Access) (seq : Serial) (h : Half) (r : AssignedRecord)
      (passed rest : List AssignedRecord) (u : State), s.access k = some a → a.purpose = .recordHalf seq h →
      s.record? seq = some r → s.journals → (s.journal.records.map (fun q => q.record.seq)).Nodup →
      (if h = .first then r.second else r.first) = .okay →
      s.journal.records.map (fun q => if q.record.seq = seq then { r with
        first := .okay, second := .okay, mark := true } else q) = passed ++ rest → passed ≠ [] →
      (∀ q ∈ passed, q.mark = true) → (∀ q, rest.head? = some q → q.mark = false) →
      u = State.allReported { s with
        link := s.link.set k none
        journal := { s.journal with
          durableHead := { slot := (s.journal.durableHead.slot + passed.length) % s.slotCount
                           seq := s.journal.durableHead.seq + BitVec.ofNat 32 passed.length }
          records := rest }
        ops := if r.record.kind = .undo then
            s.ops.map (fun o => if o.line = r.record.line then { o with stage := .waitingDurable } else o)
          else s.ops } passed →
      ∃ t : State, exec (.recordWriteComplete k .okay) s = .next t.woundDown
        ∧ t = { u with
            header := t.header, engine := t.engine, device := { u.device with state := t.device.state } }
        ∧ ((∀ q ∈ passed, q.record.kind = .undo) → t = u)
        ∧ ((∃ q ∈ passed, q.record.kind ≠ .undo) → u.tailHanded t)
        ∧ ((∀ q ∈ passed, q.record.kind ≠ .abort) → t.engine = u.engine ∧ t.device = u.device)
        ∧ ((∃ q ∈ passed, q.record.kind = .abort) → t.device.state = u.stateAfterFree t
          ∧ (u.engine.phase = .stopped → t.engine.phase = .stopped)
          ∧ (u.engine.phase ≠ .stopped →
            t.engine = { u.engine with phase := .free, current := none, foundCount := 0 })))

/-- R38, R48, with R15, R54, R73, R77, R92 and R158: a record half is answered. The order of the contexts among the
responses at the entry into FAULTED is the model's (log 14). The record write completes with error
once both halves are answered and one of them ERROR (log 11): then the fault is reported, which the wind-down discards
(R161). That the operation still ends there is read from the spec (log 21), and that the engine stopped drops the first
half of the slot under read is the model's (log 31). Before that nothing follows, and in FAULTED the result is discarded
(R54, R132). -/
def Obligations.RecordErrorFaults : Prop :=
  ∀ (s : State) (k : AccessSlot) (a : Access) (seq : Serial) (h : Half) (r : AssignedRecord) (result : WriteResult)
    (other : HalfWrite) (answered : HalfWrite → State), s.access k = some a → a.purpose = .recordHalf seq h →
    s.record? seq = some r → (s.journal.records.map (fun q => q.record.seq)).Nodup →
    other = (if h = .first then r.second else r.first) →
    (∀ v, answered v = { s with
      link := s.link.set k none
      journal := { s.journal with records := s.journal.records.map (fun q =>
        if q.record.seq = seq then (if h = .first then { q with first := v } else { q with second := v }) else q) } }) →
    (s.works → (s.ops.map (fun o => o.line)).Nodup → r.mark = false →
      (result = .error ∧ (other = .okay ∨ other = .failed)) ∨ (result = .okay ∧ other = .failed) →
      ∃ t : State, exec (.recordWriteComplete k result) s = .next t
        ∧ s.faultedFrom t (if r.record.kind = .undo then .journalWrite else .endRecord)
        ∧ t.journal = (answered (if result = .okay then .okay else .failed)).journal
        ∧ t.access k = none ∧ t.forward = s.forward)
    ∧ (s.journals → r.mark = false → result = .error → (other = .waiting ∨ other = .issued) →
      exec (.recordWriteComplete k result) s = .next (answered .failed).woundDown)
    ∧ (s.journals → s.device.powerFailPending = true → r.mark = false →
      (result = .error ∧ (other = .okay ∨ other = .failed)) ∨ (result = .okay ∧ other = .failed) →
      ∀ u, u = answered (if result = .okay then .okay else .failed) →
      (∀ o, r.record.kind = .undo → s.op? r.record.line = some o → o.stage = .appending →
        o.slot.map (fun p => p.seq) = some r.record.seq → exec (.recordWriteComplete k result) s =
          .next ((u.opGone o .error .fault).drainTaken o.requester).woundDown)
      ∧ (r.record.kind ≠ .undo ∨ s.op? r.record.line = none → exec (.recordWriteComplete k result) s =
          .next u.woundDown))
    ∧ (s.device.state = .faulted → exec (.recordWriteComplete k result) s =
      .next (answered (if result = .okay then .okay else .failed)).woundDown)

/-- R51, R52, R53, R131: a half of the header image in flight completes. In the wind-down nothing is repeated or issued
and the fault report is discarded (R56, R161): that the image then ends is read from the spec (log 21), and that the
engine stopped drops the first half of the slot under read is the model's (log 31). In FAULTED the result is discarded
(R54), and an image begun may still have its second half issued (R133; log 12). -/
def Obligations.HeaderWriteCompletes : Prop :=
  (∀ (s : State) (k : AccessSlot) (a : Access) (h : Half) (w : HeaderWrite), s.access k = some a →
    a.purpose = .headerHalf h → s.header.inFlight = some w → s.works →
    (h = .first → exec (.headerWriteComplete k .okay) s = .next { s with
      link := s.link.set k none, header := { s.header with inFlight := some { w with stage := .secondWaiting } } })
    ∧ (h = .second → exec (.headerWriteComplete k .okay) s = .next { s with
      link := s.link.set k none
      journal := { s.journal with published := w.image.tail }
      header := { s.header with
        lastCopy := w.image.copy, generation := w.image.generation, pendingImage := none
        inFlight := s.header.pendingImage.map (fun p => { image := p, attempt := 1, stage := .firstWaiting }) } })
    ∧ (w.attempt < 3 → exec (.headerWriteComplete k .error) s = .next { s with
      link := s.link.set k none
      header := { s.header with
        inFlight := some { image := w.image, attempt := w.attempt + 1, stage := .firstWaiting } } })
    ∧ (3 ≤ w.attempt → ∃ t : State, exec (.headerWriteComplete k .error) s = .next t
      ∧ s.faultedFrom t .headerWrite ∧ t.header.inFlight = none ∧ t.journal = s.journal))
    ∧ (∀ (s : State) (k : AccessSlot) (a : Access) (h : Half) (w : HeaderWrite), s.access k = some a →
      a.purpose = .headerHalf h → s.header.inFlight = some w → s.journals → s.device.powerFailPending = true →
      (h = .first → exec (.headerWriteComplete k .okay) s = .next ({ s with
        link := s.link.set k none
        header := { s.header with inFlight := some { w with stage := .secondWaiting } } } : State).woundDown)
      ∧ (h = .second → exec (.headerWriteComplete k .okay) s = .next ({ s with
        link := s.link.set k none
        journal := { s.journal with published := w.image.tail }
        header := { s.header with
          lastCopy := w.image.copy, generation := w.image.generation, pendingImage := none
          inFlight := none } } : State).woundDown)
      ∧ exec (.headerWriteComplete k .error) s = .next ({ s with
        link := s.link.set k none, header := { s.header with inFlight := none } } : State).woundDown)
    ∧ (∀ (s : State) (k : AccessSlot) (a : Access) (h : Half) (w : HeaderWrite) (result : WriteResult),
      s.access k = some a → a.purpose = .headerHalf h → s.header.inFlight = some w → s.device.state = .faulted →
      exec (.headerWriteComplete k result) s = .next ({ s with
        link := s.link.set k none
        header := { s.header with
          inFlight := if h = .first then some { w with stage := .secondWaiting } else none } } : State).woundDown)

/-- R44: the Journal Writer takes an end-record request. One not written is reported durable at once: the working tail is
re-evaluated (R49, R50, R51; log 22), and the engine's report that it is FREE ends DRAINING where R160 says so
(log 27). From the assertion of PFAIL_N no request is taken (R56), and in FAULTED none is granted or reported durable, so
a committing context stays so (R54, R79). Elsewhere, and without a request, nothing changes (log 4). -/
def Obligations.EndRecordRequest : Prop :=
  (∀ (s : State) (c : RequesterId) (q : EndRequest),
    s.journal.requests.find? (fun q => decide (q.context = c)) = some q → s.works →
    ((s.ctx c).firstSlot ≠ none ∨ 16 < s.freeSlots → exec (.endRecordRequest c) s = .next { s with
      journal := { s.journal with
        head := { slot := (s.journal.head.slot + 1) % s.slotCount, seq := s.journal.head.seq + 1 }
        requests := s.journal.requests.eraseP (fun q => decide (q.context = c))
        records := s.journal.records ++ [{
          owner := c, slot := s.journal.head.slot
          record := { kind := q.kind, context := BitVec.ofNat 8 c, reason := q.reason, seq := s.journal.head.seq
                      openNumber := q.openNumber, line := 0, label := q.label, old := 0 }
          first := .waiting, second := .waiting, mark := false }] } })
    ∧ ((s.ctx c).firstSlot = none → s.freeSlots ≤ 16 → ∃ t : State, exec (.endRecordRequest c) s = .next t
      ∧ s.recordEnded t c q.kind
      ∧ t.journal = { s.journal with requests := s.journal.requests.eraseP (fun q => decide (q.context = c)) }
      ∧ t.ops = s.ops ∧ t.forward = s.forward ∧ t.link = s.link))
    ∧ (∀ (s : State) (c : RequesterId), s.device.powerFailPending = true → exec (.endRecordRequest c) s = .next s)
    ∧ (∀ (s : State) (c : RequesterId), s.device.state = .faulted → exec (.endRecordRequest c) s = .next s)
    ∧ ∀ (s : State) (c : RequesterId), (s.device.state ≠ .serving ∧ s.device.state ≠ .draining)
      ∨ (∀ q ∈ s.journal.requests, q.context ≠ c) → exec (.endRecordRequest c) s = .next s

/-- R79, R11, R82: what a context's drain asks for. A context is appended to the rollback queue in the order in which
the drains were taken; of drains taken together, any comes first. The append follows its drain whatever the device has
become since (R81; log 6). No COMMIT record is asked for before the drain, nor for a context that is not COMMITTING (R7,
R79). That an ask then, or a second ask, changes nothing, and so the append of a context whose turn it is not, is the
model's (log 4). -/
def Obligations.DrainAsksOrQueues : Prop :=
  (∀ (s : State) (c : RequesterId), (s.ctx c).state = .committing → (s.ctx c).opsInFlight = 0 →
      (s.ctx c).forwardedOutstanding = 0 → (∀ q ∈ s.journal.requests, q.context ≠ c) →
      (∀ r ∈ s.journal.records, r.owner = c → r.record.kind = .undo) →
      exec (.commitRecordAsk c) s = .next { s with journal := { s.journal with
        requests := s.journal.requests ++ [{
          context := c, kind := .commit, openNumber := (s.ctx c).openNumber.getD 0, label := (s.ctx c).label.getD 0
          reason := 0 }] } })
    ∧ (∀ (s : State) (c : RequesterId) (group : List RequesterId) (rest : List (List RequesterId)),
      s.drains = group :: rest →
      (group = [c] → exec (.rollbackQueueAppend c) s =
        .next { s with rollbackQueue := s.rollbackQueue ++ [c], drains := rest })
      ∧ (c ∈ group → group ≠ [c] → exec (.rollbackQueueAppend c) s =
        .next { s with rollbackQueue := s.rollbackQueue ++ [c], drains := group.erase c :: rest })
      ∧ (c ∉ group → exec (.rollbackQueueAppend c) s = .next s))
    ∧ (∀ (s : State) (c : RequesterId), s.drains = [] → exec (.rollbackQueueAppend c) s = .next s)
    ∧ (∀ (s : State) (c : RequesterId), ((s.ctx c).state ≠ .committing ∨ (s.ctx c).opsInFlight ≠ 0
        ∨ (s.ctx c).forwardedOutstanding ≠ 0 ∨ (∃ q ∈ s.journal.requests, q.context = c)
        ∨ (∃ r ∈ s.journal.records, r.owner = c ∧ r.record.kind ≠ .undo)) → exec (.commitRecordAsk c) s = .next s)

/-! ## The Rollback Engine -/

/-- R84 and R90: the engine takes a context, and at the end of its work asks for the ABORT record. It takes none in FAULTED
and none once STOPPED (R92), and from the assertion of PFAIL_N it neither takes one nor asks (R94). That either command
otherwise out of turn changes nothing is the model's (log 4). -/
def Obligations.EngineTakesAndCloses : Prop :=
  (∀ (s : State) (c : RequesterId) (rest : List RequesterId), s.rollbackQueue = c :: rest → s.engine.phase = .free →
      s.works →
      ((s.ctx c).undoCount ≠ 0 → exec .rollbackTakeContext s = .next { s with
        rollbackQueue := rest
        contexts := s.contexts.set c { s.ctx c with state := .rollingBack }
        engine := {
          phase := .walking, current := some c, walkPosition := some ((s.ctx c).lastSlot.getD 0), walkEnded := false
          foundCount := 0, firstHalf := none, waiting := [], restore := none
          read := some { slot := (s.ctx c).lastSlot.getD 0, half := .first, attempt := 1, issued := false } } })
      ∧ ((s.ctx c).undoCount = 0 → exec .rollbackTakeContext s = .next { s with
        rollbackQueue := rest
        contexts := s.contexts.set c { s.ctx c with state := .rollingBack }
        engine := {
          phase := .closing, current := some c, walkPosition := none, walkEnded := false, foundCount := 0
          firstHalf := none, waiting := [], restore := none, read := none }
        journal := { s.journal with requests := s.journal.requests ++ [{
          context := c, kind := .abort, openNumber := (s.ctx c).openNumber.getD 0, label := (s.ctx c).label.getD 0
          reason := reasonCode (s.ctx c).reason }] } }))
    ∧ (∀ (s : State) (c : RequesterId), s.engine.current = some c → s.engine.phase = .walking →
      s.engine.walkEnded = true → s.engine.waiting = [] → s.engine.restore = none →
      s.device.powerFailPending = false →
      exec .abortRecordAsk s = .next { s with
        engine := { s.engine with phase := .closing, walkEnded := false }
        journal := { s.journal with requests := s.journal.requests ++ [{
          context := c, kind := .abort, openNumber := (s.ctx c).openNumber.getD 0, label := (s.ctx c).label.getD 0
          reason := reasonCode (s.ctx c).reason }] } })
    ∧ (∀ s : State, s.device.state = .faulted ∨ s.engine.phase = .stopped ∨ s.device.powerFailPending = true →
      exec .rollbackTakeContext s = .next s)
    ∧ (∀ s : State, (s.device.state ≠ .serving ∧ s.device.state ≠ .draining) ∨ s.engine.phase ≠ .free
      ∨ s.rollbackQueue = [] → exec .rollbackTakeContext s = .next s)
    ∧ (∀ s : State, s.device.powerFailPending = true ∨ s.engine.phase = .stopped → exec .abortRecordAsk s = .next s)
    ∧ (∀ s : State, s.engine.current = none ∨ s.engine.phase ≠ .walking ∨ s.engine.walkEnded = false
      ∨ s.engine.waiting ≠ [] ∨ s.engine.restore ≠ none → exec .abortRecordAsk s = .next s)

/-- R85, R86, R88: a slot-half read of the engine completes. A record matches when it is an UNDO record of the current
context's transaction at the sequence that belongs to the slot; any other is passed over. In the wind-down nothing is
claimed and a fault report is discarded (R94, R161); once the engine is STOPPED the result is discarded (R92). That the
engine stopped drops the first half of the slot under read is the model's (log 31). -/
def Obligations.RollbackReadCompletes : Prop :=
  (∀ (s : State) (k : AccessSlot) (a : Access) (rd : EngineRead) (c : RequesterId), s.access k = some a →
    a.purpose = .rollbackRead → s.engine.read = some rd → s.engine.current = some c → s.engine.phase = .walking →
    s.works →
    let matching := fun (r : JournalRecord) => r.kind = .undo ∧ r.context = BitVec.ofNat 8 c
      ∧ (s.ctx c).openNumber = some r.openNumber ∧ r.seq = s.slotSeq rd.slot
    let passedOver := fun (v : Place) => JournalRecord.parse v = none
      ∨ ∃ r, JournalRecord.parse v = some r ∧ ¬ matching r
    (∀ d, rd.half = .first → exec (.rollbackReadComplete k (.okay d)) s = .next { s with
      link := s.link.set k none
      engine := { s.engine with
        firstHalf := some d
        read := some { slot := rd.slot, half := .second, attempt := 1, issued := false } } })
    ∧ (rd.attempt < 3 → exec (.rollbackReadComplete k .error) s = .next { s with
      link := s.link.set k none
      engine := { s.engine with read := some { rd with attempt := rd.attempt + 1, issued := false } } })
    ∧ (3 ≤ rd.attempt → ∃ t : State, exec (.rollbackReadComplete k .error) s = .next t
      ∧ s.faultedFrom t .rollbackAccess ∧ t.engine.current = some c ∧ t.journal = s.journal)
    ∧ (∀ d d0 r, rd.half = .second → s.engine.firstHalf = some d0 → JournalRecord.parse (placeOf d0 d) = some r →
      matching r → s.engine.foundCount + 1 = (s.ctx c).undoCount →
      (s.engine.waiting = [] → s.engine.restore = none →
        exec (.rollbackReadComplete k (.okay d)) s = .next { s with
          link := s.link.set k none
          engine := { s.engine with
            read := none, firstHalf := none, foundCount := s.engine.foundCount + 1, walkEnded := true
            walkPosition := none
            restore := some { line := r.line, old := r.old, attempt := 1, issued := false } } })
      ∧ (s.engine.restore ≠ none → exec (.rollbackReadComplete k (.okay d)) s = .next { s with
          link := s.link.set k none
          engine := { s.engine with
            read := none, firstHalf := none, foundCount := s.engine.foundCount + 1, walkEnded := true
            walkPosition := none, waiting := s.engine.waiting ++ [(r.line, r.old)] } }))
    ∧ (∀ d d0 r, rd.half = .second → s.engine.firstHalf = some d0 → JournalRecord.parse (placeOf d0 d) = some r →
      matching r → s.engine.foundCount + 1 < (s.ctx c).undoCount → (s.ctx c).firstSlot ≠ some rd.slot →
      (s.engine.waiting = [] → s.engine.restore = none →
        exec (.rollbackReadComplete k (.okay d)) s = .next { s with
          link := s.link.set k none
          engine := { s.engine with
            firstHalf := none, foundCount := s.engine.foundCount + 1
            walkPosition := some (prevSlot s.slotCount rd.slot)
            read := some { slot := prevSlot s.slotCount rd.slot, half := .first, attempt := 1, issued := false }
            restore := some { line := r.line, old := r.old, attempt := 1, issued := false } } })
      ∧ (s.engine.restore ≠ none → exec (.rollbackReadComplete k (.okay d)) s = .next { s with
          link := s.link.set k none
          engine := { s.engine with
            firstHalf := none, foundCount := s.engine.foundCount + 1
            walkPosition := some (prevSlot s.slotCount rd.slot)
            read := some { slot := prevSlot s.slotCount rd.slot, half := .first, attempt := 1, issued := false }
            waiting := s.engine.waiting ++ [(r.line, r.old)] } }))
    ∧ (∀ d d0 r, rd.half = .second → s.engine.firstHalf = some d0 → JournalRecord.parse (placeOf d0 d) = some r →
      matching r → s.engine.foundCount + 1 < (s.ctx c).undoCount → (s.ctx c).firstSlot = some rd.slot → ∃ t : State,
      exec (.rollbackReadComplete k (.okay d)) s = .next t ∧ s.faultedFrom t .rollbackAccess)
    ∧ (∀ d d0, rd.half = .second → s.engine.firstHalf = some d0 → passedOver (placeOf d0 d) →
      s.engine.foundCount < (s.ctx c).undoCount → (s.ctx c).firstSlot ≠ some rd.slot →
      (s.engine.waiting = [] ∨ s.engine.restore ≠ none) →
      exec (.rollbackReadComplete k (.okay d)) s = .next { s with
        link := s.link.set k none
        engine := { s.engine with
          firstHalf := none, walkPosition := some (prevSlot s.slotCount rd.slot)
          read := some { slot := prevSlot s.slotCount rd.slot, half := .first, attempt := 1, issued := false } } })
    ∧ (∀ d d0, rd.half = .second → s.engine.firstHalf = some d0 → passedOver (placeOf d0 d) →
      s.engine.foundCount < (s.ctx c).undoCount → (s.ctx c).firstSlot = some rd.slot → ∃ t : State,
      exec (.rollbackReadComplete k (.okay d)) s = .next t ∧ s.faultedFrom t .rollbackAccess))
    ∧ (∀ (s : State) (k : AccessSlot) (a : Access) (rd : EngineRead) (c : RequesterId) (result : ReadResult),
      s.access k = some a → a.purpose = .rollbackRead → s.engine.read = some rd → s.engine.current = some c →
      s.engine.phase = .walking → s.device.powerFailPending = true →
      ∃ t : State, exec (.rollbackReadComplete k result) s = .next t.woundDown ∧ t.device = s.device
        ∧ t.engine.read = none ∧ t.engine.restore = s.engine.restore
        ∧ t = { s with link := s.link.set k none, engine := t.engine })
    ∧ (∀ (s : State) (k : AccessSlot) (a : Access) (rd : EngineRead) (result : ReadResult), s.access k = some a →
      a.purpose = .rollbackRead → s.engine.read = some rd → s.engine.phase = .stopped →
      exec (.rollbackReadComplete k result) s = .next ({ s with
        link := s.link.set k none, engine := { s.engine with read := none } } : State).woundDown)

/-- R87, R88: a restore write of the engine completes. In the wind-down nothing is claimed and a fault report is discarded
(R94, R161); once the engine is STOPPED the result is discarded (R92). That the engine stopped drops the first half of the
slot under read is the model's (log 31). -/
def Obligations.RestoreWriteCompletes : Prop :=
  (∀ (s : State) (k : AccessSlot) (a : Access) (w : EngineRestore), s.access k = some a →
    a.purpose = .rollbackRestore → s.engine.restore = some w → s.engine.phase = .walking → s.works →
    (s.engine.waiting = [] → exec (.restoreWriteComplete k .okay) s = .next { s with
      link := s.link.set k none, engine := { s.engine with restore := none } })
    ∧ (∀ l d rest, s.engine.waiting = (l, d) :: rest → exec (.restoreWriteComplete k .okay) s = .next { s with
      link := s.link.set k none
      engine := { s.engine with
        waiting := rest, restore := some { line := l, old := d, attempt := 1, issued := false } } })
    ∧ (w.attempt < 3 → exec (.restoreWriteComplete k .error) s = .next { s with
      link := s.link.set k none
      engine := { s.engine with restore := some { w with attempt := w.attempt + 1, issued := false } } })
    ∧ (3 ≤ w.attempt → ∃ t : State, exec (.restoreWriteComplete k .error) s = .next t
      ∧ s.faultedFrom t .rollbackAccess ∧ t.journal = s.journal))
    ∧ (∀ (s : State) (k : AccessSlot) (a : Access) (w : EngineRestore) (result : WriteResult), s.access k = some a →
      a.purpose = .rollbackRestore → s.engine.restore = some w →
      (s.engine.phase = .walking ∧ s.device.powerFailPending = true) ∨ s.engine.phase = .stopped →
      exec (.restoreWriteComplete k result) s = .next ({ s with
        link := s.link.set k none, engine := { s.engine with restore := none } } : State).woundDown)

/-! ## Start-up recovery -/

/-- R145, R146, R147, R153: a half of a header copy has been read. While a half of either copy is unread, its 64 bytes
are kept and the phase stays. A header copy is written with its fields at the places of Table 12-5, and read as valid
exactly on its check word, format code and slot count (R40, R163, R164). That the formatted field becomes yes as
FORMATTING begins is the model's (log 34). A header read that completes once the sequencer is STOPPED, in FAULTED (R153)
or in the wind-down of RECOVERING (R154, R161), frees its slot and is discarded, without a second fault; the wind-down
may then end in HALTED. That it is so in every phase but its own is the model's (log 4), and so is what the wind-down
drops of the engine (log 31). -/
def Obligations.RecoveryChoosesAHeader : Prop :=
  (∀ (s : State) (k : AccessSlot) (a : Access) (copy : Copy) (h : Half) (d da db : Line) (imageA imageB : Place),
      s.access k = some a → a.purpose = .recoveryHeaderRead copy h → s.runsIn .recovering →
      s.recovery.phase = .headers →
      (if copy = .a then s.recovery.io.headerA.set h (.got d) else s.recovery.io.headerA)
        = { first := .got da, second := .got (placeHalf imageA .second) } →
      imageA = placeOf da (placeHalf imageA .second) →
      (if copy = .b then s.recovery.io.headerB.set h (.got d) else s.recovery.io.headerB)
        = { first := .got db, second := .got (placeHalf imageB .second) } →
      imageB = placeOf db (placeHalf imageB .second) →
      (∀ c, chooseHeader (parseHeader s.slotCount .a imageA) (parseHeader s.slotCount .b imageB) = some c →
        ∃ t : State, exec (.recoveryHeaderReadComplete k (.okay d)) s = .next t ∧ t.device = s.device
          ∧ t.recovery.phase = .forwardWalk ∧ t.recovery.chosen = some c ∧ t.recovery.walkPosition = some c.tail.slot
          ∧ t.recovery.expected = some c.tail.seq ∧ t.recovery.examined = 0 ∧ t.recovery.unended = [])
      ∧ (chooseHeader (parseHeader s.slotCount .a imageA) (parseHeader s.slotCount .b imageB) = none →
        s.params.formatPermitted = 1 → ∃ t : State, exec (.recoveryHeaderReadComplete k (.okay d)) s = .next t
          ∧ t.device = s.device ∧ t.recovery.phase = .formatting ∧ t.recovery.formatted = true
          ∧ ∃ u : State, t = u.pump ∧ u.device = s.device ∧ u.loader = s.loader ∧ u.link = s.link.set k none
            ∧ u.recovery.phase = .formatting ∧ u.recovery.zeroDone = 0
            ∧ u.recovery.io.zeroIssued = 0 ∧ u.recovery.io.formatHeader = .fresh)
      ∧ (chooseHeader (parseHeader s.slotCount .a imageA) (parseHeader s.slotCount .b imageB) = none →
        s.params.formatPermitted ≠ 1 → ∃ t : State, exec (.recoveryHeaderReadComplete k (.okay d)) s = .next t
          ∧ t.device.state = .faulted ∧ t.device.cause = .noValidHeader ∧ t.recovery.phase = .stopped
          ∧ s.faultedFrom t .noValidHeader))
    ∧ (∀ (s : State) (k : AccessSlot) (a : Access) (copy : Copy) (h : Half) (d : Line) (read kept other : PlaceRead),
      s.access k = some a → a.purpose = .recoveryHeaderRead copy h → s.runsIn .recovering →
      s.recovery.phase = .headers →
      read = (if copy = .a then s.recovery.io.headerA else s.recovery.io.headerB) →
      other = (if copy = .a then s.recovery.io.headerB else s.recovery.io.headerA) →
      kept = (if h = .first then { read with first := .got d } else { read with second := .got d }) →
      (∃ v ∈ [kept.first, kept.second, other.first, other.second], ∀ b, v ≠ .got b) →
      ∃ t : State, exec (.recoveryHeaderReadComplete k (.okay d)) s = .next t ∧ t.device = s.device
        ∧ t.recovery.phase = .headers
        ∧ (∀ b, kept.first = .got b → (if copy = .a then t.recovery.io.headerA else t.recovery.io.headerB).first = .got b)
        ∧ (∀ b, kept.second = .got b → (if copy = .a then t.recovery.io.headerA else t.recovery.io.headerB).second = .got b)
        ∧ t = State.pump { s with
            link := s.link.set k none
            recovery := { s.recovery with io := { s.recovery.io with
              headerA := if copy = .a then kept else s.recovery.io.headerA
              headerB := if copy = .a then s.recovery.io.headerB else kept } } })
    ∧ (∀ (s : State) (k : AccessSlot) (a : Access) (copy : Copy) (h : Half), s.access k = some a →
      a.purpose = .recoveryHeaderRead copy h → s.runsIn .recovering → s.recovery.phase = .headers → ∃ t : State,
      exec (.recoveryHeaderReadComplete k .error) s = .next t ∧ s.faultedFrom t .recovery ∧ t.recovery.phase = .stopped)
    ∧ (∀ a b : Chosen, (a.generation = b.generation + 1 → chooseHeader (some a) (some b) = some a)
      ∧ (a.generation ≠ b.generation + 1 → b.generation = a.generation + 1 →
          chooseHeader (some a) (some b) = some b)
      ∧ (a.generation ≠ b.generation + 1 → b.generation ≠ a.generation + 1 → b.generation ≤ a.generation →
          chooseHeader (some a) (some b) = some a)
      ∧ (a.generation ≠ b.generation + 1 → b.generation ≠ a.generation + 1 → a.generation < b.generation →
          chooseHeader (some a) (some b) = some b)
      ∧ chooseHeader (some a) none = some a ∧ chooseHeader none (some b) = some b ∧ chooseHeader none none = none)
    ∧ (∀ (n : Nat) (image : HeaderImage) (v : Place), v = image.bytes n →
      v.extractLsb' 0 64 = 0x314E524A4F444E55#64 ∧ v.extractLsb' 64 32 = image.generation
      ∧ v.extractLsb' 96 32 = BitVec.ofNat 32 n ∧ v.extractLsb' 128 32 = BitVec.ofNat 32 image.tail.slot
      ∧ v.extractLsb' 160 32 = image.tail.seq ∧ v.extractLsb' 192 16 = image.recoveryCount
      ∧ v.extractLsb' 208 784 = 0 ∧ v.extractLsb' 992 32 = crc32 (v.extractLsb' 0 992))
    ∧ (∀ (n : Nat) (copy : Copy) (v : Place),
      (parseHeader n copy v = none ↔ v.extractLsb' 992 32 ≠ crc32 (v.extractLsb' 0 992)
        ∨ v.extractLsb' 0 64 ≠ 0x314E524A4F444E55#64 ∨ (v.extractLsb' 96 32).toNat ≠ n)
      ∧ ∀ c, parseHeader n copy v = some c → c = {
          copy := copy, generation := v.extractLsb' 64 32
          tail := { slot := (v.extractLsb' 128 32).toNat, seq := v.extractLsb' 160 32 }
          recoveryCount := v.extractLsb' 192 16 })
    ∧ (∀ (s : State) (k : AccessSlot) (a : Access) (copy : Copy) (h : Half) (result : ReadResult), s.access k = some a →
      a.purpose = .recoveryHeaderRead copy h → s.recovery.phase ≠ .headers →
      exec (.recoveryHeaderReadComplete k result) s = .next ({ s with link := s.link.set k none } : State).woundDown)

/-- R58, R145, R151, R163: what the Recovery Sequencer puts on the memory link in each phase, with the lines of R38; and
formatting (R58, R147, R153). At each opportunity some of the accesses wanted go out, each into a free slot, a zeroing
write to the line that its place among the zeroing writes of this formatting gives it; no two of them share a line. The
undo pass reads ahead in walk order, from the slot behind the last one read to the published tail slot (R145, R150). Of
what has been read and written, an opportunity changes only the halves it asks for, and a header half answered first is
noted and the phase stays. The order of the zeroing writes is free (log 10), how many accesses go out at an opportunity
is free (log 9), the count of accesses issued is the model's (log 24), and so is that the end of formatting leaves the
formatted field as FORMATTING began with it (log 34). A write of formatting that completes once the sequencer is
STOPPED, in FAULTED (R153) or in the wind-down of RECOVERING (R154, R161), frees its slot and is discarded, without a
second fault; the wind-down may then end in HALTED. That it is so in every phase but its own is the model's (log 4), and
so is what the wind-down drops of the engine (log 31). -/
def Obligations.FormattingCompletes : Prop :=
  (∀ (s : State) (k : AccessSlot) (a : Access), s.access k = some a → a.purpose = .zeroing → s.runsIn .recovering →
      s.recovery.phase = .formatting →
      (∃ t : State, exec (.zeroingWriteComplete k .okay) s = .next t ∧ t.device = s.device
        ∧ t.recovery.phase = .formatting ∧ t.recovery.zeroDone = s.recovery.zeroDone + 1
        ∧ t = State.pump { s with
            link := s.link.set k none, recovery := { s.recovery with zeroDone := s.recovery.zeroDone + 1 } })
      ∧ (∃ t : State, exec (.zeroingWriteComplete k .error) s = .next t ∧ s.faultedFrom t .recovery
        ∧ t.recovery.phase = .stopped))
    ∧ (∀ (s : State) (k : AccessSlot) (a : Access) (h : Half), s.access k = some a → a.purpose = .formatHeader h →
      s.runsIn .recovering → s.recovery.phase = .formatting →
      ((if h = .first then s.recovery.io.formatHeader.second else s.recovery.io.formatHeader.first) = .okay →
        ∃ t : State, exec (.formatHeaderWriteComplete k .okay) s = .next t ∧ t.device = s.device
          ∧ t.recovery.phase = .forwardWalk ∧ t.recovery.walkPosition = some 0 ∧ t.recovery.expected = some 1
          ∧ t.recovery.chosen = some { copy := .a, generation := 1, tail := { slot := 0, seq := 1 }, recoveryCount := 0 }
          ∧ t.recovery.formatted = s.recovery.formatted)
      ∧ ((if h = .first then s.recovery.io.formatHeader.second else s.recovery.io.formatHeader.first) ≠ .okay →
        ∃ t : State, exec (.formatHeaderWriteComplete k .okay) s = .next t ∧ t.device = s.device
          ∧ t.recovery.phase = .formatting
          ∧ (if h = .first then t.recovery.io.formatHeader.first else t.recovery.io.formatHeader.second) = .okay
          ∧ t = State.pump { s with
              link := s.link.set k none
              recovery := { s.recovery with io := { s.recovery.io with formatHeader :=
                if h = .first then { s.recovery.io.formatHeader with first := .okay }
                else { s.recovery.io.formatHeader with second := .okay } } } })
      ∧ (∃ t : State, exec (.formatHeaderWriteComplete k .error) s = .next t ∧ s.faultedFrom t .recovery
        ∧ t.recovery.phase = .stopped))
    ∧ (∀ (s : State) (i slot : Nat) (copy : Copy) (h : Half),
      let lineAt := fun (offset : Nat) => BitVec.ofNat 34
        ((s.params.journalBase + (offset + if h = .first then 0 else 64)) / 64)
      let copyAt := fun (c : Copy) => if c = .a then 0 else 128
      s.jobAccess i (.headerRead copy h) = (.recoveryHeaderRead copy h, lineAt (copyAt copy), .read)
      ∧ s.jobAccess i .zeroWrite = (.zeroing, s.zeroLine i, .write fullMask 0)
      ∧ s.jobAccess i (.formatHeader h) =
          (.formatHeader h, lineAt 0, .write fullMask (placeHalf (formatImage.bytes s.slotCount) h))
      ∧ (s.recovery.walkPosition = some slot →
          s.jobAccess i (.walkRead h) = (.forwardWalkRead h, lineAt (256 + 128 * slot), .read))
      ∧ s.jobAccess i (.undoRead slot h) = (.undoPassRead slot h, lineAt (256 + 128 * slot), .read)
      ∧ (∀ c p, s.recovery.chosen = some c → s.recovery.stop = some p → ∃ image : HeaderImage,
          image = { copy := if c.copy = .a then .b else .a, generation := c.generation + 1
                    tail := { slot := p.slot, seq := p.seq + BitVec.ofNat 32 s.slotCount }
                    recoveryCount := if 1 ≤ s.recovery.undone ∧ c.recoveryCount.toNat < 65535 then c.recoveryCount + 1
                      else c.recoveryCount }
          ∧ s.jobAccess i (.reinit h) = (.reinitHeader h, lineAt (copyAt image.copy),
              .write fullMask (placeHalf (image.bytes s.slotCount) h))))
    ∧ (∀ s : State, ∀ slot < s.slotCount, ∀ h, ∃ i < 2 * s.slotCount, s.zeroLine i = s.params.slotLine slot h)
    ∧ (∀ s : State, s.slotCount ≤ 131070 → ∀ i < 2 * s.slotCount, ∀ j < 2 * s.slotCount,
        s.zeroLine i = s.zeroLine j → i = j)
    ∧ (∀ s : State,
      (s.recovery.phase = .headers → (∀ j ∈ s.seqWanted, ∃ copy h, j = .headerRead copy h)
        ∧ ∀ copy h p, p = (if copy = .a then s.recovery.io.headerA else s.recovery.io.headerB) →
          (SeqJob.headerRead copy h ∈ s.seqWanted ↔ (if h = .first then p.first else p.second) = .waiting))
      ∧ (s.recovery.phase = .formatting → s.recovery.zeroDone < 2 * s.slotCount → (∀ j ∈ s.seqWanted, j = .zeroWrite)
        ∧ s.seqWanted.length = min 8 (2 * s.slotCount - s.recovery.io.zeroIssued))
      ∧ (s.recovery.phase = .formatting → 2 * s.slotCount ≤ s.recovery.zeroDone → (∀ j ∈ s.seqWanted, ∃ h,
          j = .formatHeader h)
        ∧ ∀ h p, p = s.recovery.io.formatHeader →
          (SeqJob.formatHeader h ∈ s.seqWanted ↔ (if h = .first then p.first else p.second) = .waiting))
      ∧ (s.recovery.phase = .forwardWalk → (∀ j ∈ s.seqWanted, ∃ h, j = .walkRead h)
        ∧ ∀ h p, p = s.recovery.io.walk →
          (SeqJob.walkRead h ∈ s.seqWanted ↔ (if h = .first then p.first else p.second) = .waiting))
      ∧ (s.recovery.phase = .undoPass → (∀ j ∈ s.seqWanted, ∃ slot h, j = .undoRead slot h)
        ∧ (∀ u ∈ s.recovery.io.undo, ∀ h, (if h = .first then u.place.first else u.place.second) = .waiting →
            SeqJob.undoRead u.slot h ∈ s.seqWanted)
        ∧ ∀ w c, s.recovery.walkPosition = some w → s.recovery.chosen = some c →
          let known := fun (slot : Nat) (h : Half) => ∃ u ∈ s.recovery.io.undo, u.slot = slot
            ∧ (if h = .first then u.place.first else u.place.second) = .waiting
          ((∃ u, s.recovery.io.undo.getLast? = some u ∧ u.slot = c.tail.slot) →
            ∀ slot h, SeqJob.undoRead slot h ∈ s.seqWanted → known slot h)
          ∧ (∀ next, next < s.slotCount → c.tail.slot < s.slotCount →
            ((s.recovery.io.undo = [] ∧ next = w) ∨ ∃ u, s.recovery.io.undo.getLast? = some u
              ∧ u.slot ≠ c.tail.slot ∧ next = (if u.slot = 0 then s.slotCount - 1 else u.slot - 1)) →
            (∀ h, SeqJob.undoRead next h ∈ s.seqWanted)
            ∧ ∀ slot h, SeqJob.undoRead slot h ∈ s.seqWanted → known slot h
              ∨ ∃ back, back ≤ (next + s.slotCount - c.tail.slot) % s.slotCount
                ∧ slot = (next + s.slotCount - back) % s.slotCount))
      ∧ (s.recovery.phase = .reinit → (∀ j ∈ s.seqWanted, ∃ h, j = .reinit h)
        ∧ ∀ h p, p = s.recovery.io.reinit →
          (SeqJob.reinit h ∈ s.seqWanted ↔ (if h = .first then p.first else p.second) = .waiting))
      ∧ (s.recovery.phase = .idle ∨ s.recovery.phase = .done ∨ s.recovery.phase = .stopped → s.seqWanted = []))
    ∧ (∀ s : State, (s.device.powerFailPending = true → s.pump = s)
      ∧ (s.device.powerFailPending = false →
        ∃ jobs : List SeqJob, jobs <+: s.seqWanted
        ∧ (s.seqOutstanding = 0 → s.seqWanted ≠ [] → (∃ k, s.access k = none) → jobs ≠ [])
        ∧ s.pump = { s with
            link := s.pump.link, issued := s.issued + jobs.length, draws := s.pump.draws
            recovery := { s.recovery with io := s.pump.recovery.io } }
        ∧ (∀ asked : SeqJob → HalfRead → HalfRead, (∀ j v, asked j v = if j ∈ jobs then .issued else v) →
          ∀ noted : SeqJob → HalfWrite → HalfWrite, (∀ j v, noted j v = if j ∈ jobs then .issued else v) →
          ∃ more : List UndoRead,
            (∀ u ∈ more, u.place = {
              first := asked (.undoRead u.slot .first) .waiting, second := asked (.undoRead u.slot .second) .waiting })
            ∧ s.pump.recovery.io = {
              headerA := {
                first := asked (.headerRead .a .first) s.recovery.io.headerA.first
                second := asked (.headerRead .a .second) s.recovery.io.headerA.second }
              headerB := {
                first := asked (.headerRead .b .first) s.recovery.io.headerB.first
                second := asked (.headerRead .b .second) s.recovery.io.headerB.second }
              zeroIssued := s.recovery.io.zeroIssued + jobs.count .zeroWrite
              formatHeader := {
                first := noted (.formatHeader .first) s.recovery.io.formatHeader.first
                second := noted (.formatHeader .second) s.recovery.io.formatHeader.second }
              walk := {
                first := asked (.walkRead .first) s.recovery.io.walk.first
                second := asked (.walkRead .second) s.recovery.io.walk.second }
              undo := s.recovery.io.undo.map (fun u => { u with place := {
                first := asked (.undoRead u.slot .first) u.place.first
                second := asked (.undoRead u.slot .second) u.place.second } }) ++ more
              reinit := {
                first := noted (.reinit .first) s.recovery.io.reinit.first
                second := noted (.reinit .second) s.recovery.io.reinit.second } })
        ∧ (∀ k x, s.access k = some x → s.pump.access k = some x)
        ∧ (∀ n j, jobs[n]? = some j → ∃ k x, s.access k = none ∧ s.pump.access k = some x ∧ x.order = s.issued + n
            ∧ (x.purpose, x.line, x.kind) = s.jobAccess (s.recovery.io.zeroIssued + n) j)
        ∧ (∀ k x, s.pump.access k = some x → s.access k = some x ∨ ∃ n j, jobs[n]? = some j ∧ x.order = s.issued + n
            ∧ (x.purpose, x.line, x.kind) = s.jobAccess (s.recovery.io.zeroIssued + n) j)))
    ∧ (∀ (n : Nat) (image : HeaderImage), n < 2 ^ 32 → image.tail.slot < 2 ^ 32 →
      parseHeader n image.copy (image.bytes n) = some {
        copy := image.copy, generation := image.generation, tail := image.tail, recoveryCount := image.recoveryCount })
    ∧ (∀ (s : State) (k : AccessSlot) (a : Access) (result : WriteResult), s.access k = some a →
      a.purpose = .zeroing → s.recovery.phase ≠ .formatting →
      exec (.zeroingWriteComplete k result) s = .next ({ s with link := s.link.set k none } : State).woundDown)
    ∧ (∀ (s : State) (k : AccessSlot) (a : Access) (h : Half) (result : WriteResult), s.access k = some a →
      a.purpose = .formatHeader h → s.recovery.phase ≠ .formatting →
      exec (.formatHeaderWriteComplete k result) s = .next ({ s with link := s.link.set k none } : State).woundDown)

/-- R145, R148, R149, R153: the slot at the forward walk's position has been read; of its two halves, the 64 bytes of
the one answered first are kept until the other's arrive. The walk stops at that slot for the first three reasons of
R149, and for the fourth after the record of the N-th slot examined has acted. Where transactions are to be undone, the
undo pass begins at the slot before the stop slot (R150), with nothing read ahead. A record is written with its fields
at the places of Table 12-4, and a slot read as holding one exactly on its check word and kind (R39, R163, R164), its
fields then standing at those places, the line address in bits 39-6 of its own. A walk read that completes once the
sequencer is STOPPED, in FAULTED (R153) or in the wind-down of RECOVERING (R154, R161), frees its slot and is discarded,
without a second fault; the wind-down may then end in HALTED. That it is so in every phase but its own is the model's
(log 4), and so is what the wind-down drops of the engine (log 31). -/
def Obligations.ForwardWalkExaminesASlot : Prop :=
  (∀ (s : State) (k : AccessSlot) (a : Access) (h : Half) (d other : Line) (v : Place) (slot : Nat) (seq : Serial),
    s.access k = some a → a.purpose = .forwardWalkRead h → s.runsIn .recovering → s.recovery.phase = .forwardWalk →
    s.recovery.walkPosition = some slot → s.recovery.expected = some seq →
    (if h = .first then s.recovery.io.walk.second else s.recovery.io.walk.first) = .got other →
    v = (if h = .first then placeOf d other else placeOf other d) →
    let begins := fun (t : State) (n stop : Nat) => ∃ u : State, t = u.pump ∧ u.device = s.device
      ∧ u.loader = s.loader ∧ u.link = s.link.set k none
      ∧ (n = 0 → u.recovery.phase = .reinit ∧ u.recovery.walkPosition = none ∧ u.recovery.io.reinit = .fresh)
      ∧ (n ≠ 0 → u.recovery.phase = .undoPass
        ∧ u.recovery.walkPosition = some (if stop = 0 then s.slotCount - 1 else stop - 1)
        ∧ u.recovery.restoresOutstanding = 0 ∧ u.recovery.io.undo = [])
    let stops := ∃ t : State, exec (.forwardWalkReadComplete k (.okay d)) s = .next t ∧ t.device = s.device
      ∧ begins t s.recovery.unended.length slot
      ∧ (s.recovery.unended.length ≠ 0 →
          t.recovery.walkPosition = some (if slot = 0 then s.slotCount - 1 else slot - 1)
          ∧ t.recovery.restoresOutstanding = 0)
      ∧ t.recovery.stop = some { slot := slot, seq := seq } ∧ t.recovery.unended = s.recovery.unended
      ∧ t.recovery.undone = s.recovery.unended.length
      ∧ t.recovery.phase = (if s.recovery.unended.length = 0 then .reinit else .undoPass)
    let goesOn := fun (table : List Unended) => s.recovery.examined + 1 < s.slotCount → ∃ t : State,
      exec (.forwardWalkReadComplete k (.okay d)) s = .next t ∧ t.device = s.device
      ∧ t.recovery.phase = .forwardWalk ∧ t.recovery.walkPosition = some ((slot + 1) % s.slotCount)
      ∧ t.recovery.expected = some (seq + 1) ∧ t.recovery.examined = s.recovery.examined + 1
      ∧ t.recovery.unended = table
      ∧ ∃ u : State, t = u.pump ∧ u.device = s.device ∧ u.loader = s.loader ∧ u.link = s.link.set k none
        ∧ u.recovery.phase = .forwardWalk ∧ u.recovery.io.walk = .fresh
        ∧ u.recovery.walkPosition = some ((slot + 1) % s.slotCount)
    let stopsAfter := fun (table : List Unended) => s.slotCount ≤ s.recovery.examined + 1 → ∃ t : State,
      exec (.forwardWalkReadComplete k (.okay d)) s = .next t ∧ t.device = s.device
      ∧ begins t table.length ((slot + 1) % s.slotCount)
      ∧ (table.length ≠ 0 → t.recovery.walkPosition = some (if (slot + 1) % s.slotCount = 0 then s.slotCount - 1
            else (slot + 1) % s.slotCount - 1)
          ∧ t.recovery.restoresOutstanding = 0)
      ∧ t.recovery.stop = some { slot := (slot + 1) % s.slotCount, seq := seq + 1 } ∧ t.recovery.unended = table
      ∧ t.recovery.undone = table.length ∧ t.recovery.phase = (if table.length = 0 then .reinit else .undoPass)
    let acts := fun (table : List Unended) => goesOn table ∧ stopsAfter table
    (JournalRecord.parse v = none → stops)
    ∧ (∀ r, JournalRecord.parse v = some r → r.seq ≠ seq → stops)
    ∧ (∀ r u, JournalRecord.parse v = some r → s.recovery.unended.find? (fun u => decide (u.context = r.context)) = some u →
        u.openNumber ≠ r.openNumber → stops)
    ∧ (∀ r, JournalRecord.parse v = some r → r.seq = seq → r.kind = .undo →
        s.recovery.unended.find? (fun u => decide (u.context = r.context)) = none →
        acts (s.recovery.unended ++ [{ context := r.context, openNumber := r.openNumber }]))
    ∧ (∀ r u, JournalRecord.parse v = some r → r.seq = seq → r.kind = .undo →
        s.recovery.unended.find? (fun u => decide (u.context = r.context)) = some u → u.openNumber = r.openNumber →
        acts s.recovery.unended)
    ∧ (∀ r u, JournalRecord.parse v = some r → r.seq = seq → r.kind ≠ .undo →
        s.recovery.unended.find? (fun u => decide (u.context = r.context)) = some u → u.openNumber = r.openNumber →
        acts (s.recovery.unended.eraseP (fun u => decide (u.context = r.context))))
    ∧ (∀ r, JournalRecord.parse v = some r → r.seq = seq → r.kind ≠ .undo →
        s.recovery.unended.find? (fun u => decide (u.context = r.context)) = none → acts s.recovery.unended))
    ∧ (∀ (s : State) (k : AccessSlot) (a : Access) (h : Half), s.access k = some a → a.purpose = .forwardWalkRead h →
      s.runsIn .recovering → s.recovery.phase = .forwardWalk → ∃ t : State,
      exec (.forwardWalkReadComplete k .error) s = .next t ∧ s.faultedFrom t .recovery ∧ t.recovery.phase = .stopped)
    ∧ (∀ (s : State) (k : AccessSlot) (a : Access) (h : Half) (d : Line), s.access k = some a →
      a.purpose = .forwardWalkRead h → s.runsIn .recovering → s.recovery.phase = .forwardWalk →
      (∀ b, (if h = .first then s.recovery.io.walk.second else s.recovery.io.walk.first) ≠ .got b) →
      ∃ t : State, exec (.forwardWalkReadComplete k (.okay d)) s = .next t ∧ t.device = s.device
        ∧ t.recovery = { s.recovery with io := t.recovery.io }
        ∧ (if h = .first then t.recovery.io.walk.first else t.recovery.io.walk.second) = .got d
        ∧ t = State.pump { s with
            link := s.link.set k none
            recovery := { s.recovery with io := { s.recovery.io with walk :=
              if h = .first then { s.recovery.io.walk with first := .got d }
              else { s.recovery.io.walk with second := .got d } } } })
    ∧ (∀ (r : JournalRecord) (v : Place), v = r.image →
      v.extractLsb' 0 8 = (if r.kind = .undo then 1#8 else if r.kind = .commit then 2#8 else 3#8)
      ∧ v.extractLsb' 8 8 = r.context ∧ v.extractLsb' 16 8 = r.reason ∧ v.extractLsb' 24 8 = 0
      ∧ v.extractLsb' 32 32 = r.seq ∧ v.extractLsb' 64 32 = r.openNumber ∧ v.extractLsb' 96 32 = 0
      ∧ v.extractLsb' 128 6 = 0 ∧ v.extractLsb' 134 34 = r.line ∧ v.extractLsb' 168 24 = 0
      ∧ v.extractLsb' 192 64 = r.label ∧ v.extractLsb' 256 512 = r.old ∧ v.extractLsb' 768 224 = 0
      ∧ v.extractLsb' 992 32 = crc32 (v.extractLsb' 0 992) ∧ JournalRecord.parse v = some r)
    ∧ (∀ v : Place,
      (JournalRecord.parse v = none ↔ v.extractLsb' 992 32 ≠ crc32 (v.extractLsb' 0 992)
        ∨ v.extractLsb' 0 8 ∉ [1#8, 2#8, 3#8])
      ∧ (∀ r, JournalRecord.parse v = some r →
        v.extractLsb' 0 8 = (if r.kind = .undo then 1#8 else if r.kind = .commit then 2#8 else 3#8)
        ∧ r.context = v.extractLsb' 8 8 ∧ r.reason = v.extractLsb' 16 8 ∧ r.seq = v.extractLsb' 32 32
        ∧ r.openNumber = v.extractLsb' 64 32 ∧ r.line = v.extractLsb' 134 34 ∧ r.label = v.extractLsb' 192 64
        ∧ r.old = v.extractLsb' 256 512)
      ∧ placeHalf v .first = v.extractLsb' 0 512 ∧ placeHalf v .second = v.extractLsb' 512 512
      ∧ placeOf (v.extractLsb' 0 512) (v.extractLsb' 512 512) = v)
    ∧ (∀ (s : State) (k : AccessSlot) (a : Access) (h : Half) (result : ReadResult), s.access k = some a →
      a.purpose = .forwardWalkRead h → s.recovery.phase ≠ .forwardWalk →
      exec (.forwardWalkReadComplete k result) s = .next ({ s with link := s.link.set k none } : State).woundDown)

/-- R150, R153: a slot of the undo pass has been read, with others read ahead or not; and a restore has completed. Slots
are examined strictly in walk order: a slot behind one not wholly read waits, with the bytes read for it (R145), and so
does one whose restore finds no free access slot (log 9), until the next completion. A read and a restore, once noted,
both lead to the examination of the slots read (undoGoOn), which the last clauses give slot by slot. That the walk
position is absent once the tail slot has been examined is the model's (log 29). A read or a restore that completes once
the sequencer is STOPPED, in FAULTED (R153) or in the wind-down of RECOVERING (R154, R161), frees its slot and is
discarded, without a second fault; the wind-down may then end in HALTED. That it is so in every phase but its own is the
model's (log 4), and so is what the wind-down drops of the engine (log 31). -/
def Obligations.UndoPassRestores : Prop :=
  (∀ (s : State) (k : AccessSlot) (a : Access) (h : Half) (d other : Line) (v : Place) (slot : Nat) (place : PlaceRead)
      (rest : List UndoRead) (c : Chosen), s.access k = some a → a.purpose = .undoPassRead slot h →
      s.runsIn .recovering → s.recovery.phase = .undoPass → s.recovery.walkPosition = some slot →
      s.recovery.chosen = some c → s.recovery.io.undo = { slot := slot, place := place } :: rest →
      (∀ u ∈ rest, u.slot ≠ slot) →
      (if h = .first then place.second else place.first) = .got other →
      v = (if h = .first then placeOf d other else placeOf other d) →
      ((JournalRecord.parse v = none ∨ ∃ r, JournalRecord.parse v = some r ∧ r.seq ≠ s.undoSeq slot) →
        ∃ t : State, exec (.undoPassReadComplete k (.okay d)) s = .next t ∧ s.faultedFrom t .recovery
          ∧ t.recovery.phase = .stopped)
      ∧ ((∀ u, rest.head? = some u → u.place.image = none) →
        (∀ r, JournalRecord.parse v = some r → r.seq = s.undoSeq slot → r.kind = .undo →
          { context := r.context, openNumber := r.openNumber } ∈ s.recovery.unended →
          ∃ t : State, exec (.undoPassReadComplete k (.okay d)) s = .next t ∧ t.device = s.device
            ∧ t.recovery.phase = .undoPass ∧ t.recovery.restoresOutstanding = s.recovery.restoresOutstanding + 1
            ∧ t.recovery.walkPosition = (if slot = c.tail.slot then none else some (prevSlot s.slotCount slot))
            ∧ ∃ j x, t.access j = some x ∧ x.purpose = .recoveryRestore ∧ x.line = r.line
                ∧ x.kind = .write fullMask r.old)
        ∧ (∀ r, JournalRecord.parse v = some r → r.seq = s.undoSeq slot →
          (r.kind ≠ .undo ∨ { context := r.context, openNumber := r.openNumber } ∉ s.recovery.unended) →
          ∃ t : State, exec (.undoPassReadComplete k (.okay d)) s = .next t ∧ t.device = s.device
            ∧ t.recovery.restoresOutstanding = s.recovery.restoresOutstanding
            ∧ t.recovery.walkPosition = (if slot = c.tail.slot then none else some (prevSlot s.slotCount slot))
            ∧ t.recovery.phase = (if slot = c.tail.slot ∧ s.recovery.restoresOutstanding = 0 then .reinit
                else .undoPass)))
      ∧ (∀ r r2 u v2 rest2, JournalRecord.parse v = some r → r.seq = s.undoSeq slot →
        (r.kind ≠ .undo ∨ { context := r.context, openNumber := r.openNumber } ∉ s.recovery.unended) →
        slot ≠ c.tail.slot → rest = u :: rest2 → (∀ w, rest2.head? = some w → w.place.image = none) →
        u.place.image = some v2 → JournalRecord.parse v2 = some r2 → r2.seq = s.undoSeq u.slot → r2.kind = .undo →
        { context := r2.context, openNumber := r2.openNumber } ∈ s.recovery.unended →
        ∃ t : State, exec (.undoPassReadComplete k (.okay d)) s = .next t ∧ t.device = s.device
          ∧ t.recovery.phase = .undoPass ∧ t.recovery.restoresOutstanding = s.recovery.restoresOutstanding + 1
          ∧ t.recovery.walkPosition = (if u.slot = c.tail.slot then none else some (prevSlot s.slotCount u.slot))
          ∧ ∃ j x, t.access j = some x ∧ x.purpose = .recoveryRestore ∧ x.line = r2.line
              ∧ x.kind = .write fullMask r2.old))
    ∧ (∀ (s : State) (k : AccessSlot) (a : Access) (h : Half) (d : Line) (slot : Nat) (u : UndoRead)
        (rest : List UndoRead), s.access k = some a → a.purpose = .undoPassRead slot h → s.runsIn .recovering →
      s.recovery.phase = .undoPass → s.recovery.walkPosition ≠ none → s.recovery.io.undo = u :: rest →
      u.place.image = none →
      (u.slot = slot → (if h = .first then u.place.second else u.place.first) = .waiting
        ∨ (if h = .first then u.place.second else u.place.first) = .issued) →
      ∃ t : State, exec (.undoPassReadComplete k (.okay d)) s = .next t ∧ t.device = s.device
        ∧ t.recovery.phase = .undoPass ∧ t.recovery.walkPosition = s.recovery.walkPosition
        ∧ t.recovery.restoresOutstanding = s.recovery.restoresOutstanding
        ∧ ((∃ v ∈ s.recovery.io.undo, v.slot = slot) → t = State.pump { s with
            link := s.link.set k none
            recovery := { s.recovery with io := { s.recovery.io with undo := s.recovery.io.undo.map (fun v =>
              if v.slot ≠ slot then v
              else if h = .first then { v with place := { v.place with first := .got d } }
              else { v with place := { v.place with second := .got d } }) } } }))
    ∧ (∀ (s : State) (k : AccessSlot) (a : Access) (slot : Nat) (h : Half), s.access k = some a →
      a.purpose = .undoPassRead slot h → s.runsIn .recovering → s.recovery.phase = .undoPass →
      ∃ t : State, exec (.undoPassReadComplete k .error) s = .next t ∧ s.faultedFrom t .recovery
        ∧ t.recovery.phase = .stopped)
    ∧ (∀ (s : State) (k : AccessSlot) (a : Access), s.access k = some a → a.purpose = .recoveryRestore →
      s.runsIn .recovering → s.recovery.phase = .undoPass →
      ((∀ u, s.recovery.io.undo.head? = some u → u.place.image = none) →
        ∃ t : State, exec (.recoveryRestoreComplete k .okay) s = .next t ∧ t.device = s.device
        ∧ t.recovery.restoresOutstanding = s.recovery.restoresOutstanding - 1
        ∧ t.recovery.phase = (if s.recovery.walkPosition = none ∧ s.recovery.restoresOutstanding ≤ 1 then .reinit
            else .undoPass))
      ∧ (∀ u rest v c, s.recovery.io.undo = u :: rest → u.place.image = some v → s.recovery.chosen = some c →
        ((JournalRecord.parse v = none ∨ ∃ r, JournalRecord.parse v = some r ∧ r.seq ≠ s.undoSeq u.slot) →
          ∃ t : State, exec (.recoveryRestoreComplete k .okay) s = .next t ∧ s.faultedFrom t .recovery
            ∧ t.recovery.phase = .stopped)
        ∧ ((∀ w, rest.head? = some w → w.place.image = none) →
          (∀ r, JournalRecord.parse v = some r → r.seq = s.undoSeq u.slot → r.kind = .undo →
            { context := r.context, openNumber := r.openNumber } ∈ s.recovery.unended →
            ∃ t : State, exec (.recoveryRestoreComplete k .okay) s = .next t ∧ t.device = s.device
              ∧ t.recovery.phase = .undoPass
              ∧ t.recovery.restoresOutstanding = s.recovery.restoresOutstanding - 1 + 1
              ∧ t.recovery.walkPosition = (if u.slot = c.tail.slot then none else some (prevSlot s.slotCount u.slot))
              ∧ ∃ j x, t.access j = some x ∧ x.purpose = .recoveryRestore ∧ x.line = r.line
                  ∧ x.kind = .write fullMask r.old)
          ∧ (∀ r, JournalRecord.parse v = some r → r.seq = s.undoSeq u.slot →
            (r.kind ≠ .undo ∨ { context := r.context, openNumber := r.openNumber } ∉ s.recovery.unended) →
            ∃ t : State, exec (.recoveryRestoreComplete k .okay) s = .next t ∧ t.device = s.device
              ∧ t.recovery.restoresOutstanding = s.recovery.restoresOutstanding - 1
              ∧ t.recovery.walkPosition = (if u.slot = c.tail.slot then none else some (prevSlot s.slotCount u.slot))
              ∧ t.recovery.phase = (if u.slot = c.tail.slot ∧ s.recovery.restoresOutstanding ≤ 1 then .reinit
                  else .undoPass))))
      ∧ exec (.recoveryRestoreComplete k .okay) s = .next (State.undoGoOn { s with
          link := s.link.set k none
          recovery := { s.recovery with restoresOutstanding := s.recovery.restoresOutstanding - 1 } })
      ∧ (∃ t : State, exec (.recoveryRestoreComplete k .error) s = .next t ∧ s.faultedFrom t .recovery
        ∧ t.recovery.phase = .stopped))
    ∧ (∀ (s : State) (k : AccessSlot) (a : Access) (slot : Nat) (h : Half) (d : Line), s.access k = some a →
      a.purpose = .undoPassRead slot h → s.runsIn .recovering → s.recovery.phase = .undoPass →
      (∃ u ∈ s.recovery.io.undo, u.slot = slot) →
      exec (.undoPassReadComplete k (.okay d)) s = .next (State.undoGoOn { s with
        link := s.link.set k none
        recovery := { s.recovery with io := { s.recovery.io with undo := s.recovery.io.undo.map (fun u =>
          if u.slot ≠ slot then u
          else if h = .first then { u with place := { u.place with first := .got d } }
          else { u with place := { u.place with second := .got d } }) } } }))
    ∧ (∀ s : State, s.recovery.phase = .undoPass →
      let waits := s.undoGoOn = State.pump (if s.recovery.walkPosition = none ∧ s.recovery.restoresOutstanding = 0 then
          { s with recovery := { s.recovery with phase := .reinit, io := { s.recovery.io with reinit := .fresh } } } else s)
      ((∀ u, s.recovery.io.undo.head? = some u → u.place.image = none) → waits)
      ∧ ∀ u rest v c, s.recovery.io.undo = u :: rest → u.place.image = some v → s.recovery.chosen = some c →
        let moved := if u.slot = c.tail.slot then none else some (prevSlot s.slotCount u.slot)
        (s.runsIn .recovering →
          (JournalRecord.parse v = none ∨ ∃ r, JournalRecord.parse v = some r ∧ r.seq ≠ s.undoSeq u.slot) →
          s.faultedFrom s.undoGoOn .recovery ∧ s.undoGoOn.recovery.phase = .stopped)
        ∧ (∀ r, JournalRecord.parse v = some r → r.seq = s.undoSeq u.slot → r.kind = .undo →
          { context := r.context, openNumber := r.openNumber } ∈ s.recovery.unended →
          ((∀ k, s.access k ≠ none) → waits)
          ∧ ((∃ k, s.access k = none) → ∃ k, s.access k = none ∧ s.undoGoOn = State.undoGoOn { s with
              link := s.link.set k (some {
                purpose := .recoveryRestore, line := r.line, kind := .write fullMask r.old, order := s.issued })
              issued := s.issued + 1
              recovery := { s.recovery with
                restoresOutstanding := s.recovery.restoresOutstanding + 1, walkPosition := moved
                io := { s.recovery.io with undo := rest } } }))
        ∧ (∀ r, JournalRecord.parse v = some r → r.seq = s.undoSeq u.slot →
          (r.kind ≠ .undo ∨ { context := r.context, openNumber := r.openNumber } ∉ s.recovery.unended) →
          s.undoGoOn = State.undoGoOn { s with recovery := { s.recovery with
            walkPosition := moved, io := { s.recovery.io with undo := rest } } }))
    ∧ (∀ (s : State) (k : AccessSlot) (a : Access) (slot : Nat) (h : Half) (result : ReadResult), s.access k = some a →
      a.purpose = .undoPassRead slot h → s.recovery.phase ≠ .undoPass →
      exec (.undoPassReadComplete k result) s = .next ({ s with link := s.link.set k none } : State).woundDown)
    ∧ (∀ (s : State) (k : AccessSlot) (a : Access) (result : WriteResult), s.access k = some a →
      a.purpose = .recoveryRestore → s.recovery.phase ≠ .undoPass →
      exec (.recoveryRestoreComplete k result) s = .next ({ s with link := s.link.set k none } : State).woundDown)

/-- R151, R152, R157: the re-initialisation header is whole, and the device enters SERVING; the half answered first is
noted and the phase stays. With LRST_N asserted a link reset is taken at that entry (R159), and the device is in
DRAINING. A header half that completes once the sequencer is STOPPED, in FAULTED (R153) or in the wind-down of
RECOVERING (R154, R161), frees its slot and is discarded, without a second fault; the wind-down may then end in HALTED.
That it is so in every phase but its own is the model's (log 4), and so is what the wind-down drops of the engine (log
31). -/
def Obligations.ReinitialisationEntersServing : Prop :=
  (∀ (s : State) (k : AccessSlot) (a : Access) (h : Half) (c : Chosen) (p : Position), s.access k = some a →
    a.purpose = .reinitHeader h → s.runsIn .recovering → s.recovery.phase = .reinit → s.recovery.chosen = some c →
    s.recovery.stop = some p →
    ((if h = .first then s.recovery.io.reinit.second else s.recovery.io.reinit.first) = .okay → ∃ t : State,
      exec (.reinitHeaderWriteComplete k .okay) s = .next t
      ∧ t.journal = {
          started := true, head := { slot := p.slot, seq := p.seq + BitVec.ofNat 32 s.slotCount }
          durableHead := { slot := p.slot, seq := p.seq + BitVec.ofNat 32 s.slotCount }
          published := { slot := p.slot, seq := p.seq + BitVec.ofNat 32 s.slotCount }, records := [], requests := [] }
      ∧ t.header = {
          lastCopy := (if c.copy = .a then .b else .a), generation := c.generation + 1
          recoveryCount := (if 1 ≤ s.recovery.undone ∧ c.recoveryCount.toNat < 65535 then c.recoveryCount + 1
            else c.recoveryCount)
          pendingImage := none, inFlight := none }
      ∧ t.freeSlots = t.slotCount ∧ t.startupUndone = s.recovery.undone ∧ t.startupFormatted = s.recovery.formatted
      ∧ t.recovery.phase = .done ∧ t.key = s.key ∧ t.openCounter = s.openCounter
      ∧ (s.pins.lrst = false → t.device = { s.device with state := .serving } ∧ t.contexts = s.contexts
          ∧ t.holds = s.holds ∧ t.ops = s.ops ∧ t.forward = s.forward ∧ t.outstanding = s.outstanding)
      ∧ (s.pins.lrst = true → t.device = { s.device with state := .draining, noticesStanding := false } ∧ t.rdy = false
          ∧ t.outstanding = [] ∧ t.classified = []
          ∧ t.forward = s.forward.map (fun e => { e with forgotten := true })
          ∧ (s.ops = [] → t.ops = [] ∧ t.holds = s.holds ∧ ∀ d, (s.ctx d).state = .idle →
              t.ctx d = { s.ctx d with wait := none, arming := none })))
    ∧ ((if h = .first then s.recovery.io.reinit.second else s.recovery.io.reinit.first) ≠ .okay → ∃ t : State,
      exec (.reinitHeaderWriteComplete k .okay) s = .next t ∧ t.device = s.device ∧ t.recovery.phase = .reinit
      ∧ (if h = .first then t.recovery.io.reinit.first else t.recovery.io.reinit.second) = .okay
      ∧ t = State.pump { s with
          link := s.link.set k none
          recovery := { s.recovery with io := { s.recovery.io with reinit :=
            if h = .first then { s.recovery.io.reinit with first := .okay }
            else { s.recovery.io.reinit with second := .okay } } } })
    ∧ (∃ t : State, exec (.reinitHeaderWriteComplete k .error) s = .next t ∧ s.faultedFrom t .recovery
        ∧ t.recovery.phase = .stopped))
    ∧ (∀ (s : State) (k : AccessSlot) (a : Access) (h : Half) (result : WriteResult), s.access k = some a →
      a.purpose = .reinitHeader h → s.recovery.phase ≠ .reinit →
      exec (.reinitHeaderWriteComplete k result) s = .next ({ s with link := s.link.set k none } : State).woundDown)

/-! ## The Memory Arbiter -/

/-- R127: the first claimant from the pointer with a pending access and a count below its share is granted; the slot
is the command's (log 8). R126, Table 8-1: the order and the shares. R128, R129, R130, R133: what each claimant puts
forward. R126, R133, R134: when the arbiter grants at all. And what the owner keeps of the issue; nothing else changes.
The count of accesses issued is the model's (log 24). -/
def Obligations.ArbiterGrants : Prop :=
  (∀ (s : State) (k : AccessSlot),
    (∀ c x, s.arbiterRuns = true → s.access k = none → s.claim c = some x → s.claimantCount c < c.share →
      (∀ before after, s.pointer.roundFrom = before ++ c :: after → c ∉ before →
        (∀ b ∈ before, s.claim b = none ∨ b.share ≤ s.claimantCount b) →
        ∃ t : State, exec (.arbiterGrant k) s = .next t
          ∧ t.access k = some { purpose := x.purpose, line := x.line, kind := x.kind, order := s.issued }
          ∧ (∀ j, j ≠ k → t.access j = s.access j) ∧ t.issued = s.issued + 1 ∧ t.pointer = c.next
          ∧ t = { s with
              link := t.link, issued := s.issued + 1, pointer := c.next, forward := t.forward, ops := t.ops
              reports := t.reports, journal := t.journal, header := t.header, engine := t.engine }
          ∧ (x.purpose ≠ .forwarded → t.forward = s.forward)
          ∧ (x.purpose ≠ .oldLineRead → x.purpose ≠ .operationWrite → t.ops = s.ops)
          ∧ (x.purpose ≠ .operationWrite → t.reports = s.reports)
          ∧ ((∀ seq h, x.purpose ≠ .recordHalf seq h) → t.journal = s.journal)
          ∧ ((∀ h, x.purpose ≠ .headerHalf h) → t.header = s.header)
          ∧ (x.purpose ≠ .rollbackRead → x.purpose ≠ .rollbackRestore → t.engine = s.engine)
          ∧ (x.purpose = .forwarded → ∃ older e newer, s.forward = older ++ e :: newer ∧ (∀ o ∈ older, o.issued ≠ none)
              ∧ e.issued = none ∧ t.forward = older ++ { e with issued := some k } :: newer)
          ∧ (x.purpose = .oldLineRead ∨ x.purpose = .operationWrite → t.ops = s.ops.map (fun o =>
              if o.line = x.line then { o with access := some k } else o))
          ∧ (x.purpose = .operationWrite → t.reports = s.reports.erase x.line)
          ∧ (∀ seq h, x.purpose = .recordHalf seq h → t.journal = { s.journal with
              records := s.journal.records.map (fun r => if r.record.seq = seq then
                (if h = .first then { r with first := .issued } else { r with second := .issued }) else r) })
          ∧ (∀ h w, x.purpose = .headerHalf h → s.header.inFlight = some w → t.header = { s.header with
              inFlight := some { w with stage := if h = .first then .firstIssued else .secondIssued } })
          ∧ (∀ r, x.purpose = .rollbackRead → s.engine.read = some r →
              t.engine = { s.engine with read := some { r with issued := true } })
          ∧ (∀ w, x.purpose = .rollbackRestore → s.engine.restore = some w →
              t.engine = { s.engine with restore := some { w with issued := true } })))
    ∧ (s.arbiterRuns = false ∨ s.access k ≠ none
        ∨ (∀ c, s.claim c = none ∨ c.share ≤ s.claimantCount c) → exec (.arbiterGrant k) s = .next s))
    ∧ (∀ c : Claimant, c.roundFrom = [c, c.next, c.next.next, c.next.next.next] ∧ c.next.next.next.next = c)
    ∧ Claimant.next .forward = .journal ∧ Claimant.next .journal = .rollback ∧ Claimant.next .rollback = .header
    ∧ Claimant.share .forward = 8 ∧ Claimant.share .journal = 8 ∧ Claimant.share .rollback = 2
    ∧ Claimant.share .header = 1
    ∧ (∀ s : State, s.arbiterRuns = true ↔ s.pins.porst = false ∧ s.device.powerFailPending = false
      ∧ (∀ k x, s.access k = some x → x.purpose.sequencer = false)
      ∧ (s.device.state = .passthrough ∨ s.device.state = .serving ∨ s.device.state = .draining
        ∨ s.device.state = .faulted))
    ∧ (∀ (s : State) (older newer : List ForwardEntry) (e : ForwardEntry), s.forward = older ++ e :: newer →
      (∀ o ∈ older, o.issued ≠ none) → e.issued = none →
      s.claim .forward = some { purpose := .forwarded, line := e.line, kind := e.kind })
    ∧ (∀ s : State, (∀ e ∈ s.forward, e.issued ≠ none) → s.claim .forward = none)
    ∧ (∀ s : State, s.device.state = .passthrough → s.claim .journal = none ∧ s.claim .header = none)
    ∧ (∀ s : State, s.device.state ≠ .serving → s.device.state ≠ .draining → s.claim .rollback = none)
    ∧ (∀ s : State, s.device.state ≠ .passthrough →
      (∀ l rest o, s.reports = l :: rest → s.op? l = some o →
        s.claim .journal = some { purpose := .operationWrite, line := o.line, kind := .write o.mask o.data })
      ∧ (s.reports = [] →
        (∀ older r newer, s.journal.records = older ++ r :: newer →
          (∀ q ∈ older, (q.first ≠ .waiting ∧ q.second ≠ .waiting) ∨ (q.first = .waiting ∧ s.device.state = .faulted)) →
          (r.first = .waiting → s.device.state ≠ .faulted → s.claim .journal = some {
            purpose := .recordHalf r.record.seq .first, line := s.params.slotLine r.slot .first
            kind := .write fullMask (placeHalf r.record.image .first) })
          ∧ (r.first ≠ .waiting → r.second = .waiting → s.claim .journal = some {
            purpose := .recordHalf r.record.seq .second, line := s.params.slotLine r.slot .second
            kind := .write fullMask (placeHalf r.record.image .second) }))
        ∧ ((∀ q ∈ s.journal.records, (q.first ≠ .waiting ∧ q.second ≠ .waiting)
              ∨ (q.first = .waiting ∧ s.device.state = .faulted)) →
          (∀ older o newer, s.ops = older ++ o :: newer →
            (∀ p ∈ older, p.stage ≠ .readingOld ∨ p.access ≠ none) → o.stage = .readingOld → o.access = none →
            s.claim .journal = some { purpose := .oldLineRead, line := o.line, kind := .read })
          ∧ ((∀ p ∈ s.ops, p.stage ≠ .readingOld ∨ p.access ≠ none) → s.claim .journal = none))))
    ∧ (∀ s : State, s.device.state = .serving ∨ s.device.state = .draining →
      (∀ w, s.engine.restore = some w → w.issued = false → s.claim .rollback = some {
        purpose := .rollbackRestore, line := w.line, kind := .write fullMask w.old })
      ∧ (∀ r, (∀ w, s.engine.restore = some w → w.issued = true) → s.engine.read = some r → r.issued = false →
        s.claim .rollback = some { purpose := .rollbackRead, line := s.params.slotLine r.slot r.half, kind := .read })
      ∧ ((∀ w, s.engine.restore = some w → w.issued = true) → (∀ r, s.engine.read = some r → r.issued = true) →
        s.claim .rollback = none))
    ∧ (∀ s : State, s.device.state ≠ .passthrough →
      (s.header.inFlight = none → s.claim .header = none)
      ∧ (∀ w, s.header.inFlight = some w →
        (w.stage = .firstWaiting → s.device.state ≠ .faulted → s.claim .header = some {
          purpose := .headerHalf .first, line := s.params.headerLine w.image.copy .first
          kind := .write fullMask (placeHalf (w.image.bytes s.slotCount) .first) })
        ∧ (w.stage = .firstWaiting → s.device.state = .faulted → s.claim .header = none)
        ∧ (w.stage = .secondWaiting → s.claim .header = some {
          purpose := .headerHalf .second, line := s.params.headerLine w.image.copy .second
          kind := .write fullMask (placeHalf (w.image.bytes s.slotCount) .second) })
        ∧ (w.stage = .firstIssued ∨ w.stage = .secondIssued → s.claim .header = none)))

/-! ## Invariants -/

/-- R26: every step keeps the holds counts in step with the Line Hold Table. -/
def Obligations.HoldsCountsStayInStep : Prop :=
  ∀ s t : State, s.holdsCounted → step s = .next t → t.holdsCounted

/-- R19, R59, R70, R71, R127: every step keeps the tables and the claimants within their bounds, and one hold entry at
most for a line. -/
def Obligations.TablesStayBounded : Prop :=
  ∀ s t : State, s.tablesBounded → step s = .next t → t.tablesBounded

/-- R116, R118, R120: every step keeps the Key Checker's fields in agreement. -/
def Obligations.KeyCheckerStaysConsistent : Prop :=
  ∀ s t : State, s.keyConsistent → step s = .next t → t.keyConsistent

/-- R156 to R161: every step keeps the device state, the fault cause, the loader and the sequencer in agreement; R13,
R162: and the notices standing with the contexts that are ABORTED. -/
def Obligations.DeviceStateStaysConsistent : Prop :=
  (∀ s t : State, s.deviceConsistent → step s = .next t → t.deviceConsistent)
    ∧ ∀ s t : State, s.noticesTracked → step s = .next t → t.noticesTracked

/-- R41, R42, R47: every step keeps the assigned records consecutive from the durable head up to the head. -/
def Obligations.JournalStaysContiguous : Prop :=
  ∀ s t : State, s.journalContiguous → step s = .next t → t.journalContiguous

/-- The invariants hold right after reset. -/
def Obligations.InvariantsHoldAtReset : Prop :=
  State.reset.holdsCounted ∧ State.reset.tablesBounded ∧ State.reset.keyConsistent ∧ State.reset.deviceConsistent
    ∧ State.reset.journalContiguous ∧ State.reset.noticesTracked

end Statements
end

