-- ==== Sys2Proof/Laws/State.lean ====
section
/-! SUPPORT. What each update of State leaves in each field: one lemma per field per update, true by rfl. -/

namespace Sys2Proof.Machine


/-! setCtx -/

@[simp] theorem State.setCtx_pins (s : State) (c : RequesterId) (x : Context) :
    (s.setCtx c x).pins = s.pins := rfl
@[simp] theorem State.setCtx_timebase (s : State) (c : RequesterId) (x : Context) :
    (s.setCtx c x).timebase = s.timebase := rfl
@[simp] theorem State.setCtx_device (s : State) (c : RequesterId) (x : Context) :
    (s.setCtx c x).device = s.device := rfl
@[simp] theorem State.setCtx_loader (s : State) (c : RequesterId) (x : Context) :
    (s.setCtx c x).loader = s.loader := rfl
@[simp] theorem State.setCtx_openCounter (s : State) (c : RequesterId) (x : Context) :
    (s.setCtx c x).openCounter = s.openCounter := rfl
@[simp] theorem State.setCtx_contexts (s : State) (c : RequesterId) (x : Context) :
    (s.setCtx c x).contexts = s.contexts.set c x := rfl
@[simp] theorem State.setCtx_holds (s : State) (c : RequesterId) (x : Context) :
    (s.setCtx c x).holds = s.holds := rfl
@[simp] theorem State.setCtx_outstanding (s : State) (c : RequesterId) (x : Context) :
    (s.setCtx c x).outstanding = s.outstanding := rfl
@[simp] theorem State.setCtx_classified (s : State) (c : RequesterId) (x : Context) :
    (s.setCtx c x).classified = s.classified := rfl
@[simp] theorem State.setCtx_forward (s : State) (c : RequesterId) (x : Context) :
    (s.setCtx c x).forward = s.forward := rfl
@[simp] theorem State.setCtx_ops (s : State) (c : RequesterId) (x : Context) :
    (s.setCtx c x).ops = s.ops := rfl
@[simp] theorem State.setCtx_reports (s : State) (c : RequesterId) (x : Context) :
    (s.setCtx c x).reports = s.reports := rfl
@[simp] theorem State.setCtx_journal (s : State) (c : RequesterId) (x : Context) :
    (s.setCtx c x).journal = s.journal := rfl
@[simp] theorem State.setCtx_header (s : State) (c : RequesterId) (x : Context) :
    (s.setCtx c x).header = s.header := rfl
@[simp] theorem State.setCtx_engine (s : State) (c : RequesterId) (x : Context) :
    (s.setCtx c x).engine = s.engine := rfl
@[simp] theorem State.setCtx_rollbackQueue (s : State) (c : RequesterId) (x : Context) :
    (s.setCtx c x).rollbackQueue = s.rollbackQueue := rfl
@[simp] theorem State.setCtx_drains (s : State) (c : RequesterId) (x : Context) :
    (s.setCtx c x).drains = s.drains := rfl
@[simp] theorem State.setCtx_link (s : State) (c : RequesterId) (x : Context) :
    (s.setCtx c x).link = s.link := rfl
@[simp] theorem State.setCtx_pointer (s : State) (c : RequesterId) (x : Context) :
    (s.setCtx c x).pointer = s.pointer := rfl
@[simp] theorem State.setCtx_issued (s : State) (c : RequesterId) (x : Context) :
    (s.setCtx c x).issued = s.issued := rfl
@[simp] theorem State.setCtx_key (s : State) (c : RequesterId) (x : Context) :
    (s.setCtx c x).key = s.key := rfl
@[simp] theorem State.setCtx_recovery (s : State) (c : RequesterId) (x : Context) :
    (s.setCtx c x).recovery = s.recovery := rfl
@[simp] theorem State.setCtx_startupUndone (s : State) (c : RequesterId) (x : Context) :
    (s.setCtx c x).startupUndone = s.startupUndone := rfl
@[simp] theorem State.setCtx_startupFormatted (s : State) (c : RequesterId) (x : Context) :
    (s.setCtx c x).startupFormatted = s.startupFormatted := rfl
@[simp] theorem State.setCtx_sent (s : State) (c : RequesterId) (x : Context) :
    (s.setCtx c x).sent = s.sent := rfl
@[simp] theorem State.setCtx_draws (s : State) (c : RequesterId) (x : Context) :
    (s.setCtx c x).draws = s.draws := rfl
@[simp] theorem State.setCtx_pending (s : State) (c : RequesterId) (x : Context) :
    (s.setCtx c x).pending = s.pending := rfl

/-! modCtx -/

@[simp] theorem State.modCtx_pins (s : State) (c : RequesterId) (f : Context → Context) :
    (s.modCtx c f).pins = s.pins := rfl
@[simp] theorem State.modCtx_timebase (s : State) (c : RequesterId) (f : Context → Context) :
    (s.modCtx c f).timebase = s.timebase := rfl
@[simp] theorem State.modCtx_device (s : State) (c : RequesterId) (f : Context → Context) :
    (s.modCtx c f).device = s.device := rfl
@[simp] theorem State.modCtx_loader (s : State) (c : RequesterId) (f : Context → Context) :
    (s.modCtx c f).loader = s.loader := rfl
@[simp] theorem State.modCtx_openCounter (s : State) (c : RequesterId) (f : Context → Context) :
    (s.modCtx c f).openCounter = s.openCounter := rfl
@[simp] theorem State.modCtx_contexts (s : State) (c : RequesterId) (f : Context → Context) :
    (s.modCtx c f).contexts = s.contexts.set c (f (s.ctx c)) := rfl
@[simp] theorem State.modCtx_holds (s : State) (c : RequesterId) (f : Context → Context) :
    (s.modCtx c f).holds = s.holds := rfl
@[simp] theorem State.modCtx_outstanding (s : State) (c : RequesterId) (f : Context → Context) :
    (s.modCtx c f).outstanding = s.outstanding := rfl
@[simp] theorem State.modCtx_classified (s : State) (c : RequesterId) (f : Context → Context) :
    (s.modCtx c f).classified = s.classified := rfl
@[simp] theorem State.modCtx_forward (s : State) (c : RequesterId) (f : Context → Context) :
    (s.modCtx c f).forward = s.forward := rfl
@[simp] theorem State.modCtx_ops (s : State) (c : RequesterId) (f : Context → Context) :
    (s.modCtx c f).ops = s.ops := rfl
@[simp] theorem State.modCtx_reports (s : State) (c : RequesterId) (f : Context → Context) :
    (s.modCtx c f).reports = s.reports := rfl
@[simp] theorem State.modCtx_journal (s : State) (c : RequesterId) (f : Context → Context) :
    (s.modCtx c f).journal = s.journal := rfl
@[simp] theorem State.modCtx_header (s : State) (c : RequesterId) (f : Context → Context) :
    (s.modCtx c f).header = s.header := rfl
@[simp] theorem State.modCtx_engine (s : State) (c : RequesterId) (f : Context → Context) :
    (s.modCtx c f).engine = s.engine := rfl
@[simp] theorem State.modCtx_rollbackQueue (s : State) (c : RequesterId) (f : Context → Context) :
    (s.modCtx c f).rollbackQueue = s.rollbackQueue := rfl
@[simp] theorem State.modCtx_drains (s : State) (c : RequesterId) (f : Context → Context) :
    (s.modCtx c f).drains = s.drains := rfl
@[simp] theorem State.modCtx_link (s : State) (c : RequesterId) (f : Context → Context) :
    (s.modCtx c f).link = s.link := rfl
@[simp] theorem State.modCtx_pointer (s : State) (c : RequesterId) (f : Context → Context) :
    (s.modCtx c f).pointer = s.pointer := rfl
@[simp] theorem State.modCtx_issued (s : State) (c : RequesterId) (f : Context → Context) :
    (s.modCtx c f).issued = s.issued := rfl
@[simp] theorem State.modCtx_key (s : State) (c : RequesterId) (f : Context → Context) :
    (s.modCtx c f).key = s.key := rfl
@[simp] theorem State.modCtx_recovery (s : State) (c : RequesterId) (f : Context → Context) :
    (s.modCtx c f).recovery = s.recovery := rfl
@[simp] theorem State.modCtx_startupUndone (s : State) (c : RequesterId) (f : Context → Context) :
    (s.modCtx c f).startupUndone = s.startupUndone := rfl
@[simp] theorem State.modCtx_startupFormatted (s : State) (c : RequesterId) (f : Context → Context) :
    (s.modCtx c f).startupFormatted = s.startupFormatted := rfl
@[simp] theorem State.modCtx_sent (s : State) (c : RequesterId) (f : Context → Context) :
    (s.modCtx c f).sent = s.sent := rfl
@[simp] theorem State.modCtx_draws (s : State) (c : RequesterId) (f : Context → Context) :
    (s.modCtx c f).draws = s.draws := rfl
@[simp] theorem State.modCtx_pending (s : State) (c : RequesterId) (f : Context → Context) :
    (s.modCtx c f).pending = s.pending := rfl

/-! syncNotices -/

@[simp] theorem State.syncNotices_pins (s : State) :
    (s.syncNotices).pins = s.pins := rfl
@[simp] theorem State.syncNotices_timebase (s : State) :
    (s.syncNotices).timebase = s.timebase := rfl
@[simp] theorem State.syncNotices_loader (s : State) :
    (s.syncNotices).loader = s.loader := rfl
@[simp] theorem State.syncNotices_openCounter (s : State) :
    (s.syncNotices).openCounter = s.openCounter := rfl
@[simp] theorem State.syncNotices_contexts (s : State) :
    (s.syncNotices).contexts = s.contexts := rfl
@[simp] theorem State.syncNotices_holds (s : State) :
    (s.syncNotices).holds = s.holds := rfl
@[simp] theorem State.syncNotices_outstanding (s : State) :
    (s.syncNotices).outstanding = s.outstanding := rfl
@[simp] theorem State.syncNotices_classified (s : State) :
    (s.syncNotices).classified = s.classified := rfl
@[simp] theorem State.syncNotices_forward (s : State) :
    (s.syncNotices).forward = s.forward := rfl
@[simp] theorem State.syncNotices_ops (s : State) :
    (s.syncNotices).ops = s.ops := rfl
@[simp] theorem State.syncNotices_reports (s : State) :
    (s.syncNotices).reports = s.reports := rfl
@[simp] theorem State.syncNotices_journal (s : State) :
    (s.syncNotices).journal = s.journal := rfl
@[simp] theorem State.syncNotices_header (s : State) :
    (s.syncNotices).header = s.header := rfl
@[simp] theorem State.syncNotices_engine (s : State) :
    (s.syncNotices).engine = s.engine := rfl
@[simp] theorem State.syncNotices_rollbackQueue (s : State) :
    (s.syncNotices).rollbackQueue = s.rollbackQueue := rfl
@[simp] theorem State.syncNotices_drains (s : State) :
    (s.syncNotices).drains = s.drains := rfl
@[simp] theorem State.syncNotices_link (s : State) :
    (s.syncNotices).link = s.link := rfl
@[simp] theorem State.syncNotices_pointer (s : State) :
    (s.syncNotices).pointer = s.pointer := rfl
@[simp] theorem State.syncNotices_issued (s : State) :
    (s.syncNotices).issued = s.issued := rfl
@[simp] theorem State.syncNotices_key (s : State) :
    (s.syncNotices).key = s.key := rfl
@[simp] theorem State.syncNotices_recovery (s : State) :
    (s.syncNotices).recovery = s.recovery := rfl
@[simp] theorem State.syncNotices_startupUndone (s : State) :
    (s.syncNotices).startupUndone = s.startupUndone := rfl
@[simp] theorem State.syncNotices_startupFormatted (s : State) :
    (s.syncNotices).startupFormatted = s.startupFormatted := rfl
@[simp] theorem State.syncNotices_sent (s : State) :
    (s.syncNotices).sent = s.sent := rfl
@[simp] theorem State.syncNotices_draws (s : State) :
    (s.syncNotices).draws = s.draws := rfl
@[simp] theorem State.syncNotices_pending (s : State) :
    (s.syncNotices).pending = s.pending := rfl

/-! respond -/

@[simp] theorem State.respond_pins (s : State) (r : RequesterId) (t : Tag) (code : ResponseCode) (detail : ResponseDetail) (data : Option Line) :
    (s.respond r t code detail data).pins = s.pins := rfl
@[simp] theorem State.respond_timebase (s : State) (r : RequesterId) (t : Tag) (code : ResponseCode) (detail : ResponseDetail) (data : Option Line) :
    (s.respond r t code detail data).timebase = s.timebase := rfl
@[simp] theorem State.respond_device (s : State) (r : RequesterId) (t : Tag) (code : ResponseCode) (detail : ResponseDetail) (data : Option Line) :
    (s.respond r t code detail data).device = s.device := rfl
@[simp] theorem State.respond_loader (s : State) (r : RequesterId) (t : Tag) (code : ResponseCode) (detail : ResponseDetail) (data : Option Line) :
    (s.respond r t code detail data).loader = s.loader := rfl
@[simp] theorem State.respond_openCounter (s : State) (r : RequesterId) (t : Tag) (code : ResponseCode) (detail : ResponseDetail) (data : Option Line) :
    (s.respond r t code detail data).openCounter = s.openCounter := rfl
@[simp] theorem State.respond_contexts (s : State) (r : RequesterId) (t : Tag) (code : ResponseCode) (detail : ResponseDetail) (data : Option Line) :
    (s.respond r t code detail data).contexts = s.contexts := rfl
@[simp] theorem State.respond_holds (s : State) (r : RequesterId) (t : Tag) (code : ResponseCode) (detail : ResponseDetail) (data : Option Line) :
    (s.respond r t code detail data).holds = s.holds := rfl
@[simp] theorem State.respond_outstanding (s : State) (r : RequesterId) (t : Tag) (code : ResponseCode) (detail : ResponseDetail) (data : Option Line) :
    (s.respond r t code detail data).outstanding = s.outstanding := rfl
@[simp] theorem State.respond_classified (s : State) (r : RequesterId) (t : Tag) (code : ResponseCode) (detail : ResponseDetail) (data : Option Line) :
    (s.respond r t code detail data).classified = s.classified := rfl
@[simp] theorem State.respond_forward (s : State) (r : RequesterId) (t : Tag) (code : ResponseCode) (detail : ResponseDetail) (data : Option Line) :
    (s.respond r t code detail data).forward = s.forward := rfl
@[simp] theorem State.respond_ops (s : State) (r : RequesterId) (t : Tag) (code : ResponseCode) (detail : ResponseDetail) (data : Option Line) :
    (s.respond r t code detail data).ops = s.ops := rfl
@[simp] theorem State.respond_reports (s : State) (r : RequesterId) (t : Tag) (code : ResponseCode) (detail : ResponseDetail) (data : Option Line) :
    (s.respond r t code detail data).reports = s.reports := rfl
@[simp] theorem State.respond_journal (s : State) (r : RequesterId) (t : Tag) (code : ResponseCode) (detail : ResponseDetail) (data : Option Line) :
    (s.respond r t code detail data).journal = s.journal := rfl
@[simp] theorem State.respond_header (s : State) (r : RequesterId) (t : Tag) (code : ResponseCode) (detail : ResponseDetail) (data : Option Line) :
    (s.respond r t code detail data).header = s.header := rfl
@[simp] theorem State.respond_engine (s : State) (r : RequesterId) (t : Tag) (code : ResponseCode) (detail : ResponseDetail) (data : Option Line) :
    (s.respond r t code detail data).engine = s.engine := rfl
@[simp] theorem State.respond_rollbackQueue (s : State) (r : RequesterId) (t : Tag) (code : ResponseCode) (detail : ResponseDetail) (data : Option Line) :
    (s.respond r t code detail data).rollbackQueue = s.rollbackQueue := rfl
@[simp] theorem State.respond_drains (s : State) (r : RequesterId) (t : Tag) (code : ResponseCode) (detail : ResponseDetail) (data : Option Line) :
    (s.respond r t code detail data).drains = s.drains := rfl
@[simp] theorem State.respond_link (s : State) (r : RequesterId) (t : Tag) (code : ResponseCode) (detail : ResponseDetail) (data : Option Line) :
    (s.respond r t code detail data).link = s.link := rfl
@[simp] theorem State.respond_pointer (s : State) (r : RequesterId) (t : Tag) (code : ResponseCode) (detail : ResponseDetail) (data : Option Line) :
    (s.respond r t code detail data).pointer = s.pointer := rfl
@[simp] theorem State.respond_issued (s : State) (r : RequesterId) (t : Tag) (code : ResponseCode) (detail : ResponseDetail) (data : Option Line) :
    (s.respond r t code detail data).issued = s.issued := rfl
@[simp] theorem State.respond_key (s : State) (r : RequesterId) (t : Tag) (code : ResponseCode) (detail : ResponseDetail) (data : Option Line) :
    (s.respond r t code detail data).key = s.key := rfl
@[simp] theorem State.respond_recovery (s : State) (r : RequesterId) (t : Tag) (code : ResponseCode) (detail : ResponseDetail) (data : Option Line) :
    (s.respond r t code detail data).recovery = s.recovery := rfl
@[simp] theorem State.respond_startupUndone (s : State) (r : RequesterId) (t : Tag) (code : ResponseCode) (detail : ResponseDetail) (data : Option Line) :
    (s.respond r t code detail data).startupUndone = s.startupUndone := rfl
@[simp] theorem State.respond_startupFormatted (s : State) (r : RequesterId) (t : Tag) (code : ResponseCode) (detail : ResponseDetail) (data : Option Line) :
    (s.respond r t code detail data).startupFormatted = s.startupFormatted := rfl
@[simp] theorem State.respond_sent (s : State) (r : RequesterId) (t : Tag) (code : ResponseCode) (detail : ResponseDetail) (data : Option Line) :
    (s.respond r t code detail data).sent = s.sent ++ [{ requester := r, tag := t, code := code, detail := detail, data := data }] := rfl
@[simp] theorem State.respond_draws (s : State) (r : RequesterId) (t : Tag) (code : ResponseCode) (detail : ResponseDetail) (data : Option Line) :
    (s.respond r t code detail data).draws = s.draws := rfl
@[simp] theorem State.respond_pending (s : State) (r : RequesterId) (t : Tag) (code : ResponseCode) (detail : ResponseDetail) (data : Option Line) :
    (s.respond r t code detail data).pending = s.pending := rfl

/-! takeTag -/

@[simp] theorem State.takeTag_pins (s : State) (r : RequesterId) (t : Tag) :
    (s.takeTag r t).pins = s.pins := rfl
@[simp] theorem State.takeTag_timebase (s : State) (r : RequesterId) (t : Tag) :
    (s.takeTag r t).timebase = s.timebase := rfl
@[simp] theorem State.takeTag_device (s : State) (r : RequesterId) (t : Tag) :
    (s.takeTag r t).device = s.device := rfl
@[simp] theorem State.takeTag_loader (s : State) (r : RequesterId) (t : Tag) :
    (s.takeTag r t).loader = s.loader := rfl
@[simp] theorem State.takeTag_openCounter (s : State) (r : RequesterId) (t : Tag) :
    (s.takeTag r t).openCounter = s.openCounter := rfl
@[simp] theorem State.takeTag_contexts (s : State) (r : RequesterId) (t : Tag) :
    (s.takeTag r t).contexts = s.contexts := rfl
@[simp] theorem State.takeTag_holds (s : State) (r : RequesterId) (t : Tag) :
    (s.takeTag r t).holds = s.holds := rfl
@[simp] theorem State.takeTag_outstanding (s : State) (r : RequesterId) (t : Tag) :
    (s.takeTag r t).outstanding = s.outstanding ++ [(r, t)] := rfl
@[simp] theorem State.takeTag_classified (s : State) (r : RequesterId) (t : Tag) :
    (s.takeTag r t).classified = s.classified := rfl
@[simp] theorem State.takeTag_forward (s : State) (r : RequesterId) (t : Tag) :
    (s.takeTag r t).forward = s.forward := rfl
@[simp] theorem State.takeTag_ops (s : State) (r : RequesterId) (t : Tag) :
    (s.takeTag r t).ops = s.ops := rfl
@[simp] theorem State.takeTag_reports (s : State) (r : RequesterId) (t : Tag) :
    (s.takeTag r t).reports = s.reports := rfl
@[simp] theorem State.takeTag_journal (s : State) (r : RequesterId) (t : Tag) :
    (s.takeTag r t).journal = s.journal := rfl
@[simp] theorem State.takeTag_header (s : State) (r : RequesterId) (t : Tag) :
    (s.takeTag r t).header = s.header := rfl
@[simp] theorem State.takeTag_engine (s : State) (r : RequesterId) (t : Tag) :
    (s.takeTag r t).engine = s.engine := rfl
@[simp] theorem State.takeTag_rollbackQueue (s : State) (r : RequesterId) (t : Tag) :
    (s.takeTag r t).rollbackQueue = s.rollbackQueue := rfl
@[simp] theorem State.takeTag_drains (s : State) (r : RequesterId) (t : Tag) :
    (s.takeTag r t).drains = s.drains := rfl
@[simp] theorem State.takeTag_link (s : State) (r : RequesterId) (t : Tag) :
    (s.takeTag r t).link = s.link := rfl
@[simp] theorem State.takeTag_pointer (s : State) (r : RequesterId) (t : Tag) :
    (s.takeTag r t).pointer = s.pointer := rfl
@[simp] theorem State.takeTag_issued (s : State) (r : RequesterId) (t : Tag) :
    (s.takeTag r t).issued = s.issued := rfl
@[simp] theorem State.takeTag_key (s : State) (r : RequesterId) (t : Tag) :
    (s.takeTag r t).key = s.key := rfl
@[simp] theorem State.takeTag_recovery (s : State) (r : RequesterId) (t : Tag) :
    (s.takeTag r t).recovery = s.recovery := rfl
@[simp] theorem State.takeTag_startupUndone (s : State) (r : RequesterId) (t : Tag) :
    (s.takeTag r t).startupUndone = s.startupUndone := rfl
@[simp] theorem State.takeTag_startupFormatted (s : State) (r : RequesterId) (t : Tag) :
    (s.takeTag r t).startupFormatted = s.startupFormatted := rfl
@[simp] theorem State.takeTag_sent (s : State) (r : RequesterId) (t : Tag) :
    (s.takeTag r t).sent = s.sent := rfl
@[simp] theorem State.takeTag_draws (s : State) (r : RequesterId) (t : Tag) :
    (s.takeTag r t).draws = s.draws := rfl
@[simp] theorem State.takeTag_pending (s : State) (r : RequesterId) (t : Tag) :
    (s.takeTag r t).pending = s.pending := rfl

/-! finish -/

@[simp] theorem State.finish_pins (s : State) (forgotten : Bool) (r : RequesterId) (t : Tag) (code : ResponseCode) (detail : ResponseDetail) (data : Option Line) :
    (s.finish forgotten r t code detail data).pins = s.pins := rfl
@[simp] theorem State.finish_timebase (s : State) (forgotten : Bool) (r : RequesterId) (t : Tag) (code : ResponseCode) (detail : ResponseDetail) (data : Option Line) :
    (s.finish forgotten r t code detail data).timebase = s.timebase := rfl
@[simp] theorem State.finish_device (s : State) (forgotten : Bool) (r : RequesterId) (t : Tag) (code : ResponseCode) (detail : ResponseDetail) (data : Option Line) :
    (s.finish forgotten r t code detail data).device = s.device := rfl
@[simp] theorem State.finish_loader (s : State) (forgotten : Bool) (r : RequesterId) (t : Tag) (code : ResponseCode) (detail : ResponseDetail) (data : Option Line) :
    (s.finish forgotten r t code detail data).loader = s.loader := rfl
@[simp] theorem State.finish_openCounter (s : State) (forgotten : Bool) (r : RequesterId) (t : Tag) (code : ResponseCode) (detail : ResponseDetail) (data : Option Line) :
    (s.finish forgotten r t code detail data).openCounter = s.openCounter := rfl
@[simp] theorem State.finish_contexts (s : State) (forgotten : Bool) (r : RequesterId) (t : Tag) (code : ResponseCode) (detail : ResponseDetail) (data : Option Line) :
    (s.finish forgotten r t code detail data).contexts = s.contexts := rfl
@[simp] theorem State.finish_holds (s : State) (forgotten : Bool) (r : RequesterId) (t : Tag) (code : ResponseCode) (detail : ResponseDetail) (data : Option Line) :
    (s.finish forgotten r t code detail data).holds = s.holds := rfl
@[simp] theorem State.finish_classified (s : State) (forgotten : Bool) (r : RequesterId) (t : Tag) (code : ResponseCode) (detail : ResponseDetail) (data : Option Line) :
    (s.finish forgotten r t code detail data).classified = s.classified := rfl
@[simp] theorem State.finish_forward (s : State) (forgotten : Bool) (r : RequesterId) (t : Tag) (code : ResponseCode) (detail : ResponseDetail) (data : Option Line) :
    (s.finish forgotten r t code detail data).forward = s.forward := rfl
@[simp] theorem State.finish_ops (s : State) (forgotten : Bool) (r : RequesterId) (t : Tag) (code : ResponseCode) (detail : ResponseDetail) (data : Option Line) :
    (s.finish forgotten r t code detail data).ops = s.ops := rfl
@[simp] theorem State.finish_reports (s : State) (forgotten : Bool) (r : RequesterId) (t : Tag) (code : ResponseCode) (detail : ResponseDetail) (data : Option Line) :
    (s.finish forgotten r t code detail data).reports = s.reports := rfl
@[simp] theorem State.finish_journal (s : State) (forgotten : Bool) (r : RequesterId) (t : Tag) (code : ResponseCode) (detail : ResponseDetail) (data : Option Line) :
    (s.finish forgotten r t code detail data).journal = s.journal := rfl
@[simp] theorem State.finish_header (s : State) (forgotten : Bool) (r : RequesterId) (t : Tag) (code : ResponseCode) (detail : ResponseDetail) (data : Option Line) :
    (s.finish forgotten r t code detail data).header = s.header := rfl
@[simp] theorem State.finish_engine (s : State) (forgotten : Bool) (r : RequesterId) (t : Tag) (code : ResponseCode) (detail : ResponseDetail) (data : Option Line) :
    (s.finish forgotten r t code detail data).engine = s.engine := rfl
@[simp] theorem State.finish_rollbackQueue (s : State) (forgotten : Bool) (r : RequesterId) (t : Tag) (code : ResponseCode) (detail : ResponseDetail) (data : Option Line) :
    (s.finish forgotten r t code detail data).rollbackQueue = s.rollbackQueue := rfl
@[simp] theorem State.finish_drains (s : State) (forgotten : Bool) (r : RequesterId) (t : Tag) (code : ResponseCode) (detail : ResponseDetail) (data : Option Line) :
    (s.finish forgotten r t code detail data).drains = s.drains := rfl
@[simp] theorem State.finish_link (s : State) (forgotten : Bool) (r : RequesterId) (t : Tag) (code : ResponseCode) (detail : ResponseDetail) (data : Option Line) :
    (s.finish forgotten r t code detail data).link = s.link := rfl
@[simp] theorem State.finish_pointer (s : State) (forgotten : Bool) (r : RequesterId) (t : Tag) (code : ResponseCode) (detail : ResponseDetail) (data : Option Line) :
    (s.finish forgotten r t code detail data).pointer = s.pointer := rfl
@[simp] theorem State.finish_issued (s : State) (forgotten : Bool) (r : RequesterId) (t : Tag) (code : ResponseCode) (detail : ResponseDetail) (data : Option Line) :
    (s.finish forgotten r t code detail data).issued = s.issued := rfl
@[simp] theorem State.finish_key (s : State) (forgotten : Bool) (r : RequesterId) (t : Tag) (code : ResponseCode) (detail : ResponseDetail) (data : Option Line) :
    (s.finish forgotten r t code detail data).key = s.key := rfl
@[simp] theorem State.finish_recovery (s : State) (forgotten : Bool) (r : RequesterId) (t : Tag) (code : ResponseCode) (detail : ResponseDetail) (data : Option Line) :
    (s.finish forgotten r t code detail data).recovery = s.recovery := rfl
@[simp] theorem State.finish_startupUndone (s : State) (forgotten : Bool) (r : RequesterId) (t : Tag) (code : ResponseCode) (detail : ResponseDetail) (data : Option Line) :
    (s.finish forgotten r t code detail data).startupUndone = s.startupUndone := rfl
@[simp] theorem State.finish_startupFormatted (s : State) (forgotten : Bool) (r : RequesterId) (t : Tag) (code : ResponseCode) (detail : ResponseDetail) (data : Option Line) :
    (s.finish forgotten r t code detail data).startupFormatted = s.startupFormatted := rfl
@[simp] theorem State.finish_draws (s : State) (forgotten : Bool) (r : RequesterId) (t : Tag) (code : ResponseCode) (detail : ResponseDetail) (data : Option Line) :
    (s.finish forgotten r t code detail data).draws = s.draws := rfl
@[simp] theorem State.finish_pending (s : State) (forgotten : Bool) (r : RequesterId) (t : Tag) (code : ResponseCode) (detail : ResponseDetail) (data : Option Line) :
    (s.finish forgotten r t code detail data).pending = s.pending := rfl

/-! promoteHold -/

@[simp] theorem State.promoteHold_pins (s : State) (l : LineAddr) :
    (s.promoteHold l).pins = s.pins := rfl
@[simp] theorem State.promoteHold_timebase (s : State) (l : LineAddr) :
    (s.promoteHold l).timebase = s.timebase := rfl
@[simp] theorem State.promoteHold_device (s : State) (l : LineAddr) :
    (s.promoteHold l).device = s.device := rfl
@[simp] theorem State.promoteHold_loader (s : State) (l : LineAddr) :
    (s.promoteHold l).loader = s.loader := rfl
@[simp] theorem State.promoteHold_openCounter (s : State) (l : LineAddr) :
    (s.promoteHold l).openCounter = s.openCounter := rfl
@[simp] theorem State.promoteHold_contexts (s : State) (l : LineAddr) :
    (s.promoteHold l).contexts = s.contexts := rfl
@[simp] theorem State.promoteHold_holds (s : State) (l : LineAddr) :
    (s.promoteHold l).holds = s.holds.map (fun e => if e.line = l then { e with state := .held } else e) := rfl
@[simp] theorem State.promoteHold_outstanding (s : State) (l : LineAddr) :
    (s.promoteHold l).outstanding = s.outstanding := rfl
@[simp] theorem State.promoteHold_classified (s : State) (l : LineAddr) :
    (s.promoteHold l).classified = s.classified := rfl
@[simp] theorem State.promoteHold_forward (s : State) (l : LineAddr) :
    (s.promoteHold l).forward = s.forward := rfl
@[simp] theorem State.promoteHold_ops (s : State) (l : LineAddr) :
    (s.promoteHold l).ops = s.ops := rfl
@[simp] theorem State.promoteHold_reports (s : State) (l : LineAddr) :
    (s.promoteHold l).reports = s.reports := rfl
@[simp] theorem State.promoteHold_journal (s : State) (l : LineAddr) :
    (s.promoteHold l).journal = s.journal := rfl
@[simp] theorem State.promoteHold_header (s : State) (l : LineAddr) :
    (s.promoteHold l).header = s.header := rfl
@[simp] theorem State.promoteHold_engine (s : State) (l : LineAddr) :
    (s.promoteHold l).engine = s.engine := rfl
@[simp] theorem State.promoteHold_rollbackQueue (s : State) (l : LineAddr) :
    (s.promoteHold l).rollbackQueue = s.rollbackQueue := rfl
@[simp] theorem State.promoteHold_drains (s : State) (l : LineAddr) :
    (s.promoteHold l).drains = s.drains := rfl
@[simp] theorem State.promoteHold_link (s : State) (l : LineAddr) :
    (s.promoteHold l).link = s.link := rfl
@[simp] theorem State.promoteHold_pointer (s : State) (l : LineAddr) :
    (s.promoteHold l).pointer = s.pointer := rfl
@[simp] theorem State.promoteHold_issued (s : State) (l : LineAddr) :
    (s.promoteHold l).issued = s.issued := rfl
@[simp] theorem State.promoteHold_key (s : State) (l : LineAddr) :
    (s.promoteHold l).key = s.key := rfl
@[simp] theorem State.promoteHold_recovery (s : State) (l : LineAddr) :
    (s.promoteHold l).recovery = s.recovery := rfl
@[simp] theorem State.promoteHold_startupUndone (s : State) (l : LineAddr) :
    (s.promoteHold l).startupUndone = s.startupUndone := rfl
@[simp] theorem State.promoteHold_startupFormatted (s : State) (l : LineAddr) :
    (s.promoteHold l).startupFormatted = s.startupFormatted := rfl
@[simp] theorem State.promoteHold_sent (s : State) (l : LineAddr) :
    (s.promoteHold l).sent = s.sent := rfl
@[simp] theorem State.promoteHold_draws (s : State) (l : LineAddr) :
    (s.promoteHold l).draws = s.draws := rfl
@[simp] theorem State.promoteHold_pending (s : State) (l : LineAddr) :
    (s.promoteHold l).pending = s.pending := rfl

/-! releaseHolds -/

@[simp] theorem State.releaseHolds_pins (s : State) (c : RequesterId) :
    (s.releaseHolds c).pins = s.pins := rfl
@[simp] theorem State.releaseHolds_timebase (s : State) (c : RequesterId) :
    (s.releaseHolds c).timebase = s.timebase := rfl
@[simp] theorem State.releaseHolds_device (s : State) (c : RequesterId) :
    (s.releaseHolds c).device = s.device := rfl
@[simp] theorem State.releaseHolds_loader (s : State) (c : RequesterId) :
    (s.releaseHolds c).loader = s.loader := rfl
@[simp] theorem State.releaseHolds_openCounter (s : State) (c : RequesterId) :
    (s.releaseHolds c).openCounter = s.openCounter := rfl
@[simp] theorem State.releaseHolds_contexts (s : State) (c : RequesterId) :
    (s.releaseHolds c).contexts = s.contexts.set c { s.ctx c with holdsCount := 0 } := rfl
@[simp] theorem State.releaseHolds_holds (s : State) (c : RequesterId) :
    (s.releaseHolds c).holds = s.holds.filter (fun e => decide (e.owner ≠ c)) := rfl
@[simp] theorem State.releaseHolds_outstanding (s : State) (c : RequesterId) :
    (s.releaseHolds c).outstanding = s.outstanding := rfl
@[simp] theorem State.releaseHolds_classified (s : State) (c : RequesterId) :
    (s.releaseHolds c).classified = s.classified := rfl
@[simp] theorem State.releaseHolds_forward (s : State) (c : RequesterId) :
    (s.releaseHolds c).forward = s.forward := rfl
@[simp] theorem State.releaseHolds_ops (s : State) (c : RequesterId) :
    (s.releaseHolds c).ops = s.ops := rfl
@[simp] theorem State.releaseHolds_reports (s : State) (c : RequesterId) :
    (s.releaseHolds c).reports = s.reports := rfl
@[simp] theorem State.releaseHolds_journal (s : State) (c : RequesterId) :
    (s.releaseHolds c).journal = s.journal := rfl
@[simp] theorem State.releaseHolds_header (s : State) (c : RequesterId) :
    (s.releaseHolds c).header = s.header := rfl
@[simp] theorem State.releaseHolds_engine (s : State) (c : RequesterId) :
    (s.releaseHolds c).engine = s.engine := rfl
@[simp] theorem State.releaseHolds_rollbackQueue (s : State) (c : RequesterId) :
    (s.releaseHolds c).rollbackQueue = s.rollbackQueue := rfl
@[simp] theorem State.releaseHolds_drains (s : State) (c : RequesterId) :
    (s.releaseHolds c).drains = s.drains := rfl
@[simp] theorem State.releaseHolds_link (s : State) (c : RequesterId) :
    (s.releaseHolds c).link = s.link := rfl
@[simp] theorem State.releaseHolds_pointer (s : State) (c : RequesterId) :
    (s.releaseHolds c).pointer = s.pointer := rfl
@[simp] theorem State.releaseHolds_issued (s : State) (c : RequesterId) :
    (s.releaseHolds c).issued = s.issued := rfl
@[simp] theorem State.releaseHolds_key (s : State) (c : RequesterId) :
    (s.releaseHolds c).key = s.key := rfl
@[simp] theorem State.releaseHolds_recovery (s : State) (c : RequesterId) :
    (s.releaseHolds c).recovery = s.recovery := rfl
@[simp] theorem State.releaseHolds_startupUndone (s : State) (c : RequesterId) :
    (s.releaseHolds c).startupUndone = s.startupUndone := rfl
@[simp] theorem State.releaseHolds_startupFormatted (s : State) (c : RequesterId) :
    (s.releaseHolds c).startupFormatted = s.startupFormatted := rfl
@[simp] theorem State.releaseHolds_sent (s : State) (c : RequesterId) :
    (s.releaseHolds c).sent = s.sent := rfl
@[simp] theorem State.releaseHolds_draws (s : State) (c : RequesterId) :
    (s.releaseHolds c).draws = s.draws := rfl
@[simp] theorem State.releaseHolds_pending (s : State) (c : RequesterId) :
    (s.releaseHolds c).pending = s.pending := rfl

/-! modOp -/

@[simp] theorem State.modOp_pins (s : State) (l : LineAddr) (f : Operation → Operation) :
    (s.modOp l f).pins = s.pins := rfl
@[simp] theorem State.modOp_timebase (s : State) (l : LineAddr) (f : Operation → Operation) :
    (s.modOp l f).timebase = s.timebase := rfl
@[simp] theorem State.modOp_device (s : State) (l : LineAddr) (f : Operation → Operation) :
    (s.modOp l f).device = s.device := rfl
@[simp] theorem State.modOp_loader (s : State) (l : LineAddr) (f : Operation → Operation) :
    (s.modOp l f).loader = s.loader := rfl
@[simp] theorem State.modOp_openCounter (s : State) (l : LineAddr) (f : Operation → Operation) :
    (s.modOp l f).openCounter = s.openCounter := rfl
@[simp] theorem State.modOp_contexts (s : State) (l : LineAddr) (f : Operation → Operation) :
    (s.modOp l f).contexts = s.contexts := rfl
@[simp] theorem State.modOp_holds (s : State) (l : LineAddr) (f : Operation → Operation) :
    (s.modOp l f).holds = s.holds := rfl
@[simp] theorem State.modOp_outstanding (s : State) (l : LineAddr) (f : Operation → Operation) :
    (s.modOp l f).outstanding = s.outstanding := rfl
@[simp] theorem State.modOp_classified (s : State) (l : LineAddr) (f : Operation → Operation) :
    (s.modOp l f).classified = s.classified := rfl
@[simp] theorem State.modOp_forward (s : State) (l : LineAddr) (f : Operation → Operation) :
    (s.modOp l f).forward = s.forward := rfl
@[simp] theorem State.modOp_ops (s : State) (l : LineAddr) (f : Operation → Operation) :
    (s.modOp l f).ops = s.ops.map (fun o => if o.line = l then f o else o) := rfl
@[simp] theorem State.modOp_reports (s : State) (l : LineAddr) (f : Operation → Operation) :
    (s.modOp l f).reports = s.reports := rfl
@[simp] theorem State.modOp_journal (s : State) (l : LineAddr) (f : Operation → Operation) :
    (s.modOp l f).journal = s.journal := rfl
@[simp] theorem State.modOp_header (s : State) (l : LineAddr) (f : Operation → Operation) :
    (s.modOp l f).header = s.header := rfl
@[simp] theorem State.modOp_engine (s : State) (l : LineAddr) (f : Operation → Operation) :
    (s.modOp l f).engine = s.engine := rfl
@[simp] theorem State.modOp_rollbackQueue (s : State) (l : LineAddr) (f : Operation → Operation) :
    (s.modOp l f).rollbackQueue = s.rollbackQueue := rfl
@[simp] theorem State.modOp_drains (s : State) (l : LineAddr) (f : Operation → Operation) :
    (s.modOp l f).drains = s.drains := rfl
@[simp] theorem State.modOp_link (s : State) (l : LineAddr) (f : Operation → Operation) :
    (s.modOp l f).link = s.link := rfl
@[simp] theorem State.modOp_pointer (s : State) (l : LineAddr) (f : Operation → Operation) :
    (s.modOp l f).pointer = s.pointer := rfl
@[simp] theorem State.modOp_issued (s : State) (l : LineAddr) (f : Operation → Operation) :
    (s.modOp l f).issued = s.issued := rfl
@[simp] theorem State.modOp_key (s : State) (l : LineAddr) (f : Operation → Operation) :
    (s.modOp l f).key = s.key := rfl
@[simp] theorem State.modOp_recovery (s : State) (l : LineAddr) (f : Operation → Operation) :
    (s.modOp l f).recovery = s.recovery := rfl
@[simp] theorem State.modOp_startupUndone (s : State) (l : LineAddr) (f : Operation → Operation) :
    (s.modOp l f).startupUndone = s.startupUndone := rfl
@[simp] theorem State.modOp_startupFormatted (s : State) (l : LineAddr) (f : Operation → Operation) :
    (s.modOp l f).startupFormatted = s.startupFormatted := rfl
@[simp] theorem State.modOp_sent (s : State) (l : LineAddr) (f : Operation → Operation) :
    (s.modOp l f).sent = s.sent := rfl
@[simp] theorem State.modOp_draws (s : State) (l : LineAddr) (f : Operation → Operation) :
    (s.modOp l f).draws = s.draws := rfl
@[simp] theorem State.modOp_pending (s : State) (l : LineAddr) (f : Operation → Operation) :
    (s.modOp l f).pending = s.pending := rfl

/-! removeOp -/

@[simp] theorem State.removeOp_pins (s : State) (o : Operation) :
    (s.removeOp o).pins = s.pins := rfl
@[simp] theorem State.removeOp_timebase (s : State) (o : Operation) :
    (s.removeOp o).timebase = s.timebase := rfl
@[simp] theorem State.removeOp_device (s : State) (o : Operation) :
    (s.removeOp o).device = s.device := rfl
@[simp] theorem State.removeOp_loader (s : State) (o : Operation) :
    (s.removeOp o).loader = s.loader := rfl
@[simp] theorem State.removeOp_openCounter (s : State) (o : Operation) :
    (s.removeOp o).openCounter = s.openCounter := rfl
@[simp] theorem State.removeOp_holds (s : State) (o : Operation) :
    (s.removeOp o).holds = s.holds := rfl
@[simp] theorem State.removeOp_outstanding (s : State) (o : Operation) :
    (s.removeOp o).outstanding = s.outstanding := rfl
@[simp] theorem State.removeOp_classified (s : State) (o : Operation) :
    (s.removeOp o).classified = s.classified := rfl
@[simp] theorem State.removeOp_forward (s : State) (o : Operation) :
    (s.removeOp o).forward = s.forward := rfl
@[simp] theorem State.removeOp_ops (s : State) (o : Operation) :
    (s.removeOp o).ops = s.ops.eraseP (fun p => decide (p.line = o.line)) := rfl
@[simp] theorem State.removeOp_reports (s : State) (o : Operation) :
    (s.removeOp o).reports = s.reports := rfl
@[simp] theorem State.removeOp_journal (s : State) (o : Operation) :
    (s.removeOp o).journal = s.journal := rfl
@[simp] theorem State.removeOp_header (s : State) (o : Operation) :
    (s.removeOp o).header = s.header := rfl
@[simp] theorem State.removeOp_engine (s : State) (o : Operation) :
    (s.removeOp o).engine = s.engine := rfl
@[simp] theorem State.removeOp_rollbackQueue (s : State) (o : Operation) :
    (s.removeOp o).rollbackQueue = s.rollbackQueue := rfl
@[simp] theorem State.removeOp_drains (s : State) (o : Operation) :
    (s.removeOp o).drains = s.drains := rfl
@[simp] theorem State.removeOp_link (s : State) (o : Operation) :
    (s.removeOp o).link = s.link := rfl
@[simp] theorem State.removeOp_pointer (s : State) (o : Operation) :
    (s.removeOp o).pointer = s.pointer := rfl
@[simp] theorem State.removeOp_issued (s : State) (o : Operation) :
    (s.removeOp o).issued = s.issued := rfl
@[simp] theorem State.removeOp_key (s : State) (o : Operation) :
    (s.removeOp o).key = s.key := rfl
@[simp] theorem State.removeOp_recovery (s : State) (o : Operation) :
    (s.removeOp o).recovery = s.recovery := rfl
@[simp] theorem State.removeOp_startupUndone (s : State) (o : Operation) :
    (s.removeOp o).startupUndone = s.startupUndone := rfl
@[simp] theorem State.removeOp_startupFormatted (s : State) (o : Operation) :
    (s.removeOp o).startupFormatted = s.startupFormatted := rfl
@[simp] theorem State.removeOp_sent (s : State) (o : Operation) :
    (s.removeOp o).sent = s.sent := rfl
@[simp] theorem State.removeOp_draws (s : State) (o : Operation) :
    (s.removeOp o).draws = s.draws := rfl
@[simp] theorem State.removeOp_pending (s : State) (o : Operation) :
    (s.removeOp o).pending = s.pending := rfl

/-! endOp -/

@[simp] theorem State.endOp_pins (s : State) (o : Operation) (code : ResponseCode) (detail : ResponseDetail) :
    (s.endOp o code detail).pins = s.pins := rfl
@[simp] theorem State.endOp_timebase (s : State) (o : Operation) (code : ResponseCode) (detail : ResponseDetail) :
    (s.endOp o code detail).timebase = s.timebase := rfl
@[simp] theorem State.endOp_device (s : State) (o : Operation) (code : ResponseCode) (detail : ResponseDetail) :
    (s.endOp o code detail).device = s.device := rfl
@[simp] theorem State.endOp_loader (s : State) (o : Operation) (code : ResponseCode) (detail : ResponseDetail) :
    (s.endOp o code detail).loader = s.loader := rfl
@[simp] theorem State.endOp_openCounter (s : State) (o : Operation) (code : ResponseCode) (detail : ResponseDetail) :
    (s.endOp o code detail).openCounter = s.openCounter := rfl
@[simp] theorem State.endOp_holds (s : State) (o : Operation) (code : ResponseCode) (detail : ResponseDetail) :
    (s.endOp o code detail).holds = s.holds := rfl
@[simp] theorem State.endOp_classified (s : State) (o : Operation) (code : ResponseCode) (detail : ResponseDetail) :
    (s.endOp o code detail).classified = s.classified := rfl
@[simp] theorem State.endOp_forward (s : State) (o : Operation) (code : ResponseCode) (detail : ResponseDetail) :
    (s.endOp o code detail).forward = s.forward := rfl
@[simp] theorem State.endOp_ops (s : State) (o : Operation) (code : ResponseCode) (detail : ResponseDetail) :
    (s.endOp o code detail).ops = s.ops.eraseP (fun p => decide (p.line = o.line)) := rfl
@[simp] theorem State.endOp_reports (s : State) (o : Operation) (code : ResponseCode) (detail : ResponseDetail) :
    (s.endOp o code detail).reports = s.reports := rfl
@[simp] theorem State.endOp_journal (s : State) (o : Operation) (code : ResponseCode) (detail : ResponseDetail) :
    (s.endOp o code detail).journal = s.journal := rfl
@[simp] theorem State.endOp_header (s : State) (o : Operation) (code : ResponseCode) (detail : ResponseDetail) :
    (s.endOp o code detail).header = s.header := rfl
@[simp] theorem State.endOp_engine (s : State) (o : Operation) (code : ResponseCode) (detail : ResponseDetail) :
    (s.endOp o code detail).engine = s.engine := rfl
@[simp] theorem State.endOp_rollbackQueue (s : State) (o : Operation) (code : ResponseCode) (detail : ResponseDetail) :
    (s.endOp o code detail).rollbackQueue = s.rollbackQueue := rfl
@[simp] theorem State.endOp_drains (s : State) (o : Operation) (code : ResponseCode) (detail : ResponseDetail) :
    (s.endOp o code detail).drains = s.drains := rfl
@[simp] theorem State.endOp_link (s : State) (o : Operation) (code : ResponseCode) (detail : ResponseDetail) :
    (s.endOp o code detail).link = s.link := rfl
@[simp] theorem State.endOp_pointer (s : State) (o : Operation) (code : ResponseCode) (detail : ResponseDetail) :
    (s.endOp o code detail).pointer = s.pointer := rfl
@[simp] theorem State.endOp_issued (s : State) (o : Operation) (code : ResponseCode) (detail : ResponseDetail) :
    (s.endOp o code detail).issued = s.issued := rfl
@[simp] theorem State.endOp_key (s : State) (o : Operation) (code : ResponseCode) (detail : ResponseDetail) :
    (s.endOp o code detail).key = s.key := rfl
@[simp] theorem State.endOp_recovery (s : State) (o : Operation) (code : ResponseCode) (detail : ResponseDetail) :
    (s.endOp o code detail).recovery = s.recovery := rfl
@[simp] theorem State.endOp_startupUndone (s : State) (o : Operation) (code : ResponseCode) (detail : ResponseDetail) :
    (s.endOp o code detail).startupUndone = s.startupUndone := rfl
@[simp] theorem State.endOp_startupFormatted (s : State) (o : Operation) (code : ResponseCode) (detail : ResponseDetail) :
    (s.endOp o code detail).startupFormatted = s.startupFormatted := rfl
@[simp] theorem State.endOp_draws (s : State) (o : Operation) (code : ResponseCode) (detail : ResponseDetail) :
    (s.endOp o code detail).draws = s.draws := rfl
@[simp] theorem State.endOp_pending (s : State) (o : Operation) (code : ResponseCode) (detail : ResponseDetail) :
    (s.endOp o code detail).pending = s.pending := rfl

/-! grantSlot -/

@[simp] theorem State.grantSlot_pins (s : State) (c : RequesterId) (record : JournalRecord) :
    (s.grantSlot c record).pins = s.pins := rfl
@[simp] theorem State.grantSlot_timebase (s : State) (c : RequesterId) (record : JournalRecord) :
    (s.grantSlot c record).timebase = s.timebase := rfl
@[simp] theorem State.grantSlot_device (s : State) (c : RequesterId) (record : JournalRecord) :
    (s.grantSlot c record).device = s.device := rfl
@[simp] theorem State.grantSlot_loader (s : State) (c : RequesterId) (record : JournalRecord) :
    (s.grantSlot c record).loader = s.loader := rfl
@[simp] theorem State.grantSlot_openCounter (s : State) (c : RequesterId) (record : JournalRecord) :
    (s.grantSlot c record).openCounter = s.openCounter := rfl
@[simp] theorem State.grantSlot_contexts (s : State) (c : RequesterId) (record : JournalRecord) :
    (s.grantSlot c record).contexts = s.contexts := rfl
@[simp] theorem State.grantSlot_holds (s : State) (c : RequesterId) (record : JournalRecord) :
    (s.grantSlot c record).holds = s.holds := rfl
@[simp] theorem State.grantSlot_outstanding (s : State) (c : RequesterId) (record : JournalRecord) :
    (s.grantSlot c record).outstanding = s.outstanding := rfl
@[simp] theorem State.grantSlot_classified (s : State) (c : RequesterId) (record : JournalRecord) :
    (s.grantSlot c record).classified = s.classified := rfl
@[simp] theorem State.grantSlot_forward (s : State) (c : RequesterId) (record : JournalRecord) :
    (s.grantSlot c record).forward = s.forward := rfl
@[simp] theorem State.grantSlot_ops (s : State) (c : RequesterId) (record : JournalRecord) :
    (s.grantSlot c record).ops = s.ops := rfl
@[simp] theorem State.grantSlot_reports (s : State) (c : RequesterId) (record : JournalRecord) :
    (s.grantSlot c record).reports = s.reports := rfl
@[simp] theorem State.grantSlot_header (s : State) (c : RequesterId) (record : JournalRecord) :
    (s.grantSlot c record).header = s.header := rfl
@[simp] theorem State.grantSlot_engine (s : State) (c : RequesterId) (record : JournalRecord) :
    (s.grantSlot c record).engine = s.engine := rfl
@[simp] theorem State.grantSlot_rollbackQueue (s : State) (c : RequesterId) (record : JournalRecord) :
    (s.grantSlot c record).rollbackQueue = s.rollbackQueue := rfl
@[simp] theorem State.grantSlot_drains (s : State) (c : RequesterId) (record : JournalRecord) :
    (s.grantSlot c record).drains = s.drains := rfl
@[simp] theorem State.grantSlot_link (s : State) (c : RequesterId) (record : JournalRecord) :
    (s.grantSlot c record).link = s.link := rfl
@[simp] theorem State.grantSlot_pointer (s : State) (c : RequesterId) (record : JournalRecord) :
    (s.grantSlot c record).pointer = s.pointer := rfl
@[simp] theorem State.grantSlot_issued (s : State) (c : RequesterId) (record : JournalRecord) :
    (s.grantSlot c record).issued = s.issued := rfl
@[simp] theorem State.grantSlot_key (s : State) (c : RequesterId) (record : JournalRecord) :
    (s.grantSlot c record).key = s.key := rfl
@[simp] theorem State.grantSlot_recovery (s : State) (c : RequesterId) (record : JournalRecord) :
    (s.grantSlot c record).recovery = s.recovery := rfl
@[simp] theorem State.grantSlot_startupUndone (s : State) (c : RequesterId) (record : JournalRecord) :
    (s.grantSlot c record).startupUndone = s.startupUndone := rfl
@[simp] theorem State.grantSlot_startupFormatted (s : State) (c : RequesterId) (record : JournalRecord) :
    (s.grantSlot c record).startupFormatted = s.startupFormatted := rfl
@[simp] theorem State.grantSlot_sent (s : State) (c : RequesterId) (record : JournalRecord) :
    (s.grantSlot c record).sent = s.sent := rfl
@[simp] theorem State.grantSlot_draws (s : State) (c : RequesterId) (record : JournalRecord) :
    (s.grantSlot c record).draws = s.draws := rfl
@[simp] theorem State.grantSlot_pending (s : State) (c : RequesterId) (record : JournalRecord) :
    (s.grantSlot c record).pending = s.pending := rfl

/-! askEndRecord -/

@[simp] theorem State.askEndRecord_pins (s : State) (c : RequesterId) (kind : RecordKind) :
    (s.askEndRecord c kind).pins = s.pins := rfl
@[simp] theorem State.askEndRecord_timebase (s : State) (c : RequesterId) (kind : RecordKind) :
    (s.askEndRecord c kind).timebase = s.timebase := rfl
@[simp] theorem State.askEndRecord_device (s : State) (c : RequesterId) (kind : RecordKind) :
    (s.askEndRecord c kind).device = s.device := rfl
@[simp] theorem State.askEndRecord_loader (s : State) (c : RequesterId) (kind : RecordKind) :
    (s.askEndRecord c kind).loader = s.loader := rfl
@[simp] theorem State.askEndRecord_openCounter (s : State) (c : RequesterId) (kind : RecordKind) :
    (s.askEndRecord c kind).openCounter = s.openCounter := rfl
@[simp] theorem State.askEndRecord_contexts (s : State) (c : RequesterId) (kind : RecordKind) :
    (s.askEndRecord c kind).contexts = s.contexts := rfl
@[simp] theorem State.askEndRecord_holds (s : State) (c : RequesterId) (kind : RecordKind) :
    (s.askEndRecord c kind).holds = s.holds := rfl
@[simp] theorem State.askEndRecord_outstanding (s : State) (c : RequesterId) (kind : RecordKind) :
    (s.askEndRecord c kind).outstanding = s.outstanding := rfl
@[simp] theorem State.askEndRecord_classified (s : State) (c : RequesterId) (kind : RecordKind) :
    (s.askEndRecord c kind).classified = s.classified := rfl
@[simp] theorem State.askEndRecord_forward (s : State) (c : RequesterId) (kind : RecordKind) :
    (s.askEndRecord c kind).forward = s.forward := rfl
@[simp] theorem State.askEndRecord_ops (s : State) (c : RequesterId) (kind : RecordKind) :
    (s.askEndRecord c kind).ops = s.ops := rfl
@[simp] theorem State.askEndRecord_reports (s : State) (c : RequesterId) (kind : RecordKind) :
    (s.askEndRecord c kind).reports = s.reports := rfl
@[simp] theorem State.askEndRecord_header (s : State) (c : RequesterId) (kind : RecordKind) :
    (s.askEndRecord c kind).header = s.header := rfl
@[simp] theorem State.askEndRecord_engine (s : State) (c : RequesterId) (kind : RecordKind) :
    (s.askEndRecord c kind).engine = s.engine := rfl
@[simp] theorem State.askEndRecord_rollbackQueue (s : State) (c : RequesterId) (kind : RecordKind) :
    (s.askEndRecord c kind).rollbackQueue = s.rollbackQueue := rfl
@[simp] theorem State.askEndRecord_drains (s : State) (c : RequesterId) (kind : RecordKind) :
    (s.askEndRecord c kind).drains = s.drains := rfl
@[simp] theorem State.askEndRecord_link (s : State) (c : RequesterId) (kind : RecordKind) :
    (s.askEndRecord c kind).link = s.link := rfl
@[simp] theorem State.askEndRecord_pointer (s : State) (c : RequesterId) (kind : RecordKind) :
    (s.askEndRecord c kind).pointer = s.pointer := rfl
@[simp] theorem State.askEndRecord_issued (s : State) (c : RequesterId) (kind : RecordKind) :
    (s.askEndRecord c kind).issued = s.issued := rfl
@[simp] theorem State.askEndRecord_key (s : State) (c : RequesterId) (kind : RecordKind) :
    (s.askEndRecord c kind).key = s.key := rfl
@[simp] theorem State.askEndRecord_recovery (s : State) (c : RequesterId) (kind : RecordKind) :
    (s.askEndRecord c kind).recovery = s.recovery := rfl
@[simp] theorem State.askEndRecord_startupUndone (s : State) (c : RequesterId) (kind : RecordKind) :
    (s.askEndRecord c kind).startupUndone = s.startupUndone := rfl
@[simp] theorem State.askEndRecord_startupFormatted (s : State) (c : RequesterId) (kind : RecordKind) :
    (s.askEndRecord c kind).startupFormatted = s.startupFormatted := rfl
@[simp] theorem State.askEndRecord_sent (s : State) (c : RequesterId) (kind : RecordKind) :
    (s.askEndRecord c kind).sent = s.sent := rfl
@[simp] theorem State.askEndRecord_draws (s : State) (c : RequesterId) (kind : RecordKind) :
    (s.askEndRecord c kind).draws = s.draws := rfl
@[simp] theorem State.askEndRecord_pending (s : State) (c : RequesterId) (kind : RecordKind) :
    (s.askEndRecord c kind).pending = s.pending := rfl

/-! forget -/

@[simp] theorem State.forget_pins (s : State) :
    (s.forget).pins = s.pins := rfl
@[simp] theorem State.forget_timebase (s : State) :
    (s.forget).timebase = s.timebase := rfl
@[simp] theorem State.forget_device (s : State) :
    (s.forget).device = s.device := rfl
@[simp] theorem State.forget_loader (s : State) :
    (s.forget).loader = s.loader := rfl
@[simp] theorem State.forget_openCounter (s : State) :
    (s.forget).openCounter = s.openCounter := rfl
@[simp] theorem State.forget_contexts (s : State) :
    (s.forget).contexts = s.contexts := rfl
@[simp] theorem State.forget_holds (s : State) :
    (s.forget).holds = s.holds := rfl
@[simp] theorem State.forget_outstanding (s : State) :
    (s.forget).outstanding = [] := rfl
@[simp] theorem State.forget_classified (s : State) :
    (s.forget).classified = [] := rfl
@[simp] theorem State.forget_forward (s : State) :
    (s.forget).forward = s.forward.map (fun e => { e with forgotten := true }) := rfl
@[simp] theorem State.forget_ops (s : State) :
    (s.forget).ops = s.ops.map (fun o => { o with forgotten := true }) := rfl
@[simp] theorem State.forget_reports (s : State) :
    (s.forget).reports = s.reports := rfl
@[simp] theorem State.forget_journal (s : State) :
    (s.forget).journal = s.journal := rfl
@[simp] theorem State.forget_header (s : State) :
    (s.forget).header = s.header := rfl
@[simp] theorem State.forget_engine (s : State) :
    (s.forget).engine = s.engine := rfl
@[simp] theorem State.forget_rollbackQueue (s : State) :
    (s.forget).rollbackQueue = s.rollbackQueue := rfl
@[simp] theorem State.forget_drains (s : State) :
    (s.forget).drains = s.drains := rfl
@[simp] theorem State.forget_link (s : State) :
    (s.forget).link = s.link := rfl
@[simp] theorem State.forget_pointer (s : State) :
    (s.forget).pointer = s.pointer := rfl
@[simp] theorem State.forget_issued (s : State) :
    (s.forget).issued = s.issued := rfl
@[simp] theorem State.forget_key (s : State) :
    (s.forget).key = s.key := rfl
@[simp] theorem State.forget_recovery (s : State) :
    (s.forget).recovery = s.recovery := rfl
@[simp] theorem State.forget_startupUndone (s : State) :
    (s.forget).startupUndone = s.startupUndone := rfl
@[simp] theorem State.forget_startupFormatted (s : State) :
    (s.forget).startupFormatted = s.startupFormatted := rfl
@[simp] theorem State.forget_sent (s : State) :
    (s.forget).sent = s.sent := rfl
@[simp] theorem State.forget_draws (s : State) :
    (s.forget).draws = s.draws := rfl
@[simp] theorem State.forget_pending (s : State) :
    (s.forget).pending = s.pending := rfl

/-! freeAccess -/

@[simp] theorem State.freeAccess_pins (s : State) (k : AccessSlot) :
    (s.freeAccess k).pins = s.pins := rfl
@[simp] theorem State.freeAccess_timebase (s : State) (k : AccessSlot) :
    (s.freeAccess k).timebase = s.timebase := rfl
@[simp] theorem State.freeAccess_device (s : State) (k : AccessSlot) :
    (s.freeAccess k).device = s.device := rfl
@[simp] theorem State.freeAccess_loader (s : State) (k : AccessSlot) :
    (s.freeAccess k).loader = s.loader := rfl
@[simp] theorem State.freeAccess_openCounter (s : State) (k : AccessSlot) :
    (s.freeAccess k).openCounter = s.openCounter := rfl
@[simp] theorem State.freeAccess_contexts (s : State) (k : AccessSlot) :
    (s.freeAccess k).contexts = s.contexts := rfl
@[simp] theorem State.freeAccess_holds (s : State) (k : AccessSlot) :
    (s.freeAccess k).holds = s.holds := rfl
@[simp] theorem State.freeAccess_outstanding (s : State) (k : AccessSlot) :
    (s.freeAccess k).outstanding = s.outstanding := rfl
@[simp] theorem State.freeAccess_classified (s : State) (k : AccessSlot) :
    (s.freeAccess k).classified = s.classified := rfl
@[simp] theorem State.freeAccess_forward (s : State) (k : AccessSlot) :
    (s.freeAccess k).forward = s.forward := rfl
@[simp] theorem State.freeAccess_ops (s : State) (k : AccessSlot) :
    (s.freeAccess k).ops = s.ops := rfl
@[simp] theorem State.freeAccess_reports (s : State) (k : AccessSlot) :
    (s.freeAccess k).reports = s.reports := rfl
@[simp] theorem State.freeAccess_journal (s : State) (k : AccessSlot) :
    (s.freeAccess k).journal = s.journal := rfl
@[simp] theorem State.freeAccess_header (s : State) (k : AccessSlot) :
    (s.freeAccess k).header = s.header := rfl
@[simp] theorem State.freeAccess_engine (s : State) (k : AccessSlot) :
    (s.freeAccess k).engine = s.engine := rfl
@[simp] theorem State.freeAccess_rollbackQueue (s : State) (k : AccessSlot) :
    (s.freeAccess k).rollbackQueue = s.rollbackQueue := rfl
@[simp] theorem State.freeAccess_drains (s : State) (k : AccessSlot) :
    (s.freeAccess k).drains = s.drains := rfl
@[simp] theorem State.freeAccess_link (s : State) (k : AccessSlot) :
    (s.freeAccess k).link = s.link.set k none := rfl
@[simp] theorem State.freeAccess_pointer (s : State) (k : AccessSlot) :
    (s.freeAccess k).pointer = s.pointer := rfl
@[simp] theorem State.freeAccess_issued (s : State) (k : AccessSlot) :
    (s.freeAccess k).issued = s.issued := rfl
@[simp] theorem State.freeAccess_key (s : State) (k : AccessSlot) :
    (s.freeAccess k).key = s.key := rfl
@[simp] theorem State.freeAccess_recovery (s : State) (k : AccessSlot) :
    (s.freeAccess k).recovery = s.recovery := rfl
@[simp] theorem State.freeAccess_startupUndone (s : State) (k : AccessSlot) :
    (s.freeAccess k).startupUndone = s.startupUndone := rfl
@[simp] theorem State.freeAccess_startupFormatted (s : State) (k : AccessSlot) :
    (s.freeAccess k).startupFormatted = s.startupFormatted := rfl
@[simp] theorem State.freeAccess_sent (s : State) (k : AccessSlot) :
    (s.freeAccess k).sent = s.sent := rfl
@[simp] theorem State.freeAccess_draws (s : State) (k : AccessSlot) :
    (s.freeAccess k).draws = s.draws := rfl
@[simp] theorem State.freeAccess_pending (s : State) (k : AccessSlot) :
    (s.freeAccess k).pending = s.pending := rfl

/-! putAccess -/

@[simp] theorem State.putAccess_pins (s : State) (k : AccessSlot) (p : Purpose) (l : LineAddr) (kind : AccessKind) :
    (s.putAccess k p l kind).pins = s.pins := rfl
@[simp] theorem State.putAccess_timebase (s : State) (k : AccessSlot) (p : Purpose) (l : LineAddr) (kind : AccessKind) :
    (s.putAccess k p l kind).timebase = s.timebase := rfl
@[simp] theorem State.putAccess_device (s : State) (k : AccessSlot) (p : Purpose) (l : LineAddr) (kind : AccessKind) :
    (s.putAccess k p l kind).device = s.device := rfl
@[simp] theorem State.putAccess_loader (s : State) (k : AccessSlot) (p : Purpose) (l : LineAddr) (kind : AccessKind) :
    (s.putAccess k p l kind).loader = s.loader := rfl
@[simp] theorem State.putAccess_openCounter (s : State) (k : AccessSlot) (p : Purpose) (l : LineAddr) (kind : AccessKind) :
    (s.putAccess k p l kind).openCounter = s.openCounter := rfl
@[simp] theorem State.putAccess_contexts (s : State) (k : AccessSlot) (p : Purpose) (l : LineAddr) (kind : AccessKind) :
    (s.putAccess k p l kind).contexts = s.contexts := rfl
@[simp] theorem State.putAccess_holds (s : State) (k : AccessSlot) (p : Purpose) (l : LineAddr) (kind : AccessKind) :
    (s.putAccess k p l kind).holds = s.holds := rfl
@[simp] theorem State.putAccess_outstanding (s : State) (k : AccessSlot) (p : Purpose) (l : LineAddr) (kind : AccessKind) :
    (s.putAccess k p l kind).outstanding = s.outstanding := rfl
@[simp] theorem State.putAccess_classified (s : State) (k : AccessSlot) (p : Purpose) (l : LineAddr) (kind : AccessKind) :
    (s.putAccess k p l kind).classified = s.classified := rfl
@[simp] theorem State.putAccess_forward (s : State) (k : AccessSlot) (p : Purpose) (l : LineAddr) (kind : AccessKind) :
    (s.putAccess k p l kind).forward = s.forward := rfl
@[simp] theorem State.putAccess_ops (s : State) (k : AccessSlot) (p : Purpose) (l : LineAddr) (kind : AccessKind) :
    (s.putAccess k p l kind).ops = s.ops := rfl
@[simp] theorem State.putAccess_reports (s : State) (k : AccessSlot) (p : Purpose) (l : LineAddr) (kind : AccessKind) :
    (s.putAccess k p l kind).reports = s.reports := rfl
@[simp] theorem State.putAccess_journal (s : State) (k : AccessSlot) (p : Purpose) (l : LineAddr) (kind : AccessKind) :
    (s.putAccess k p l kind).journal = s.journal := rfl
@[simp] theorem State.putAccess_header (s : State) (k : AccessSlot) (p : Purpose) (l : LineAddr) (kind : AccessKind) :
    (s.putAccess k p l kind).header = s.header := rfl
@[simp] theorem State.putAccess_engine (s : State) (k : AccessSlot) (p : Purpose) (l : LineAddr) (kind : AccessKind) :
    (s.putAccess k p l kind).engine = s.engine := rfl
@[simp] theorem State.putAccess_rollbackQueue (s : State) (k : AccessSlot) (p : Purpose) (l : LineAddr) (kind : AccessKind) :
    (s.putAccess k p l kind).rollbackQueue = s.rollbackQueue := rfl
@[simp] theorem State.putAccess_drains (s : State) (k : AccessSlot) (p : Purpose) (l : LineAddr) (kind : AccessKind) :
    (s.putAccess k p l kind).drains = s.drains := rfl
@[simp] theorem State.putAccess_link (s : State) (k : AccessSlot) (p : Purpose) (l : LineAddr) (kind : AccessKind) :
    (s.putAccess k p l kind).link = s.link.set k (some { purpose := p, line := l, kind := kind, order := s.issued }) := rfl
@[simp] theorem State.putAccess_pointer (s : State) (k : AccessSlot) (p : Purpose) (l : LineAddr) (kind : AccessKind) :
    (s.putAccess k p l kind).pointer = s.pointer := rfl
@[simp] theorem State.putAccess_issued (s : State) (k : AccessSlot) (p : Purpose) (l : LineAddr) (kind : AccessKind) :
    (s.putAccess k p l kind).issued = s.issued + 1 := rfl
@[simp] theorem State.putAccess_key (s : State) (k : AccessSlot) (p : Purpose) (l : LineAddr) (kind : AccessKind) :
    (s.putAccess k p l kind).key = s.key := rfl
@[simp] theorem State.putAccess_recovery (s : State) (k : AccessSlot) (p : Purpose) (l : LineAddr) (kind : AccessKind) :
    (s.putAccess k p l kind).recovery = s.recovery := rfl
@[simp] theorem State.putAccess_startupUndone (s : State) (k : AccessSlot) (p : Purpose) (l : LineAddr) (kind : AccessKind) :
    (s.putAccess k p l kind).startupUndone = s.startupUndone := rfl
@[simp] theorem State.putAccess_startupFormatted (s : State) (k : AccessSlot) (p : Purpose) (l : LineAddr) (kind : AccessKind) :
    (s.putAccess k p l kind).startupFormatted = s.startupFormatted := rfl
@[simp] theorem State.putAccess_sent (s : State) (k : AccessSlot) (p : Purpose) (l : LineAddr) (kind : AccessKind) :
    (s.putAccess k p l kind).sent = s.sent := rfl
@[simp] theorem State.putAccess_draws (s : State) (k : AccessSlot) (p : Purpose) (l : LineAddr) (kind : AccessKind) :
    (s.putAccess k p l kind).draws = s.draws := rfl
@[simp] theorem State.putAccess_pending (s : State) (k : AccessSlot) (p : Purpose) (l : LineAddr) (kind : AccessKind) :
    (s.putAccess k p l kind).pending = s.pending := rfl

/-! setEngine -/

@[simp] theorem State.setEngine_pins (s : State) (e : Engine) :
    (s.setEngine e).pins = s.pins := rfl
@[simp] theorem State.setEngine_timebase (s : State) (e : Engine) :
    (s.setEngine e).timebase = s.timebase := rfl
@[simp] theorem State.setEngine_device (s : State) (e : Engine) :
    (s.setEngine e).device = s.device := rfl
@[simp] theorem State.setEngine_loader (s : State) (e : Engine) :
    (s.setEngine e).loader = s.loader := rfl
@[simp] theorem State.setEngine_openCounter (s : State) (e : Engine) :
    (s.setEngine e).openCounter = s.openCounter := rfl
@[simp] theorem State.setEngine_contexts (s : State) (e : Engine) :
    (s.setEngine e).contexts = s.contexts := rfl
@[simp] theorem State.setEngine_holds (s : State) (e : Engine) :
    (s.setEngine e).holds = s.holds := rfl
@[simp] theorem State.setEngine_outstanding (s : State) (e : Engine) :
    (s.setEngine e).outstanding = s.outstanding := rfl
@[simp] theorem State.setEngine_classified (s : State) (e : Engine) :
    (s.setEngine e).classified = s.classified := rfl
@[simp] theorem State.setEngine_forward (s : State) (e : Engine) :
    (s.setEngine e).forward = s.forward := rfl
@[simp] theorem State.setEngine_ops (s : State) (e : Engine) :
    (s.setEngine e).ops = s.ops := rfl
@[simp] theorem State.setEngine_reports (s : State) (e : Engine) :
    (s.setEngine e).reports = s.reports := rfl
@[simp] theorem State.setEngine_journal (s : State) (e : Engine) :
    (s.setEngine e).journal = s.journal := rfl
@[simp] theorem State.setEngine_header (s : State) (e : Engine) :
    (s.setEngine e).header = s.header := rfl
@[simp] theorem State.setEngine_engine (s : State) (e : Engine) :
    (s.setEngine e).engine = e := rfl
@[simp] theorem State.setEngine_rollbackQueue (s : State) (e : Engine) :
    (s.setEngine e).rollbackQueue = s.rollbackQueue := rfl
@[simp] theorem State.setEngine_drains (s : State) (e : Engine) :
    (s.setEngine e).drains = s.drains := rfl
@[simp] theorem State.setEngine_link (s : State) (e : Engine) :
    (s.setEngine e).link = s.link := rfl
@[simp] theorem State.setEngine_pointer (s : State) (e : Engine) :
    (s.setEngine e).pointer = s.pointer := rfl
@[simp] theorem State.setEngine_issued (s : State) (e : Engine) :
    (s.setEngine e).issued = s.issued := rfl
@[simp] theorem State.setEngine_key (s : State) (e : Engine) :
    (s.setEngine e).key = s.key := rfl
@[simp] theorem State.setEngine_recovery (s : State) (e : Engine) :
    (s.setEngine e).recovery = s.recovery := rfl
@[simp] theorem State.setEngine_startupUndone (s : State) (e : Engine) :
    (s.setEngine e).startupUndone = s.startupUndone := rfl
@[simp] theorem State.setEngine_startupFormatted (s : State) (e : Engine) :
    (s.setEngine e).startupFormatted = s.startupFormatted := rfl
@[simp] theorem State.setEngine_sent (s : State) (e : Engine) :
    (s.setEngine e).sent = s.sent := rfl
@[simp] theorem State.setEngine_draws (s : State) (e : Engine) :
    (s.setEngine e).draws = s.draws := rfl
@[simp] theorem State.setEngine_pending (s : State) (e : Engine) :
    (s.setEngine e).pending = s.pending := rfl

/-! setInFlight -/

@[simp] theorem State.setInFlight_pins (s : State) (w : Option HeaderWrite) :
    (s.setInFlight w).pins = s.pins := rfl
@[simp] theorem State.setInFlight_timebase (s : State) (w : Option HeaderWrite) :
    (s.setInFlight w).timebase = s.timebase := rfl
@[simp] theorem State.setInFlight_device (s : State) (w : Option HeaderWrite) :
    (s.setInFlight w).device = s.device := rfl
@[simp] theorem State.setInFlight_loader (s : State) (w : Option HeaderWrite) :
    (s.setInFlight w).loader = s.loader := rfl
@[simp] theorem State.setInFlight_openCounter (s : State) (w : Option HeaderWrite) :
    (s.setInFlight w).openCounter = s.openCounter := rfl
@[simp] theorem State.setInFlight_contexts (s : State) (w : Option HeaderWrite) :
    (s.setInFlight w).contexts = s.contexts := rfl
@[simp] theorem State.setInFlight_holds (s : State) (w : Option HeaderWrite) :
    (s.setInFlight w).holds = s.holds := rfl
@[simp] theorem State.setInFlight_outstanding (s : State) (w : Option HeaderWrite) :
    (s.setInFlight w).outstanding = s.outstanding := rfl
@[simp] theorem State.setInFlight_classified (s : State) (w : Option HeaderWrite) :
    (s.setInFlight w).classified = s.classified := rfl
@[simp] theorem State.setInFlight_forward (s : State) (w : Option HeaderWrite) :
    (s.setInFlight w).forward = s.forward := rfl
@[simp] theorem State.setInFlight_ops (s : State) (w : Option HeaderWrite) :
    (s.setInFlight w).ops = s.ops := rfl
@[simp] theorem State.setInFlight_reports (s : State) (w : Option HeaderWrite) :
    (s.setInFlight w).reports = s.reports := rfl
@[simp] theorem State.setInFlight_journal (s : State) (w : Option HeaderWrite) :
    (s.setInFlight w).journal = s.journal := rfl
@[simp] theorem State.setInFlight_header (s : State) (w : Option HeaderWrite) :
    (s.setInFlight w).header = { s.header with inFlight := w } := rfl
@[simp] theorem State.setInFlight_engine (s : State) (w : Option HeaderWrite) :
    (s.setInFlight w).engine = s.engine := rfl
@[simp] theorem State.setInFlight_rollbackQueue (s : State) (w : Option HeaderWrite) :
    (s.setInFlight w).rollbackQueue = s.rollbackQueue := rfl
@[simp] theorem State.setInFlight_drains (s : State) (w : Option HeaderWrite) :
    (s.setInFlight w).drains = s.drains := rfl
@[simp] theorem State.setInFlight_link (s : State) (w : Option HeaderWrite) :
    (s.setInFlight w).link = s.link := rfl
@[simp] theorem State.setInFlight_pointer (s : State) (w : Option HeaderWrite) :
    (s.setInFlight w).pointer = s.pointer := rfl
@[simp] theorem State.setInFlight_issued (s : State) (w : Option HeaderWrite) :
    (s.setInFlight w).issued = s.issued := rfl
@[simp] theorem State.setInFlight_key (s : State) (w : Option HeaderWrite) :
    (s.setInFlight w).key = s.key := rfl
@[simp] theorem State.setInFlight_recovery (s : State) (w : Option HeaderWrite) :
    (s.setInFlight w).recovery = s.recovery := rfl
@[simp] theorem State.setInFlight_startupUndone (s : State) (w : Option HeaderWrite) :
    (s.setInFlight w).startupUndone = s.startupUndone := rfl
@[simp] theorem State.setInFlight_startupFormatted (s : State) (w : Option HeaderWrite) :
    (s.setInFlight w).startupFormatted = s.startupFormatted := rfl
@[simp] theorem State.setInFlight_sent (s : State) (w : Option HeaderWrite) :
    (s.setInFlight w).sent = s.sent := rfl
@[simp] theorem State.setInFlight_draws (s : State) (w : Option HeaderWrite) :
    (s.setInFlight w).draws = s.draws := rfl
@[simp] theorem State.setInFlight_pending (s : State) (w : Option HeaderWrite) :
    (s.setInFlight w).pending = s.pending := rfl

/-! modRecord -/

@[simp] theorem State.modRecord_pins (s : State) (seq : Serial) (f : AssignedRecord → AssignedRecord) :
    (s.modRecord seq f).pins = s.pins := rfl
@[simp] theorem State.modRecord_timebase (s : State) (seq : Serial) (f : AssignedRecord → AssignedRecord) :
    (s.modRecord seq f).timebase = s.timebase := rfl
@[simp] theorem State.modRecord_device (s : State) (seq : Serial) (f : AssignedRecord → AssignedRecord) :
    (s.modRecord seq f).device = s.device := rfl
@[simp] theorem State.modRecord_loader (s : State) (seq : Serial) (f : AssignedRecord → AssignedRecord) :
    (s.modRecord seq f).loader = s.loader := rfl
@[simp] theorem State.modRecord_openCounter (s : State) (seq : Serial) (f : AssignedRecord → AssignedRecord) :
    (s.modRecord seq f).openCounter = s.openCounter := rfl
@[simp] theorem State.modRecord_contexts (s : State) (seq : Serial) (f : AssignedRecord → AssignedRecord) :
    (s.modRecord seq f).contexts = s.contexts := rfl
@[simp] theorem State.modRecord_holds (s : State) (seq : Serial) (f : AssignedRecord → AssignedRecord) :
    (s.modRecord seq f).holds = s.holds := rfl
@[simp] theorem State.modRecord_outstanding (s : State) (seq : Serial) (f : AssignedRecord → AssignedRecord) :
    (s.modRecord seq f).outstanding = s.outstanding := rfl
@[simp] theorem State.modRecord_classified (s : State) (seq : Serial) (f : AssignedRecord → AssignedRecord) :
    (s.modRecord seq f).classified = s.classified := rfl
@[simp] theorem State.modRecord_forward (s : State) (seq : Serial) (f : AssignedRecord → AssignedRecord) :
    (s.modRecord seq f).forward = s.forward := rfl
@[simp] theorem State.modRecord_ops (s : State) (seq : Serial) (f : AssignedRecord → AssignedRecord) :
    (s.modRecord seq f).ops = s.ops := rfl
@[simp] theorem State.modRecord_reports (s : State) (seq : Serial) (f : AssignedRecord → AssignedRecord) :
    (s.modRecord seq f).reports = s.reports := rfl
@[simp] theorem State.modRecord_header (s : State) (seq : Serial) (f : AssignedRecord → AssignedRecord) :
    (s.modRecord seq f).header = s.header := rfl
@[simp] theorem State.modRecord_engine (s : State) (seq : Serial) (f : AssignedRecord → AssignedRecord) :
    (s.modRecord seq f).engine = s.engine := rfl
@[simp] theorem State.modRecord_rollbackQueue (s : State) (seq : Serial) (f : AssignedRecord → AssignedRecord) :
    (s.modRecord seq f).rollbackQueue = s.rollbackQueue := rfl
@[simp] theorem State.modRecord_drains (s : State) (seq : Serial) (f : AssignedRecord → AssignedRecord) :
    (s.modRecord seq f).drains = s.drains := rfl
@[simp] theorem State.modRecord_link (s : State) (seq : Serial) (f : AssignedRecord → AssignedRecord) :
    (s.modRecord seq f).link = s.link := rfl
@[simp] theorem State.modRecord_pointer (s : State) (seq : Serial) (f : AssignedRecord → AssignedRecord) :
    (s.modRecord seq f).pointer = s.pointer := rfl
@[simp] theorem State.modRecord_issued (s : State) (seq : Serial) (f : AssignedRecord → AssignedRecord) :
    (s.modRecord seq f).issued = s.issued := rfl
@[simp] theorem State.modRecord_key (s : State) (seq : Serial) (f : AssignedRecord → AssignedRecord) :
    (s.modRecord seq f).key = s.key := rfl
@[simp] theorem State.modRecord_recovery (s : State) (seq : Serial) (f : AssignedRecord → AssignedRecord) :
    (s.modRecord seq f).recovery = s.recovery := rfl
@[simp] theorem State.modRecord_startupUndone (s : State) (seq : Serial) (f : AssignedRecord → AssignedRecord) :
    (s.modRecord seq f).startupUndone = s.startupUndone := rfl
@[simp] theorem State.modRecord_startupFormatted (s : State) (seq : Serial) (f : AssignedRecord → AssignedRecord) :
    (s.modRecord seq f).startupFormatted = s.startupFormatted := rfl
@[simp] theorem State.modRecord_sent (s : State) (seq : Serial) (f : AssignedRecord → AssignedRecord) :
    (s.modRecord seq f).sent = s.sent := rfl
@[simp] theorem State.modRecord_draws (s : State) (seq : Serial) (f : AssignedRecord → AssignedRecord) :
    (s.modRecord seq f).draws = s.draws := rfl
@[simp] theorem State.modRecord_pending (s : State) (seq : Serial) (f : AssignedRecord → AssignedRecord) :
    (s.modRecord seq f).pending = s.pending := rfl

/-! publish -/

@[simp] theorem State.publish_pins (s : State) (i : HeaderImage) :
    (s.publish i).pins = s.pins := rfl
@[simp] theorem State.publish_timebase (s : State) (i : HeaderImage) :
    (s.publish i).timebase = s.timebase := rfl
@[simp] theorem State.publish_device (s : State) (i : HeaderImage) :
    (s.publish i).device = s.device := rfl
@[simp] theorem State.publish_loader (s : State) (i : HeaderImage) :
    (s.publish i).loader = s.loader := rfl
@[simp] theorem State.publish_openCounter (s : State) (i : HeaderImage) :
    (s.publish i).openCounter = s.openCounter := rfl
@[simp] theorem State.publish_contexts (s : State) (i : HeaderImage) :
    (s.publish i).contexts = s.contexts := rfl
@[simp] theorem State.publish_holds (s : State) (i : HeaderImage) :
    (s.publish i).holds = s.holds := rfl
@[simp] theorem State.publish_outstanding (s : State) (i : HeaderImage) :
    (s.publish i).outstanding = s.outstanding := rfl
@[simp] theorem State.publish_classified (s : State) (i : HeaderImage) :
    (s.publish i).classified = s.classified := rfl
@[simp] theorem State.publish_forward (s : State) (i : HeaderImage) :
    (s.publish i).forward = s.forward := rfl
@[simp] theorem State.publish_ops (s : State) (i : HeaderImage) :
    (s.publish i).ops = s.ops := rfl
@[simp] theorem State.publish_reports (s : State) (i : HeaderImage) :
    (s.publish i).reports = s.reports := rfl
@[simp] theorem State.publish_journal (s : State) (i : HeaderImage) :
    (s.publish i).journal = { s.journal with published := i.tail } := rfl
@[simp] theorem State.publish_engine (s : State) (i : HeaderImage) :
    (s.publish i).engine = s.engine := rfl
@[simp] theorem State.publish_rollbackQueue (s : State) (i : HeaderImage) :
    (s.publish i).rollbackQueue = s.rollbackQueue := rfl
@[simp] theorem State.publish_drains (s : State) (i : HeaderImage) :
    (s.publish i).drains = s.drains := rfl
@[simp] theorem State.publish_link (s : State) (i : HeaderImage) :
    (s.publish i).link = s.link := rfl
@[simp] theorem State.publish_pointer (s : State) (i : HeaderImage) :
    (s.publish i).pointer = s.pointer := rfl
@[simp] theorem State.publish_issued (s : State) (i : HeaderImage) :
    (s.publish i).issued = s.issued := rfl
@[simp] theorem State.publish_key (s : State) (i : HeaderImage) :
    (s.publish i).key = s.key := rfl
@[simp] theorem State.publish_recovery (s : State) (i : HeaderImage) :
    (s.publish i).recovery = s.recovery := rfl
@[simp] theorem State.publish_startupUndone (s : State) (i : HeaderImage) :
    (s.publish i).startupUndone = s.startupUndone := rfl
@[simp] theorem State.publish_startupFormatted (s : State) (i : HeaderImage) :
    (s.publish i).startupFormatted = s.startupFormatted := rfl
@[simp] theorem State.publish_sent (s : State) (i : HeaderImage) :
    (s.publish i).sent = s.sent := rfl
@[simp] theorem State.publish_draws (s : State) (i : HeaderImage) :
    (s.publish i).draws = s.draws := rfl
@[simp] theorem State.publish_pending (s : State) (i : HeaderImage) :
    (s.publish i).pending = s.pending := rfl

/-! clearWait -/

@[simp] theorem State.clearWait_pins (s : State) (r : RequesterId) :
    (s.clearWait r).pins = s.pins := rfl
@[simp] theorem State.clearWait_timebase (s : State) (r : RequesterId) :
    (s.clearWait r).timebase = s.timebase := rfl
@[simp] theorem State.clearWait_device (s : State) (r : RequesterId) :
    (s.clearWait r).device = s.device := rfl
@[simp] theorem State.clearWait_loader (s : State) (r : RequesterId) :
    (s.clearWait r).loader = s.loader := rfl
@[simp] theorem State.clearWait_openCounter (s : State) (r : RequesterId) :
    (s.clearWait r).openCounter = s.openCounter := rfl
@[simp] theorem State.clearWait_contexts (s : State) (r : RequesterId) :
    (s.clearWait r).contexts = s.contexts.set r { s.ctx r with wait := none } := rfl
@[simp] theorem State.clearWait_holds (s : State) (r : RequesterId) :
    (s.clearWait r).holds = s.holds := rfl
@[simp] theorem State.clearWait_outstanding (s : State) (r : RequesterId) :
    (s.clearWait r).outstanding = s.outstanding := rfl
@[simp] theorem State.clearWait_classified (s : State) (r : RequesterId) :
    (s.clearWait r).classified = s.classified := rfl
@[simp] theorem State.clearWait_forward (s : State) (r : RequesterId) :
    (s.clearWait r).forward = s.forward := rfl
@[simp] theorem State.clearWait_ops (s : State) (r : RequesterId) :
    (s.clearWait r).ops = s.ops := rfl
@[simp] theorem State.clearWait_reports (s : State) (r : RequesterId) :
    (s.clearWait r).reports = s.reports := rfl
@[simp] theorem State.clearWait_journal (s : State) (r : RequesterId) :
    (s.clearWait r).journal = s.journal := rfl
@[simp] theorem State.clearWait_header (s : State) (r : RequesterId) :
    (s.clearWait r).header = s.header := rfl
@[simp] theorem State.clearWait_engine (s : State) (r : RequesterId) :
    (s.clearWait r).engine = s.engine := rfl
@[simp] theorem State.clearWait_rollbackQueue (s : State) (r : RequesterId) :
    (s.clearWait r).rollbackQueue = s.rollbackQueue := rfl
@[simp] theorem State.clearWait_drains (s : State) (r : RequesterId) :
    (s.clearWait r).drains = s.drains := rfl
@[simp] theorem State.clearWait_link (s : State) (r : RequesterId) :
    (s.clearWait r).link = s.link := rfl
@[simp] theorem State.clearWait_pointer (s : State) (r : RequesterId) :
    (s.clearWait r).pointer = s.pointer := rfl
@[simp] theorem State.clearWait_issued (s : State) (r : RequesterId) :
    (s.clearWait r).issued = s.issued := rfl
@[simp] theorem State.clearWait_key (s : State) (r : RequesterId) :
    (s.clearWait r).key = s.key := rfl
@[simp] theorem State.clearWait_recovery (s : State) (r : RequesterId) :
    (s.clearWait r).recovery = s.recovery := rfl
@[simp] theorem State.clearWait_startupUndone (s : State) (r : RequesterId) :
    (s.clearWait r).startupUndone = s.startupUndone := rfl
@[simp] theorem State.clearWait_startupFormatted (s : State) (r : RequesterId) :
    (s.clearWait r).startupFormatted = s.startupFormatted := rfl
@[simp] theorem State.clearWait_sent (s : State) (r : RequesterId) :
    (s.clearWait r).sent = s.sent := rfl
@[simp] theorem State.clearWait_draws (s : State) (r : RequesterId) :
    (s.clearWait r).draws = s.draws := rfl
@[simp] theorem State.clearWait_pending (s : State) (r : RequesterId) :
    (s.clearWait r).pending = s.pending := rfl

/-- Two states that agree in every field are one state. -/
theorem State.ext_fields {s t : State}
    (h0 : s.pins = t.pins)
    (h1 : s.timebase = t.timebase)
    (h2 : s.device = t.device)
    (h3 : s.loader = t.loader)
    (h4 : s.openCounter = t.openCounter)
    (h5 : s.contexts = t.contexts)
    (h6 : s.holds = t.holds)
    (h7 : s.outstanding = t.outstanding)
    (h8 : s.classified = t.classified)
    (h9 : s.forward = t.forward)
    (h10 : s.ops = t.ops)
    (h11 : s.reports = t.reports)
    (h12 : s.journal = t.journal)
    (h13 : s.header = t.header)
    (h14 : s.engine = t.engine)
    (h15 : s.rollbackQueue = t.rollbackQueue)
    (h16 : s.drains = t.drains)
    (h17 : s.link = t.link)
    (h18 : s.pointer = t.pointer)
    (h19 : s.issued = t.issued)
    (h20 : s.key = t.key)
    (h21 : s.recovery = t.recovery)
    (h22 : s.startupUndone = t.startupUndone)
    (h23 : s.startupFormatted = t.startupFormatted)
    (h24 : s.sent = t.sent)
    (h25 : s.draws = t.draws)
    (h26 : s.pending = t.pending) : s = t := by
  cases s; cases t
  simp only at h0 h1 h2 h3 h4 h5 h6 h7 h8 h9 h10 h11 h12 h13 h14 h15 h16 h17 h18 h19 h20 h21 h22 h23 h24 h25 h26
  subst_vars
  rfl


end Sys2Proof.Machine
end

