-- ==== Sys2Proof/Laws/Ops.lean ====
section
/-! SUPPORT. The shared operations: what each reads and writes of a context record, and the fields each leaves alone. -/

namespace Sys2Proof.Machine

/-! ## Context records -/

theorem State.ctx_setCtx_self (s : State) (c : RequesterId) (x : Context) : (s.setCtx c x).ctx c = x := by
  simp [State.ctx]

theorem State.ctx_setCtx_other (s : State) (c d : RequesterId) (x : Context) (h : d ≠ c) :
    (s.setCtx c x).ctx d = s.ctx d := by
  have h' : c.val ≠ d.val := fun e => h (Fin.ext e.symm)
  simp [State.ctx, h']

/-- Reading any context after one was replaced. -/
theorem State.ctx_setCtx (s : State) (c d : RequesterId) (x : Context) :
    (s.setCtx c x).ctx d = if d = c then x else s.ctx d := by
  split
  · subst_vars; exact s.ctx_setCtx_self _ x
  · exact s.ctx_setCtx_other c d x ‹_›

/-- Reading any context after one was changed. -/
theorem State.ctx_modCtx (s : State) (c d : RequesterId) (f : Context → Context) :
    (s.modCtx c f).ctx d = if d = c then f (s.ctx c) else s.ctx d := s.ctx_setCtx c d _

theorem State.ctx_modCtx_self (s : State) (c : RequesterId) (f : Context → Context) :
    (s.modCtx c f).ctx c = f (s.ctx c) := s.ctx_setCtx_self c _

theorem State.ctx_modCtx_other (s : State) (c d : RequesterId) (f : Context → Context) (h : d ≠ c) :
    (s.modCtx c f).ctx d = s.ctx d := s.ctx_setCtx_other c d _ h

/-- Context records depend on the field contexts only. -/
theorem State.ctx_congr {s t : State} (h : s.contexts = t.contexts) (c : RequesterId) : s.ctx c = t.ctx c := by
  simp only [State.ctx, h]

/-- Two states whose context records agree have the same field contexts. -/
theorem State.contexts_ext {s t : State} (h : ∀ c, s.ctx c = t.ctx c) : s.contexts = t.contexts := by
  apply Vector.ext
  intro i hi
  exact h ⟨i, hi⟩

/-- Two changes of one context are one change. -/
theorem State.modCtx_modCtx (s : State) (c : RequesterId) (f g : Context → Context) :
    (s.modCtx c f).modCtx c g = s.modCtx c (fun x => g (f x)) := by
  simp [State.modCtx, State.setCtx, State.ctx]

/-- Folding keeps whatever each step keeps. -/
theorem foldl_keeps {α β : Type} (p : State → β) (f : State → α → State) (h : ∀ s a, p (f s a) = p s) (l : List α)
    (s : State) : p (l.foldl f s) = p s := by
  induction l generalizing s with
  | nil => rfl
  | cons a rest ih => rw [List.foldl_cons, ih, h]

theorem mem_allContexts (c : RequesterId) : c ∈ allContexts := by
  revert c; decide

theorem mem_allSlots (k : AccessSlot) : k ∈ allSlots := by
  revert k; decide

theorem nodup_allContexts : allContexts.Nodup := by decide

theorem ctx_foldl_modCtx_notMem (f : Context → Context) (l : List RequesterId) (s : State) (c : RequesterId)
    (h : c ∉ l) : (l.foldl (fun t c => t.modCtx c f) s).ctx c = s.ctx c := by
  induction l generalizing s with
  | nil => rfl
  | cons a rest ih =>
    rw [List.foldl_cons, ih _ (fun m => h (List.mem_cons_of_mem _ m))]
    exact s.ctx_modCtx_other a c f (fun e => h (e ▸ List.mem_cons_self))

theorem ctx_foldl_modCtx (f : Context → Context) (l : List RequesterId) (hl : l.Nodup) (s : State) (c : RequesterId)
    (h : c ∈ l) : (l.foldl (fun t c => t.modCtx c f) s).ctx c = f (s.ctx c) := by
  induction l generalizing s with
  | nil => cases h
  | cons a rest ih =>
    rw [List.nodup_cons] at hl
    rw [List.foldl_cons]
    by_cases e : c = a
    · subst e
      rw [ctx_foldl_modCtx_notMem f rest _ _ hl.1, State.ctx_modCtx_self]
    · rw [ih hl.2 _ ((List.mem_cons.1 h).resolve_left e), State.ctx_modCtx_other _ _ _ _ e]

/-- Changing every context changes each. -/
theorem State.ctx_modAll (s : State) (f : Context → Context) (c : RequesterId) : (s.modAll f).ctx c = f (s.ctx c) :=
  ctx_foldl_modCtx f allContexts nodup_allContexts s c (mem_allContexts c)

/-! ## Responses -/

/-- Work that is not forgotten is answered: its entry leaves the table and its response is sent. -/
theorem State.finish_answered (s : State) (r : RequesterId) (t : Tag) (code : ResponseCode) (detail : ResponseDetail)
    (data : Option Line) : s.finish false r t code detail data =
      { s with outstanding := s.outstanding.filter (fun e => decide (e ≠ (r, t)))
               sent := s.sent ++ [{ requester := r, tag := t, code := code, detail := detail, data := data }] } := rfl

/-- Forgotten work sends nothing (R78). -/
theorem State.finish_forgotten (s : State) (r : RequesterId) (t : Tag) (code : ResponseCode) (detail : ResponseDetail)
    (data : Option Line) : s.finish true r t code detail data = s := rfl


/-! ## modAll: contexts only -/

@[simp] theorem State.modAll_pins (s : State) (f : Context → Context) :
    (s.modAll f).pins = s.pins := by
  exact foldl_keeps State.pins (fun t c => t.modCtx c f) (fun _ _ => rfl) allContexts s
@[simp] theorem State.modAll_timebase (s : State) (f : Context → Context) :
    (s.modAll f).timebase = s.timebase := by
  exact foldl_keeps State.timebase (fun t c => t.modCtx c f) (fun _ _ => rfl) allContexts s
@[simp] theorem State.modAll_device (s : State) (f : Context → Context) :
    (s.modAll f).device = s.device := by
  exact foldl_keeps State.device (fun t c => t.modCtx c f) (fun _ _ => rfl) allContexts s
@[simp] theorem State.modAll_loader (s : State) (f : Context → Context) :
    (s.modAll f).loader = s.loader := by
  exact foldl_keeps State.loader (fun t c => t.modCtx c f) (fun _ _ => rfl) allContexts s
@[simp] theorem State.modAll_openCounter (s : State) (f : Context → Context) :
    (s.modAll f).openCounter = s.openCounter := by
  exact foldl_keeps State.openCounter (fun t c => t.modCtx c f) (fun _ _ => rfl) allContexts s
@[simp] theorem State.modAll_holds (s : State) (f : Context → Context) :
    (s.modAll f).holds = s.holds := by
  exact foldl_keeps State.holds (fun t c => t.modCtx c f) (fun _ _ => rfl) allContexts s
@[simp] theorem State.modAll_outstanding (s : State) (f : Context → Context) :
    (s.modAll f).outstanding = s.outstanding := by
  exact foldl_keeps State.outstanding (fun t c => t.modCtx c f) (fun _ _ => rfl) allContexts s
@[simp] theorem State.modAll_classified (s : State) (f : Context → Context) :
    (s.modAll f).classified = s.classified := by
  exact foldl_keeps State.classified (fun t c => t.modCtx c f) (fun _ _ => rfl) allContexts s
@[simp] theorem State.modAll_forward (s : State) (f : Context → Context) :
    (s.modAll f).forward = s.forward := by
  exact foldl_keeps State.forward (fun t c => t.modCtx c f) (fun _ _ => rfl) allContexts s
@[simp] theorem State.modAll_ops (s : State) (f : Context → Context) :
    (s.modAll f).ops = s.ops := by
  exact foldl_keeps State.ops (fun t c => t.modCtx c f) (fun _ _ => rfl) allContexts s
@[simp] theorem State.modAll_reports (s : State) (f : Context → Context) :
    (s.modAll f).reports = s.reports := by
  exact foldl_keeps State.reports (fun t c => t.modCtx c f) (fun _ _ => rfl) allContexts s
@[simp] theorem State.modAll_journal (s : State) (f : Context → Context) :
    (s.modAll f).journal = s.journal := by
  exact foldl_keeps State.journal (fun t c => t.modCtx c f) (fun _ _ => rfl) allContexts s
@[simp] theorem State.modAll_header (s : State) (f : Context → Context) :
    (s.modAll f).header = s.header := by
  exact foldl_keeps State.header (fun t c => t.modCtx c f) (fun _ _ => rfl) allContexts s
@[simp] theorem State.modAll_engine (s : State) (f : Context → Context) :
    (s.modAll f).engine = s.engine := by
  exact foldl_keeps State.engine (fun t c => t.modCtx c f) (fun _ _ => rfl) allContexts s
@[simp] theorem State.modAll_rollbackQueue (s : State) (f : Context → Context) :
    (s.modAll f).rollbackQueue = s.rollbackQueue := by
  exact foldl_keeps State.rollbackQueue (fun t c => t.modCtx c f) (fun _ _ => rfl) allContexts s
@[simp] theorem State.modAll_drains (s : State) (f : Context → Context) :
    (s.modAll f).drains = s.drains := by
  exact foldl_keeps State.drains (fun t c => t.modCtx c f) (fun _ _ => rfl) allContexts s
@[simp] theorem State.modAll_link (s : State) (f : Context → Context) :
    (s.modAll f).link = s.link := by
  exact foldl_keeps State.link (fun t c => t.modCtx c f) (fun _ _ => rfl) allContexts s
@[simp] theorem State.modAll_pointer (s : State) (f : Context → Context) :
    (s.modAll f).pointer = s.pointer := by
  exact foldl_keeps State.pointer (fun t c => t.modCtx c f) (fun _ _ => rfl) allContexts s
@[simp] theorem State.modAll_issued (s : State) (f : Context → Context) :
    (s.modAll f).issued = s.issued := by
  exact foldl_keeps State.issued (fun t c => t.modCtx c f) (fun _ _ => rfl) allContexts s
@[simp] theorem State.modAll_key (s : State) (f : Context → Context) :
    (s.modAll f).key = s.key := by
  exact foldl_keeps State.key (fun t c => t.modCtx c f) (fun _ _ => rfl) allContexts s
@[simp] theorem State.modAll_recovery (s : State) (f : Context → Context) :
    (s.modAll f).recovery = s.recovery := by
  exact foldl_keeps State.recovery (fun t c => t.modCtx c f) (fun _ _ => rfl) allContexts s
@[simp] theorem State.modAll_startupUndone (s : State) (f : Context → Context) :
    (s.modAll f).startupUndone = s.startupUndone := by
  exact foldl_keeps State.startupUndone (fun t c => t.modCtx c f) (fun _ _ => rfl) allContexts s
@[simp] theorem State.modAll_startupFormatted (s : State) (f : Context → Context) :
    (s.modAll f).startupFormatted = s.startupFormatted := by
  exact foldl_keeps State.startupFormatted (fun t c => t.modCtx c f) (fun _ _ => rfl) allContexts s
@[simp] theorem State.modAll_sent (s : State) (f : Context → Context) :
    (s.modAll f).sent = s.sent := by
  exact foldl_keeps State.sent (fun t c => t.modCtx c f) (fun _ _ => rfl) allContexts s
@[simp] theorem State.modAll_draws (s : State) (f : Context → Context) :
    (s.modAll f).draws = s.draws := by
  exact foldl_keeps State.draws (fun t c => t.modCtx c f) (fun _ _ => rfl) allContexts s
@[simp] theorem State.modAll_pending (s : State) (f : Context → Context) :
    (s.modAll f).pending = s.pending := by
  exact foldl_keeps State.pending (fun t c => t.modCtx c f) (fun _ _ => rfl) allContexts s

/-! ## answerHeld: contexts, outstanding, sent only -/

@[simp] theorem State.answerHeld_pins (s : State) (c : RequesterId) (code : ResponseCode) (detail : ResponseDetail) (outcome : ControlOutcome) :
    (s.answerHeld c code detail outcome).pins = s.pins := by
  exact foldl_keeps State.pins (fun t tag => t.finish false c tag code detail) (fun _ _ => rfl) (s.ctx c).held s
@[simp] theorem State.answerHeld_timebase (s : State) (c : RequesterId) (code : ResponseCode) (detail : ResponseDetail) (outcome : ControlOutcome) :
    (s.answerHeld c code detail outcome).timebase = s.timebase := by
  exact foldl_keeps State.timebase (fun t tag => t.finish false c tag code detail) (fun _ _ => rfl) (s.ctx c).held s
@[simp] theorem State.answerHeld_device (s : State) (c : RequesterId) (code : ResponseCode) (detail : ResponseDetail) (outcome : ControlOutcome) :
    (s.answerHeld c code detail outcome).device = s.device := by
  exact foldl_keeps State.device (fun t tag => t.finish false c tag code detail) (fun _ _ => rfl) (s.ctx c).held s
@[simp] theorem State.answerHeld_loader (s : State) (c : RequesterId) (code : ResponseCode) (detail : ResponseDetail) (outcome : ControlOutcome) :
    (s.answerHeld c code detail outcome).loader = s.loader := by
  exact foldl_keeps State.loader (fun t tag => t.finish false c tag code detail) (fun _ _ => rfl) (s.ctx c).held s
@[simp] theorem State.answerHeld_openCounter (s : State) (c : RequesterId) (code : ResponseCode) (detail : ResponseDetail) (outcome : ControlOutcome) :
    (s.answerHeld c code detail outcome).openCounter = s.openCounter := by
  exact foldl_keeps State.openCounter (fun t tag => t.finish false c tag code detail) (fun _ _ => rfl) (s.ctx c).held s
@[simp] theorem State.answerHeld_holds (s : State) (c : RequesterId) (code : ResponseCode) (detail : ResponseDetail) (outcome : ControlOutcome) :
    (s.answerHeld c code detail outcome).holds = s.holds := by
  exact foldl_keeps State.holds (fun t tag => t.finish false c tag code detail) (fun _ _ => rfl) (s.ctx c).held s
@[simp] theorem State.answerHeld_classified (s : State) (c : RequesterId) (code : ResponseCode) (detail : ResponseDetail) (outcome : ControlOutcome) :
    (s.answerHeld c code detail outcome).classified = s.classified := by
  exact foldl_keeps State.classified (fun t tag => t.finish false c tag code detail) (fun _ _ => rfl) (s.ctx c).held s
@[simp] theorem State.answerHeld_forward (s : State) (c : RequesterId) (code : ResponseCode) (detail : ResponseDetail) (outcome : ControlOutcome) :
    (s.answerHeld c code detail outcome).forward = s.forward := by
  exact foldl_keeps State.forward (fun t tag => t.finish false c tag code detail) (fun _ _ => rfl) (s.ctx c).held s
@[simp] theorem State.answerHeld_ops (s : State) (c : RequesterId) (code : ResponseCode) (detail : ResponseDetail) (outcome : ControlOutcome) :
    (s.answerHeld c code detail outcome).ops = s.ops := by
  exact foldl_keeps State.ops (fun t tag => t.finish false c tag code detail) (fun _ _ => rfl) (s.ctx c).held s
@[simp] theorem State.answerHeld_reports (s : State) (c : RequesterId) (code : ResponseCode) (detail : ResponseDetail) (outcome : ControlOutcome) :
    (s.answerHeld c code detail outcome).reports = s.reports := by
  exact foldl_keeps State.reports (fun t tag => t.finish false c tag code detail) (fun _ _ => rfl) (s.ctx c).held s
@[simp] theorem State.answerHeld_journal (s : State) (c : RequesterId) (code : ResponseCode) (detail : ResponseDetail) (outcome : ControlOutcome) :
    (s.answerHeld c code detail outcome).journal = s.journal := by
  exact foldl_keeps State.journal (fun t tag => t.finish false c tag code detail) (fun _ _ => rfl) (s.ctx c).held s
@[simp] theorem State.answerHeld_header (s : State) (c : RequesterId) (code : ResponseCode) (detail : ResponseDetail) (outcome : ControlOutcome) :
    (s.answerHeld c code detail outcome).header = s.header := by
  exact foldl_keeps State.header (fun t tag => t.finish false c tag code detail) (fun _ _ => rfl) (s.ctx c).held s
@[simp] theorem State.answerHeld_engine (s : State) (c : RequesterId) (code : ResponseCode) (detail : ResponseDetail) (outcome : ControlOutcome) :
    (s.answerHeld c code detail outcome).engine = s.engine := by
  exact foldl_keeps State.engine (fun t tag => t.finish false c tag code detail) (fun _ _ => rfl) (s.ctx c).held s
@[simp] theorem State.answerHeld_rollbackQueue (s : State) (c : RequesterId) (code : ResponseCode) (detail : ResponseDetail) (outcome : ControlOutcome) :
    (s.answerHeld c code detail outcome).rollbackQueue = s.rollbackQueue := by
  exact foldl_keeps State.rollbackQueue (fun t tag => t.finish false c tag code detail) (fun _ _ => rfl) (s.ctx c).held s
@[simp] theorem State.answerHeld_drains (s : State) (c : RequesterId) (code : ResponseCode) (detail : ResponseDetail) (outcome : ControlOutcome) :
    (s.answerHeld c code detail outcome).drains = s.drains := by
  exact foldl_keeps State.drains (fun t tag => t.finish false c tag code detail) (fun _ _ => rfl) (s.ctx c).held s
@[simp] theorem State.answerHeld_link (s : State) (c : RequesterId) (code : ResponseCode) (detail : ResponseDetail) (outcome : ControlOutcome) :
    (s.answerHeld c code detail outcome).link = s.link := by
  exact foldl_keeps State.link (fun t tag => t.finish false c tag code detail) (fun _ _ => rfl) (s.ctx c).held s
@[simp] theorem State.answerHeld_pointer (s : State) (c : RequesterId) (code : ResponseCode) (detail : ResponseDetail) (outcome : ControlOutcome) :
    (s.answerHeld c code detail outcome).pointer = s.pointer := by
  exact foldl_keeps State.pointer (fun t tag => t.finish false c tag code detail) (fun _ _ => rfl) (s.ctx c).held s
@[simp] theorem State.answerHeld_issued (s : State) (c : RequesterId) (code : ResponseCode) (detail : ResponseDetail) (outcome : ControlOutcome) :
    (s.answerHeld c code detail outcome).issued = s.issued := by
  exact foldl_keeps State.issued (fun t tag => t.finish false c tag code detail) (fun _ _ => rfl) (s.ctx c).held s
@[simp] theorem State.answerHeld_key (s : State) (c : RequesterId) (code : ResponseCode) (detail : ResponseDetail) (outcome : ControlOutcome) :
    (s.answerHeld c code detail outcome).key = s.key := by
  exact foldl_keeps State.key (fun t tag => t.finish false c tag code detail) (fun _ _ => rfl) (s.ctx c).held s
@[simp] theorem State.answerHeld_recovery (s : State) (c : RequesterId) (code : ResponseCode) (detail : ResponseDetail) (outcome : ControlOutcome) :
    (s.answerHeld c code detail outcome).recovery = s.recovery := by
  exact foldl_keeps State.recovery (fun t tag => t.finish false c tag code detail) (fun _ _ => rfl) (s.ctx c).held s
@[simp] theorem State.answerHeld_startupUndone (s : State) (c : RequesterId) (code : ResponseCode) (detail : ResponseDetail) (outcome : ControlOutcome) :
    (s.answerHeld c code detail outcome).startupUndone = s.startupUndone := by
  exact foldl_keeps State.startupUndone (fun t tag => t.finish false c tag code detail) (fun _ _ => rfl) (s.ctx c).held s
@[simp] theorem State.answerHeld_startupFormatted (s : State) (c : RequesterId) (code : ResponseCode) (detail : ResponseDetail) (outcome : ControlOutcome) :
    (s.answerHeld c code detail outcome).startupFormatted = s.startupFormatted := by
  exact foldl_keeps State.startupFormatted (fun t tag => t.finish false c tag code detail) (fun _ _ => rfl) (s.ctx c).held s
@[simp] theorem State.answerHeld_draws (s : State) (c : RequesterId) (code : ResponseCode) (detail : ResponseDetail) (outcome : ControlOutcome) :
    (s.answerHeld c code detail outcome).draws = s.draws := by
  exact foldl_keeps State.draws (fun t tag => t.finish false c tag code detail) (fun _ _ => rfl) (s.ctx c).held s
@[simp] theorem State.answerHeld_pending (s : State) (c : RequesterId) (code : ResponseCode) (detail : ResponseDetail) (outcome : ControlOutcome) :
    (s.answerHeld c code detail outcome).pending = s.pending := by
  exact foldl_keeps State.pending (fun t tag => t.finish false c tag code detail) (fun _ _ => rfl) (s.ctx c).held s

/-! ## removeHold: contexts, holds only -/

@[simp] theorem State.removeHold_pins (s : State) (l : LineAddr) :
    (s.removeHold l).pins = s.pins := by
  unfold State.removeHold; split <;> rfl
@[simp] theorem State.removeHold_timebase (s : State) (l : LineAddr) :
    (s.removeHold l).timebase = s.timebase := by
  unfold State.removeHold; split <;> rfl
@[simp] theorem State.removeHold_device (s : State) (l : LineAddr) :
    (s.removeHold l).device = s.device := by
  unfold State.removeHold; split <;> rfl
@[simp] theorem State.removeHold_loader (s : State) (l : LineAddr) :
    (s.removeHold l).loader = s.loader := by
  unfold State.removeHold; split <;> rfl
@[simp] theorem State.removeHold_openCounter (s : State) (l : LineAddr) :
    (s.removeHold l).openCounter = s.openCounter := by
  unfold State.removeHold; split <;> rfl
@[simp] theorem State.removeHold_outstanding (s : State) (l : LineAddr) :
    (s.removeHold l).outstanding = s.outstanding := by
  unfold State.removeHold; split <;> rfl
@[simp] theorem State.removeHold_classified (s : State) (l : LineAddr) :
    (s.removeHold l).classified = s.classified := by
  unfold State.removeHold; split <;> rfl
@[simp] theorem State.removeHold_forward (s : State) (l : LineAddr) :
    (s.removeHold l).forward = s.forward := by
  unfold State.removeHold; split <;> rfl
@[simp] theorem State.removeHold_ops (s : State) (l : LineAddr) :
    (s.removeHold l).ops = s.ops := by
  unfold State.removeHold; split <;> rfl
@[simp] theorem State.removeHold_reports (s : State) (l : LineAddr) :
    (s.removeHold l).reports = s.reports := by
  unfold State.removeHold; split <;> rfl
@[simp] theorem State.removeHold_journal (s : State) (l : LineAddr) :
    (s.removeHold l).journal = s.journal := by
  unfold State.removeHold; split <;> rfl
@[simp] theorem State.removeHold_header (s : State) (l : LineAddr) :
    (s.removeHold l).header = s.header := by
  unfold State.removeHold; split <;> rfl
@[simp] theorem State.removeHold_engine (s : State) (l : LineAddr) :
    (s.removeHold l).engine = s.engine := by
  unfold State.removeHold; split <;> rfl
@[simp] theorem State.removeHold_rollbackQueue (s : State) (l : LineAddr) :
    (s.removeHold l).rollbackQueue = s.rollbackQueue := by
  unfold State.removeHold; split <;> rfl
@[simp] theorem State.removeHold_drains (s : State) (l : LineAddr) :
    (s.removeHold l).drains = s.drains := by
  unfold State.removeHold; split <;> rfl
@[simp] theorem State.removeHold_link (s : State) (l : LineAddr) :
    (s.removeHold l).link = s.link := by
  unfold State.removeHold; split <;> rfl
@[simp] theorem State.removeHold_pointer (s : State) (l : LineAddr) :
    (s.removeHold l).pointer = s.pointer := by
  unfold State.removeHold; split <;> rfl
@[simp] theorem State.removeHold_issued (s : State) (l : LineAddr) :
    (s.removeHold l).issued = s.issued := by
  unfold State.removeHold; split <;> rfl
@[simp] theorem State.removeHold_key (s : State) (l : LineAddr) :
    (s.removeHold l).key = s.key := by
  unfold State.removeHold; split <;> rfl
@[simp] theorem State.removeHold_recovery (s : State) (l : LineAddr) :
    (s.removeHold l).recovery = s.recovery := by
  unfold State.removeHold; split <;> rfl
@[simp] theorem State.removeHold_startupUndone (s : State) (l : LineAddr) :
    (s.removeHold l).startupUndone = s.startupUndone := by
  unfold State.removeHold; split <;> rfl
@[simp] theorem State.removeHold_startupFormatted (s : State) (l : LineAddr) :
    (s.removeHold l).startupFormatted = s.startupFormatted := by
  unfold State.removeHold; split <;> rfl
@[simp] theorem State.removeHold_sent (s : State) (l : LineAddr) :
    (s.removeHold l).sent = s.sent := by
  unfold State.removeHold; split <;> rfl
@[simp] theorem State.removeHold_draws (s : State) (l : LineAddr) :
    (s.removeHold l).draws = s.draws := by
  unfold State.removeHold; split <;> rfl
@[simp] theorem State.removeHold_pending (s : State) (l : LineAddr) :
    (s.removeHold l).pending = s.pending := by
  unfold State.removeHold; split <;> rfl

/-! ## cancelOps: contexts, holds, ops, outstanding, sent only -/

@[simp] theorem State.cancelOps_pins (s : State) (who : Operation → Bool) :
    (s.cancelOps who).pins = s.pins := by
  unfold State.cancelOps; dsimp only
  rw [foldl_keeps State.pins (fun t o => (t.removeHold o.line).endOp o .error .aborted) (fun t o => by simp)]
@[simp] theorem State.cancelOps_timebase (s : State) (who : Operation → Bool) :
    (s.cancelOps who).timebase = s.timebase := by
  unfold State.cancelOps; dsimp only
  rw [foldl_keeps State.timebase (fun t o => (t.removeHold o.line).endOp o .error .aborted) (fun t o => by simp)]
@[simp] theorem State.cancelOps_device (s : State) (who : Operation → Bool) :
    (s.cancelOps who).device = s.device := by
  unfold State.cancelOps; dsimp only
  rw [foldl_keeps State.device (fun t o => (t.removeHold o.line).endOp o .error .aborted) (fun t o => by simp)]
@[simp] theorem State.cancelOps_loader (s : State) (who : Operation → Bool) :
    (s.cancelOps who).loader = s.loader := by
  unfold State.cancelOps; dsimp only
  rw [foldl_keeps State.loader (fun t o => (t.removeHold o.line).endOp o .error .aborted) (fun t o => by simp)]
@[simp] theorem State.cancelOps_openCounter (s : State) (who : Operation → Bool) :
    (s.cancelOps who).openCounter = s.openCounter := by
  unfold State.cancelOps; dsimp only
  rw [foldl_keeps State.openCounter (fun t o => (t.removeHold o.line).endOp o .error .aborted) (fun t o => by simp)]
@[simp] theorem State.cancelOps_classified (s : State) (who : Operation → Bool) :
    (s.cancelOps who).classified = s.classified := by
  unfold State.cancelOps; dsimp only
  rw [foldl_keeps State.classified (fun t o => (t.removeHold o.line).endOp o .error .aborted) (fun t o => by simp)]
@[simp] theorem State.cancelOps_forward (s : State) (who : Operation → Bool) :
    (s.cancelOps who).forward = s.forward := by
  unfold State.cancelOps; dsimp only
  rw [foldl_keeps State.forward (fun t o => (t.removeHold o.line).endOp o .error .aborted) (fun t o => by simp)]
@[simp] theorem State.cancelOps_reports (s : State) (who : Operation → Bool) :
    (s.cancelOps who).reports = s.reports := by
  unfold State.cancelOps; dsimp only
  rw [foldl_keeps State.reports (fun t o => (t.removeHold o.line).endOp o .error .aborted) (fun t o => by simp)]
@[simp] theorem State.cancelOps_journal (s : State) (who : Operation → Bool) :
    (s.cancelOps who).journal = s.journal := by
  unfold State.cancelOps; dsimp only
  rw [foldl_keeps State.journal (fun t o => (t.removeHold o.line).endOp o .error .aborted) (fun t o => by simp)]
@[simp] theorem State.cancelOps_header (s : State) (who : Operation → Bool) :
    (s.cancelOps who).header = s.header := by
  unfold State.cancelOps; dsimp only
  rw [foldl_keeps State.header (fun t o => (t.removeHold o.line).endOp o .error .aborted) (fun t o => by simp)]
@[simp] theorem State.cancelOps_engine (s : State) (who : Operation → Bool) :
    (s.cancelOps who).engine = s.engine := by
  unfold State.cancelOps; dsimp only
  rw [foldl_keeps State.engine (fun t o => (t.removeHold o.line).endOp o .error .aborted) (fun t o => by simp)]
@[simp] theorem State.cancelOps_rollbackQueue (s : State) (who : Operation → Bool) :
    (s.cancelOps who).rollbackQueue = s.rollbackQueue := by
  unfold State.cancelOps; dsimp only
  rw [foldl_keeps State.rollbackQueue (fun t o => (t.removeHold o.line).endOp o .error .aborted) (fun t o => by simp)]
@[simp] theorem State.cancelOps_drains (s : State) (who : Operation → Bool) :
    (s.cancelOps who).drains = s.drains := by
  unfold State.cancelOps; dsimp only
  rw [foldl_keeps State.drains (fun t o => (t.removeHold o.line).endOp o .error .aborted) (fun t o => by simp)]
@[simp] theorem State.cancelOps_link (s : State) (who : Operation → Bool) :
    (s.cancelOps who).link = s.link := by
  unfold State.cancelOps; dsimp only
  rw [foldl_keeps State.link (fun t o => (t.removeHold o.line).endOp o .error .aborted) (fun t o => by simp)]
@[simp] theorem State.cancelOps_pointer (s : State) (who : Operation → Bool) :
    (s.cancelOps who).pointer = s.pointer := by
  unfold State.cancelOps; dsimp only
  rw [foldl_keeps State.pointer (fun t o => (t.removeHold o.line).endOp o .error .aborted) (fun t o => by simp)]
@[simp] theorem State.cancelOps_issued (s : State) (who : Operation → Bool) :
    (s.cancelOps who).issued = s.issued := by
  unfold State.cancelOps; dsimp only
  rw [foldl_keeps State.issued (fun t o => (t.removeHold o.line).endOp o .error .aborted) (fun t o => by simp)]
@[simp] theorem State.cancelOps_key (s : State) (who : Operation → Bool) :
    (s.cancelOps who).key = s.key := by
  unfold State.cancelOps; dsimp only
  rw [foldl_keeps State.key (fun t o => (t.removeHold o.line).endOp o .error .aborted) (fun t o => by simp)]
@[simp] theorem State.cancelOps_recovery (s : State) (who : Operation → Bool) :
    (s.cancelOps who).recovery = s.recovery := by
  unfold State.cancelOps; dsimp only
  rw [foldl_keeps State.recovery (fun t o => (t.removeHold o.line).endOp o .error .aborted) (fun t o => by simp)]
@[simp] theorem State.cancelOps_startupUndone (s : State) (who : Operation → Bool) :
    (s.cancelOps who).startupUndone = s.startupUndone := by
  unfold State.cancelOps; dsimp only
  rw [foldl_keeps State.startupUndone (fun t o => (t.removeHold o.line).endOp o .error .aborted) (fun t o => by simp)]
@[simp] theorem State.cancelOps_startupFormatted (s : State) (who : Operation → Bool) :
    (s.cancelOps who).startupFormatted = s.startupFormatted := by
  unfold State.cancelOps; dsimp only
  rw [foldl_keeps State.startupFormatted (fun t o => (t.removeHold o.line).endOp o .error .aborted) (fun t o => by simp)]
@[simp] theorem State.cancelOps_draws (s : State) (who : Operation → Bool) :
    (s.cancelOps who).draws = s.draws := by
  unfold State.cancelOps; dsimp only
  rw [foldl_keeps State.draws (fun t o => (t.removeHold o.line).endOp o .error .aborted) (fun t o => by simp)]
@[simp] theorem State.cancelOps_pending (s : State) (who : Operation → Bool) :
    (s.cancelOps who).pending = s.pending := by
  unfold State.cancelOps; dsimp only
  rw [foldl_keeps State.pending (fun t o => (t.removeHold o.line).endOp o .error .aborted) (fun t o => by simp)]

/-! ## noteDrain: drains only -/

@[simp] theorem State.noteDrain_pins (s : State) (c : RequesterId) :
    (s.noteDrain c).pins = s.pins := by
  unfold State.noteDrain; split <;> rfl
@[simp] theorem State.noteDrain_timebase (s : State) (c : RequesterId) :
    (s.noteDrain c).timebase = s.timebase := by
  unfold State.noteDrain; split <;> rfl
@[simp] theorem State.noteDrain_device (s : State) (c : RequesterId) :
    (s.noteDrain c).device = s.device := by
  unfold State.noteDrain; split <;> rfl
@[simp] theorem State.noteDrain_loader (s : State) (c : RequesterId) :
    (s.noteDrain c).loader = s.loader := by
  unfold State.noteDrain; split <;> rfl
@[simp] theorem State.noteDrain_openCounter (s : State) (c : RequesterId) :
    (s.noteDrain c).openCounter = s.openCounter := by
  unfold State.noteDrain; split <;> rfl
@[simp] theorem State.noteDrain_contexts (s : State) (c : RequesterId) :
    (s.noteDrain c).contexts = s.contexts := by
  unfold State.noteDrain; split <;> rfl
@[simp] theorem State.noteDrain_holds (s : State) (c : RequesterId) :
    (s.noteDrain c).holds = s.holds := by
  unfold State.noteDrain; split <;> rfl
@[simp] theorem State.noteDrain_outstanding (s : State) (c : RequesterId) :
    (s.noteDrain c).outstanding = s.outstanding := by
  unfold State.noteDrain; split <;> rfl
@[simp] theorem State.noteDrain_classified (s : State) (c : RequesterId) :
    (s.noteDrain c).classified = s.classified := by
  unfold State.noteDrain; split <;> rfl
@[simp] theorem State.noteDrain_forward (s : State) (c : RequesterId) :
    (s.noteDrain c).forward = s.forward := by
  unfold State.noteDrain; split <;> rfl
@[simp] theorem State.noteDrain_ops (s : State) (c : RequesterId) :
    (s.noteDrain c).ops = s.ops := by
  unfold State.noteDrain; split <;> rfl
@[simp] theorem State.noteDrain_reports (s : State) (c : RequesterId) :
    (s.noteDrain c).reports = s.reports := by
  unfold State.noteDrain; split <;> rfl
@[simp] theorem State.noteDrain_journal (s : State) (c : RequesterId) :
    (s.noteDrain c).journal = s.journal := by
  unfold State.noteDrain; split <;> rfl
@[simp] theorem State.noteDrain_header (s : State) (c : RequesterId) :
    (s.noteDrain c).header = s.header := by
  unfold State.noteDrain; split <;> rfl
@[simp] theorem State.noteDrain_engine (s : State) (c : RequesterId) :
    (s.noteDrain c).engine = s.engine := by
  unfold State.noteDrain; split <;> rfl
@[simp] theorem State.noteDrain_rollbackQueue (s : State) (c : RequesterId) :
    (s.noteDrain c).rollbackQueue = s.rollbackQueue := by
  unfold State.noteDrain; split <;> rfl
@[simp] theorem State.noteDrain_link (s : State) (c : RequesterId) :
    (s.noteDrain c).link = s.link := by
  unfold State.noteDrain; split <;> rfl
@[simp] theorem State.noteDrain_pointer (s : State) (c : RequesterId) :
    (s.noteDrain c).pointer = s.pointer := by
  unfold State.noteDrain; split <;> rfl
@[simp] theorem State.noteDrain_issued (s : State) (c : RequesterId) :
    (s.noteDrain c).issued = s.issued := by
  unfold State.noteDrain; split <;> rfl
@[simp] theorem State.noteDrain_key (s : State) (c : RequesterId) :
    (s.noteDrain c).key = s.key := by
  unfold State.noteDrain; split <;> rfl
@[simp] theorem State.noteDrain_recovery (s : State) (c : RequesterId) :
    (s.noteDrain c).recovery = s.recovery := by
  unfold State.noteDrain; split <;> rfl
@[simp] theorem State.noteDrain_startupUndone (s : State) (c : RequesterId) :
    (s.noteDrain c).startupUndone = s.startupUndone := by
  unfold State.noteDrain; split <;> rfl
@[simp] theorem State.noteDrain_startupFormatted (s : State) (c : RequesterId) :
    (s.noteDrain c).startupFormatted = s.startupFormatted := by
  unfold State.noteDrain; split <;> rfl
@[simp] theorem State.noteDrain_sent (s : State) (c : RequesterId) :
    (s.noteDrain c).sent = s.sent := by
  unfold State.noteDrain; split <;> rfl
@[simp] theorem State.noteDrain_draws (s : State) (c : RequesterId) :
    (s.noteDrain c).draws = s.draws := by
  unfold State.noteDrain; split <;> rfl
@[simp] theorem State.noteDrain_pending (s : State) (c : RequesterId) :
    (s.noteDrain c).pending = s.pending := by
  unfold State.noteDrain; split <;> rfl

/-! ## noteDrains: drains only -/

@[simp] theorem State.noteDrains_pins (s : State) :
    (s.noteDrains).pins = s.pins := by
  unfold State.noteDrains; dsimp only; split <;> rfl
@[simp] theorem State.noteDrains_timebase (s : State) :
    (s.noteDrains).timebase = s.timebase := by
  unfold State.noteDrains; dsimp only; split <;> rfl
@[simp] theorem State.noteDrains_device (s : State) :
    (s.noteDrains).device = s.device := by
  unfold State.noteDrains; dsimp only; split <;> rfl
@[simp] theorem State.noteDrains_loader (s : State) :
    (s.noteDrains).loader = s.loader := by
  unfold State.noteDrains; dsimp only; split <;> rfl
@[simp] theorem State.noteDrains_openCounter (s : State) :
    (s.noteDrains).openCounter = s.openCounter := by
  unfold State.noteDrains; dsimp only; split <;> rfl
@[simp] theorem State.noteDrains_contexts (s : State) :
    (s.noteDrains).contexts = s.contexts := by
  unfold State.noteDrains; dsimp only; split <;> rfl
@[simp] theorem State.noteDrains_holds (s : State) :
    (s.noteDrains).holds = s.holds := by
  unfold State.noteDrains; dsimp only; split <;> rfl
@[simp] theorem State.noteDrains_outstanding (s : State) :
    (s.noteDrains).outstanding = s.outstanding := by
  unfold State.noteDrains; dsimp only; split <;> rfl
@[simp] theorem State.noteDrains_classified (s : State) :
    (s.noteDrains).classified = s.classified := by
  unfold State.noteDrains; dsimp only; split <;> rfl
@[simp] theorem State.noteDrains_forward (s : State) :
    (s.noteDrains).forward = s.forward := by
  unfold State.noteDrains; dsimp only; split <;> rfl
@[simp] theorem State.noteDrains_ops (s : State) :
    (s.noteDrains).ops = s.ops := by
  unfold State.noteDrains; dsimp only; split <;> rfl
@[simp] theorem State.noteDrains_reports (s : State) :
    (s.noteDrains).reports = s.reports := by
  unfold State.noteDrains; dsimp only; split <;> rfl
@[simp] theorem State.noteDrains_journal (s : State) :
    (s.noteDrains).journal = s.journal := by
  unfold State.noteDrains; dsimp only; split <;> rfl
@[simp] theorem State.noteDrains_header (s : State) :
    (s.noteDrains).header = s.header := by
  unfold State.noteDrains; dsimp only; split <;> rfl
@[simp] theorem State.noteDrains_engine (s : State) :
    (s.noteDrains).engine = s.engine := by
  unfold State.noteDrains; dsimp only; split <;> rfl
@[simp] theorem State.noteDrains_rollbackQueue (s : State) :
    (s.noteDrains).rollbackQueue = s.rollbackQueue := by
  unfold State.noteDrains; dsimp only; split <;> rfl
@[simp] theorem State.noteDrains_link (s : State) :
    (s.noteDrains).link = s.link := by
  unfold State.noteDrains; dsimp only; split <;> rfl
@[simp] theorem State.noteDrains_pointer (s : State) :
    (s.noteDrains).pointer = s.pointer := by
  unfold State.noteDrains; dsimp only; split <;> rfl
@[simp] theorem State.noteDrains_issued (s : State) :
    (s.noteDrains).issued = s.issued := by
  unfold State.noteDrains; dsimp only; split <;> rfl
@[simp] theorem State.noteDrains_key (s : State) :
    (s.noteDrains).key = s.key := by
  unfold State.noteDrains; dsimp only; split <;> rfl
@[simp] theorem State.noteDrains_recovery (s : State) :
    (s.noteDrains).recovery = s.recovery := by
  unfold State.noteDrains; dsimp only; split <;> rfl
@[simp] theorem State.noteDrains_startupUndone (s : State) :
    (s.noteDrains).startupUndone = s.startupUndone := by
  unfold State.noteDrains; dsimp only; split <;> rfl
@[simp] theorem State.noteDrains_startupFormatted (s : State) :
    (s.noteDrains).startupFormatted = s.startupFormatted := by
  unfold State.noteDrains; dsimp only; split <;> rfl
@[simp] theorem State.noteDrains_sent (s : State) :
    (s.noteDrains).sent = s.sent := by
  unfold State.noteDrains; dsimp only; split <;> rfl
@[simp] theorem State.noteDrains_draws (s : State) :
    (s.noteDrains).draws = s.draws := by
  unfold State.noteDrains; dsimp only; split <;> rfl
@[simp] theorem State.noteDrains_pending (s : State) :
    (s.noteDrains).pending = s.pending := by
  unfold State.noteDrains; dsimp only; split <;> rfl

/-! ## retireOp: contexts, ops, outstanding, sent, drains only -/

@[simp] theorem State.retireOp_pins (s : State) (o : Operation) (code : ResponseCode) (detail : ResponseDetail) :
    (s.retireOp o code detail).pins = s.pins := by
  unfold State.retireOp; simp
@[simp] theorem State.retireOp_timebase (s : State) (o : Operation) (code : ResponseCode) (detail : ResponseDetail) :
    (s.retireOp o code detail).timebase = s.timebase := by
  unfold State.retireOp; simp
@[simp] theorem State.retireOp_device (s : State) (o : Operation) (code : ResponseCode) (detail : ResponseDetail) :
    (s.retireOp o code detail).device = s.device := by
  unfold State.retireOp; simp
@[simp] theorem State.retireOp_loader (s : State) (o : Operation) (code : ResponseCode) (detail : ResponseDetail) :
    (s.retireOp o code detail).loader = s.loader := by
  unfold State.retireOp; simp
@[simp] theorem State.retireOp_openCounter (s : State) (o : Operation) (code : ResponseCode) (detail : ResponseDetail) :
    (s.retireOp o code detail).openCounter = s.openCounter := by
  unfold State.retireOp; simp
@[simp] theorem State.retireOp_holds (s : State) (o : Operation) (code : ResponseCode) (detail : ResponseDetail) :
    (s.retireOp o code detail).holds = s.holds := by
  unfold State.retireOp; simp
@[simp] theorem State.retireOp_classified (s : State) (o : Operation) (code : ResponseCode) (detail : ResponseDetail) :
    (s.retireOp o code detail).classified = s.classified := by
  unfold State.retireOp; simp
@[simp] theorem State.retireOp_forward (s : State) (o : Operation) (code : ResponseCode) (detail : ResponseDetail) :
    (s.retireOp o code detail).forward = s.forward := by
  unfold State.retireOp; simp
@[simp] theorem State.retireOp_reports (s : State) (o : Operation) (code : ResponseCode) (detail : ResponseDetail) :
    (s.retireOp o code detail).reports = s.reports := by
  unfold State.retireOp; simp
@[simp] theorem State.retireOp_journal (s : State) (o : Operation) (code : ResponseCode) (detail : ResponseDetail) :
    (s.retireOp o code detail).journal = s.journal := by
  unfold State.retireOp; simp
@[simp] theorem State.retireOp_header (s : State) (o : Operation) (code : ResponseCode) (detail : ResponseDetail) :
    (s.retireOp o code detail).header = s.header := by
  unfold State.retireOp; simp
@[simp] theorem State.retireOp_engine (s : State) (o : Operation) (code : ResponseCode) (detail : ResponseDetail) :
    (s.retireOp o code detail).engine = s.engine := by
  unfold State.retireOp; simp
@[simp] theorem State.retireOp_rollbackQueue (s : State) (o : Operation) (code : ResponseCode) (detail : ResponseDetail) :
    (s.retireOp o code detail).rollbackQueue = s.rollbackQueue := by
  unfold State.retireOp; simp
@[simp] theorem State.retireOp_link (s : State) (o : Operation) (code : ResponseCode) (detail : ResponseDetail) :
    (s.retireOp o code detail).link = s.link := by
  unfold State.retireOp; simp
@[simp] theorem State.retireOp_pointer (s : State) (o : Operation) (code : ResponseCode) (detail : ResponseDetail) :
    (s.retireOp o code detail).pointer = s.pointer := by
  unfold State.retireOp; simp
@[simp] theorem State.retireOp_issued (s : State) (o : Operation) (code : ResponseCode) (detail : ResponseDetail) :
    (s.retireOp o code detail).issued = s.issued := by
  unfold State.retireOp; simp
@[simp] theorem State.retireOp_key (s : State) (o : Operation) (code : ResponseCode) (detail : ResponseDetail) :
    (s.retireOp o code detail).key = s.key := by
  unfold State.retireOp; simp
@[simp] theorem State.retireOp_recovery (s : State) (o : Operation) (code : ResponseCode) (detail : ResponseDetail) :
    (s.retireOp o code detail).recovery = s.recovery := by
  unfold State.retireOp; simp
@[simp] theorem State.retireOp_startupUndone (s : State) (o : Operation) (code : ResponseCode) (detail : ResponseDetail) :
    (s.retireOp o code detail).startupUndone = s.startupUndone := by
  unfold State.retireOp; simp
@[simp] theorem State.retireOp_startupFormatted (s : State) (o : Operation) (code : ResponseCode) (detail : ResponseDetail) :
    (s.retireOp o code detail).startupFormatted = s.startupFormatted := by
  unfold State.retireOp; simp
@[simp] theorem State.retireOp_draws (s : State) (o : Operation) (code : ResponseCode) (detail : ResponseDetail) :
    (s.retireOp o code detail).draws = s.draws := by
  unfold State.retireOp; simp
@[simp] theorem State.retireOp_pending (s : State) (o : Operation) (code : ResponseCode) (detail : ResponseDetail) :
    (s.retireOp o code detail).pending = s.pending := by
  unfold State.retireOp; simp

/-! ## abortRequest: contexts, holds, ops, outstanding, sent, drains only -/

@[simp] theorem State.abortRequest_pins (s : State) (c : RequesterId) (reason : AbortReason) :
    (s.abortRequest c reason).pins = s.pins := by
  unfold State.abortRequest; split <;> simp
@[simp] theorem State.abortRequest_timebase (s : State) (c : RequesterId) (reason : AbortReason) :
    (s.abortRequest c reason).timebase = s.timebase := by
  unfold State.abortRequest; split <;> simp
@[simp] theorem State.abortRequest_device (s : State) (c : RequesterId) (reason : AbortReason) :
    (s.abortRequest c reason).device = s.device := by
  unfold State.abortRequest; split <;> simp
@[simp] theorem State.abortRequest_loader (s : State) (c : RequesterId) (reason : AbortReason) :
    (s.abortRequest c reason).loader = s.loader := by
  unfold State.abortRequest; split <;> simp
@[simp] theorem State.abortRequest_openCounter (s : State) (c : RequesterId) (reason : AbortReason) :
    (s.abortRequest c reason).openCounter = s.openCounter := by
  unfold State.abortRequest; split <;> simp
@[simp] theorem State.abortRequest_classified (s : State) (c : RequesterId) (reason : AbortReason) :
    (s.abortRequest c reason).classified = s.classified := by
  unfold State.abortRequest; split <;> simp
@[simp] theorem State.abortRequest_forward (s : State) (c : RequesterId) (reason : AbortReason) :
    (s.abortRequest c reason).forward = s.forward := by
  unfold State.abortRequest; split <;> simp
@[simp] theorem State.abortRequest_reports (s : State) (c : RequesterId) (reason : AbortReason) :
    (s.abortRequest c reason).reports = s.reports := by
  unfold State.abortRequest; split <;> simp
@[simp] theorem State.abortRequest_journal (s : State) (c : RequesterId) (reason : AbortReason) :
    (s.abortRequest c reason).journal = s.journal := by
  unfold State.abortRequest; split <;> simp
@[simp] theorem State.abortRequest_header (s : State) (c : RequesterId) (reason : AbortReason) :
    (s.abortRequest c reason).header = s.header := by
  unfold State.abortRequest; split <;> simp
@[simp] theorem State.abortRequest_engine (s : State) (c : RequesterId) (reason : AbortReason) :
    (s.abortRequest c reason).engine = s.engine := by
  unfold State.abortRequest; split <;> simp
@[simp] theorem State.abortRequest_rollbackQueue (s : State) (c : RequesterId) (reason : AbortReason) :
    (s.abortRequest c reason).rollbackQueue = s.rollbackQueue := by
  unfold State.abortRequest; split <;> simp
@[simp] theorem State.abortRequest_link (s : State) (c : RequesterId) (reason : AbortReason) :
    (s.abortRequest c reason).link = s.link := by
  unfold State.abortRequest; split <;> simp
@[simp] theorem State.abortRequest_pointer (s : State) (c : RequesterId) (reason : AbortReason) :
    (s.abortRequest c reason).pointer = s.pointer := by
  unfold State.abortRequest; split <;> simp
@[simp] theorem State.abortRequest_issued (s : State) (c : RequesterId) (reason : AbortReason) :
    (s.abortRequest c reason).issued = s.issued := by
  unfold State.abortRequest; split <;> simp
@[simp] theorem State.abortRequest_key (s : State) (c : RequesterId) (reason : AbortReason) :
    (s.abortRequest c reason).key = s.key := by
  unfold State.abortRequest; split <;> simp
@[simp] theorem State.abortRequest_recovery (s : State) (c : RequesterId) (reason : AbortReason) :
    (s.abortRequest c reason).recovery = s.recovery := by
  unfold State.abortRequest; split <;> simp
@[simp] theorem State.abortRequest_startupUndone (s : State) (c : RequesterId) (reason : AbortReason) :
    (s.abortRequest c reason).startupUndone = s.startupUndone := by
  unfold State.abortRequest; split <;> simp
@[simp] theorem State.abortRequest_startupFormatted (s : State) (c : RequesterId) (reason : AbortReason) :
    (s.abortRequest c reason).startupFormatted = s.startupFormatted := by
  unfold State.abortRequest; split <;> simp
@[simp] theorem State.abortRequest_draws (s : State) (c : RequesterId) (reason : AbortReason) :
    (s.abortRequest c reason).draws = s.draws := by
  unfold State.abortRequest; split <;> simp
@[simp] theorem State.abortRequest_pending (s : State) (c : RequesterId) (reason : AbortReason) :
    (s.abortRequest c reason).pending = s.pending := by
  unfold State.abortRequest; split <;> simp

/-! ## failOp: contexts, holds, ops, outstanding, sent, drains only -/

@[simp] theorem State.failOp_pins (s : State) (o : Operation) (detail : ResponseDetail) (reason : AbortReason) :
    (s.failOp o detail reason).pins = s.pins := by
  unfold State.failOp; simp
@[simp] theorem State.failOp_timebase (s : State) (o : Operation) (detail : ResponseDetail) (reason : AbortReason) :
    (s.failOp o detail reason).timebase = s.timebase := by
  unfold State.failOp; simp
@[simp] theorem State.failOp_device (s : State) (o : Operation) (detail : ResponseDetail) (reason : AbortReason) :
    (s.failOp o detail reason).device = s.device := by
  unfold State.failOp; simp
@[simp] theorem State.failOp_loader (s : State) (o : Operation) (detail : ResponseDetail) (reason : AbortReason) :
    (s.failOp o detail reason).loader = s.loader := by
  unfold State.failOp; simp
@[simp] theorem State.failOp_openCounter (s : State) (o : Operation) (detail : ResponseDetail) (reason : AbortReason) :
    (s.failOp o detail reason).openCounter = s.openCounter := by
  unfold State.failOp; simp
@[simp] theorem State.failOp_classified (s : State) (o : Operation) (detail : ResponseDetail) (reason : AbortReason) :
    (s.failOp o detail reason).classified = s.classified := by
  unfold State.failOp; simp
@[simp] theorem State.failOp_forward (s : State) (o : Operation) (detail : ResponseDetail) (reason : AbortReason) :
    (s.failOp o detail reason).forward = s.forward := by
  unfold State.failOp; simp
@[simp] theorem State.failOp_reports (s : State) (o : Operation) (detail : ResponseDetail) (reason : AbortReason) :
    (s.failOp o detail reason).reports = s.reports := by
  unfold State.failOp; simp
@[simp] theorem State.failOp_journal (s : State) (o : Operation) (detail : ResponseDetail) (reason : AbortReason) :
    (s.failOp o detail reason).journal = s.journal := by
  unfold State.failOp; simp
@[simp] theorem State.failOp_header (s : State) (o : Operation) (detail : ResponseDetail) (reason : AbortReason) :
    (s.failOp o detail reason).header = s.header := by
  unfold State.failOp; simp
@[simp] theorem State.failOp_engine (s : State) (o : Operation) (detail : ResponseDetail) (reason : AbortReason) :
    (s.failOp o detail reason).engine = s.engine := by
  unfold State.failOp; simp
@[simp] theorem State.failOp_rollbackQueue (s : State) (o : Operation) (detail : ResponseDetail) (reason : AbortReason) :
    (s.failOp o detail reason).rollbackQueue = s.rollbackQueue := by
  unfold State.failOp; simp
@[simp] theorem State.failOp_link (s : State) (o : Operation) (detail : ResponseDetail) (reason : AbortReason) :
    (s.failOp o detail reason).link = s.link := by
  unfold State.failOp; simp
@[simp] theorem State.failOp_pointer (s : State) (o : Operation) (detail : ResponseDetail) (reason : AbortReason) :
    (s.failOp o detail reason).pointer = s.pointer := by
  unfold State.failOp; simp
@[simp] theorem State.failOp_issued (s : State) (o : Operation) (detail : ResponseDetail) (reason : AbortReason) :
    (s.failOp o detail reason).issued = s.issued := by
  unfold State.failOp; simp
@[simp] theorem State.failOp_key (s : State) (o : Operation) (detail : ResponseDetail) (reason : AbortReason) :
    (s.failOp o detail reason).key = s.key := by
  unfold State.failOp; simp
@[simp] theorem State.failOp_recovery (s : State) (o : Operation) (detail : ResponseDetail) (reason : AbortReason) :
    (s.failOp o detail reason).recovery = s.recovery := by
  unfold State.failOp; simp
@[simp] theorem State.failOp_startupUndone (s : State) (o : Operation) (detail : ResponseDetail) (reason : AbortReason) :
    (s.failOp o detail reason).startupUndone = s.startupUndone := by
  unfold State.failOp; simp
@[simp] theorem State.failOp_startupFormatted (s : State) (o : Operation) (detail : ResponseDetail) (reason : AbortReason) :
    (s.failOp o detail reason).startupFormatted = s.startupFormatted := by
  unfold State.failOp; simp
@[simp] theorem State.failOp_draws (s : State) (o : Operation) (detail : ResponseDetail) (reason : AbortReason) :
    (s.failOp o detail reason).draws = s.draws := by
  unfold State.failOp; simp
@[simp] theorem State.failOp_pending (s : State) (o : Operation) (detail : ResponseDetail) (reason : AbortReason) :
    (s.failOp o detail reason).pending = s.pending := by
  unfold State.failOp; simp

/-! ## reevaluateTail: header only -/

@[simp] theorem State.reevaluateTail_pins (s : State) :
    (s.reevaluateTail).pins = s.pins := by
  unfold State.reevaluateTail; dsimp only; split <;> rfl
@[simp] theorem State.reevaluateTail_timebase (s : State) :
    (s.reevaluateTail).timebase = s.timebase := by
  unfold State.reevaluateTail; dsimp only; split <;> rfl
@[simp] theorem State.reevaluateTail_device (s : State) :
    (s.reevaluateTail).device = s.device := by
  unfold State.reevaluateTail; dsimp only; split <;> rfl
@[simp] theorem State.reevaluateTail_loader (s : State) :
    (s.reevaluateTail).loader = s.loader := by
  unfold State.reevaluateTail; dsimp only; split <;> rfl
@[simp] theorem State.reevaluateTail_openCounter (s : State) :
    (s.reevaluateTail).openCounter = s.openCounter := by
  unfold State.reevaluateTail; dsimp only; split <;> rfl
@[simp] theorem State.reevaluateTail_contexts (s : State) :
    (s.reevaluateTail).contexts = s.contexts := by
  unfold State.reevaluateTail; dsimp only; split <;> rfl
@[simp] theorem State.reevaluateTail_holds (s : State) :
    (s.reevaluateTail).holds = s.holds := by
  unfold State.reevaluateTail; dsimp only; split <;> rfl
@[simp] theorem State.reevaluateTail_outstanding (s : State) :
    (s.reevaluateTail).outstanding = s.outstanding := by
  unfold State.reevaluateTail; dsimp only; split <;> rfl
@[simp] theorem State.reevaluateTail_classified (s : State) :
    (s.reevaluateTail).classified = s.classified := by
  unfold State.reevaluateTail; dsimp only; split <;> rfl
@[simp] theorem State.reevaluateTail_forward (s : State) :
    (s.reevaluateTail).forward = s.forward := by
  unfold State.reevaluateTail; dsimp only; split <;> rfl
@[simp] theorem State.reevaluateTail_ops (s : State) :
    (s.reevaluateTail).ops = s.ops := by
  unfold State.reevaluateTail; dsimp only; split <;> rfl
@[simp] theorem State.reevaluateTail_reports (s : State) :
    (s.reevaluateTail).reports = s.reports := by
  unfold State.reevaluateTail; dsimp only; split <;> rfl
@[simp] theorem State.reevaluateTail_journal (s : State) :
    (s.reevaluateTail).journal = s.journal := by
  unfold State.reevaluateTail; dsimp only; split <;> rfl
@[simp] theorem State.reevaluateTail_engine (s : State) :
    (s.reevaluateTail).engine = s.engine := by
  unfold State.reevaluateTail; dsimp only; split <;> rfl
@[simp] theorem State.reevaluateTail_rollbackQueue (s : State) :
    (s.reevaluateTail).rollbackQueue = s.rollbackQueue := by
  unfold State.reevaluateTail; dsimp only; split <;> rfl
@[simp] theorem State.reevaluateTail_drains (s : State) :
    (s.reevaluateTail).drains = s.drains := by
  unfold State.reevaluateTail; dsimp only; split <;> rfl
@[simp] theorem State.reevaluateTail_link (s : State) :
    (s.reevaluateTail).link = s.link := by
  unfold State.reevaluateTail; dsimp only; split <;> rfl
@[simp] theorem State.reevaluateTail_pointer (s : State) :
    (s.reevaluateTail).pointer = s.pointer := by
  unfold State.reevaluateTail; dsimp only; split <;> rfl
@[simp] theorem State.reevaluateTail_issued (s : State) :
    (s.reevaluateTail).issued = s.issued := by
  unfold State.reevaluateTail; dsimp only; split <;> rfl
@[simp] theorem State.reevaluateTail_key (s : State) :
    (s.reevaluateTail).key = s.key := by
  unfold State.reevaluateTail; dsimp only; split <;> rfl
@[simp] theorem State.reevaluateTail_recovery (s : State) :
    (s.reevaluateTail).recovery = s.recovery := by
  unfold State.reevaluateTail; dsimp only; split <;> rfl
@[simp] theorem State.reevaluateTail_startupUndone (s : State) :
    (s.reevaluateTail).startupUndone = s.startupUndone := by
  unfold State.reevaluateTail; dsimp only; split <;> rfl
@[simp] theorem State.reevaluateTail_startupFormatted (s : State) :
    (s.reevaluateTail).startupFormatted = s.startupFormatted := by
  unfold State.reevaluateTail; dsimp only; split <;> rfl
@[simp] theorem State.reevaluateTail_sent (s : State) :
    (s.reevaluateTail).sent = s.sent := by
  unfold State.reevaluateTail; dsimp only; split <;> rfl
@[simp] theorem State.reevaluateTail_draws (s : State) :
    (s.reevaluateTail).draws = s.draws := by
  unfold State.reevaluateTail; dsimp only; split <;> rfl
@[simp] theorem State.reevaluateTail_pending (s : State) :
    (s.reevaluateTail).pending = s.pending := by
  unfold State.reevaluateTail; dsimp only; split <;> rfl

/-! ## faultOps: contexts, ops, outstanding, sent only -/

@[simp] theorem State.faultOps_pins (s : State) :
    (s.faultOps).pins = s.pins := by
  exact foldl_keeps State.pins (fun t o => t.endOp o .error .fault) (fun _ _ => rfl) _ s
@[simp] theorem State.faultOps_timebase (s : State) :
    (s.faultOps).timebase = s.timebase := by
  exact foldl_keeps State.timebase (fun t o => t.endOp o .error .fault) (fun _ _ => rfl) _ s
@[simp] theorem State.faultOps_device (s : State) :
    (s.faultOps).device = s.device := by
  exact foldl_keeps State.device (fun t o => t.endOp o .error .fault) (fun _ _ => rfl) _ s
@[simp] theorem State.faultOps_loader (s : State) :
    (s.faultOps).loader = s.loader := by
  exact foldl_keeps State.loader (fun t o => t.endOp o .error .fault) (fun _ _ => rfl) _ s
@[simp] theorem State.faultOps_openCounter (s : State) :
    (s.faultOps).openCounter = s.openCounter := by
  exact foldl_keeps State.openCounter (fun t o => t.endOp o .error .fault) (fun _ _ => rfl) _ s
@[simp] theorem State.faultOps_holds (s : State) :
    (s.faultOps).holds = s.holds := by
  exact foldl_keeps State.holds (fun t o => t.endOp o .error .fault) (fun _ _ => rfl) _ s
@[simp] theorem State.faultOps_classified (s : State) :
    (s.faultOps).classified = s.classified := by
  exact foldl_keeps State.classified (fun t o => t.endOp o .error .fault) (fun _ _ => rfl) _ s
@[simp] theorem State.faultOps_forward (s : State) :
    (s.faultOps).forward = s.forward := by
  exact foldl_keeps State.forward (fun t o => t.endOp o .error .fault) (fun _ _ => rfl) _ s
@[simp] theorem State.faultOps_reports (s : State) :
    (s.faultOps).reports = s.reports := by
  exact foldl_keeps State.reports (fun t o => t.endOp o .error .fault) (fun _ _ => rfl) _ s
@[simp] theorem State.faultOps_journal (s : State) :
    (s.faultOps).journal = s.journal := by
  exact foldl_keeps State.journal (fun t o => t.endOp o .error .fault) (fun _ _ => rfl) _ s
@[simp] theorem State.faultOps_header (s : State) :
    (s.faultOps).header = s.header := by
  exact foldl_keeps State.header (fun t o => t.endOp o .error .fault) (fun _ _ => rfl) _ s
@[simp] theorem State.faultOps_engine (s : State) :
    (s.faultOps).engine = s.engine := by
  exact foldl_keeps State.engine (fun t o => t.endOp o .error .fault) (fun _ _ => rfl) _ s
@[simp] theorem State.faultOps_rollbackQueue (s : State) :
    (s.faultOps).rollbackQueue = s.rollbackQueue := by
  exact foldl_keeps State.rollbackQueue (fun t o => t.endOp o .error .fault) (fun _ _ => rfl) _ s
@[simp] theorem State.faultOps_drains (s : State) :
    (s.faultOps).drains = s.drains := by
  exact foldl_keeps State.drains (fun t o => t.endOp o .error .fault) (fun _ _ => rfl) _ s
@[simp] theorem State.faultOps_link (s : State) :
    (s.faultOps).link = s.link := by
  exact foldl_keeps State.link (fun t o => t.endOp o .error .fault) (fun _ _ => rfl) _ s
@[simp] theorem State.faultOps_pointer (s : State) :
    (s.faultOps).pointer = s.pointer := by
  exact foldl_keeps State.pointer (fun t o => t.endOp o .error .fault) (fun _ _ => rfl) _ s
@[simp] theorem State.faultOps_issued (s : State) :
    (s.faultOps).issued = s.issued := by
  exact foldl_keeps State.issued (fun t o => t.endOp o .error .fault) (fun _ _ => rfl) _ s
@[simp] theorem State.faultOps_key (s : State) :
    (s.faultOps).key = s.key := by
  exact foldl_keeps State.key (fun t o => t.endOp o .error .fault) (fun _ _ => rfl) _ s
@[simp] theorem State.faultOps_recovery (s : State) :
    (s.faultOps).recovery = s.recovery := by
  exact foldl_keeps State.recovery (fun t o => t.endOp o .error .fault) (fun _ _ => rfl) _ s
@[simp] theorem State.faultOps_startupUndone (s : State) :
    (s.faultOps).startupUndone = s.startupUndone := by
  exact foldl_keeps State.startupUndone (fun t o => t.endOp o .error .fault) (fun _ _ => rfl) _ s
@[simp] theorem State.faultOps_startupFormatted (s : State) :
    (s.faultOps).startupFormatted = s.startupFormatted := by
  exact foldl_keeps State.startupFormatted (fun t o => t.endOp o .error .fault) (fun _ _ => rfl) _ s
@[simp] theorem State.faultOps_draws (s : State) :
    (s.faultOps).draws = s.draws := by
  exact foldl_keeps State.draws (fun t o => t.endOp o .error .fault) (fun _ _ => rfl) _ s
@[simp] theorem State.faultOps_pending (s : State) :
    (s.faultOps).pending = s.pending := by
  exact foldl_keeps State.pending (fun t o => t.endOp o .error .fault) (fun _ _ => rfl) _ s

/-! ## faultHeld: contexts, outstanding, sent only -/

@[simp] theorem State.faultHeld_pins (s : State) :
    (s.faultHeld).pins = s.pins := by
  exact foldl_keeps State.pins (fun t c => t.answerHeld c .error .fault .notAvailable) (fun _ _ => by simp) allContexts s
@[simp] theorem State.faultHeld_timebase (s : State) :
    (s.faultHeld).timebase = s.timebase := by
  exact foldl_keeps State.timebase (fun t c => t.answerHeld c .error .fault .notAvailable) (fun _ _ => by simp) allContexts s
@[simp] theorem State.faultHeld_device (s : State) :
    (s.faultHeld).device = s.device := by
  exact foldl_keeps State.device (fun t c => t.answerHeld c .error .fault .notAvailable) (fun _ _ => by simp) allContexts s
@[simp] theorem State.faultHeld_loader (s : State) :
    (s.faultHeld).loader = s.loader := by
  exact foldl_keeps State.loader (fun t c => t.answerHeld c .error .fault .notAvailable) (fun _ _ => by simp) allContexts s
@[simp] theorem State.faultHeld_openCounter (s : State) :
    (s.faultHeld).openCounter = s.openCounter := by
  exact foldl_keeps State.openCounter (fun t c => t.answerHeld c .error .fault .notAvailable) (fun _ _ => by simp) allContexts s
@[simp] theorem State.faultHeld_holds (s : State) :
    (s.faultHeld).holds = s.holds := by
  exact foldl_keeps State.holds (fun t c => t.answerHeld c .error .fault .notAvailable) (fun _ _ => by simp) allContexts s
@[simp] theorem State.faultHeld_classified (s : State) :
    (s.faultHeld).classified = s.classified := by
  exact foldl_keeps State.classified (fun t c => t.answerHeld c .error .fault .notAvailable) (fun _ _ => by simp) allContexts s
@[simp] theorem State.faultHeld_forward (s : State) :
    (s.faultHeld).forward = s.forward := by
  exact foldl_keeps State.forward (fun t c => t.answerHeld c .error .fault .notAvailable) (fun _ _ => by simp) allContexts s
@[simp] theorem State.faultHeld_ops (s : State) :
    (s.faultHeld).ops = s.ops := by
  exact foldl_keeps State.ops (fun t c => t.answerHeld c .error .fault .notAvailable) (fun _ _ => by simp) allContexts s
@[simp] theorem State.faultHeld_reports (s : State) :
    (s.faultHeld).reports = s.reports := by
  exact foldl_keeps State.reports (fun t c => t.answerHeld c .error .fault .notAvailable) (fun _ _ => by simp) allContexts s
@[simp] theorem State.faultHeld_journal (s : State) :
    (s.faultHeld).journal = s.journal := by
  exact foldl_keeps State.journal (fun t c => t.answerHeld c .error .fault .notAvailable) (fun _ _ => by simp) allContexts s
@[simp] theorem State.faultHeld_header (s : State) :
    (s.faultHeld).header = s.header := by
  exact foldl_keeps State.header (fun t c => t.answerHeld c .error .fault .notAvailable) (fun _ _ => by simp) allContexts s
@[simp] theorem State.faultHeld_engine (s : State) :
    (s.faultHeld).engine = s.engine := by
  exact foldl_keeps State.engine (fun t c => t.answerHeld c .error .fault .notAvailable) (fun _ _ => by simp) allContexts s
@[simp] theorem State.faultHeld_rollbackQueue (s : State) :
    (s.faultHeld).rollbackQueue = s.rollbackQueue := by
  exact foldl_keeps State.rollbackQueue (fun t c => t.answerHeld c .error .fault .notAvailable) (fun _ _ => by simp) allContexts s
@[simp] theorem State.faultHeld_drains (s : State) :
    (s.faultHeld).drains = s.drains := by
  exact foldl_keeps State.drains (fun t c => t.answerHeld c .error .fault .notAvailable) (fun _ _ => by simp) allContexts s
@[simp] theorem State.faultHeld_link (s : State) :
    (s.faultHeld).link = s.link := by
  exact foldl_keeps State.link (fun t c => t.answerHeld c .error .fault .notAvailable) (fun _ _ => by simp) allContexts s
@[simp] theorem State.faultHeld_pointer (s : State) :
    (s.faultHeld).pointer = s.pointer := by
  exact foldl_keeps State.pointer (fun t c => t.answerHeld c .error .fault .notAvailable) (fun _ _ => by simp) allContexts s
@[simp] theorem State.faultHeld_issued (s : State) :
    (s.faultHeld).issued = s.issued := by
  exact foldl_keeps State.issued (fun t c => t.answerHeld c .error .fault .notAvailable) (fun _ _ => by simp) allContexts s
@[simp] theorem State.faultHeld_key (s : State) :
    (s.faultHeld).key = s.key := by
  exact foldl_keeps State.key (fun t c => t.answerHeld c .error .fault .notAvailable) (fun _ _ => by simp) allContexts s
@[simp] theorem State.faultHeld_recovery (s : State) :
    (s.faultHeld).recovery = s.recovery := by
  exact foldl_keeps State.recovery (fun t c => t.answerHeld c .error .fault .notAvailable) (fun _ _ => by simp) allContexts s
@[simp] theorem State.faultHeld_startupUndone (s : State) :
    (s.faultHeld).startupUndone = s.startupUndone := by
  exact foldl_keeps State.startupUndone (fun t c => t.answerHeld c .error .fault .notAvailable) (fun _ _ => by simp) allContexts s
@[simp] theorem State.faultHeld_startupFormatted (s : State) :
    (s.faultHeld).startupFormatted = s.startupFormatted := by
  exact foldl_keeps State.startupFormatted (fun t c => t.answerHeld c .error .fault .notAvailable) (fun _ _ => by simp) allContexts s
@[simp] theorem State.faultHeld_draws (s : State) :
    (s.faultHeld).draws = s.draws := by
  exact foldl_keeps State.draws (fun t c => t.answerHeld c .error .fault .notAvailable) (fun _ _ => by simp) allContexts s
@[simp] theorem State.faultHeld_pending (s : State) :
    (s.faultHeld).pending = s.pending := by
  exact foldl_keeps State.pending (fun t c => t.answerHeld c .error .fault .notAvailable) (fun _ _ => by simp) allContexts s

/-! ## enterFaulted -/

@[simp] theorem State.enterFaulted_pins (s : State) (cause : FaultCause) :
    (s.enterFaulted cause).pins = s.pins := by
  unfold State.enterFaulted; simp
@[simp] theorem State.enterFaulted_timebase (s : State) (cause : FaultCause) :
    (s.enterFaulted cause).timebase = s.timebase := by
  unfold State.enterFaulted; simp
@[simp] theorem State.enterFaulted_loader (s : State) (cause : FaultCause) :
    (s.enterFaulted cause).loader = s.loader := by
  unfold State.enterFaulted; simp
@[simp] theorem State.enterFaulted_openCounter (s : State) (cause : FaultCause) :
    (s.enterFaulted cause).openCounter = s.openCounter := by
  unfold State.enterFaulted; simp
@[simp] theorem State.enterFaulted_holds (s : State) (cause : FaultCause) :
    (s.enterFaulted cause).holds = s.holds := by
  unfold State.enterFaulted; simp
@[simp] theorem State.enterFaulted_classified (s : State) (cause : FaultCause) :
    (s.enterFaulted cause).classified = s.classified := by
  unfold State.enterFaulted; simp
@[simp] theorem State.enterFaulted_forward (s : State) (cause : FaultCause) :
    (s.enterFaulted cause).forward = s.forward := by
  unfold State.enterFaulted; simp
@[simp] theorem State.enterFaulted_reports (s : State) (cause : FaultCause) :
    (s.enterFaulted cause).reports = s.reports := by
  unfold State.enterFaulted; simp
@[simp] theorem State.enterFaulted_journal (s : State) (cause : FaultCause) :
    (s.enterFaulted cause).journal = s.journal := by
  unfold State.enterFaulted; simp
@[simp] theorem State.enterFaulted_rollbackQueue (s : State) (cause : FaultCause) :
    (s.enterFaulted cause).rollbackQueue = s.rollbackQueue := by
  unfold State.enterFaulted; simp
@[simp] theorem State.enterFaulted_drains (s : State) (cause : FaultCause) :
    (s.enterFaulted cause).drains = s.drains := by
  unfold State.enterFaulted; simp
@[simp] theorem State.enterFaulted_link (s : State) (cause : FaultCause) :
    (s.enterFaulted cause).link = s.link := by
  unfold State.enterFaulted; simp
@[simp] theorem State.enterFaulted_pointer (s : State) (cause : FaultCause) :
    (s.enterFaulted cause).pointer = s.pointer := by
  unfold State.enterFaulted; simp
@[simp] theorem State.enterFaulted_issued (s : State) (cause : FaultCause) :
    (s.enterFaulted cause).issued = s.issued := by
  unfold State.enterFaulted; simp
@[simp] theorem State.enterFaulted_key (s : State) (cause : FaultCause) :
    (s.enterFaulted cause).key = s.key := by
  unfold State.enterFaulted; simp
@[simp] theorem State.enterFaulted_startupUndone (s : State) (cause : FaultCause) :
    (s.enterFaulted cause).startupUndone = s.startupUndone := by
  unfold State.enterFaulted; simp
@[simp] theorem State.enterFaulted_startupFormatted (s : State) (cause : FaultCause) :
    (s.enterFaulted cause).startupFormatted = s.startupFormatted := by
  unfold State.enterFaulted; simp
@[simp] theorem State.enterFaulted_draws (s : State) (cause : FaultCause) :
    (s.enterFaulted cause).draws = s.draws := by
  unfold State.enterFaulted; simp
@[simp] theorem State.enterFaulted_pending (s : State) (cause : FaultCause) :
    (s.enterFaulted cause).pending = s.pending := by
  unfold State.enterFaulted; simp

/-! ## drainTest: device only -/

@[simp] theorem State.drainTest_pins (s : State) :
    (s.drainTest).pins = s.pins := by
  unfold State.drainTest; split <;> rfl
@[simp] theorem State.drainTest_timebase (s : State) :
    (s.drainTest).timebase = s.timebase := by
  unfold State.drainTest; split <;> rfl
@[simp] theorem State.drainTest_loader (s : State) :
    (s.drainTest).loader = s.loader := by
  unfold State.drainTest; split <;> rfl
@[simp] theorem State.drainTest_openCounter (s : State) :
    (s.drainTest).openCounter = s.openCounter := by
  unfold State.drainTest; split <;> rfl
@[simp] theorem State.drainTest_contexts (s : State) :
    (s.drainTest).contexts = s.contexts := by
  unfold State.drainTest; split <;> rfl
@[simp] theorem State.drainTest_holds (s : State) :
    (s.drainTest).holds = s.holds := by
  unfold State.drainTest; split <;> rfl
@[simp] theorem State.drainTest_outstanding (s : State) :
    (s.drainTest).outstanding = s.outstanding := by
  unfold State.drainTest; split <;> rfl
@[simp] theorem State.drainTest_classified (s : State) :
    (s.drainTest).classified = s.classified := by
  unfold State.drainTest; split <;> rfl
@[simp] theorem State.drainTest_forward (s : State) :
    (s.drainTest).forward = s.forward := by
  unfold State.drainTest; split <;> rfl
@[simp] theorem State.drainTest_ops (s : State) :
    (s.drainTest).ops = s.ops := by
  unfold State.drainTest; split <;> rfl
@[simp] theorem State.drainTest_reports (s : State) :
    (s.drainTest).reports = s.reports := by
  unfold State.drainTest; split <;> rfl
@[simp] theorem State.drainTest_journal (s : State) :
    (s.drainTest).journal = s.journal := by
  unfold State.drainTest; split <;> rfl
@[simp] theorem State.drainTest_header (s : State) :
    (s.drainTest).header = s.header := by
  unfold State.drainTest; split <;> rfl
@[simp] theorem State.drainTest_engine (s : State) :
    (s.drainTest).engine = s.engine := by
  unfold State.drainTest; split <;> rfl
@[simp] theorem State.drainTest_rollbackQueue (s : State) :
    (s.drainTest).rollbackQueue = s.rollbackQueue := by
  unfold State.drainTest; split <;> rfl
@[simp] theorem State.drainTest_drains (s : State) :
    (s.drainTest).drains = s.drains := by
  unfold State.drainTest; split <;> rfl
@[simp] theorem State.drainTest_link (s : State) :
    (s.drainTest).link = s.link := by
  unfold State.drainTest; split <;> rfl
@[simp] theorem State.drainTest_pointer (s : State) :
    (s.drainTest).pointer = s.pointer := by
  unfold State.drainTest; split <;> rfl
@[simp] theorem State.drainTest_issued (s : State) :
    (s.drainTest).issued = s.issued := by
  unfold State.drainTest; split <;> rfl
@[simp] theorem State.drainTest_key (s : State) :
    (s.drainTest).key = s.key := by
  unfold State.drainTest; split <;> rfl
@[simp] theorem State.drainTest_recovery (s : State) :
    (s.drainTest).recovery = s.recovery := by
  unfold State.drainTest; split <;> rfl
@[simp] theorem State.drainTest_startupUndone (s : State) :
    (s.drainTest).startupUndone = s.startupUndone := by
  unfold State.drainTest; split <;> rfl
@[simp] theorem State.drainTest_startupFormatted (s : State) :
    (s.drainTest).startupFormatted = s.startupFormatted := by
  unfold State.drainTest; split <;> rfl
@[simp] theorem State.drainTest_sent (s : State) :
    (s.drainTest).sent = s.sent := by
  unfold State.drainTest; split <;> rfl
@[simp] theorem State.drainTest_draws (s : State) :
    (s.drainTest).draws = s.draws := by
  unfold State.drainTest; split <;> rfl
@[simp] theorem State.drainTest_pending (s : State) :
    (s.drainTest).pending = s.pending := by
  unfold State.drainTest; split <;> rfl

/-! ## takeLinkReset -/

@[simp] theorem State.takeLinkReset_pins (s : State) :
    (s.takeLinkReset).pins = s.pins := by
  unfold State.takeLinkReset; split; rfl; split <;> simp
@[simp] theorem State.takeLinkReset_timebase (s : State) :
    (s.takeLinkReset).timebase = s.timebase := by
  unfold State.takeLinkReset; split; rfl; split <;> simp
@[simp] theorem State.takeLinkReset_loader (s : State) :
    (s.takeLinkReset).loader = s.loader := by
  unfold State.takeLinkReset; split; rfl; split <;> simp
@[simp] theorem State.takeLinkReset_openCounter (s : State) :
    (s.takeLinkReset).openCounter = s.openCounter := by
  unfold State.takeLinkReset; split; rfl; split <;> simp
@[simp] theorem State.takeLinkReset_reports (s : State) :
    (s.takeLinkReset).reports = s.reports := by
  unfold State.takeLinkReset; split; rfl; split <;> simp
@[simp] theorem State.takeLinkReset_journal (s : State) :
    (s.takeLinkReset).journal = s.journal := by
  unfold State.takeLinkReset; split; rfl; split <;> simp
@[simp] theorem State.takeLinkReset_header (s : State) :
    (s.takeLinkReset).header = s.header := by
  unfold State.takeLinkReset; split; rfl; split <;> simp
@[simp] theorem State.takeLinkReset_engine (s : State) :
    (s.takeLinkReset).engine = s.engine := by
  unfold State.takeLinkReset; split; rfl; split <;> simp
@[simp] theorem State.takeLinkReset_rollbackQueue (s : State) :
    (s.takeLinkReset).rollbackQueue = s.rollbackQueue := by
  unfold State.takeLinkReset; split; rfl; split <;> simp
@[simp] theorem State.takeLinkReset_link (s : State) :
    (s.takeLinkReset).link = s.link := by
  unfold State.takeLinkReset; split; rfl; split <;> simp
@[simp] theorem State.takeLinkReset_pointer (s : State) :
    (s.takeLinkReset).pointer = s.pointer := by
  unfold State.takeLinkReset; split; rfl; split <;> simp
@[simp] theorem State.takeLinkReset_issued (s : State) :
    (s.takeLinkReset).issued = s.issued := by
  unfold State.takeLinkReset; split; rfl; split <;> simp
@[simp] theorem State.takeLinkReset_key (s : State) :
    (s.takeLinkReset).key = s.key := by
  unfold State.takeLinkReset; split; rfl; split <;> simp
@[simp] theorem State.takeLinkReset_recovery (s : State) :
    (s.takeLinkReset).recovery = s.recovery := by
  unfold State.takeLinkReset; split; rfl; split <;> simp
@[simp] theorem State.takeLinkReset_startupUndone (s : State) :
    (s.takeLinkReset).startupUndone = s.startupUndone := by
  unfold State.takeLinkReset; split; rfl; split <;> simp
@[simp] theorem State.takeLinkReset_startupFormatted (s : State) :
    (s.takeLinkReset).startupFormatted = s.startupFormatted := by
  unfold State.takeLinkReset; split; rfl; split <;> simp
@[simp] theorem State.takeLinkReset_draws (s : State) :
    (s.takeLinkReset).draws = s.draws := by
  unfold State.takeLinkReset; split; rfl; split <;> simp
@[simp] theorem State.takeLinkReset_pending (s : State) :
    (s.takeLinkReset).pending = s.pending := by
  unfold State.takeLinkReset; split; rfl; split <;> simp

/-! ## entryLinkReset -/

@[simp] theorem State.entryLinkReset_pins (s : State) :
    (s.entryLinkReset).pins = s.pins := by
  unfold State.entryLinkReset; split <;> simp
@[simp] theorem State.entryLinkReset_timebase (s : State) :
    (s.entryLinkReset).timebase = s.timebase := by
  unfold State.entryLinkReset; split <;> simp
@[simp] theorem State.entryLinkReset_loader (s : State) :
    (s.entryLinkReset).loader = s.loader := by
  unfold State.entryLinkReset; split <;> simp
@[simp] theorem State.entryLinkReset_openCounter (s : State) :
    (s.entryLinkReset).openCounter = s.openCounter := by
  unfold State.entryLinkReset; split <;> simp
@[simp] theorem State.entryLinkReset_reports (s : State) :
    (s.entryLinkReset).reports = s.reports := by
  unfold State.entryLinkReset; split <;> simp
@[simp] theorem State.entryLinkReset_journal (s : State) :
    (s.entryLinkReset).journal = s.journal := by
  unfold State.entryLinkReset; split <;> simp
@[simp] theorem State.entryLinkReset_header (s : State) :
    (s.entryLinkReset).header = s.header := by
  unfold State.entryLinkReset; split <;> simp
@[simp] theorem State.entryLinkReset_engine (s : State) :
    (s.entryLinkReset).engine = s.engine := by
  unfold State.entryLinkReset; split <;> simp
@[simp] theorem State.entryLinkReset_rollbackQueue (s : State) :
    (s.entryLinkReset).rollbackQueue = s.rollbackQueue := by
  unfold State.entryLinkReset; split <;> simp
@[simp] theorem State.entryLinkReset_link (s : State) :
    (s.entryLinkReset).link = s.link := by
  unfold State.entryLinkReset; split <;> simp
@[simp] theorem State.entryLinkReset_pointer (s : State) :
    (s.entryLinkReset).pointer = s.pointer := by
  unfold State.entryLinkReset; split <;> simp
@[simp] theorem State.entryLinkReset_issued (s : State) :
    (s.entryLinkReset).issued = s.issued := by
  unfold State.entryLinkReset; split <;> simp
@[simp] theorem State.entryLinkReset_key (s : State) :
    (s.entryLinkReset).key = s.key := by
  unfold State.entryLinkReset; split <;> simp
@[simp] theorem State.entryLinkReset_recovery (s : State) :
    (s.entryLinkReset).recovery = s.recovery := by
  unfold State.entryLinkReset; split <;> simp
@[simp] theorem State.entryLinkReset_startupUndone (s : State) :
    (s.entryLinkReset).startupUndone = s.startupUndone := by
  unfold State.entryLinkReset; split <;> simp
@[simp] theorem State.entryLinkReset_startupFormatted (s : State) :
    (s.entryLinkReset).startupFormatted = s.startupFormatted := by
  unfold State.entryLinkReset; split <;> simp
@[simp] theorem State.entryLinkReset_draws (s : State) :
    (s.entryLinkReset).draws = s.draws := by
  unfold State.entryLinkReset; split <;> simp
@[simp] theorem State.entryLinkReset_pending (s : State) :
    (s.entryLinkReset).pending = s.pending := by
  unfold State.entryLinkReset; split <;> simp

/-! ## reportFault -/

@[simp] theorem State.reportFault_pins (s : State) (cause : FaultCause) :
    (s.reportFault cause).pins = s.pins := by
  unfold State.reportFault; split; rfl; split <;> simp
@[simp] theorem State.reportFault_timebase (s : State) (cause : FaultCause) :
    (s.reportFault cause).timebase = s.timebase := by
  unfold State.reportFault; split; rfl; split <;> simp
@[simp] theorem State.reportFault_loader (s : State) (cause : FaultCause) :
    (s.reportFault cause).loader = s.loader := by
  unfold State.reportFault; split; rfl; split <;> simp
@[simp] theorem State.reportFault_openCounter (s : State) (cause : FaultCause) :
    (s.reportFault cause).openCounter = s.openCounter := by
  unfold State.reportFault; split; rfl; split <;> simp
@[simp] theorem State.reportFault_reports (s : State) (cause : FaultCause) :
    (s.reportFault cause).reports = s.reports := by
  unfold State.reportFault; split; rfl; split <;> simp
@[simp] theorem State.reportFault_journal (s : State) (cause : FaultCause) :
    (s.reportFault cause).journal = s.journal := by
  unfold State.reportFault; split; rfl; split <;> simp
@[simp] theorem State.reportFault_rollbackQueue (s : State) (cause : FaultCause) :
    (s.reportFault cause).rollbackQueue = s.rollbackQueue := by
  unfold State.reportFault; split; rfl; split <;> simp
@[simp] theorem State.reportFault_link (s : State) (cause : FaultCause) :
    (s.reportFault cause).link = s.link := by
  unfold State.reportFault; split; rfl; split <;> simp
@[simp] theorem State.reportFault_pointer (s : State) (cause : FaultCause) :
    (s.reportFault cause).pointer = s.pointer := by
  unfold State.reportFault; split; rfl; split <;> simp
@[simp] theorem State.reportFault_issued (s : State) (cause : FaultCause) :
    (s.reportFault cause).issued = s.issued := by
  unfold State.reportFault; split; rfl; split <;> simp
@[simp] theorem State.reportFault_key (s : State) (cause : FaultCause) :
    (s.reportFault cause).key = s.key := by
  unfold State.reportFault; split; rfl; split <;> simp
@[simp] theorem State.reportFault_startupUndone (s : State) (cause : FaultCause) :
    (s.reportFault cause).startupUndone = s.startupUndone := by
  unfold State.reportFault; split; rfl; split <;> simp
@[simp] theorem State.reportFault_startupFormatted (s : State) (cause : FaultCause) :
    (s.reportFault cause).startupFormatted = s.startupFormatted := by
  unfold State.reportFault; split; rfl; split <;> simp
@[simp] theorem State.reportFault_draws (s : State) (cause : FaultCause) :
    (s.reportFault cause).draws = s.draws := by
  unfold State.reportFault; split; rfl; split <;> simp
@[simp] theorem State.reportFault_pending (s : State) (cause : FaultCause) :
    (s.reportFault cause).pending = s.pending := by
  unfold State.reportFault; split; rfl; split <;> simp

/-! ## endDurable -/

@[simp] theorem State.endDurable_pins (s : State) (c : RequesterId) (kind : RecordKind) :
    (s.endDurable c kind).pins = s.pins := by
  unfold State.endDurable; simp
@[simp] theorem State.endDurable_timebase (s : State) (c : RequesterId) (kind : RecordKind) :
    (s.endDurable c kind).timebase = s.timebase := by
  unfold State.endDurable; simp
@[simp] theorem State.endDurable_loader (s : State) (c : RequesterId) (kind : RecordKind) :
    (s.endDurable c kind).loader = s.loader := by
  unfold State.endDurable; simp
@[simp] theorem State.endDurable_openCounter (s : State) (c : RequesterId) (kind : RecordKind) :
    (s.endDurable c kind).openCounter = s.openCounter := by
  unfold State.endDurable; simp
@[simp] theorem State.endDurable_classified (s : State) (c : RequesterId) (kind : RecordKind) :
    (s.endDurable c kind).classified = s.classified := by
  unfold State.endDurable; simp
@[simp] theorem State.endDurable_forward (s : State) (c : RequesterId) (kind : RecordKind) :
    (s.endDurable c kind).forward = s.forward := by
  unfold State.endDurable; simp
@[simp] theorem State.endDurable_ops (s : State) (c : RequesterId) (kind : RecordKind) :
    (s.endDurable c kind).ops = s.ops := by
  unfold State.endDurable; simp
@[simp] theorem State.endDurable_reports (s : State) (c : RequesterId) (kind : RecordKind) :
    (s.endDurable c kind).reports = s.reports := by
  unfold State.endDurable; simp
@[simp] theorem State.endDurable_journal (s : State) (c : RequesterId) (kind : RecordKind) :
    (s.endDurable c kind).journal = s.journal := by
  unfold State.endDurable; simp
@[simp] theorem State.endDurable_header (s : State) (c : RequesterId) (kind : RecordKind) :
    (s.endDurable c kind).header = s.header := by
  unfold State.endDurable; simp
@[simp] theorem State.endDurable_engine (s : State) (c : RequesterId) (kind : RecordKind) :
    (s.endDurable c kind).engine = s.engine := by
  unfold State.endDurable; simp
@[simp] theorem State.endDurable_rollbackQueue (s : State) (c : RequesterId) (kind : RecordKind) :
    (s.endDurable c kind).rollbackQueue = s.rollbackQueue := by
  unfold State.endDurable; simp
@[simp] theorem State.endDurable_drains (s : State) (c : RequesterId) (kind : RecordKind) :
    (s.endDurable c kind).drains = s.drains := by
  unfold State.endDurable; simp
@[simp] theorem State.endDurable_link (s : State) (c : RequesterId) (kind : RecordKind) :
    (s.endDurable c kind).link = s.link := by
  unfold State.endDurable; simp
@[simp] theorem State.endDurable_pointer (s : State) (c : RequesterId) (kind : RecordKind) :
    (s.endDurable c kind).pointer = s.pointer := by
  unfold State.endDurable; simp
@[simp] theorem State.endDurable_issued (s : State) (c : RequesterId) (kind : RecordKind) :
    (s.endDurable c kind).issued = s.issued := by
  unfold State.endDurable; simp
@[simp] theorem State.endDurable_key (s : State) (c : RequesterId) (kind : RecordKind) :
    (s.endDurable c kind).key = s.key := by
  unfold State.endDurable; simp
@[simp] theorem State.endDurable_recovery (s : State) (c : RequesterId) (kind : RecordKind) :
    (s.endDurable c kind).recovery = s.recovery := by
  unfold State.endDurable; simp
@[simp] theorem State.endDurable_startupUndone (s : State) (c : RequesterId) (kind : RecordKind) :
    (s.endDurable c kind).startupUndone = s.startupUndone := by
  unfold State.endDurable; simp
@[simp] theorem State.endDurable_startupFormatted (s : State) (c : RequesterId) (kind : RecordKind) :
    (s.endDurable c kind).startupFormatted = s.startupFormatted := by
  unfold State.endDurable; simp
@[simp] theorem State.endDurable_draws (s : State) (c : RequesterId) (kind : RecordKind) :
    (s.endDurable c kind).draws = s.draws := by
  unfold State.endDurable; simp
@[simp] theorem State.endDurable_pending (s : State) (c : RequesterId) (kind : RecordKind) :
    (s.endDurable c kind).pending = s.pending := by
  unfold State.endDurable; simp

/-! ## undoDurable -/

@[simp] theorem State.undoDurable_pins (s : State) (l : LineAddr) :
    (s.undoDurable l).pins = s.pins := by
  unfold State.undoDurable; dsimp only; split; rfl; split <;> simp
@[simp] theorem State.undoDurable_timebase (s : State) (l : LineAddr) :
    (s.undoDurable l).timebase = s.timebase := by
  unfold State.undoDurable; dsimp only; split; rfl; split <;> simp
@[simp] theorem State.undoDurable_device (s : State) (l : LineAddr) :
    (s.undoDurable l).device = s.device := by
  unfold State.undoDurable; dsimp only; split; rfl; split <;> simp
@[simp] theorem State.undoDurable_loader (s : State) (l : LineAddr) :
    (s.undoDurable l).loader = s.loader := by
  unfold State.undoDurable; dsimp only; split; rfl; split <;> simp
@[simp] theorem State.undoDurable_openCounter (s : State) (l : LineAddr) :
    (s.undoDurable l).openCounter = s.openCounter := by
  unfold State.undoDurable; dsimp only; split; rfl; split <;> simp
@[simp] theorem State.undoDurable_classified (s : State) (l : LineAddr) :
    (s.undoDurable l).classified = s.classified := by
  unfold State.undoDurable; dsimp only; split; rfl; split <;> simp
@[simp] theorem State.undoDurable_forward (s : State) (l : LineAddr) :
    (s.undoDurable l).forward = s.forward := by
  unfold State.undoDurable; dsimp only; split; rfl; split <;> simp
@[simp] theorem State.undoDurable_journal (s : State) (l : LineAddr) :
    (s.undoDurable l).journal = s.journal := by
  unfold State.undoDurable; dsimp only; split; rfl; split <;> simp
@[simp] theorem State.undoDurable_header (s : State) (l : LineAddr) :
    (s.undoDurable l).header = s.header := by
  unfold State.undoDurable; dsimp only; split; rfl; split <;> simp
@[simp] theorem State.undoDurable_engine (s : State) (l : LineAddr) :
    (s.undoDurable l).engine = s.engine := by
  unfold State.undoDurable; dsimp only; split; rfl; split <;> simp
@[simp] theorem State.undoDurable_rollbackQueue (s : State) (l : LineAddr) :
    (s.undoDurable l).rollbackQueue = s.rollbackQueue := by
  unfold State.undoDurable; dsimp only; split; rfl; split <;> simp
@[simp] theorem State.undoDurable_link (s : State) (l : LineAddr) :
    (s.undoDurable l).link = s.link := by
  unfold State.undoDurable; dsimp only; split; rfl; split <;> simp
@[simp] theorem State.undoDurable_pointer (s : State) (l : LineAddr) :
    (s.undoDurable l).pointer = s.pointer := by
  unfold State.undoDurable; dsimp only; split; rfl; split <;> simp
@[simp] theorem State.undoDurable_issued (s : State) (l : LineAddr) :
    (s.undoDurable l).issued = s.issued := by
  unfold State.undoDurable; dsimp only; split; rfl; split <;> simp
@[simp] theorem State.undoDurable_key (s : State) (l : LineAddr) :
    (s.undoDurable l).key = s.key := by
  unfold State.undoDurable; dsimp only; split; rfl; split <;> simp
@[simp] theorem State.undoDurable_recovery (s : State) (l : LineAddr) :
    (s.undoDurable l).recovery = s.recovery := by
  unfold State.undoDurable; dsimp only; split; rfl; split <;> simp
@[simp] theorem State.undoDurable_startupUndone (s : State) (l : LineAddr) :
    (s.undoDurable l).startupUndone = s.startupUndone := by
  unfold State.undoDurable; dsimp only; split; rfl; split <;> simp
@[simp] theorem State.undoDurable_startupFormatted (s : State) (l : LineAddr) :
    (s.undoDurable l).startupFormatted = s.startupFormatted := by
  unfold State.undoDurable; dsimp only; split; rfl; split <;> simp
@[simp] theorem State.undoDurable_draws (s : State) (l : LineAddr) :
    (s.undoDurable l).draws = s.draws := by
  unfold State.undoDurable; dsimp only; split; rfl; split <;> simp
@[simp] theorem State.undoDurable_pending (s : State) (l : LineAddr) :
    (s.undoDurable l).pending = s.pending := by
  unfold State.undoDurable; dsimp only; split; rfl; split <;> simp

/-! ## reportDurable -/

@[simp] theorem State.reportDurable_pins (s : State) (r : AssignedRecord) :
    (s.reportDurable r).pins = s.pins := by
  unfold State.reportDurable; split <;> simp
@[simp] theorem State.reportDurable_timebase (s : State) (r : AssignedRecord) :
    (s.reportDurable r).timebase = s.timebase := by
  unfold State.reportDurable; split <;> simp
@[simp] theorem State.reportDurable_loader (s : State) (r : AssignedRecord) :
    (s.reportDurable r).loader = s.loader := by
  unfold State.reportDurable; split <;> simp
@[simp] theorem State.reportDurable_openCounter (s : State) (r : AssignedRecord) :
    (s.reportDurable r).openCounter = s.openCounter := by
  unfold State.reportDurable; split <;> simp
@[simp] theorem State.reportDurable_classified (s : State) (r : AssignedRecord) :
    (s.reportDurable r).classified = s.classified := by
  unfold State.reportDurable; split <;> simp
@[simp] theorem State.reportDurable_forward (s : State) (r : AssignedRecord) :
    (s.reportDurable r).forward = s.forward := by
  unfold State.reportDurable; split <;> simp
@[simp] theorem State.reportDurable_journal (s : State) (r : AssignedRecord) :
    (s.reportDurable r).journal = s.journal := by
  unfold State.reportDurable; split <;> simp
@[simp] theorem State.reportDurable_header (s : State) (r : AssignedRecord) :
    (s.reportDurable r).header = s.header := by
  unfold State.reportDurable; split <;> simp
@[simp] theorem State.reportDurable_engine (s : State) (r : AssignedRecord) :
    (s.reportDurable r).engine = s.engine := by
  unfold State.reportDurable; split <;> simp
@[simp] theorem State.reportDurable_rollbackQueue (s : State) (r : AssignedRecord) :
    (s.reportDurable r).rollbackQueue = s.rollbackQueue := by
  unfold State.reportDurable; split <;> simp
@[simp] theorem State.reportDurable_link (s : State) (r : AssignedRecord) :
    (s.reportDurable r).link = s.link := by
  unfold State.reportDurable; split <;> simp
@[simp] theorem State.reportDurable_pointer (s : State) (r : AssignedRecord) :
    (s.reportDurable r).pointer = s.pointer := by
  unfold State.reportDurable; split <;> simp
@[simp] theorem State.reportDurable_issued (s : State) (r : AssignedRecord) :
    (s.reportDurable r).issued = s.issued := by
  unfold State.reportDurable; split <;> simp
@[simp] theorem State.reportDurable_key (s : State) (r : AssignedRecord) :
    (s.reportDurable r).key = s.key := by
  unfold State.reportDurable; split <;> simp
@[simp] theorem State.reportDurable_recovery (s : State) (r : AssignedRecord) :
    (s.reportDurable r).recovery = s.recovery := by
  unfold State.reportDurable; split <;> simp
@[simp] theorem State.reportDurable_startupUndone (s : State) (r : AssignedRecord) :
    (s.reportDurable r).startupUndone = s.startupUndone := by
  unfold State.reportDurable; split <;> simp
@[simp] theorem State.reportDurable_startupFormatted (s : State) (r : AssignedRecord) :
    (s.reportDurable r).startupFormatted = s.startupFormatted := by
  unfold State.reportDurable; split <;> simp
@[simp] theorem State.reportDurable_draws (s : State) (r : AssignedRecord) :
    (s.reportDurable r).draws = s.draws := by
  unfold State.reportDurable; split <;> simp
@[simp] theorem State.reportDurable_pending (s : State) (r : AssignedRecord) :
    (s.reportDurable r).pending = s.pending := by
  unfold State.reportDurable; split <;> simp

/-! ## engineFreed -/

@[simp] theorem State.engineFreed_pins (s : State) :
    (s.engineFreed).pins = s.pins := by
  unfold State.engineFreed; dsimp only; split_ifs <;> simp
@[simp] theorem State.engineFreed_timebase (s : State) :
    (s.engineFreed).timebase = s.timebase := by
  unfold State.engineFreed; dsimp only; split_ifs <;> simp
@[simp] theorem State.engineFreed_loader (s : State) :
    (s.engineFreed).loader = s.loader := by
  unfold State.engineFreed; dsimp only; split_ifs <;> simp
@[simp] theorem State.engineFreed_openCounter (s : State) :
    (s.engineFreed).openCounter = s.openCounter := by
  unfold State.engineFreed; dsimp only; split_ifs <;> simp
@[simp] theorem State.engineFreed_contexts (s : State) :
    (s.engineFreed).contexts = s.contexts := by
  unfold State.engineFreed; dsimp only; split_ifs <;> simp
@[simp] theorem State.engineFreed_holds (s : State) :
    (s.engineFreed).holds = s.holds := by
  unfold State.engineFreed; dsimp only; split_ifs <;> simp
@[simp] theorem State.engineFreed_outstanding (s : State) :
    (s.engineFreed).outstanding = s.outstanding := by
  unfold State.engineFreed; dsimp only; split_ifs <;> simp
@[simp] theorem State.engineFreed_classified (s : State) :
    (s.engineFreed).classified = s.classified := by
  unfold State.engineFreed; dsimp only; split_ifs <;> simp
@[simp] theorem State.engineFreed_forward (s : State) :
    (s.engineFreed).forward = s.forward := by
  unfold State.engineFreed; dsimp only; split_ifs <;> simp
@[simp] theorem State.engineFreed_ops (s : State) :
    (s.engineFreed).ops = s.ops := by
  unfold State.engineFreed; dsimp only; split_ifs <;> simp
@[simp] theorem State.engineFreed_reports (s : State) :
    (s.engineFreed).reports = s.reports := by
  unfold State.engineFreed; dsimp only; split_ifs <;> simp
@[simp] theorem State.engineFreed_journal (s : State) :
    (s.engineFreed).journal = s.journal := by
  unfold State.engineFreed; dsimp only; split_ifs <;> simp
@[simp] theorem State.engineFreed_header (s : State) :
    (s.engineFreed).header = s.header := by
  unfold State.engineFreed; dsimp only; split_ifs <;> simp
@[simp] theorem State.engineFreed_rollbackQueue (s : State) :
    (s.engineFreed).rollbackQueue = s.rollbackQueue := by
  unfold State.engineFreed; dsimp only; split_ifs <;> simp
@[simp] theorem State.engineFreed_drains (s : State) :
    (s.engineFreed).drains = s.drains := by
  unfold State.engineFreed; dsimp only; split_ifs <;> simp
@[simp] theorem State.engineFreed_link (s : State) :
    (s.engineFreed).link = s.link := by
  unfold State.engineFreed; dsimp only; split_ifs <;> simp
@[simp] theorem State.engineFreed_pointer (s : State) :
    (s.engineFreed).pointer = s.pointer := by
  unfold State.engineFreed; dsimp only; split_ifs <;> simp
@[simp] theorem State.engineFreed_issued (s : State) :
    (s.engineFreed).issued = s.issued := by
  unfold State.engineFreed; dsimp only; split_ifs <;> simp
@[simp] theorem State.engineFreed_key (s : State) :
    (s.engineFreed).key = s.key := by
  unfold State.engineFreed; dsimp only; split_ifs <;> simp
@[simp] theorem State.engineFreed_recovery (s : State) :
    (s.engineFreed).recovery = s.recovery := by
  unfold State.engineFreed; dsimp only; split_ifs <;> simp
@[simp] theorem State.engineFreed_startupUndone (s : State) :
    (s.engineFreed).startupUndone = s.startupUndone := by
  unfold State.engineFreed; dsimp only; split_ifs <;> simp
@[simp] theorem State.engineFreed_startupFormatted (s : State) :
    (s.engineFreed).startupFormatted = s.startupFormatted := by
  unfold State.engineFreed; dsimp only; split_ifs <;> simp
@[simp] theorem State.engineFreed_sent (s : State) :
    (s.engineFreed).sent = s.sent := by
  unfold State.engineFreed; dsimp only; split_ifs <;> simp
@[simp] theorem State.engineFreed_draws (s : State) :
    (s.engineFreed).draws = s.draws := by
  unfold State.engineFreed; dsimp only; split_ifs <;> simp
@[simp] theorem State.engineFreed_pending (s : State) :
    (s.engineFreed).pending = s.pending := by
  unfold State.engineFreed; dsimp only; split_ifs <;> simp

/-! ## advanceDurable -/

@[simp] theorem State.advanceDurable_pins (s : State) :
    (s.advanceDurable).pins = s.pins := by
  unfold State.advanceDurable; dsimp only
  have h := fun (t : State) (l : List AssignedRecord) =>
    foldl_keeps State.pins (fun t r => t.reportDurable r) (fun t r => t.reportDurable_pins r) l t
  split <;> split <;> simp [h]
@[simp] theorem State.advanceDurable_timebase (s : State) :
    (s.advanceDurable).timebase = s.timebase := by
  unfold State.advanceDurable; dsimp only
  have h := fun (t : State) (l : List AssignedRecord) =>
    foldl_keeps State.timebase (fun t r => t.reportDurable r) (fun t r => t.reportDurable_timebase r) l t
  split <;> split <;> simp [h]
@[simp] theorem State.advanceDurable_loader (s : State) :
    (s.advanceDurable).loader = s.loader := by
  unfold State.advanceDurable; dsimp only
  have h := fun (t : State) (l : List AssignedRecord) =>
    foldl_keeps State.loader (fun t r => t.reportDurable r) (fun t r => t.reportDurable_loader r) l t
  split <;> split <;> simp [h]
@[simp] theorem State.advanceDurable_openCounter (s : State) :
    (s.advanceDurable).openCounter = s.openCounter := by
  unfold State.advanceDurable; dsimp only
  have h := fun (t : State) (l : List AssignedRecord) =>
    foldl_keeps State.openCounter (fun t r => t.reportDurable r) (fun t r => t.reportDurable_openCounter r) l t
  split <;> split <;> simp [h]
@[simp] theorem State.advanceDurable_classified (s : State) :
    (s.advanceDurable).classified = s.classified := by
  unfold State.advanceDurable; dsimp only
  have h := fun (t : State) (l : List AssignedRecord) =>
    foldl_keeps State.classified (fun t r => t.reportDurable r) (fun t r => t.reportDurable_classified r) l t
  split <;> split <;> simp [h]
@[simp] theorem State.advanceDurable_forward (s : State) :
    (s.advanceDurable).forward = s.forward := by
  unfold State.advanceDurable; dsimp only
  have h := fun (t : State) (l : List AssignedRecord) =>
    foldl_keeps State.forward (fun t r => t.reportDurable r) (fun t r => t.reportDurable_forward r) l t
  split <;> split <;> simp [h]
@[simp] theorem State.advanceDurable_rollbackQueue (s : State) :
    (s.advanceDurable).rollbackQueue = s.rollbackQueue := by
  unfold State.advanceDurable; dsimp only
  have h := fun (t : State) (l : List AssignedRecord) =>
    foldl_keeps State.rollbackQueue (fun t r => t.reportDurable r) (fun t r => t.reportDurable_rollbackQueue r) l t
  split <;> split <;> simp [h]
@[simp] theorem State.advanceDurable_link (s : State) :
    (s.advanceDurable).link = s.link := by
  unfold State.advanceDurable; dsimp only
  have h := fun (t : State) (l : List AssignedRecord) =>
    foldl_keeps State.link (fun t r => t.reportDurable r) (fun t r => t.reportDurable_link r) l t
  split <;> split <;> simp [h]
@[simp] theorem State.advanceDurable_pointer (s : State) :
    (s.advanceDurable).pointer = s.pointer := by
  unfold State.advanceDurable; dsimp only
  have h := fun (t : State) (l : List AssignedRecord) =>
    foldl_keeps State.pointer (fun t r => t.reportDurable r) (fun t r => t.reportDurable_pointer r) l t
  split <;> split <;> simp [h]
@[simp] theorem State.advanceDurable_issued (s : State) :
    (s.advanceDurable).issued = s.issued := by
  unfold State.advanceDurable; dsimp only
  have h := fun (t : State) (l : List AssignedRecord) =>
    foldl_keeps State.issued (fun t r => t.reportDurable r) (fun t r => t.reportDurable_issued r) l t
  split <;> split <;> simp [h]
@[simp] theorem State.advanceDurable_key (s : State) :
    (s.advanceDurable).key = s.key := by
  unfold State.advanceDurable; dsimp only
  have h := fun (t : State) (l : List AssignedRecord) =>
    foldl_keeps State.key (fun t r => t.reportDurable r) (fun t r => t.reportDurable_key r) l t
  split <;> split <;> simp [h]
@[simp] theorem State.advanceDurable_recovery (s : State) :
    (s.advanceDurable).recovery = s.recovery := by
  unfold State.advanceDurable; dsimp only
  have h := fun (t : State) (l : List AssignedRecord) =>
    foldl_keeps State.recovery (fun t r => t.reportDurable r) (fun t r => t.reportDurable_recovery r) l t
  split <;> split <;> simp [h]
@[simp] theorem State.advanceDurable_startupUndone (s : State) :
    (s.advanceDurable).startupUndone = s.startupUndone := by
  unfold State.advanceDurable; dsimp only
  have h := fun (t : State) (l : List AssignedRecord) =>
    foldl_keeps State.startupUndone (fun t r => t.reportDurable r) (fun t r => t.reportDurable_startupUndone r) l t
  split <;> split <;> simp [h]
@[simp] theorem State.advanceDurable_startupFormatted (s : State) :
    (s.advanceDurable).startupFormatted = s.startupFormatted := by
  unfold State.advanceDurable; dsimp only
  have h := fun (t : State) (l : List AssignedRecord) =>
    foldl_keeps State.startupFormatted (fun t r => t.reportDurable r) (fun t r => t.reportDurable_startupFormatted r) l t
  split <;> split <;> simp [h]
@[simp] theorem State.advanceDurable_draws (s : State) :
    (s.advanceDurable).draws = s.draws := by
  unfold State.advanceDurable; dsimp only
  have h := fun (t : State) (l : List AssignedRecord) =>
    foldl_keeps State.draws (fun t r => t.reportDurable r) (fun t r => t.reportDurable_draws r) l t
  split <;> split <;> simp [h]
@[simp] theorem State.advanceDurable_pending (s : State) :
    (s.advanceDurable).pending = s.pending := by
  unfold State.advanceDurable; dsimp only
  have h := fun (t : State) (l : List AssignedRecord) =>
    foldl_keeps State.pending (fun t r => t.reportDurable r) (fun t r => t.reportDurable_pending r) l t
  split <;> split <;> simp [h]

/-! ## haltIfIdle: device only -/

@[simp] theorem State.haltIfIdle_pins (s : State) :
    (s.haltIfIdle).pins = s.pins := by
  unfold State.haltIfIdle; split <;> rfl
@[simp] theorem State.haltIfIdle_timebase (s : State) :
    (s.haltIfIdle).timebase = s.timebase := by
  unfold State.haltIfIdle; split <;> rfl
@[simp] theorem State.haltIfIdle_loader (s : State) :
    (s.haltIfIdle).loader = s.loader := by
  unfold State.haltIfIdle; split <;> rfl
@[simp] theorem State.haltIfIdle_openCounter (s : State) :
    (s.haltIfIdle).openCounter = s.openCounter := by
  unfold State.haltIfIdle; split <;> rfl
@[simp] theorem State.haltIfIdle_contexts (s : State) :
    (s.haltIfIdle).contexts = s.contexts := by
  unfold State.haltIfIdle; split <;> rfl
@[simp] theorem State.haltIfIdle_holds (s : State) :
    (s.haltIfIdle).holds = s.holds := by
  unfold State.haltIfIdle; split <;> rfl
@[simp] theorem State.haltIfIdle_outstanding (s : State) :
    (s.haltIfIdle).outstanding = s.outstanding := by
  unfold State.haltIfIdle; split <;> rfl
@[simp] theorem State.haltIfIdle_classified (s : State) :
    (s.haltIfIdle).classified = s.classified := by
  unfold State.haltIfIdle; split <;> rfl
@[simp] theorem State.haltIfIdle_forward (s : State) :
    (s.haltIfIdle).forward = s.forward := by
  unfold State.haltIfIdle; split <;> rfl
@[simp] theorem State.haltIfIdle_ops (s : State) :
    (s.haltIfIdle).ops = s.ops := by
  unfold State.haltIfIdle; split <;> rfl
@[simp] theorem State.haltIfIdle_reports (s : State) :
    (s.haltIfIdle).reports = s.reports := by
  unfold State.haltIfIdle; split <;> rfl
@[simp] theorem State.haltIfIdle_journal (s : State) :
    (s.haltIfIdle).journal = s.journal := by
  unfold State.haltIfIdle; split <;> rfl
@[simp] theorem State.haltIfIdle_header (s : State) :
    (s.haltIfIdle).header = s.header := by
  unfold State.haltIfIdle; split <;> rfl
@[simp] theorem State.haltIfIdle_engine (s : State) :
    (s.haltIfIdle).engine = s.engine := by
  unfold State.haltIfIdle; split <;> rfl
@[simp] theorem State.haltIfIdle_rollbackQueue (s : State) :
    (s.haltIfIdle).rollbackQueue = s.rollbackQueue := by
  unfold State.haltIfIdle; split <;> rfl
@[simp] theorem State.haltIfIdle_drains (s : State) :
    (s.haltIfIdle).drains = s.drains := by
  unfold State.haltIfIdle; split <;> rfl
@[simp] theorem State.haltIfIdle_link (s : State) :
    (s.haltIfIdle).link = s.link := by
  unfold State.haltIfIdle; split <;> rfl
@[simp] theorem State.haltIfIdle_pointer (s : State) :
    (s.haltIfIdle).pointer = s.pointer := by
  unfold State.haltIfIdle; split <;> rfl
@[simp] theorem State.haltIfIdle_issued (s : State) :
    (s.haltIfIdle).issued = s.issued := by
  unfold State.haltIfIdle; split <;> rfl
@[simp] theorem State.haltIfIdle_key (s : State) :
    (s.haltIfIdle).key = s.key := by
  unfold State.haltIfIdle; split <;> rfl
@[simp] theorem State.haltIfIdle_recovery (s : State) :
    (s.haltIfIdle).recovery = s.recovery := by
  unfold State.haltIfIdle; split <;> rfl
@[simp] theorem State.haltIfIdle_startupUndone (s : State) :
    (s.haltIfIdle).startupUndone = s.startupUndone := by
  unfold State.haltIfIdle; split <;> rfl
@[simp] theorem State.haltIfIdle_startupFormatted (s : State) :
    (s.haltIfIdle).startupFormatted = s.startupFormatted := by
  unfold State.haltIfIdle; split <;> rfl
@[simp] theorem State.haltIfIdle_sent (s : State) :
    (s.haltIfIdle).sent = s.sent := by
  unfold State.haltIfIdle; split <;> rfl
@[simp] theorem State.haltIfIdle_draws (s : State) :
    (s.haltIfIdle).draws = s.draws := by
  unfold State.haltIfIdle; split <;> rfl
@[simp] theorem State.haltIfIdle_pending (s : State) :
    (s.haltIfIdle).pending = s.pending := by
  unfold State.haltIfIdle; split <;> rfl

/-! ## settle: device, engine only -/

@[simp] theorem State.settle_pins (s : State) :
    (s.settle).pins = s.pins := by
  unfold State.settle; split <;> simp
@[simp] theorem State.settle_timebase (s : State) :
    (s.settle).timebase = s.timebase := by
  unfold State.settle; split <;> simp
@[simp] theorem State.settle_loader (s : State) :
    (s.settle).loader = s.loader := by
  unfold State.settle; split <;> simp
@[simp] theorem State.settle_openCounter (s : State) :
    (s.settle).openCounter = s.openCounter := by
  unfold State.settle; split <;> simp
@[simp] theorem State.settle_contexts (s : State) :
    (s.settle).contexts = s.contexts := by
  unfold State.settle; split <;> simp
@[simp] theorem State.settle_holds (s : State) :
    (s.settle).holds = s.holds := by
  unfold State.settle; split <;> simp
@[simp] theorem State.settle_outstanding (s : State) :
    (s.settle).outstanding = s.outstanding := by
  unfold State.settle; split <;> simp
@[simp] theorem State.settle_classified (s : State) :
    (s.settle).classified = s.classified := by
  unfold State.settle; split <;> simp
@[simp] theorem State.settle_forward (s : State) :
    (s.settle).forward = s.forward := by
  unfold State.settle; split <;> simp
@[simp] theorem State.settle_ops (s : State) :
    (s.settle).ops = s.ops := by
  unfold State.settle; split <;> simp
@[simp] theorem State.settle_reports (s : State) :
    (s.settle).reports = s.reports := by
  unfold State.settle; split <;> simp
@[simp] theorem State.settle_journal (s : State) :
    (s.settle).journal = s.journal := by
  unfold State.settle; split <;> simp
@[simp] theorem State.settle_header (s : State) :
    (s.settle).header = s.header := by
  unfold State.settle; split <;> simp
@[simp] theorem State.settle_rollbackQueue (s : State) :
    (s.settle).rollbackQueue = s.rollbackQueue := by
  unfold State.settle; split <;> simp
@[simp] theorem State.settle_drains (s : State) :
    (s.settle).drains = s.drains := by
  unfold State.settle; split <;> simp
@[simp] theorem State.settle_link (s : State) :
    (s.settle).link = s.link := by
  unfold State.settle; split <;> simp
@[simp] theorem State.settle_pointer (s : State) :
    (s.settle).pointer = s.pointer := by
  unfold State.settle; split <;> simp
@[simp] theorem State.settle_issued (s : State) :
    (s.settle).issued = s.issued := by
  unfold State.settle; split <;> simp
@[simp] theorem State.settle_key (s : State) :
    (s.settle).key = s.key := by
  unfold State.settle; split <;> simp
@[simp] theorem State.settle_recovery (s : State) :
    (s.settle).recovery = s.recovery := by
  unfold State.settle; split <;> simp
@[simp] theorem State.settle_startupUndone (s : State) :
    (s.settle).startupUndone = s.startupUndone := by
  unfold State.settle; split <;> simp
@[simp] theorem State.settle_startupFormatted (s : State) :
    (s.settle).startupFormatted = s.startupFormatted := by
  unfold State.settle; split <;> simp
@[simp] theorem State.settle_sent (s : State) :
    (s.settle).sent = s.sent := by
  unfold State.settle; split <;> simp
@[simp] theorem State.settle_draws (s : State) :
    (s.settle).draws = s.draws := by
  unfold State.settle; split <;> simp
@[simp] theorem State.settle_pending (s : State) :
    (s.settle).pending = s.pending := by
  unfold State.settle; split <;> simp

end Sys2Proof.Machine
end

