-- ==== Sys2Proof/Laws/Cancel.lean ====
section
/-! SUPPORT. What removing an entry or an operation, cancelling operations, and an abort request can do: cited by the
statements about ABORT, link reset, faults and the refusals that abort a context. -/

namespace Sys2Proof.Machine

/-- A fold keeps a relation that each of its steps keeps. -/
theorem foldl_relates {α : Type} (R : State → State → Prop) (hr : ∀ s, R s s) (ht : ∀ s t u, R s t → R t u → R s u)
    (f : State → α → State) (l : List α) (hf : ∀ s, ∀ a ∈ l, R s (f s a)) (s : State) : R s (l.foldl f s) := by
  induction l generalizing s with
  | nil => exact hr s
  | cons a rest ih =>
    rw [List.foldl_cons]
    exact ht _ _ _ (hf s a List.mem_cons_self) (ih (fun t b hb => hf t b (List.mem_cons_of_mem a hb)) (f s a))

/-- A view of a context record that neither the holds count nor the operations in flight enter into. -/
def Context.Blind {β : Type} (p : Context → β) : Prop :=
  (∀ x n, p { x with holdsCount := n } = p x) ∧ ∀ x n, p { x with opsInFlight := n } = p x

theorem State.removeHold_blind {β : Type} (p : Context → β) (hp : Context.Blind p) (s : State) (l : LineAddr)
    (c : RequesterId) : p ((s.removeHold l).ctx c) = p (s.ctx c) := by
  unfold State.removeHold
  split
  · rfl
  · rw [State.ctx_modCtx]
    split
    · subst_vars; exact hp.1 _ _
    · rfl

theorem State.removeHold_holds (s : State) (l : LineAddr) :
    (s.removeHold l).holds = s.holds.eraseP (fun e => decide (e.line = l)) := by
  unfold State.removeHold
  split
  · rename_i h
    exact (List.eraseP_of_forall_not (fun a ha => List.find?_eq_none.1 h a ha)).symm
  · rfl

theorem State.endOp_blind {β : Type} (p : Context → β) (hp : Context.Blind p) (s : State) (o : Operation)
    (code : ResponseCode) (detail : ResponseDetail) (c : RequesterId) :
    p ((s.endOp o code detail).ctx c) = p (s.ctx c) := by
  show p ((s.removeOp o).ctx c) = _
  unfold State.removeOp
  rw [State.ctx_modCtx]
  split
  · subst_vars; exact hp.2 _ _
  · rfl

/-- An ended operation is answered unless it is forgotten (R78). -/
theorem State.endOp_sent (s : State) (o : Operation) (code : ResponseCode) (detail : ResponseDetail) :
    (s.endOp o code detail).sent = if o.forgotten = true then s.sent else s.sent ++ [{
      requester := o.requester, tag := o.tag, code := code, detail := detail, data := none }] := by
  unfold State.endOp State.finish
  cases o.forgotten <;> rfl

theorem State.endOp_outstanding (s : State) (o : Operation) (code : ResponseCode) (detail : ResponseDetail) :
    (s.endOp o code detail).outstanding = if o.forgotten = true then s.outstanding
      else s.outstanding.filter (fun e => decide (e ≠ (o.requester, o.tag))) := by
  unfold State.endOp State.finish
  cases o.forgotten <;> rfl

theorem State.endOp_contexts (s : State) (o : Operation) (code : ResponseCode) (detail : ResponseDetail) :
    (s.endOp o code detail).contexts = s.contexts.set o.requester { s.ctx o.requester with
      opsInFlight := (s.ctx o.requester).opsInFlight - 1 } := rfl

/-! ## Ends, drains and the wind-down -/

/-- An operation ends (R71, R5, R78). -/
theorem State.endOp_eq (s : State) (o : Operation) (code : ResponseCode) (detail : ResponseDetail) :
    s.endOp o code detail = s.opGone o code detail := by
  unfold State.endOp State.opGone State.finish State.removeOp State.modCtx State.setCtx State.ctx
  cases o.forgotten <;> rfl

/-- When a drain is taken (R6, R11). -/
theorem State.drainDue_iff (u : State) (c : RequesterId) : u.drainDue c = true ↔ u.drainReached c := by
  unfold State.drainDue State.drainReached State.journals Context.drained
  simp [and_assoc]

/-- The taking of a drain (R82). -/
theorem State.noteDrain_eq (u : State) (c : RequesterId) : u.noteDrain c = u.drainTaken c := by
  unfold State.noteDrain State.drainTaken
  by_cases h : u.drainReached c
  · rw [if_pos ((u.drainDue_iff c).2 h), if_pos h]
  · rw [if_neg (fun k => h ((u.drainDue_iff c).1 k)), if_neg h]; simp

theorem State.ctx_noteDrain (s : State) (c d : RequesterId) : (s.noteDrain c).ctx d = s.ctx d :=
  State.ctx_congr (s.noteDrain_contexts c) d

theorem State.ctx_noteDrains (s : State) (d : RequesterId) : s.noteDrains.ctx d = s.ctx d :=
  State.ctx_congr s.noteDrains_contexts d

/-- What the wind-down adds (R94, R134, R161). -/
theorem State.settle_eq (u : State) : u.settle = u.woundDown := by
  unfold State.settle State.woundDown State.haltIfIdle
  cases hp : u.device.powerFailPending
  · simp
  · have e1 : State.linkIdle { u with engine := u.engine.windDown } = true ↔ ∀ k, u.access k = none := by
      unfold State.linkIdle
      rw [List.all_eq_true]
      constructor
      · intro h k
        have := h k (by revert k; decide)
        simpa [State.access] using this
      · intro h k _
        have := h k
        simpa [State.access] using this
    have e2 : u.engine.windDown =
        if (∃ r ∈ u.engine.read, r.issued = true) ∨ (∃ w ∈ u.engine.restore, w.issued = true) then u.engine
        else { phase := .stopped, current := u.engine.current, walkPosition := none, walkEnded := false
               foundCount := 0, read := none, firstHalf := none, waiting := [], restore := none } := by
      unfold Engine.windDown Engine.halt
      generalize u.engine = e
      rcases e with ⟨ph, cu, wp, we, fc, rd, fh, wt, rs⟩
      rcases rd with _ | r <;> rcases rs with _ | w <;> simp
      · cases hw : w.issued <;> simp [hw]
      · cases hr : r.issued <;> simp [hr]
      · cases hr : r.issued <;> cases hw : w.issued <;> simp [hr, hw]
    by_cases hi : ∀ k, u.access k = none
    · simp only [if_true, e1, hi, implies_true, and_self, Bool.true_eq_false, if_false, ← e2]
    · simp only [if_true, e1, hi, and_false, if_false, Bool.true_eq_false, ← e2]

/-! ## Withdrawing -/

/-- What ending operations and removing their entries can do (R24, R76): tables shrink, responses are added, and of a
context record only the two counts change. -/
structure State.Shrinks (s t : State) : Prop where
  ops : t.ops.Sublist s.ops
  holds : t.holds.Sublist s.holds
  outstanding : t.outstanding.Sublist s.outstanding
  sent : s.sent <+: t.sent
  contexts : ∀ {β : Type} (p : Context → β), Context.Blind p → ∀ c, p (t.ctx c) = p (s.ctx c)
  rest : t = { s with ops := t.ops, holds := t.holds, outstanding := t.outstanding, sent := t.sent, contexts := t.contexts }

theorem State.Shrinks.refl (s : State) : s.Shrinks s :=
  ⟨List.Sublist.refl _, List.Sublist.refl _, List.Sublist.refl _, List.prefix_refl _, fun _ _ _ => rfl, rfl⟩

theorem State.Shrinks.trans {s t u : State} (h : s.Shrinks t) (k : t.Shrinks u) : s.Shrinks u := by
  refine ⟨k.ops.trans h.ops, k.holds.trans h.holds, k.outstanding.trans h.outstanding, h.sent.trans k.sent,
    fun p hp c => (k.contexts p hp c).trans (h.contexts p hp c), ?_⟩
  have h1 := h.rest
  have h2 := k.rest
  rw [h1] at h2
  exact h2

theorem State.endOp_shrinks (s : State) (o : Operation) (code : ResponseCode) (detail : ResponseDetail) :
    s.Shrinks (s.endOp o code detail) := by
  refine ⟨List.eraseP_sublist, List.Sublist.refl _, ?_, ?_, fun p hp c => s.endOp_blind p hp o code detail c, rfl⟩
  · rw [State.endOp_outstanding]; split
    · exact List.Sublist.refl _
    · exact List.filter_sublist
  · rw [State.endOp_sent]; split
    · exact List.prefix_refl _
    · exact List.prefix_append _ _

theorem State.removeHold_shrinks (s : State) (l : LineAddr) : s.Shrinks (s.removeHold l) := by
  refine ⟨by simp, by rw [State.removeHold_holds]; exact List.eraseP_sublist, by simp, by simp,
    fun p hp c => s.removeHold_blind p hp l c, ?_⟩
  unfold State.removeHold
  split <;> rfl

/-- The operations cancelled, before the withdrawn ones end. -/
def State.markCancelled (s : State) (who : Operation → Bool) : State :=
  { s with ops := s.ops.map (fun o => if who o then { o with cancelled := true } else o) }

theorem State.cancelOps_shrinks (s : State) (who : Operation → Bool) :
    (s.markCancelled who).Shrinks (s.cancelOps who) :=
  foldl_relates State.Shrinks State.Shrinks.refl (fun _ _ _ h k => h.trans k) _ _
    (fun t o _ => (t.removeHold_shrinks o.line).trans ((t.removeHold o.line).endOp_shrinks o .error .aborted)) _

/-- Every operation left by a cancellation is one that stood before, marked if it was picked. -/
theorem State.mem_cancelOps_ops {s : State} {who : Operation → Bool} {o : Operation} (h : o ∈ (s.cancelOps who).ops) :
    ∃ q ∈ s.ops, o = if who q then { q with cancelled := true } else q := by
  obtain ⟨q, hq, e⟩ := List.mem_map.1 ((s.cancelOps_shrinks who).ops.subset h)
  exact ⟨q, hq, e.symm⟩

/-- With no slot request waiting, a cancellation only marks (R76). -/
theorem State.cancelOps_noneAsking (s : State) (who : Operation → Bool)
    (h : ∀ o ∈ s.ops, who o = true → o.asking = false) : s.cancelOps who = s.markCancelled who := by
  have : s.ops.filter (fun o => who o && o.asking) = [] := by
    rw [List.filter_eq_nil_iff]
    intro o ho
    cases hw : who o with
    | false => simp
    | true => simp [h o ho hw]
  simp only [State.cancelOps, this, List.foldl_nil]
  rfl

/-- A cancellation of every operation (R78): all are marked, and those whose slot request is not yet taken end. -/
theorem State.cancelOps_all (s : State) : s.cancelOps (fun _ => true) = (s.ops.filter (fun o => o.asking)).foldl
    (fun (t : State) (o : Operation) => (t.removeHold o.line).endOp o .error .aborted)
    (s.markCancelled (fun _ => true)) := by
  unfold State.cancelOps State.markCancelled
  simp

/-- A link reset in SERVING and DRAINING (R159). -/
theorem State.takeLinkReset_working (s : State) (hp : s.device.powerFailPending = false)
    (h : s.device.state = .serving ∨ s.device.state = .draining) :
    s.takeLinkReset = (fun u : State => State.drainTest { u with device := { u.device with state := .draining } })
      ((s.forget.cancelOps (fun _ => true)).modAll Context.linkReset).syncNotices.noteDrains := by
  unfold State.takeLinkReset
  rw [if_neg (by simp [hp])]
  rcases h with h | h <;> rw [h]

/-- Cancelling forgotten operations sends nothing (R78). -/
theorem State.cancelOps_forgotten (s : State) (who : Operation → Bool) (h : ∀ o ∈ s.ops, o.forgotten = true) :
    (s.cancelOps who).sent = s.sent ∧ (s.cancelOps who).outstanding = s.outstanding := by
  have key := foldl_relates (fun s t => t.sent = s.sent ∧ t.outstanding = s.outstanding) (fun _ => ⟨rfl, rfl⟩)
    (fun _ _ _ h k => ⟨k.1.trans h.1, k.2.trans h.2⟩)
    (fun (t : State) (o : Operation) => (t.removeHold o.line).endOp o .error .aborted)
    (s.ops.filter (fun o => who o && o.asking))
    (fun t o ho => by
      have ho' := h o (List.mem_filter.1 ho).1
      constructor
      · rw [State.endOp_sent, if_pos ho']; simp
      · rw [State.endOp_outstanding, if_pos ho']; simp) (s.markCancelled who)
  exact key

/-- R24, R5: the counts after an entry is removed singly. -/
theorem State.removeHold_ctx (s : State) (l : LineAddr) (hn : (s.holds.map (fun e => e.line)).Nodup) (d : RequesterId) :
    (s.removeHold l).ctx d = { s.ctx d with
      holdsCount := (s.ctx d).holdsCount - s.holds.countP (fun e => decide (e.owner = d ∧ e.line = l)) } := by
  have key : ∀ hs : List HoldEntry, (hs.map (fun e => e.line)).Nodup →
      (hs.find? (fun e => decide (e.line = l)) = none → hs.countP (fun e => decide (e.owner = d ∧ e.line = l)) = 0)
      ∧ ∀ e, hs.find? (fun e => decide (e.line = l)) = some e →
        hs.countP (fun e => decide (e.owner = d ∧ e.line = l)) = if d = e.owner then 1 else 0 := by
    intro hs hn
    induction hs with
    | nil => simp
    | cons a rest ih =>
      rw [List.map_cons, List.nodup_cons] at hn
      by_cases ha : a.line = l
      · have h0 : rest.countP (fun e => decide (e.owner = d ∧ e.line = l)) = 0 := by
          rw [List.countP_eq_zero]
          intro x hx
          have : x.line ≠ l := fun e => hn.1 (List.mem_map.2 ⟨x, hx, e.trans ha.symm⟩)
          simp [this]
        rw [List.find?_cons_of_pos (by simpa using ha), List.countP_cons, h0]
        refine ⟨fun h => (by cases h), fun e he => ?_⟩
        cases he
        by_cases ho : a.owner = d
        · simp [ha, ho]
        · rw [if_neg (fun e : d = a.owner => ho e.symm)]; simp [ho]
      · rw [List.find?_cons_of_neg (by simpa using ha), List.countP_cons_of_neg (by simp [ha])]
        exact ih hn.2
  unfold State.removeHold State.hold?
  split
  · rename_i h
    rw [(key s.holds hn).1 h]
    rfl
  · rename_i e h
    rw [(key s.holds hn).2 e h, State.ctx_modCtx]
    split
    · subst_vars; rfl
    · rfl

theorem eraseP_eq_filter_of_nodup {α β : Type} [DecidableEq β] (f : α → β) (b : β) (l : List α) (h : (l.map f).Nodup) :
    l.eraseP (fun a => decide (f a = b)) = l.filter (fun a => decide (b ≠ f a)) := by
  induction l with
  | nil => rfl
  | cons a rest ih =>
    rw [List.map_cons, List.nodup_cons] at h
    by_cases e : f a = b
    · rw [List.eraseP_cons_of_pos (by simpa using e), List.filter_cons_of_neg (by simp [e])]
      refine (List.filter_eq_self.2 (fun x hx => ?_)).symm
      have : b ≠ f x := fun k => h.1 (List.mem_map.2 ⟨x, hx, by rw [e, k]⟩)
      simpa using this
    · rw [List.eraseP_cons_of_neg (by simpa using e), List.filter_cons_of_pos (by simpa using fun k : b = f a => e k.symm), ih h.2]

/-- The withdrawals of a list of operations, one after another (R76). -/
theorem State.foldl_withdraw (gone : List Operation) (u : State) (hg : (gone.map (fun o => o.line)).Nodup)
    (ho : (u.ops.map (fun o => o.line)).Nodup) (hh : (u.holds.map (fun e => e.line)).Nodup) :
    let t := gone.foldl (fun (t : State) (o : Operation) => (t.removeHold o.line).endOp o .error .aborted) u
    t = { u with
      ops := u.ops.filter (fun p => decide (∀ o ∈ gone, o.line ≠ p.line))
      holds := u.holds.filter (fun e => decide (∀ o ∈ gone, o.line ≠ e.line))
      sent := u.sent ++ (gone.filter (fun o => !o.forgotten)).map (fun o =>
        { requester := o.requester, tag := o.tag, code := .error, detail := .aborted, data := none })
      outstanding := u.outstanding.filter (fun e => decide (∀ o ∈ gone, o.forgotten = false → e ≠ (o.requester, o.tag)))
      contexts := t.contexts }
    ∧ ∀ d, t.ctx d = { u.ctx d with
        holdsCount := (u.ctx d).holdsCount
          - u.holds.countP (fun e => decide (e.owner = d ∧ ∃ o ∈ gone, o.line = e.line))
        opsInFlight := (u.ctx d).opsInFlight - gone.countP (fun o => decide (o.requester = d)) } := by
  induction gone generalizing u with
  | nil => exact ⟨by simp, fun d => by simp⟩
  | cons a rest ih =>
    rw [List.map_cons, List.nodup_cons] at hg
    dsimp only
    rw [List.foldl_cons]
    have hv : (u.removeHold a.line).endOp a .error .aborted = { u with
        ops := u.ops.filter (fun p => decide (a.line ≠ p.line))
        holds := u.holds.filter (fun e => decide (a.line ≠ e.line))
        sent := if a.forgotten = true then u.sent else u.sent ++ [
          { requester := a.requester, tag := a.tag, code := .error, detail := .aborted, data := none }]
        outstanding := if a.forgotten = true then u.outstanding
          else u.outstanding.filter (fun e => decide (e ≠ (a.requester, a.tag)))
        contexts := ((u.removeHold a.line).endOp a .error .aborted).contexts } := by
      have h1 : (u.removeHold a.line) = { u with
          holds := u.holds.filter (fun e => decide (a.line ≠ e.line)), contexts := (u.removeHold a.line).contexts } := by
        have : (u.removeHold a.line).holds = u.holds.filter (fun e => decide (a.line ≠ e.line)) := by
          rw [← eraseP_eq_filter_of_nodup _ _ _ hh]
          unfold State.removeHold State.hold?
          split
          · rename_i h
            exact (List.eraseP_of_forall_not (fun x hx => List.find?_eq_none.1 h x hx)).symm
          · rfl
        rw [← this]
        unfold State.removeHold
        split <;> rfl
      rw [State.endOp_eq, State.opGone]
      generalize u.removeHold a.line = w at h1
      rw [h1]
      simp only
      rw [eraseP_eq_filter_of_nodup _ _ _ ho]
    have hc : ∀ d, ((u.removeHold a.line).endOp a .error .aborted).ctx d = { u.ctx d with
        holdsCount := (u.ctx d).holdsCount - u.holds.countP (fun e => decide (e.owner = d ∧ e.line = a.line))
        opsInFlight := (u.ctx d).opsInFlight - if a.requester = d then 1 else 0 } := by
      intro d
      show ((u.removeHold a.line).removeOp a).ctx d = _
      unfold State.removeOp
      rw [State.ctx_modCtx]
      have h2 : ∀ x, State.ctx { u.removeHold a.line with ops := x } d = (u.removeHold a.line).ctx d := fun _ => rfl
      by_cases e : d = a.requester
      · subst e
        rw [if_pos rfl, h2, State.removeHold_ctx _ _ hh]
        simp
      · rw [if_neg e, h2, State.removeHold_ctx _ _ hh]
        rw [if_neg (fun k : a.requester = d => e k.symm)]; simp
    generalize (u.removeHold a.line).endOp a .error .aborted = v at hv hc
    have hvo : (v.ops.map (fun o => o.line)).Nodup := by
      rw [hv]; exact (List.filter_sublist.map _).nodup ho
    have hvh : (v.holds.map (fun e => e.line)).Nodup := by
      rw [hv]; exact (List.filter_sublist.map _).nodup hh
    obtain ⟨h1, h2⟩ := ih v hg.2 hvo hvh
    constructor
    · rw [h1]
      rw [hv]
      dsimp only
      have e1 : (u.ops.filter (fun p => decide (a.line ≠ p.line))).filter (fun p => decide (∀ o ∈ rest, o.line ≠ p.line))
          = u.ops.filter (fun p => decide (∀ o ∈ a :: rest, o.line ≠ p.line)) := by
        rw [List.filter_filter]
        refine List.filter_congr (fun p _ => ?_)
        simp [Bool.and_comm]
      have e2 : (u.holds.filter (fun p => decide (a.line ≠ p.line))).filter (fun p => decide (∀ o ∈ rest, o.line ≠ p.line))
          = u.holds.filter (fun p => decide (∀ o ∈ a :: rest, o.line ≠ p.line)) := by
        rw [List.filter_filter]
        refine List.filter_congr (fun p _ => ?_)
        simp [Bool.and_comm]
      rw [e1, e2]
      cases hf : a.forgotten
      · simp only [Bool.false_eq_true, if_false]
        rw [List.filter_filter, List.filter_cons_of_pos (by simp [hf])]
        simp only [List.map_cons, List.append_assoc, List.singleton_append]
        congr 1
        refine List.filter_congr (fun p _ => ?_)
        simp [hf, Bool.and_comm]
      · simp only [if_true]
        rw [List.filter_cons_of_neg (by simp [hf])]
        congr 1
        refine List.filter_congr (fun p _ => ?_)
        simp [hf]
    · intro d
      rw [h2 d, hc d]
      have e3 : u.holds.countP (fun e => decide (e.owner = d ∧ ∃ o ∈ a :: rest, o.line = e.line))
          = u.holds.countP (fun e => decide (e.owner = d ∧ e.line = a.line))
            + v.holds.countP (fun e => decide (e.owner = d ∧ ∃ o ∈ rest, o.line = e.line)) := by
        rw [hv]
        dsimp only
        have hr : ∀ o ∈ rest, o.line ≠ a.line := fun o ho' k => hg.1 (List.mem_map.2 ⟨o, ho', k⟩)
        generalize u.holds = hs
        induction hs with
        | nil => rfl
        | cons x xs ihx =>
          rw [List.countP_cons, List.countP_cons, ihx]
          by_cases hx : a.line = x.line
          · rw [List.filter_cons_of_neg (by simp [hx])]
            have : ¬ ∃ o ∈ rest, o.line = x.line := fun ⟨o, h, k⟩ => hr o h (k.trans hx.symm)
            simp [hx]
            omega
          · rw [List.filter_cons_of_pos (by simpa using hx), List.countP_cons]
            have hx' : x.line ≠ a.line := fun k => hx k.symm
            simp [hx, hx']
            omega
      have e4 : (a :: rest).countP (fun o => decide (o.requester = d))
          = (if a.requester = d then 1 else 0) + rest.countP (fun o => decide (o.requester = d)) := by
        rw [List.countP_cons]
        simp
        omega
      rw [e3, e4]
      simp only [Nat.sub_sub]

/-! ## Abort requests (R9) -/

/-- Only an OPEN context takes an abort request. -/
theorem State.abortRequest_ignored (s : State) (c : RequesterId) (reason : AbortReason)
    (h : (s.ctx c).state ≠ .opened) : s.abortRequest c reason = s := by
  simp [State.abortRequest, h]

/-- The state after the context's record changed and before its operations are cancelled. -/
theorem State.abortRequest_taken (s : State) (c : RequesterId) (reason : AbortReason)
    (h : (s.ctx c).state = .opened) : s.abortRequest c reason =
      ((s.modCtx c (fun x => x.toAbortPending reason)).cancelOps (fun o => decide (o.requester = c))).noteDrain c := by
  simp [State.abortRequest, h]

/-- What an abort request leaves of an OPEN context, in every view the counts do not enter into. -/
theorem State.abortRequest_ctx {β : Type} (p : Context → β) (hp : Context.Blind p) (s : State) (c d : RequesterId)
    (reason : AbortReason) (h : (s.ctx c).state = .opened) : p ((s.abortRequest c reason).ctx d) =
      p (if d = c then (s.ctx c).toAbortPending reason else s.ctx d) := by
  rw [s.abortRequest_taken c reason h, State.ctx_noteDrain, (State.cancelOps_shrinks _ _).contexts p hp d]
  show p ((s.modCtx c (fun x => x.toAbortPending reason)).ctx d) = _
  rw [State.ctx_modCtx]

/-- An abort request that reaches an OPEN context leaves it ABORT_PENDING with the reason, and its operations
cancelled. -/
theorem State.abortRequest_begun (s : State) (c : RequesterId) (reason : AbortReason)
    (h : (s.ctx c).state = .opened) : (s.abortRequest c reason).abortBegun c reason reason.noticeDue := by
  have key := fun (β : Type) (p : Context → β) (hp : Context.Blind p) => s.abortRequest_ctx p hp c c reason h
  simp only [if_true] at key
  refine ⟨key _ (·.state) ⟨fun _ _ => rfl, fun _ _ => rfl⟩, key _ (·.reason) ⟨fun _ _ => rfl, fun _ _ => rfl⟩,
    key _ (·.noticeDue) ⟨fun _ _ => rfl, fun _ _ => rfl⟩, key _ (·.wait) ⟨fun _ _ => rfl, fun _ _ => rfl⟩, ?_⟩
  intro o ho hr
  rw [s.abortRequest_taken c reason h, State.noteDrain_ops] at ho
  obtain ⟨q, _, rfl⟩ := State.mem_cancelOps_ops ho
  split at hr <;> rename_i hq
  · rw [if_pos hq]
  · simp [hr] at hq

/-- The fields of the tables after an abort request: they shrink, and responses are added. -/
theorem State.abortRequest_shrinks (s : State) (c : RequesterId) (reason : AbortReason) :
    (∀ o ∈ (s.abortRequest c reason).ops, ∃ q ∈ s.ops, q.line = o.line ∧ q.tag = o.tag ∧ q.stage = o.stage
        ∧ q.requester = o.requester)
      ∧ (s.abortRequest c reason).holds.Sublist s.holds ∧ (s.abortRequest c reason).outstanding.Sublist s.outstanding
      ∧ s.sent <+: (s.abortRequest c reason).sent := by
  by_cases h : (s.ctx c).state = .opened
  · have k := State.cancelOps_shrinks (s.modCtx c (fun x => x.toAbortPending reason)) (fun o => decide (o.requester = c))
    refine ⟨?_, ?_, ?_, ?_⟩ <;> rw [s.abortRequest_taken c reason h]
    · intro o ho
      rw [State.noteDrain_ops] at ho
      obtain ⟨q, hq, rfl⟩ := State.mem_cancelOps_ops ho
      exact ⟨q, hq, by split <;> exact ⟨rfl, rfl, rfl, rfl⟩⟩
    · rw [State.noteDrain_holds]; exact k.holds
    · rw [State.noteDrain_outstanding]; exact k.outstanding
    · rw [State.noteDrain_sent]; exact k.sent
  · rw [s.abortRequest_ignored c reason h]
    exact ⟨fun o ho => ⟨o, ho, rfl, rfl, rfl, rfl⟩, List.Sublist.refl _, List.Sublist.refl _, List.prefix_refl _⟩

/-- An abort request does not change a context's state other than from OPEN to ABORT_PENDING. -/
theorem State.abortRequest_other (s : State) (c d : RequesterId) (reason : AbortReason) (hd : d ≠ c) :
    ((s.abortRequest c reason).ctx d).state = (s.ctx d).state := by
  by_cases h : (s.ctx c).state = .opened
  · rw [s.abortRequest_ctx (·.state) ⟨fun _ _ => rfl, fun _ _ => rfl⟩ c d reason h, if_neg hd]
  · rw [s.abortRequest_ignored c reason h]

/-- R9, R76: an abort request that reaches an OPEN context, whole. -/
theorem State.abortRequest_eq (s : State) (c : RequesterId) (reason : AbortReason) (h : (s.ctx c).state = .opened)
    (hw : s.withdrawable c) : s.abortRequest c reason = s.abortBegins c reason reason.noticeDue := by
  have hg : ((s.modCtx c (fun x => x.toAbortPending reason)).ops.filter
      (fun o => decide (o.requester = c) && o.asking)) = s.withdrawn c := by
    unfold State.withdrawn Operation.asking
    refine List.filter_congr (fun o _ => ?_)
    cases o.slot <;> simp
  have hreq : ∀ o ∈ s.withdrawn c, o.requester = c := by
    intro o ho
    have := (List.mem_filter.1 ho).2
    simp at this
    exact this.1
  have hsub : (s.withdrawn c).Sublist s.ops := List.filter_sublist
  have hv : ∀ d, (s.modCtx c (fun x => x.toAbortPending reason)).ctx d =
      if d = c then (s.ctx c).abortBegun reason reason.noticeDue else s.ctx d := fun d => State.ctx_modCtx _ _ _ _
  unfold State.abortRequest
  rw [if_pos h, State.noteDrain_eq]
  unfold State.abortBegins
  congr 1
  unfold State.cancelOps
  dsimp only
  rw [hg]
  suffices H : ∀ u : State, u = { s.modCtx c (fun x => x.toAbortPending reason) with
      ops := s.ops.map (fun o => if decide (o.requester = c) = true then { o with cancelled := true } else o) } →
      (s.withdrawn c).foldl (fun (t : State) (o : Operation) => (t.removeHold o.line).endOp o .error .aborted) u = _
    from H _ rfl
  intro u hu'
  have hn : (s.withdrawn c) = [] ∨ ((s.withdrawn c).map (fun o => o.line)).Nodup ∧ (u.ops.map (fun o => o.line)).Nodup
      ∧ (u.holds.map (fun e => e.line)).Nodup := by
    rcases hw with hw | ⟨h1, h2⟩
    · exact Or.inl hw
    · refine Or.inr ⟨(hsub.map _).nodup h1, ?_, by rw [hu']; exact h2⟩
      rw [hu']
      have : (s.ops.map (fun o => if decide (o.requester = c) = true then { o with cancelled := true } else o)).map
          (fun o => o.line) = s.ops.map (fun o => o.line) := by
        rw [List.map_map]
        refine List.map_congr_left (fun o _ => ?_)
        by_cases e : o.requester = c <;> simp [e]
      exact this ▸ h1
  have key := fun hn1 hn2 hn3 => State.foldl_withdraw (s.withdrawn c) u hn1 hn2 hn3
  have key' : let t := (s.withdrawn c).foldl (fun (t : State) (o : Operation) => (t.removeHold o.line).endOp o .error .aborted) u
      t = { u with
        ops := u.ops.filter (fun p => decide (∀ o ∈ s.withdrawn c, o.line ≠ p.line))
        holds := u.holds.filter (fun e => decide (∀ o ∈ s.withdrawn c, o.line ≠ e.line))
        sent := u.sent ++ ((s.withdrawn c).filter (fun o => !o.forgotten)).map (fun o =>
          { requester := o.requester, tag := o.tag, code := .error, detail := .aborted, data := none })
        outstanding := u.outstanding.filter
          (fun e => decide (∀ o ∈ s.withdrawn c, o.forgotten = false → e ≠ (o.requester, o.tag)))
        contexts := t.contexts }
      ∧ ∀ d, t.ctx d = { u.ctx d with
          holdsCount := (u.ctx d).holdsCount
            - u.holds.countP (fun e => decide (e.owner = d ∧ ∃ o ∈ s.withdrawn c, o.line = e.line))
          opsInFlight := (u.ctx d).opsInFlight - (s.withdrawn c).countP (fun o => decide (o.requester = d)) } := by
    rcases hn with hn | ⟨h1, h2, h3⟩
    · rw [hn]; exact ⟨by simp, fun d => by simp⟩
    · exact key h1 h2 h3
  obtain ⟨k1, k2⟩ := key'
  generalize (s.withdrawn c).foldl _ u = t at k1 k2
  have hops : u.ops.filter (fun p => decide (∀ o ∈ s.withdrawn c, o.line ≠ p.line)) =
      (s.ops.filter (fun o => decide (o ∉ s.withdrawn c))).map (fun o =>
        if o.requester = c then { o with cancelled := true } else o) := by
    rw [hu']
    show (s.ops.map _).filter _ = _
    rw [List.filter_map]
    have : s.ops.filter ((fun p : Operation => decide (∀ o ∈ s.withdrawn c, o.line ≠ p.line)) ∘
        (fun o => if decide (o.requester = c) = true then { o with cancelled := true } else o))
        = s.ops.filter (fun o => decide (o ∉ s.withdrawn c)) := by
      refine List.filter_congr (fun p hp => ?_)
      have hl : (if decide (p.requester = c) = true then { p with cancelled := true } else p).line = p.line := by
        by_cases e : p.requester = c <;> simp [e]
      simp only [Function.comp, hl]
      refine decide_eq_decide.2 ⟨fun k m => k p m rfl, fun k o ho e => ?_⟩
      rcases hw with hw | ⟨h1, _⟩
      · rw [hw] at ho; cases ho
      · have : o = p := List.inj_on_of_nodup_map h1 (hsub.subset ho) hp e
        exact k (this ▸ ho)
    rw [this]
    refine List.map_congr_left (fun o _ => ?_)
    simp
  rw [k1, hops]
  have hctx : t.contexts = Vector.ofFn (fun d =>
      let lost := s.holds.countP (fun e => decide (e.owner = d ∧ ∃ o ∈ s.withdrawn c, o.line = e.line))
      if d = c then { (s.ctx c).abortBegun reason reason.noticeDue with
        holdsCount := (s.ctx c).holdsCount - lost, opsInFlight := (s.ctx c).opsInFlight - (s.withdrawn c).length }
      else { s.ctx d with holdsCount := (s.ctx d).holdsCount - lost }) := by
    have : ∀ d, t.ctx d = (let lost := s.holds.countP (fun e => decide (e.owner = d ∧ ∃ o ∈ s.withdrawn c, o.line = e.line))
      if d = c then { (s.ctx c).abortBegun reason reason.noticeDue with
        holdsCount := (s.ctx c).holdsCount - lost, opsInFlight := (s.ctx c).opsInFlight - (s.withdrawn c).length }
      else { s.ctx d with holdsCount := (s.ctx d).holdsCount - lost }) := by
      intro d
      have hud : u.ctx d = if d = c then (s.ctx c).abortBegun reason reason.noticeDue else s.ctx d := by
        rw [hu']; exact hv d
      have huh : u.holds = s.holds := by rw [hu']; rfl
      rw [k2 d, hud, huh]
      by_cases e : d = c
      · subst e
        have : (s.withdrawn d).countP (fun o => decide (o.requester = d)) = (s.withdrawn d).length := by
          rw [List.countP_eq_length]
          intro o ho; simp [hreq o ho]
        simp only [if_true, this]
        rfl
      · have : (s.withdrawn c).countP (fun o => decide (o.requester = d)) = 0 := by
          rw [List.countP_eq_zero]
          intro o ho; rw [hreq o ho]; simpa using fun k : c = d => e k.symm
        simp only [if_neg e, this]
        rfl
    apply Vector.ext
    intro i hi
    rw [Vector.getElem_ofFn]
    exact this ⟨i, hi⟩
  rw [hctx, hu']
  rfl

end Sys2Proof.Machine
end

