-- ==== Sys2Proof/Laws/Ending.lean ====
section
/-! SUPPORT. What a durable end record, an end-record request, and the entry into FAULTED leave: cited by the statements
about record and header writes, the Rollback Engine and start-up. -/

namespace Sys2Proof.Machine

/-! ## Held control responses -/

/-- The responses of a list of tags, sent one after another. -/
theorem State.foldl_finish (c : RequesterId) (code : ResponseCode) (detail : ResponseDetail) (tags : List Tag) (s : State) :
    tags.foldl (fun (t : State) tag => t.finish false c tag code detail) s = { s with
      outstanding := s.outstanding.filter (fun e => decide (¬(e.1 = c ∧ e.2 ∈ tags)))
      sent := s.sent ++ tags.map (fun tag =>
        { requester := c, tag := tag, code := code, detail := detail, data := none }) } := by
  induction tags generalizing s with
  | nil => simp
  | cons a rest ih =>
    rw [List.foldl_cons, ih]
    have h : (s.outstanding.filter (fun e => decide (e ≠ (c, a)))).filter (fun e => decide (¬(e.1 = c ∧ e.2 ∈ rest)))
        = s.outstanding.filter (fun e => decide (¬(e.1 = c ∧ e.2 ∈ a :: rest))) := by
      rw [List.filter_filter]
      refine List.filter_congr (fun e _ => ?_)
      obtain ⟨x, y⟩ := e
      by_cases h1 : x = c <;> by_cases h2 : y = a <;> by_cases h3 : y ∈ rest <;> simp [h1, h2, h3]
    simp only [State.finish]
    simp only [Bool.false_eq_true, if_false]
    rw [h]
    simp

/-- Held control responses answered (R8, R12, R15). -/
theorem State.answerHeld_eq (s : State) (c : RequesterId) (code : ResponseCode) (detail : ResponseDetail)
    (outcome : ControlOutcome) : s.answerHeld c code detail outcome = { s with
      outstanding := s.outstanding.filter (fun e => decide (¬(e.1 = c ∧ e.2 ∈ (s.ctx c).held)))
      sent := s.sent ++ (s.ctx c).held.map (fun tag =>
        { requester := c, tag := tag, code := code, detail := detail, data := none })
      contexts := s.contexts.set c { s.ctx c with
        held := [], lastOutcome := if (s.ctx c).held = [] then (s.ctx c).lastOutcome else outcome } } := by
  unfold State.answerHeld
  simp only [State.foldl_finish]
  simp only [State.modCtx, State.setCtx, List.isEmpty_iff]
  rfl

/-- The notices the Device State Controller keeps, after the Context Table's report (R13). -/
theorem State.syncNotices_standing (s : State) :
    s.syncNotices.device.noticesStanding = true ↔ ∃ c, (s.syncNotices.ctx c).state = .aborted := by
  show allContexts.any (fun c => decide ((s.ctx c).state = .aborted)) = true ↔ ∃ c, (s.ctx c).state = .aborted
  rw [List.any_eq_true]
  exact ⟨fun ⟨c, _, h⟩ => ⟨c, by simpa using h⟩, fun ⟨c, h⟩ => ⟨c, mem_allContexts c, by simpa using h⟩⟩

/-! ## End records (R8, R12) -/

/-- A context's record at the durable end record, before its responses are sent. -/
def Context.ended (kind : RecordKind) (x : Context) : Context :=
  (if kind = .abort then Context.abortEnded else Context.committed) { x with holdsCount := 0 }

theorem State.endDurable_ctx_self (s : State) (c : RequesterId) (kind : RecordKind) :
    (s.endDurable c kind).ctx c = { Context.ended kind (s.ctx c) with
      held := [], lastOutcome := if (s.ctx c).held = [] then (s.ctx c).lastOutcome else .done } := by
  have hh : (Context.ended kind (s.ctx c)).held = (s.ctx c).held
      ∧ (Context.ended kind (s.ctx c)).lastOutcome = (s.ctx c).lastOutcome := by
    unfold Context.ended
    split
    · unfold Context.abortEnded; split <;> exact ⟨rfl, rfl⟩
    · exact ⟨rfl, rfl⟩
  have hc : (((s.releaseHolds c).modCtx c (if kind = .abort then Context.abortEnded else Context.committed))).ctx c
      = Context.ended kind (s.ctx c) := by
    rw [State.ctx_modCtx_self, State.releaseHolds, State.ctx_modCtx_self]
    rfl
  show (State.answerHeld _ c _ _ _).ctx c = _
  rw [State.answerHeld_eq, hc, hh.1, hh.2]
  simp [State.ctx]

theorem State.endDurable_ctx_other (s : State) (c d : RequesterId) (kind : RecordKind) (h : d ≠ c) :
    (s.endDurable c kind).ctx d = s.ctx d := by
  have h' : c.val ≠ d.val := fun e => h (Fin.ext e.symm)
  show (State.answerHeld _ c _ _ _).ctx d = _
  rw [State.answerHeld_eq]
  simp [State.ctx, State.releaseHolds, State.modCtx, State.setCtx, h']

/-- The part after a durable end record, but for its contexts and notices. -/
theorem State.endDurable_rest (s : State) (c : RequesterId) (kind : RecordKind) : s.endDurable c kind = { s with
    holds := s.holds.filter (fun e => decide (e.owner ≠ c))
    sent := s.sent ++ (s.ctx c).held.map (fun tag =>
      { requester := c, tag := tag, code := .okay, detail := .noDetail, data := none })
    outstanding := s.outstanding.filter (fun e => decide (¬(e.1 = c ∧ e.2 ∈ (s.ctx c).held)))
    contexts := (s.endDurable c kind).contexts
    device := { s.device with noticesStanding := (s.endDurable c kind).device.noticesStanding } } := by
  have hh : ((((s.releaseHolds c).modCtx c (if kind = .abort then Context.abortEnded else Context.committed))).ctx c).held
      = (s.ctx c).held := by
    rw [State.ctx_modCtx_self, State.releaseHolds, State.ctx_modCtx_self]
    split
    · unfold Context.abortEnded; split <;> rfl
    · rfl
  unfold State.endDurable
  rw [State.answerHeld_eq, hh]
  rfl

theorem State.endDurable_endedFrom (s : State) (c : RequesterId) (kind : RecordKind) :
    s.endedFrom (s.endDurable c kind) c := by
  have hx : ∀ x : Context, (Context.ended kind x).holdsCount = 0 ∧ (Context.ended kind x).firstSlot = none
      ∧ (Context.ended kind x).lastSlot = none ∧ (Context.ended kind x).noticeDue = none
      ∧ (Context.ended kind x).undoCount = 0 ∧ (Context.ended kind x).wait = none := by
    intro x
    unfold Context.ended
    split
    · unfold Context.abortEnded; split <;> exact ⟨rfl, rfl, rfl, rfl, rfl, rfl⟩
    · exact ⟨rfl, rfl, rfl, rfl, rfl, rfl⟩
  have hr := s.endDurable_rest c kind
  obtain ⟨h1, h2, h3, h4, h5, h6⟩ := hx (s.ctx c)
  refine ⟨by rw [hr], by rw [hr], by rw [hr], ?_, ?_, ?_, ?_, ?_, ?_, ?_, ?_,
    fun d hd => s.endDurable_ctx_other c d kind hd, State.syncNotices_standing _⟩ <;> rw [State.endDurable_ctx_self]
  · exact h1
  · exact h2
  · exact h3
  · exact h4
  · exact h5
  · exact h6

/-- R49, R50: re-evaluating the tail changes the Header Writer only. -/
theorem State.reevaluateTail_rest (s : State) : s.reevaluateTail = { s with header := s.reevaluateTail.header } := by
  unfold State.reevaluateTail
  dsimp only
  split <;> rfl

/-- R160: the test of the end of DRAINING changes the device state only. -/
theorem State.drainTest_rest (s : State) :
    s.drainTest = { s with device := { s.device with state := s.drainTest.device.state } } := by
  unfold State.drainTest
  split <;> rfl

/-- R90: freeing the engine changes the engine, and the device state by the test of R160. -/
theorem State.engineFreed_rest (s : State) : s.engineFreed = { s with
    engine := { s.engine with
      current := none, foundCount := 0, phase := if s.engine.phase = .stopped then .stopped else .free }
    device := { s.device with state := s.engineFreed.device.state } } := by
  have key : ∀ (u : State) (p : Prop) [Decidable p], (if p then u.drainTest else u) =
      { u with device := { u.device with state := (if p then u.drainTest else u).device.state } } := by
    intro u p _
    split
    · exact u.drainTest_rest
    · rfl
  exact key _ _

/-- R49: what a context contributes. -/
theorem State.contributed_iff (t : State) (d : RequesterId) (slot : Nat) :
    t.contributed d = some slot ↔ t.contributes d slot := by
  unfold State.contributed State.contributes
  dsimp only
  have hp : (fun r : AssignedRecord => decide (r.owner = d ∧ r.record.kind ≠ .undo))
      = fun r => decide (r.owner = d) && decide (r.record.kind ≠ .undo) := by
    funext r; simp
  rw [hp]
  split
  · rename_i h
    cases hf : (t.ctx d).firstSlot with
    | some f => simp [h]
    | none => simp [h, and_comm]
  · rename_i h
    simp [h]

/-- R49: the search for the working tail among a list of contexts. -/
theorem State.foldl_tail (t : State) (l : List RequesterId) (best : Position) :
    let p := l.foldl (fun best c => match t.contributed c with
      | some slot => t.nearerTail { slot := slot, seq := t.slotSeq slot } best
      | none => best) best
    t.beyondPublished p ≤ t.beyondPublished best
      ∧ (p = best ∨ ∃ d, t.contributed d = some p.slot ∧ p.seq = t.slotSeq p.slot)
      ∧ (∀ d ∈ l, ∀ slot, t.contributed d = some slot →
          t.beyondPublished p ≤ t.beyondPublished { slot := slot, seq := t.slotSeq slot }) := by
  induction l generalizing best with
  | nil => exact ⟨Nat.le_refl _, Or.inl rfl, fun _ h => by cases h⟩
  | cons a rest ih =>
    dsimp only
    rw [List.foldl_cons]
    cases hc : t.contributed a with
    | none =>
      obtain ⟨h1, h2, h3⟩ := ih best
      refine ⟨h1, h2, fun d hd slot hs => ?_⟩
      rcases List.mem_cons.1 hd with rfl | hd
      · rw [hc] at hs; cases hs
      · exact h3 d hd slot hs
    | some slot0 =>
      obtain ⟨h1, h2, h3⟩ := ih (t.nearerTail { slot := slot0, seq := t.slotSeq slot0 } best)
      have hn : t.beyondPublished (t.nearerTail { slot := slot0, seq := t.slotSeq slot0 } best) ≤ t.beyondPublished best
          ∧ t.beyondPublished (t.nearerTail { slot := slot0, seq := t.slotSeq slot0 } best)
            ≤ t.beyondPublished { slot := slot0, seq := t.slotSeq slot0 }
          ∧ (t.nearerTail { slot := slot0, seq := t.slotSeq slot0 } best = best
            ∨ t.nearerTail { slot := slot0, seq := t.slotSeq slot0 } best = { slot := slot0, seq := t.slotSeq slot0 }) := by
        unfold State.nearerTail
        split
        · rename_i h; exact ⟨Nat.le_of_lt h, Nat.le_refl _, Or.inr rfl⟩
        · rename_i h; exact ⟨Nat.le_refl _, Nat.le_of_not_lt h, Or.inl rfl⟩
      refine ⟨Nat.le_trans h1 hn.1, ?_, fun d hd slot hs => ?_⟩
      · rcases h2 with h2 | h2
        · rcases hn.2.2 with k | k
          · exact Or.inl (h2.trans k)
          · refine Or.inr ⟨a, ?_⟩
            rw [h2, k]
            exact ⟨hc, rfl⟩
        · exact Or.inr h2
      · rcases List.mem_cons.1 hd with rfl | hd
        · rw [hc] at hs; cases hs
          exact Nat.le_trans h1 hn.2.1
        · exact h3 d hd slot hs

/-- R49: the search finds the working tail. -/
theorem State.workingTail_spec (t : State) (h : t.tailsBeforeHead) : t.isWorkingTail t.workingTail := by
  obtain ⟨_, h2, h3⟩ := t.foldl_tail allContexts t.journal.head
  unfold State.workingTail
  generalize allContexts.foldl _ t.journal.head = p at *
  have h4 : ∀ d slot, t.contributes d slot →
      t.beyondPublished p ≤ t.beyondPublished { slot := slot, seq := t.slotSeq slot } :=
    fun d slot k => h3 d (mem_allContexts d) slot ((t.contributed_iff d slot).2 k)
  rcases h2 with h2 | ⟨d, h5, h6⟩
  · refine Or.inl ⟨h2, fun d slot k => ?_⟩
    have h7 := h d slot k
    have h8 := h4 d slot k
    rw [h2] at h8
    exact Nat.lt_irrefl _ (Nat.lt_of_lt_of_le h7 h8)
  · exact Or.inr ⟨⟨d, (t.contributed_iff d _).1 h5, h6⟩, h4⟩

/-- R50, R51: re-evaluating the tail hands the Header Writer an image if the tail lies beyond the latest one. -/
theorem State.reevaluateTail_tailHanded (s u : State) (hh : u.header = s.header) (hj : u.journal.published = s.journal.published)
    (hf : u.device.powerFailPending = s.device.powerFailPending) :
    ∀ t : State, t.contexts = u.contexts → t.journal = u.journal → t.loader = u.loader →
      t.header = u.reevaluateTail.header → s.tailHanded t := by
  intro t hc htj hl ht hb
  have hb' : u.tailsBeforeHead := by
    have e : t = { u with
        pins := t.pins, timebase := t.timebase, device := t.device, openCounter := t.openCounter, holds := t.holds
        outstanding := t.outstanding, classified := t.classified, forward := t.forward, ops := t.ops, reports := t.reports
        header := t.header, engine := t.engine, rollbackQueue := t.rollbackQueue, drains := t.drains, link := t.link
        pointer := t.pointer, issued := t.issued, key := t.key, recovery := t.recovery, startupUndone := t.startupUndone
        startupFormatted := t.startupFormatted, sent := t.sent, draws := t.draws, pending := t.pending } := by
      rw [← hc, ← htj, ← hl]
    rw [e] at hb
    exact hb
  refine ⟨u.workingTail, ?_, ?_⟩
  · have h := u.workingTail_spec hb'
    have e : u = { t with
        pins := u.pins, timebase := u.timebase, device := u.device, openCounter := u.openCounter, holds := u.holds
        outstanding := u.outstanding, classified := u.classified, forward := u.forward, ops := u.ops, reports := u.reports
        header := u.header, engine := u.engine, rollbackQueue := u.rollbackQueue, drains := u.drains, link := u.link
        pointer := u.pointer, issued := u.issued, key := u.key, recovery := u.recovery, startupUndone := u.startupUndone
        startupFormatted := u.startupFormatted, sent := u.sent, draws := u.draws, pending := u.pending } := by
      rw [hc, htj, hl]
    generalize u.workingTail = p at h
    rw [e] at h
    exact h
  · generalize hp : u.workingTail = p at ht
    have hlat : u.latestTail = (s.header.pendingImage.map (·.tail)).getD ((s.header.inFlight.map (·.image.tail)).getD
        s.journal.published) := by
      unfold State.latestTail
      rw [hh, hj]
      cases s.header.pendingImage <;> cases s.header.inFlight <;> rfl
    rw [ht]
    unfold State.reevaluateTail
    dsimp only
    rw [hp, hlat, hf, hj]
    constructor
    · intro k
      rw [if_neg ?_]
      · exact hh
      · rintro ⟨k1, k2⟩
        rcases k with k | k
        · rw [k1] at k; cases k
        · exact absurd k2 (Nat.not_lt_of_le k)
    · intro k1 k2
      rw [if_pos ⟨k1, k2⟩, hh]
      have ho : ∀ c : Copy, c.other = if c = .a then .b else .a := by intro c; cases c <;> rfl
      refine ⟨fun h => ?_, fun w h h' => ?_, fun w i h h' => ?_⟩ <;> simp [HeaderWriter.handImage, *]

/-- R90, R160: the device state after the engine is freed. -/
theorem State.engineFreed_state (s t : State) (hc : t.contexts = s.contexts) :
    s.engineFreed.device.state = s.stateAfterFree t := by
  have ha : s.noneAborting = true ↔ ∀ d, (t.ctx d).state ≠ .abortPending ∧ (t.ctx d).state ≠ .rollingBack := by
    unfold State.noneAborting Context.aborting
    rw [List.all_eq_true]
    constructor
    · intro h d
      have := h d (mem_allContexts d)
      rw [State.ctx_congr hc d]
      simpa using this
    · intro h d _
      have := h d
      rw [State.ctx_congr hc d] at this
      simpa using this
  unfold State.engineFreed State.stateAfterFree State.drainTest
  dsimp only
  have hn : State.noneAborting { s with engine := { s.engine with
      current := none, foundCount := 0, phase := if s.engine.phase = .stopped then .stopped else .free } } = s.noneAborting := rfl
  rw [hn]
  by_cases h1 : s.engine.phase = .stopped
  · simp [h1]
  · have h5 : (if s.engine.phase = .stopped then EnginePhase.stopped else EnginePhase.free) = .free := if_neg h1
    have h6 : s.engine.phase ≠ .stopped := h1
    simp only [h5, true_and, eq_true h6]
    by_cases h2 : s.rollbackQueue = []
    · by_cases h3 : s.device.state = .draining ∧ s.pins.lrst = false ∧ s.device.powerFailPending = false
        ∧ s.noneAborting = true
      · rw [if_pos h2, if_pos h3, if_pos ⟨h2, h3.1, h3.2.1, h3.2.2.1, ha.1 h3.2.2.2⟩]
      · rw [if_pos h2, if_neg h3, if_neg (fun k => h3 ⟨k.2.1, k.2.2.1, k.2.2.2.1, ha.2 k.2.2.2.2⟩)]
    · rw [if_neg h2, if_neg (fun k => h2 k.1)]

/-- What follows a durable end record: the tail is re-evaluated, and an ABORT frees the engine. -/
theorem State.endDurable_recordEnded (s : State) (c : RequesterId) (kind : RecordKind) (t : State)
    (ht : t = if kind = .abort then ((s.endDurable c kind).reevaluateTail).engineFreed
      else (s.endDurable c kind).reevaluateTail) :
    s.recordEnded t c kind ∧ t.journal = s.journal ∧ t.ops = s.ops ∧ t.reports = s.reports ∧ t.forward = s.forward
      ∧ t.link = s.link := by
  have hr := s.endDurable_rest c kind
  have he := s.endDurable_endedFrom c kind
  have hself := s.endDurable_ctx_self c kind
  generalize s.endDurable c kind = u at *
  have hb := u.reevaluateTail_rest
  have hc := (u.reevaluateTail).engineFreed_rest
  have hstate := (u.reevaluateTail).engineFreed_state (u.reevaluateTail) rfl
  have htail := fun t => State.reevaluateTail_tailHanded s u (by rw [hr]) (by rw [hr]) (by rw [hr]) t
  have hfr : (t.holds = u.holds ∧ t.sent = u.sent ∧ t.outstanding = u.outstanding
      ∧ t.contexts = u.contexts ∧ t.device.noticesStanding = u.device.noticesStanding ∧ t.journal = u.journal
      ∧ t.ops = u.ops ∧ t.reports = u.reports ∧ t.forward = u.forward ∧ t.link = u.link ∧ t.loader = u.loader
      ∧ t.header = u.reevaluateTail.header)
      ∧ (kind = .abort → u.engine.phase ≠ .stopped → t.engine.phase = .free ∧ t.engine.current = none)
      ∧ t.device.state = (if kind = .abort then s.stateAfterFree t else s.device.state) := by
    split at ht
    · rename_i hk
      generalize u.reevaluateTail.header = hdr at *
      have hs : s.stateAfterFree t = u.reevaluateTail.stateAfterFree u.reevaluateTail := by
        have e : t.contexts = u.reevaluateTail.contexts := by rw [ht, hc]
        unfold State.stateAfterFree
        simp only [State.ctx_congr e]
        rw [hb, hr]
      rw [← hs, ← ht] at hstate
      rw [← ht] at hc
      generalize u.reevaluateTail = v at *
      rw [hb] at hc
      refine ⟨?_, fun _ hp => ?_, ?_⟩
      · rw [hc]; exact ⟨rfl, rfl, rfl, rfl, rfl, rfl, rfl, rfl, rfl, rfl, rfl, rfl⟩
      · rw [hc]; simp [hp]
      · rw [if_pos hk]; exact hstate
    · rename_i hk
      subst ht
      generalize u.reevaluateTail.header = hdr at *
      generalize u.reevaluateTail = v at *
      rw [hb]
      exact ⟨⟨rfl, rfl, rfl, rfl, rfl, rfl, rfl, rfl, rfl, rfl, rfl, rfl⟩, fun h => absurd h hk, by rw [if_neg hk, hr]⟩
  obtain ⟨⟨g1, g2, g3, g4, g5, g6, g7, g8, g9, g10, g11, g12⟩, ge, gs⟩ := hfr
  have hctx : ∀ d, t.ctx d = u.ctx d := fun d => State.ctx_congr g4 d
  refine ⟨⟨?_, ?_, ?_, ?_, ?_, gs, htail t g4 g6 g11 g12⟩, ?_, ?_, ?_, ?_, ?_⟩
  · unfold State.endedFrom at he ⊢
    rw [g1, g2, g3, g5]
    simp only [hctx]
    exact he
  · intro hk
    rw [hctx, hself]
    simp only [Context.ended, if_neg hk]
    exact ⟨rfl, rfl, rfl⟩
  · intro hk hn
    rw [hctx, hself]
    simp [Context.ended, hk, Context.abortEnded, hn]
  · intro hk hn
    rw [hctx, hself]
    simp [Context.ended, hk, Context.abortEnded, hn]
  · intro hk hp
    exact ge hk (by rw [hr]; exact hp)
  · rw [g6, hr]
  · rw [g7, hr]
  · rw [g8, hr]
  · rw [g9, hr]
  · rw [g10, hr]

/-! ## Faults (R158) -/

/-- A context record at a fault (R15). -/
def Context.heldFaulted (x : Context) : Context :=
  { x with held := [], lastOutcome := if x.held = [] then x.lastOutcome else .notAvailable }

theorem State.ctx_answerHeld_fault (s : State) (a c : RequesterId) :
    (s.answerHeld a .error .fault .notAvailable).ctx c = if c = a then (s.ctx a).heldFaulted else s.ctx c := by
  rw [State.answerHeld_eq]
  exact s.ctx_setCtx a c _

/-- The held responses of a list of contexts (R15). -/
def State.heldAnswers (s : State) (l : List RequesterId) : List (RequesterId × Tag) :=
  l.flatMap (fun c => (s.ctx c).held.map (fun tag => (c, tag)))

/-- R15: the held responses of a list of contexts are answered, and their contexts' last outcomes set. -/
theorem State.foldl_answerHeld (l : List RequesterId) (s : State) (hl : l.Nodup) :
    let t := l.foldl (fun (t : State) a => t.answerHeld a .error .fault .notAvailable) s
    t = { s with
      contexts := t.contexts
      outstanding := s.outstanding.filter (fun e => decide (e ∉ s.heldAnswers l))
      sent := s.sent ++ (s.heldAnswers l).map (fun e =>
        { requester := e.1, tag := e.2, code := .error, detail := .fault, data := none }) }
    ∧ ∀ c, t.ctx c = if c ∈ l then (s.ctx c).heldFaulted else s.ctx c := by
  induction l generalizing s with
  | nil => exact ⟨by simp [State.heldAnswers], fun c => by simp⟩
  | cons a rest ih =>
    rw [List.nodup_cons] at hl
    dsimp only
    rw [List.foldl_cons]
    have hv : ∀ c, (s.answerHeld a .error .fault .notAvailable).ctx c = if c = a then (s.ctx a).heldFaulted else s.ctx c :=
      s.ctx_answerHeld_fault a
    have hr : (s.answerHeld a .error .fault .notAvailable) = { s with
        contexts := (s.answerHeld a .error .fault .notAvailable).contexts
        outstanding := s.outstanding.filter (fun e => decide (¬(e.1 = a ∧ e.2 ∈ (s.ctx a).held)))
        sent := s.sent ++ (s.ctx a).held.map (fun tag =>
          { requester := a, tag := tag, code := .error, detail := .fault, data := none }) } := by
      rw [State.answerHeld_eq]
    generalize s.answerHeld a .error .fault .notAvailable = v at hv hr
    obtain ⟨h1, h2⟩ := ih v hl.2
    have hh : v.heldAnswers rest = s.heldAnswers rest := by
      have gen : ∀ r : List RequesterId, a ∉ r → v.heldAnswers r = s.heldAnswers r := by
        intro r
        induction r with
        | nil => exact fun _ => rfl
        | cons b bs ihb =>
          intro h
          have hb : b ≠ a := fun e => h (e ▸ List.mem_cons_self)
          have := ihb (fun m => h (List.mem_cons_of_mem _ m))
          unfold State.heldAnswers at this ⊢
          rw [List.flatMap_cons, List.flatMap_cons, this, hv b, if_neg hb]
      exact gen rest hl.1
    constructor
    · rw [h1, hh, hr]
      have e1 : s.heldAnswers (a :: rest) = (s.ctx a).held.map (fun tag => (a, tag)) ++ s.heldAnswers rest := by
        unfold State.heldAnswers; rw [List.flatMap_cons]
      have e2 : (s.outstanding.filter (fun e => decide (¬(e.1 = a ∧ e.2 ∈ (s.ctx a).held)))).filter
            (fun e => decide (e ∉ s.heldAnswers rest))
          = s.outstanding.filter (fun e => decide (e ∉ s.heldAnswers (a :: rest))) := by
        rw [List.filter_filter]
        refine List.filter_congr (fun e _ => ?_)
        rw [e1]
        obtain ⟨x, y⟩ := e
        by_cases k1 : x = a <;> by_cases k2 : y ∈ (s.ctx a).held <;> by_cases k3 : (x, y) ∈ s.heldAnswers rest <;>
          simp [k1, k2, k3, eq_comm (a := a)]
      dsimp only
      rw [e2, e1]
      simp [Function.comp_def]
    · intro c
      rw [h2 c, hv c]
      by_cases e : c = a
      · subst e
        simp [hl.1]
      · simp [e]

/-- R15: the held responses are answered at the entry into FAULTED. -/
theorem State.faultHeld_eq (s : State) : s.faultHeld = { s with
      contexts := s.faultHeld.contexts
      outstanding := s.outstanding.filter (fun e => decide (e ∉ s.heldAnswers allContexts))
      sent := s.sent ++ (s.heldAnswers allContexts).map (fun e =>
        { requester := e.1, tag := e.2, code := .error, detail := .fault, data := none }) }
    ∧ ∀ c, s.faultHeld.ctx c = (s.ctx c).heldFaulted := by
  obtain ⟨h1, h2⟩ := State.foldl_answerHeld allContexts s nodup_allContexts
  exact ⟨h1, fun c => (h2 c).trans (if_pos (mem_allContexts c))⟩

/-- R77, R73: a list of operations ends with ERROR FAULT, one after another. -/
theorem State.foldl_endFault (l : List Operation) (s : State) :
    let t := l.foldl (fun (t : State) o => t.endOp o .error .fault) s
    t = { s with
      ops := l.foldl (fun ops o => ops.eraseP (fun p => decide (p.line = o.line))) s.ops
      contexts := t.contexts
      outstanding := s.outstanding.filter
        (fun e => decide (e ∉ (l.filter (fun o => !o.forgotten)).map (fun o => (o.requester, o.tag))))
      sent := s.sent ++ (l.filter (fun o => !o.forgotten)).map (fun o =>
        { requester := o.requester, tag := o.tag, code := .error, detail := .fault, data := none }) }
    ∧ ∀ c, t.ctx c = { s.ctx c with
        opsInFlight := (s.ctx c).opsInFlight - l.countP (fun o => decide (o.requester = c)) } := by
  induction l generalizing s with
  | nil => exact ⟨by simp, fun c => by simp⟩
  | cons a rest ih =>
    dsimp only
    rw [List.foldl_cons]
    have hc : ∀ c, (s.endOp a .error .fault).ctx c = { s.ctx c with
        opsInFlight := (s.ctx c).opsInFlight - if a.requester = c then 1 else 0 } := by
      intro c
      have h : ∀ x, State.ctx { s with ops := x } c = s.ctx c := fun _ => rfl
      show (s.removeOp a).ctx c = _
      unfold State.removeOp
      rw [State.ctx_modCtx]
      by_cases e : c = a.requester
      · subst e; rw [if_pos rfl, if_pos rfl, h]
      · rw [if_neg e, if_neg (fun k : a.requester = c => e k.symm), h]; rfl
    have hr : s.endOp a .error .fault = { s with
        ops := s.ops.eraseP (fun p => decide (p.line = a.line))
        contexts := (s.endOp a .error .fault).contexts
        outstanding := if a.forgotten = true then s.outstanding
          else s.outstanding.filter (fun e => decide (e ≠ (a.requester, a.tag)))
        sent := if a.forgotten = true then s.sent else s.sent ++ [
          { requester := a.requester, tag := a.tag, code := .error, detail := .fault, data := none }] } := by
      rw [State.endOp_eq]; rfl
    generalize s.endOp a .error .fault = v at hc hr
    obtain ⟨h1, h2⟩ := ih v
    constructor
    · rw [h1, hr]
      dsimp only
      cases hf : a.forgotten
      · rw [List.filter_cons_of_pos (by simp [hf])]
        simp only [Bool.false_eq_true, if_false, List.map_cons, List.append_assoc, List.singleton_append, List.foldl_cons]
        rw [List.filter_filter]
        congr 1
        refine List.filter_congr (fun e _ => ?_)
        simp only [List.mem_cons, not_or, Bool.decide_and, ne_eq]
        rw [Bool.and_comm]
      · rw [List.filter_cons_of_neg (by simp [hf])]
        simp only [if_true, List.foldl_cons]
    · intro c
      rw [h2 c, hc c, List.countP_cons]
      simp only [Nat.sub_sub, decide_eq_true_eq]
      rw [Nat.add_comm]

/-- The operations left, with one for a line. -/
theorem foldl_eraseP_lines (l ops : List Operation) (hs : l.Sublist ops) (hn : (ops.map (fun o => o.line)).Nodup) :
    l.foldl (fun ops o => ops.eraseP (fun p => decide (p.line = o.line))) ops = ops.filter (fun o => decide (o ∉ l)) := by
  have gen : ∀ (l : List Operation) (m : List Operation), (m.map (fun o => o.line)).Nodup →
      l.foldl (fun ops o => ops.eraseP (fun p => decide (p.line = o.line))) m
        = m.filter (fun p => decide (∀ o ∈ l, o.line ≠ p.line)) := by
    intro l
    induction l with
    | nil => intro m _; simp
    | cons a rest ih =>
      intro m hm
      rw [List.foldl_cons, eraseP_eq_filter_of_nodup _ _ _ hm, ih _ ((List.filter_sublist.map _).nodup hm),
        List.filter_filter]
      refine List.filter_congr (fun p _ => ?_)
      simp [Bool.and_comm]
  rw [gen l ops hn]
  refine List.filter_congr (fun p hp => decide_eq_decide.2 ⟨fun k m => k p m rfl, fun k o ho e => ?_⟩)
  exact k ((List.inj_on_of_nodup_map hn (hs.subset ho) hp e) ▸ ho)

/-- R77: the operations that wait for their record are the ones that end. -/
theorem State.faultOps_eq (s : State) : s.faultOps
    = s.faultEnds.foldl (fun (t : State) o => t.endOp o .error .fault) s := by
  unfold State.faultOps State.faultEnds
  congr 1
  refine List.filter_congr (fun o _ => ?_)
  simp

/-- R158: the entry into FAULTED outside RECOVERING, or with LRST_N not asserted, from a state in which the part is
powered and no power-fail is pending. -/
theorem State.enterFaulted_spec (s : State) (cause : FaultCause) (hp : s.pins.porst = false)
    (hf : s.device.powerFailPending = false) : (¬ s.resetAtEntry → s.faultedFrom (s.enterFaulted cause) cause)
      ∧ (∀ c, (s.enterFaulted cause).ctx c = { s.ctx c with
        held := []
        lastOutcome := if (s.ctx c).held = [] then (s.ctx c).lastOutcome else .notAvailable
        opsInFlight := (s.ctx c).opsInFlight - s.faultEnds.countP (fun o => decide (o.requester = c)) })
      ∧ s.enterFaulted cause = { s with
          contexts := (s.enterFaulted cause).contexts
          outstanding := s.outstanding.filter (fun e => decide (e ∉ s.faultAnswers))
          sent := s.sent ++ s.faultAnswers.map (fun e =>
            { requester := e.1, tag := e.2, code := .error, detail := .fault, data := none })
          ops := s.faultEnds.foldl (fun ops o => ops.eraseP (fun p => decide (p.line = o.line))) s.ops
          device := { s.device with state := .faulted, cause := cause }
          header := s.header.stop, engine := s.engine.halt
          recovery := if s.recovery.phase = .idle ∨ s.recovery.phase = .done then s.recovery
            else { s.recovery with phase := .stopped } } := by
  obtain ⟨h1, hc⟩ := s.faultHeld_eq
  have hends : s.faultHeld.faultEnds = s.faultEnds := by unfold State.faultEnds; rw [h1]
  have h0 : s.faultHeld.faultOps = s.faultEnds.foldl (fun (t : State) o => t.endOp o .error .fault) s.faultHeld := by
    rw [State.faultOps_eq, hends]
  obtain ⟨h2, h3⟩ := State.foldl_endFault s.faultEnds s.faultHeld
  rw [← h0] at h2 h3
  have hall : s.faultAnswers = s.heldAnswers allContexts
      ++ (s.faultEnds.filter (fun o => !o.forgotten)).map (fun o => (o.requester, o.tag)) := rfl
  have hctx : ∀ c, (s.enterFaulted cause).ctx c = { s.ctx c with
        held := []
        lastOutcome := if (s.ctx c).held = [] then (s.ctx c).lastOutcome else .notAvailable
        opsInFlight := (s.ctx c).opsInFlight - s.faultEnds.countP (fun o => decide (o.requester = c)) } := by
    intro c
    have e : (s.enterFaulted cause).contexts = s.faultHeld.faultOps.contexts := by
      unfold State.enterFaulted
      generalize s.faultHeld.faultOps = v
      rfl
    rw [State.ctx_congr e c, h3 c, hc c]
    generalize s.ctx c = x
    rfl
  have hrec : s.enterFaulted cause = { s with
          contexts := (s.enterFaulted cause).contexts
          outstanding := s.outstanding.filter (fun e => decide (e ∉ s.faultAnswers))
          sent := s.sent ++ s.faultAnswers.map (fun e =>
            { requester := e.1, tag := e.2, code := .error, detail := .fault, data := none })
          ops := s.faultEnds.foldl (fun ops o => ops.eraseP (fun p => decide (p.line = o.line))) s.ops
          device := { s.device with state := .faulted, cause := cause }
          header := s.header.stop, engine := s.engine.halt
          recovery := if s.recovery.phase = .idle ∨ s.recovery.phase = .done then s.recovery
            else { s.recovery with phase := .stopped } } := by
    unfold State.enterFaulted
    dsimp only
    generalize s.faultHeld.faultOps = v at *
    generalize s.faultHeld = u at *
    rw [h2, h1, hall]
    dsimp only
    rw [List.filter_filter]
    congr 1
    · refine List.filter_congr (fun e _ => ?_)
      simp only [List.mem_append, not_or, Bool.decide_and]
      rw [Bool.and_comm]
    · simp [Function.comp_def]
  refine ⟨fun hn => ⟨by rw [hrec], by rw [hrec], ?_, ?_, ?_, by rw [hrec], ?_, ?_, ?_, by rw [hrec]; rfl, by rw [hrec]; rfl,
    by rw [hrec]; rfl, by rw [hrec], by rw [hrec], by rw [hrec]⟩, hctx, hrec⟩
  · rw [hrec]; simp [State.rdy, hp, hf]
  · rw [hrec]; simp [State.attn, hp]
  · intro c
    rw [hctx, if_neg hn]
  · rw [if_neg hn, hrec]
  · rw [if_neg hn, hrec]
  · intro hops
    rw [hrec]
    simp only [if_neg hn, List.map_id']
    exact foldl_eraseP_lines _ _ List.filter_sublist hops

/-! ## The durable head (R47) -/

/-- The report of an end record (R8, R12, R13, R25). -/
theorem State.endDurable_eq (s : State) (c : RequesterId) (kind : RecordKind) :
    s.endDurable c kind = s.endReported c kind := by
  have hx : (s.endDurable c kind).ctx c = (s.ctx c).endReported kind := by
    rw [State.endDurable_ctx_self]
    unfold Context.ended Context.endReported Context.abortEnded Context.committed
    by_cases hk : kind = .abort <;> by_cases hn : (s.ctx c).noticeDue = some true <;> simp [hk, hn]
  have hd : ∀ d, (s.endDurable c kind).ctx d = if d = c then (s.ctx c).endReported kind else s.ctx d := by
    intro d
    split
    · subst_vars; exact hx
    · rename_i h; exact s.endDurable_ctx_other c d kind h
  have hc : (s.endDurable c kind).contexts = s.contexts.set c ((s.ctx c).endReported kind) := by
    have : s.endDurable c kind = { s.endDurable c kind with contexts := s.contexts.set c ((s.ctx c).endReported kind) } := by
      apply State.ext_fields <;> try rfl
      apply Vector.ext
      intro i hi
      have := hd ⟨i, hi⟩
      unfold State.ctx at this
      simp only [Fin.getElem_fin] at this
      rw [this, Vector.getElem_set]
      by_cases e : c.val = i
      · rw [if_pos e, if_pos (Fin.ext e.symm)]; rfl
      · rw [if_neg e, if_neg (fun k => e (congrArg Fin.val k).symm)]
    rw [this]
  have hn : (s.endDurable c kind).device.noticesStanding =
      decide (∃ d, (if d = c then (s.ctx c).endReported kind else s.ctx d).state = .aborted) := by
    rw [Bool.eq_iff_iff, decide_eq_true_iff]
    refine (State.syncNotices_standing _).trans ?_
    exact exists_congr (fun d => by rw [← hd d]; rfl)
  rw [State.endDurable_rest, hc, hn]
  rfl

/-- The report of an UNDO record (R23, R74). -/
theorem State.undoDurable_eq (s : State) (l : LineAddr) : s.undoDurable l = s.undoReported l := by
  unfold State.undoDurable State.undoReported
  dsimp only
  have : (s.promoteHold l).op? l = s.ops.find? (fun o => decide (o.line = l)) := rfl
  rw [this]
  cases s.ops.find? (fun o => decide (o.line = l)) with
  | none => rfl
  | some o =>
    dsimp only
    split
    · unfold State.retireOp
      rw [State.noteDrain_eq, State.endOp_eq]
      rfl
    · rfl

/-- The reports of the records the durable head passes (R47). -/
theorem State.foldl_reportDurable (passed : List AssignedRecord) (s : State) :
    passed.foldl (fun t r => t.reportDurable r) s = s.allReported passed := by
  unfold State.allReported
  congr 1
  funext t r
  unfold State.reportDurable
  cases h : r.record.kind <;> simp [State.undoDurable_eq, State.endDurable_eq]

theorem State.advancePosition_seq (s : State) (n : Nat) (p : Position) :
    (s.advancePosition p n).seq = p.seq + BitVec.ofNat 32 n := by
  induction n generalizing p with
  | zero => simp [State.advancePosition]
  | succ n ih =>
    rw [State.advancePosition, ih]
    show p.seq + 1#32 + _ = _
    rw [BitVec.ofNat_add, BitVec.add_assoc, BitVec.add_comm 1#32]

theorem State.advancePosition_slot (s : State) (n : Nat) (p : Position) (h : n ≠ 0) :
    (s.advancePosition p n).slot = (p.slot + n) % s.slotCount := by
  induction n generalizing p with
  | zero => exact absurd rfl h
  | succ n ih =>
    rw [State.advancePosition]
    by_cases hn : n = 0
    · subst hn; rfl
    · rw [ih _ hn]
      show ((p.slot + 1) % s.slotCount + n) % s.slotCount = _
      rw [Nat.mod_add_mod]
      congr 1
      omega

/-- R47, R50, R90: the durable head passes the marked records before the first unmarked one. They are reported in
sequence order; then the tail is re-evaluated once, if an end record was among them, and an ABORT frees the engine. -/
theorem State.advanceDurable_passes (s : State) (passed rest : List AssignedRecord)
    (hr : s.journal.records = passed ++ rest) (hne : passed ≠ []) (hp : ∀ q ∈ passed, q.mark = true)
    (hh : ∀ q, rest.head? = some q → q.mark = false) (u : State)
    (hu : u = State.allReported { s with journal := { s.journal with
      durableHead := { slot := (s.journal.durableHead.slot + passed.length) % s.slotCount
                       seq := s.journal.durableHead.seq + BitVec.ofNat 32 passed.length }
      records := rest } } passed) :
    let t := s.advanceDurable
    t = { u with header := t.header, engine := t.engine, device := { u.device with state := t.device.state } }
      ∧ ((∀ q ∈ passed, q.record.kind = .undo) → t = u)
      ∧ ((∃ q ∈ passed, q.record.kind ≠ .undo) → u.tailHanded t)
      ∧ ((∀ q ∈ passed, q.record.kind ≠ .abort) → t.engine = u.engine ∧ t.device = u.device)
      ∧ ((∃ q ∈ passed, q.record.kind = .abort) → t.device.state = u.stateAfterFree t
        ∧ (u.engine.phase = .stopped → t.engine.phase = .stopped)
        ∧ (u.engine.phase ≠ .stopped →
          t.engine = { u.engine with phase := .free, current := none, foundCount := 0 })) := by
  have htake : s.journal.records.takeWhile (·.mark) = passed := by
    rw [hr, List.takeWhile_append_of_pos hp]
    cases hl : rest with
    | nil => simp
    | cons a tl => simp [hh a (by rw [hl]; rfl)]
  have hdrop : s.journal.records.dropWhile (·.mark) = rest := by
    rw [hr, List.dropWhile_append_of_pos hp]
    cases hl : rest with
    | nil => rfl
    | cons a tl => simp [hh a (by rw [hl]; rfl)]
  have hlen : passed.length ≠ 0 := fun h => hne (List.length_eq_zero_iff.1 h)
  have hpos : s.advancePosition s.journal.durableHead passed.length
      = { slot := (s.journal.durableHead.slot + passed.length) % s.slotCount
          seq := s.journal.durableHead.seq + BitVec.ofNat 32 passed.length } := by
    rw [← s.advancePosition_slot _ _ hlen, ← s.advancePosition_seq]
  have ht : s.advanceDurable = (let v := if passed.any (fun r => decide (r.record.kind ≠ .undo)) then u.reevaluateTail else u
      if passed.any (fun r => decide (r.record.kind = .abort)) then v.engineFreed else v) := by
    rw [hu, ← State.foldl_reportDurable]
    unfold State.advanceDurable
    dsimp only
    rw [htake, hdrop, hpos]
  have hend : passed.any (fun r => decide (r.record.kind ≠ .undo)) = true ↔ ∃ q ∈ passed, q.record.kind ≠ .undo := by
    rw [List.any_eq_true]; simp
  have habort : passed.any (fun r => decide (r.record.kind = .abort)) = true ↔ ∃ q ∈ passed, q.record.kind = .abort := by
    rw [List.any_eq_true]; simp
  have hb := u.reevaluateTail_rest
  have htail : ∀ t : State, t.contexts = u.contexts → t.journal = u.journal → t.loader = u.loader →
      t.header = u.reevaluateTail.header → u.tailHanded t := State.reevaluateTail_tailHanded u u rfl rfl rfl
  by_cases h1 : ∃ q ∈ passed, q.record.kind = .abort
  · have h2 : ∃ q ∈ passed, q.record.kind ≠ .undo := by
      obtain ⟨q, hq, e⟩ := h1
      exact ⟨q, hq, by rw [e]; decide⟩
    have hv : s.advanceDurable = u.reevaluateTail.engineFreed := by
      rw [ht]; simp only [hend.2 h2, habort.2 h1, if_true]
    have hc := u.reevaluateTail.engineFreed_rest
    have hstate := u.reevaluateTail.engineFreed_state s.advanceDurable (by rw [hv, hc])
    rw [← hv] at hc hstate
    have hs : u.reevaluateTail.stateAfterFree s.advanceDurable = u.stateAfterFree s.advanceDurable := by rw [hb]; rfl
    dsimp only
    generalize s.advanceDurable = t at *
    generalize u.reevaluateTail.header = hdr at *
    refine ⟨?_, fun h => ?_, fun _ => htail t ?_ ?_ ?_ ?_, fun h => ?_, fun _ => ⟨hstate.trans hs, fun h => ?_, fun h => ?_⟩⟩
    · rw [hc, hb]
    · obtain ⟨q, hq, e⟩ := h2
      exact absurd (h q hq) e
    · rw [hc, hb]
    · rw [hc, hb]
    · rw [hc, hb]
    · rw [hc, hb]
    · obtain ⟨q, hq, e⟩ := h1
      exact absurd e (h q hq)
    · rw [hc, hb]; simp [h]
    · rw [hc, hb]; simp [h]
  · have h1' : ∀ q ∈ passed, q.record.kind ≠ .abort := fun q hq e => h1 ⟨q, hq, e⟩
    by_cases h2 : ∃ q ∈ passed, q.record.kind ≠ .undo
    · have hv : s.advanceDurable = u.reevaluateTail := by
        rw [ht]; simp only [hend.2 h2, eq_false_of_ne_true (fun k => h1 (habort.1 k)), if_true, Bool.false_eq_true, if_false]
      dsimp only
      rw [hv]
      generalize u.reevaluateTail = t at *
      refine ⟨?_, fun h => ?_, fun _ => htail t ?_ ?_ ?_ rfl, fun _ => ⟨?_, ?_⟩, fun h => absurd h h1⟩
      · rw [hb]
      · obtain ⟨q, hq, e⟩ := h2
        exact absurd (h q hq) e
      · rw [hb]
      · rw [hb]
      · rw [hb]
      · rw [hb]
      · rw [hb]
    · have hv : s.advanceDurable = u := by
        rw [ht]; simp only [eq_false_of_ne_true (fun k => h2 (hend.1 k)), eq_false_of_ne_true (fun k => h1 (habort.1 k)), Bool.false_eq_true, if_false]
      dsimp only
      rw [hv]
      exact ⟨rfl, fun _ => rfl, fun h => absurd h h2, fun _ => ⟨rfl, rfl⟩, fun h => absurd h h1⟩

end Sys2Proof.Machine
end

