-- ==== Sys2Proof/Laws/Completion.lean ====
section
/-! SUPPORT. What a memory-link completion does, and how the durable head moves over one record: cited by the statements
about completions. -/

namespace Sys2Proof.Machine

/-- A completion of the kind the command names frees its slot and is delivered (R124). -/
theorem State.complete_delivered (s : State) (k : AccessSlot) (a : Access) (mine : Purpose → Bool)
    (deliver : Access → State → State) (ha : s.access k = some a) (hm : mine a.purpose = true) :
    s.complete k mine deliver = (deliver a (s.freeAccess k)).settle := by
  unfold State.complete
  rw [ha]
  simp [hm]

/-- A response that names a free slot is discarded (R124). -/
theorem State.complete_free (s : State) (k : AccessSlot) (mine : Purpose → Bool) (deliver : Access → State → State)
    (ha : s.access k = none) : s.complete k mine deliver = s := by
  unfold State.complete
  rw [ha]

/-- A response for a slot whose access is another's is discarded (log 4). -/
theorem State.complete_other (s : State) (k : AccessSlot) (mine : Purpose → Bool) (deliver : Access → State → State)
    (ha : ∀ a, s.access k = some a → mine a.purpose = false) : s.complete k mine deliver = s := by
  unfold State.complete
  cases h : s.access k with
  | none => rfl
  | some a => simp [ha a h]

/-- A completion that the owner discards frees its slot, and the wind-down may end (R132, R153, R154). -/
theorem State.complete_discarded (s : State) (k : AccessSlot) (a : Access) (mine : Purpose → Bool)
    (deliver : Access → State → State) (ha : s.access k = some a) (hm : mine a.purpose = true)
    (hd : deliver a (s.freeAccess k) = s.freeAccess k) :
    s.complete k mine deliver = ({ s with link := s.link.set k none } : State).woundDown := by
  rw [State.complete_delivered s k a mine deliver ha hm, hd, State.settle_eq]
  rfl

/-- Outside the wind-down nothing is added to a completion. -/
theorem State.settle_running (s : State) (h : s.device.powerFailPending = false) : s.settle = s := by
  simp [State.settle, h]

theorem State.access_freeAccess (s : State) (k j : AccessSlot) :
    (s.freeAccess k).access j = if j = k then none else s.access j := by
  unfold State.freeAccess State.access
  split
  · subst_vars; simp
  · rename_i h
    have h' : k.val ≠ j.val := fun e => h (Fin.ext e.symm)
    simp [h']

theorem State.works_running {s : State} (h : s.works) : s.device.powerFailPending = false :=
  h.elim (fun h => h.2.1) (fun h => h.2.1)

theorem State.works_powered {s : State} (h : s.works) : s.pins.porst = false := h.elim (fun h => h.1) (fun h => h.1)

theorem State.works_state {s : State} (h : s.works) : s.device.state = .serving ∨ s.device.state = .draining :=
  h.elim (fun h => Or.inl h.2.2) (fun h => Or.inr h.2.2)

/-- R158: in SERVING and DRAINING a fault report leads to FAULTED. -/
theorem State.reportFault_works (s : State) (cause : FaultCause) (h : s.works) :
    s.reportFault cause = s.enterFaulted cause := by
  unfold State.reportFault
  rw [State.works_running h]
  rcases State.works_state h with h | h <;> simp [h]

/-- R158, R159: a start-up that fails leads to FAULTED, where a standing link reset is taken. -/
theorem State.reportFault_recovering (s : State) (cause : FaultCause) (h : s.runsIn .recovering) :
    s.reportFault cause = (s.enterFaulted cause).entryLinkReset := by
  unfold State.reportFault
  rw [h.2.1, h.2.2]
  simp

/-- R158: in SERVING and DRAINING the entry into FAULTED takes no link reset. -/
theorem State.reportFault_works_faultedFrom (s : State) (cause : FaultCause) (h : s.works) :
    s.faultedFrom (s.reportFault cause) cause := by
  rw [State.reportFault_works s cause h]
  refine (s.enterFaulted_spec cause (State.works_powered h) (State.works_running h)).1 (fun k => ?_)
  rcases State.works_state h with e | e <;> exact absurd (e.symm.trans k.1) (by decide)

/-- R159: a link reset in FAULTED forgets and clears the armings. -/
theorem State.takeLinkReset_faulted (t : State) (hp : t.device.powerFailPending = false) (hd : t.device.state = .faulted) :
    t.takeLinkReset = { t with
        outstanding := [], classified := []
        forward := t.forward.map (fun e => { e with forgotten := true })
        ops := t.ops.map (fun o => { o with forgotten := true })
        contexts := t.takeLinkReset.contexts }
      ∧ ∀ c, t.takeLinkReset.ctx c = { t.ctx c with arming := none } := by
  have e : t.takeLinkReset = t.forget.modAll (fun x => { x with arming := none }) := by
    unfold State.takeLinkReset
    rw [hp, hd]
    rfl
  rw [e]
  refine ⟨?_, fun c => State.ctx_modAll _ _ c⟩
  exact foldl_relates (fun s t : State => t = { s with contexts := t.contexts }) (fun _ => rfl)
    (fun _ _ _ h k => by rw [h] at k; exact k) _ _ (fun _ _ _ => rfl) _

/-- R153, R158, R159: a start-up that fails, whole. -/
theorem State.reportFault_recovering_faultedFrom (s : State) (cause : FaultCause) (h : s.runsIn .recovering)
    (ha : s.recovery.phase.active) : s.faultedFrom (s.reportFault cause) cause
      ∧ (s.reportFault cause).recovery = { s.recovery with phase := .stopped } := by
  obtain ⟨h1, h2, h3⟩ := s.enterFaulted_spec cause h.1 h.2.1
  have hph : ¬(s.recovery.phase = .idle ∨ s.recovery.phase = .done) := fun k => k.elim ha.1 ha.2.1
  rw [State.reportFault_recovering s cause h]
  unfold State.entryLinkReset
  have hl : (s.enterFaulted cause).pins = s.pins := by simp
  rw [hl]
  cases hr : s.pins.lrst
  · rw [if_neg (by simp)]
    refine ⟨h1 (fun k => absurd (hr.symm.trans k.2) (by decide)), ?_⟩
    rw [h3]
    simp only [if_neg hph]
  · rw [if_pos rfl]
    have hre : s.resetAtEntry := ⟨h.2.2, hr⟩
    have hdev : (s.enterFaulted cause).device = { s.device with state := .faulted, cause := cause } := by rw [h3]
    obtain ⟨k1, k2⟩ := (s.enterFaulted cause).takeLinkReset_faulted (by rw [hdev]; exact h.2.1) (by rw [hdev])
    generalize (s.enterFaulted cause).takeLinkReset = u at *
    generalize s.enterFaulted cause = t at *
    have hops : (s.ops.map (fun o => o.line)).Nodup → t.ops = s.ops.filter (fun o => decide (o ∉ s.faultEnds)) := by
      intro hn
      rw [h3]
      exact foldl_eraseP_lines _ _ List.filter_sublist hn
    have hsent : t.sent = s.sent ++ s.faultAnswers.map (fun e =>
        { requester := e.1, tag := e.2, code := .error, detail := .fault, data := none }) := by rw [h3]
    refine ⟨⟨by rw [k1, hdev], by rw [k1, hdev], ?_, ?_, ?_, by rw [k1, hsent], by rw [k1, if_pos hre],
      by rw [k1, if_pos hre], ?_, by rw [k1, h3]; rfl, by rw [k1, h3]; rfl, by rw [k1, h3]; rfl, by rw [k1, h3],
      by rw [k1, h3], by rw [k1, h3]⟩, ?_⟩
    · rw [k1]; simp [State.rdy, hdev, hl, h.1, h.2.1]
    · rw [k1]; simp [State.attn, hdev, hl, h.1]
    · intro c
      rw [k2 c, h2 c, if_pos hre]
    · intro hn
      rw [k1]
      simp only [hops hn, if_pos hre]
    · rw [k1, h3]
      simp only [if_neg hph]

/-! ## The sequencer's issuing (R145) -/

/-- Issuing changes the link, the model's counters and what has been asked for. -/
theorem State.pump_rest (s : State) : s.pump = { s with
    link := s.pump.link, issued := s.pump.issued, draws := s.pump.draws
    recovery := { s.recovery with io := s.pump.recovery.io } } := by
  unfold State.pump
  split <;> rfl

/-- An access put in a free slot leaves those in flight where they are. -/
theorem placeAccess_keeps (link : Vector (Option Access) 8) (order : Nat) (p : Purpose) (l : LineAddr) (kind : AccessKind)
    (j : AccessSlot) (x : Access) (h : link[j] = some x) : (placeAccess link order p l kind)[j] = some x := by
  unfold placeAccess
  dsimp only
  split
  · rename_i k hk
    have hf : k ∈ freeSlotsOf link := List.mem_of_getElem? hk
    have hn : (link[k]).isNone = true := by simpa using (List.mem_filter.1 hf).2
    have hne : k.val ≠ j.val := by
      intro e
      have : k = j := Fin.ext e
      subst this
      rw [h] at hn
      cases hn
    simpa [hne] using h
  · exact h

/-- Where a slot is free, an access finds one. -/
theorem placeAccess_places (link : Vector (Option Access) 8) (order : Nat) (p : Purpose) (l : LineAddr) (kind : AccessKind)
    (k : AccessSlot) (h : link[k] = none) :
    ∃ j : AccessSlot, (placeAccess link order p l kind)[j] = some { purpose := p, line := l, kind := kind, order := order } := by
  have hm : k ∈ freeSlotsOf link := List.mem_filter.2 ⟨mem_allSlots k, by simp [h]⟩
  have hpos : 0 < (freeSlotsOf link).length := List.length_pos_of_mem hm
  unfold placeAccess
  dsimp only
  have hlt : Config.slotChoice order % (freeSlotsOf link).length < (freeSlotsOf link).length := Nat.mod_lt _ hpos
  rw [List.getElem?_eq_getElem hlt]
  exact ⟨(freeSlotsOf link)[Config.slotChoice order % (freeSlotsOf link).length], by simp⟩

theorem State.placeJobs_keeps (s : State) (jobs : List SeqJob) (i order : Nat) (link : Vector (Option Access) 8)
    (j : AccessSlot) (x : Access) (h : link[j] = some x) : (s.placeJobs jobs i order link)[j] = some x := by
  induction jobs generalizing i order link with
  | nil => exact h
  | cons a rest ih => exact ih _ _ _ (placeAccess_keeps _ _ _ _ _ _ _ h)

/-- Issuing leaves the accesses in flight where they are. -/
theorem State.pump_keeps (s : State) (j : AccessSlot) (x : Access) (h : s.access j = some x) : s.pump.access j = some x := by
  unfold State.pump
  split
  · exact h
  · exact State.placeJobs_keeps _ _ _ _ _ _ _ h

/-- Where a slot is free, an access takes one free slot. -/
theorem placeAccess_set (link : Vector (Option Access) 8) (order : Nat) (p : Purpose) (l : LineAddr) (kind : AccessKind)
    (h : freeSlotsOf link ≠ []) : ∃ j : AccessSlot, link[j] = none
      ∧ placeAccess link order p l kind = link.set j (some { purpose := p, line := l, kind := kind, order := order })
      ∧ (freeSlotsOf (placeAccess link order p l kind)).length + 1 = (freeSlotsOf link).length := by
  have hlt : Config.slotChoice order % (freeSlotsOf link).length < (freeSlotsOf link).length :=
    Nat.mod_lt _ (List.length_pos_of_ne_nil h)
  obtain ⟨j, hj⟩ : ∃ j, j = (freeSlotsOf link)[Config.slotChoice order % (freeSlotsOf link).length] := ⟨_, rfl⟩
  have hm : j ∈ freeSlotsOf link := hj ▸ List.getElem_mem _
  have hset : placeAccess link order p l kind
      = link.set j (some { purpose := p, line := l, kind := kind, order := order }) := by
    unfold placeAccess
    dsimp only
    rw [List.getElem?_eq_getElem hlt, ← hj]
  have hfree : freeSlotsOf (placeAccess link order p l kind) = (freeSlotsOf link).erase j := by
    have hn : (freeSlotsOf link).Nodup := List.Nodup.filter _ (by decide)
    rw [hn.erase_eq_filter, hset]
    unfold freeSlotsOf
    rw [List.filter_filter]
    refine List.filter_congr (fun k _ => ?_)
    by_cases e : k = j
    · subst e; simp
    · have e' : j.val ≠ k.val := fun h => e (Fin.ext h.symm)
      simp [e, e']
  refine ⟨j, by simpa using (List.mem_filter.1 hm).2, hset, ?_⟩
  rw [hfree, List.length_erase_of_mem hm]
  have := List.length_pos_of_mem hm
  omega

/-- The accesses of a list of jobs, as many as there are free slots at most: each takes a free slot, with its place in
the order of issue, and nothing else is put on the link. -/
theorem State.placeJobs_places (s : State) (jobs : List SeqJob) (i order : Nat) (link : Vector (Option Access) 8)
    (h : jobs.length ≤ (freeSlotsOf link).length) :
    (∀ n j, jobs[n]? = some j → ∃ (k : AccessSlot) (x : Access), link[k] = none
        ∧ (s.placeJobs jobs i order link)[k] = some x ∧ x.order = order + n
        ∧ (x.purpose, x.line, x.kind) = s.jobAccess (i + n) j)
      ∧ ∀ (k : AccessSlot) (x : Access), (s.placeJobs jobs i order link)[k] = some x →
        link[k] = some x ∨ ∃ n j, jobs[n]? = some j ∧ x.order = order + n
          ∧ (x.purpose, x.line, x.kind) = s.jobAccess (i + n) j := by
  induction jobs generalizing i order link with
  | nil => exact ⟨fun n j e => by simp at e, fun k x e => Or.inl e⟩
  | cons a rest ih =>
    have hne : freeSlotsOf link ≠ [] := by
      intro e
      rw [e] at h
      simp at h
    obtain ⟨m, hm, hset, hlen⟩ := placeAccess_set link order (s.jobAccess i a).1 (s.jobAccess i a).2.1 (s.jobAccess i a).2.2 hne
    have hkeep := placeAccess_keeps link order (s.jobAccess i a).1 (s.jobAccess i a).2.1 (s.jobAccess i a).2.2
    show (∀ n j, (a :: rest)[n]? = some j → ∃ (k : AccessSlot) (x : Access), link[k] = none
        ∧ (s.placeJobs rest (i + 1) (order + 1) (placeAccess link order _ _ _))[k] = some x ∧ _) ∧
      ∀ (k : AccessSlot) (x : Access), (s.placeJobs rest (i + 1) (order + 1) (placeAccess link order _ _ _))[k] = some x → _
    obtain ⟨h1, h2⟩ := ih (i + 1) (order + 1)
      (placeAccess link order (s.jobAccess i a).1 (s.jobAccess i a).2.1 (s.jobAccess i a).2.2)
      (by rw [List.length_cons] at h; omega)
    have hnew : (placeAccess link order (s.jobAccess i a).1 (s.jobAccess i a).2.1 (s.jobAccess i a).2.2)[m] = some
        { purpose := (s.jobAccess i a).1, line := (s.jobAccess i a).2.1, kind := (s.jobAccess i a).2.2, order := order } := by
      rw [hset]; simp
    refine ⟨fun n j e => ?_, fun k x e => ?_⟩
    · cases n with
      | zero =>
        cases e
        exact ⟨m, _, hm, s.placeJobs_keeps rest _ _ _ m _ hnew, rfl, rfl⟩
      | succ n =>
        obtain ⟨k, x, k1, k2, k3, k4⟩ := h1 n j e
        refine ⟨k, x, ?_, k2, by omega, by rw [k4]; congr 1; omega⟩
        cases hk : link[k] with
        | none => rfl
        | some y =>
          rw [hkeep k y hk] at k1
          cases k1
    · rcases h2 k x e with e | ⟨n, j, k1, k2, k3⟩
      · rw [hset] at e
        have e' : (link.set m (some { purpose := (s.jobAccess i a).1, line := (s.jobAccess i a).2.1
                                      kind := (s.jobAccess i a).2.2, order := order } : Option Access))[k.val] = some x := e
        rw [Vector.getElem_set] at e'
        split at e'
        · cases e'
          exact Or.inr ⟨0, a, rfl, rfl, rfl⟩
        · exact Or.inl e'
      · exact Or.inr ⟨n + 1, j, k1, by omega, by rw [k3]; congr 1; omega⟩

/-- The zeroing writes among the jobs issued are counted. -/
theorem SequencerIO.foldl_markIssued_zero (jobs : List SeqJob) (io : SequencerIO) :
    (jobs.foldl SequencerIO.markIssued io).zeroIssued = io.zeroIssued + jobs.count .zeroWrite := by
  induction jobs generalizing io with
  | nil => rfl
  | cons a rest ih =>
    rw [List.foldl_cons, ih, List.count_cons]
    cases a with
    | headerRead c h => cases c <;> simp [SequencerIO.markIssued]
    | zeroWrite => simp [SequencerIO.markIssued]; omega
    | formatHeader h => simp [SequencerIO.markIssued]
    | walkRead h => simp [SequencerIO.markIssued]
    | undoRead n h => simp [SequencerIO.markIssued]
    | reinit h => simp [SequencerIO.markIssued]

/-- What issuing a list of jobs does to a mark that one job sets: it becomes `issued` if that job is among them. -/
theorem SequencerIO.foldl_markIssued_mark {β : Type} (f : SequencerIO → β) (issued : β) (job : SeqJob)
    (h : ∀ io j, f (SequencerIO.markIssued io j) = if j = job then issued else f io) (jobs : List SeqJob) (io : SequencerIO) :
    f (jobs.foldl SequencerIO.markIssued io) = if job ∈ jobs then issued else f io := by
  induction jobs generalizing io with
  | nil => rfl
  | cons a rest ih =>
    rw [List.foldl_cons, ih, h]
    by_cases e : a = job
    · simp [e]
    · have e' : ¬ job = a := fun k => e k.symm
      simp [e, e']

/-- What issuing a list of jobs does to the slots of the undo pass: a half asked for is marked, and the slots asked for
that are new are added, the other half of each waiting unless it is asked for too. -/
theorem SequencerIO.foldl_markIssued_undo (jobs : List SeqJob) (io : SequencerIO) (asked : SeqJob → HalfRead → HalfRead)
    (ha : ∀ j v, asked j v = if j ∈ jobs then .issued else v) : ∃ more : List UndoRead,
    (∀ u ∈ more, u.place = {
      first := asked (.undoRead u.slot .first) .waiting, second := asked (.undoRead u.slot .second) .waiting })
    ∧ (jobs.foldl SequencerIO.markIssued io).undo = io.undo.map (fun u => { u with place := {
      first := asked (.undoRead u.slot .first) u.place.first
      second := asked (.undoRead u.slot .second) u.place.second } }) ++ more := by
  suffices H : ∀ jobs : List SeqJob, ∃ more : List UndoRead,
      (∀ u ∈ more, u.place = {
        first := if SeqJob.undoRead u.slot .first ∈ jobs then .issued else .waiting
        second := if SeqJob.undoRead u.slot .second ∈ jobs then .issued else .waiting })
      ∧ (jobs.foldl SequencerIO.markIssued io).undo = io.undo.map (fun u => { u with place := {
        first := if SeqJob.undoRead u.slot .first ∈ jobs then .issued else u.place.first
        second := if SeqJob.undoRead u.slot .second ∈ jobs then .issued else u.place.second } }) ++ more
      ∧ ∀ slot h, SeqJob.undoRead slot h ∈ jobs →
        ∃ u ∈ (jobs.foldl SequencerIO.markIssued io).undo, u.slot = slot by
    obtain ⟨more, h1, h2, _⟩ := H jobs
    exact ⟨more, by simpa only [ha] using h1, by simpa only [ha] using h2⟩
  intro jobs
  induction jobs using List.reverseRecOn with
  | nil => exact ⟨[], by simp, by simp, by simp⟩
  | append_singleton js j ih =>
    obtain ⟨more, h1, h2, h3⟩ := ih
    rw [List.foldl_append, List.foldl_cons, List.foldl_nil]
    generalize js.foldl SequencerIO.markIssued io = t at h2 h3
    have other : (∀ slot h, j ≠ .undoRead slot h) → (t.markIssued j).undo = t.undo := by
      intro hj
      cases j with
      | undoRead slot h => exact absurd rfl (hj slot h)
      | headerRead c h => cases c <;> rfl
      | zeroWrite => rfl
      | formatHeader h => rfl
      | walkRead h => rfl
      | reinit h => rfl
    by_cases hj : ∃ slot h, j = .undoRead slot h
    · obtain ⟨slot, h, rfl⟩ := hj
      have e : (t.markIssued (.undoRead slot h)).undo = setUndo slot h .issued t.undo := rfl
      rw [e]
      unfold setUndo
      by_cases ex : ∃ u ∈ t.undo, u.slot = slot
      · rw [if_pos (by simpa using ex), h2]
        refine ⟨more.map (fun u => if u.slot = slot then { u with place := u.place.set h .issued } else u), ?_, ?_, ?_⟩
        · intro u hu
          obtain ⟨v, hv, rfl⟩ := List.mem_map.1 hu
          have hv1 := h1 v hv
          by_cases hs : v.slot = slot
          · subst hs
            cases h <;> simp [PlaceRead.set, hv1]
          · have hs' : ¬ slot = v.slot := fun k => hs k.symm
            simp [hs, hv1]
        · rw [List.map_append, List.map_map]
          congr 1
          refine List.map_congr_left (fun v _ => ?_)
          by_cases hs : v.slot = slot
          · subst hs
            cases h <;> simp [PlaceRead.set]
          · have hs' : ¬ slot = v.slot := fun k => hs k.symm
            simp [hs]
        · intro slot' h' hm
          have : ∃ u ∈ t.undo, u.slot = slot' := by
            rcases List.mem_append.1 hm with hm | hm
            · exact h3 _ _ hm
            · simp at hm; rw [hm.1]; exact ex
          obtain ⟨u, hu, hs⟩ := this
          rw [← h2]
          refine ⟨_, List.mem_map.2 ⟨u, hu, rfl⟩, ?_⟩
          split <;> exact hs
      · rw [if_neg (by simpa using ex), h2]
        have hno : ∀ h', SeqJob.undoRead slot h' ∉ js := fun h' hm => ex (h3 _ _ hm)
        have hnew : ∀ v ∈ io.undo, v.slot ≠ slot := by
          intro v hv hs
          apply ex
          rw [h2]
          exact ⟨_, List.mem_append_left _ (List.mem_map.2 ⟨v, hv, rfl⟩), hs⟩
        have hmore : ∀ v ∈ more, v.slot ≠ slot := by
          intro v hv hs
          apply ex
          rw [h2]
          exact ⟨v, List.mem_append_right _ hv, hs⟩
        refine ⟨more ++ [{ slot := slot, place := PlaceRead.fresh.set h .issued }], ?_, ?_, ?_⟩
        · intro u hu
          rcases List.mem_append.1 hu with hu | hu
          · have := hmore u hu
            simp [h1 u hu, this]
          · simp at hu; subst hu
            cases h <;> simp [PlaceRead.set, PlaceRead.fresh, hno]
        · rw [List.append_assoc]
          congr 1
          refine List.map_congr_left (fun v hv => ?_)
          have := hnew v hv
          simp [this]
        · intro slot' h' hm
          rcases List.mem_append.1 hm with hm | hm
          · obtain ⟨u, hu, hs⟩ := h3 _ _ hm
            rw [h2] at hu
            exact ⟨u, List.mem_append_left _ hu, hs⟩
          · simp at hm; rw [hm.1]
            exact ⟨_, List.mem_append_right _ (List.mem_singleton_self _), rfl⟩
    · have hj' : ∀ slot h, j ≠ .undoRead slot h := fun slot h e => hj ⟨slot, h, e⟩
      have hm : ∀ slot h, SeqJob.undoRead slot h ∈ js ++ [j] ↔ SeqJob.undoRead slot h ∈ js := by
        intro slot h
        simp only [List.mem_append, List.mem_singleton, or_iff_left_iff_imp]
        exact fun e => absurd e.symm (hj' slot h)
      rw [other hj']
      simp only [hm]
      exact ⟨more, h1, h2, h3⟩

/-- R145: what issuing a list of jobs does to what the sequencer has asked for and received, whole. -/
theorem SequencerIO.foldl_markIssued (jobs : List SeqJob) (io : SequencerIO) (asked : SeqJob → HalfRead → HalfRead)
    (ha : ∀ j v, asked j v = if j ∈ jobs then .issued else v) (noted : SeqJob → HalfWrite → HalfWrite)
    (hn : ∀ j v, noted j v = if j ∈ jobs then .issued else v) : ∃ more : List UndoRead,
    (∀ u ∈ more, u.place = {
      first := asked (.undoRead u.slot .first) .waiting, second := asked (.undoRead u.slot .second) .waiting })
    ∧ jobs.foldl SequencerIO.markIssued io = {
      headerA := { first := asked (.headerRead .a .first) io.headerA.first
                   second := asked (.headerRead .a .second) io.headerA.second }
      headerB := { first := asked (.headerRead .b .first) io.headerB.first
                   second := asked (.headerRead .b .second) io.headerB.second }
      zeroIssued := io.zeroIssued + jobs.count .zeroWrite
      formatHeader := { first := noted (.formatHeader .first) io.formatHeader.first
                        second := noted (.formatHeader .second) io.formatHeader.second }
      walk := { first := asked (.walkRead .first) io.walk.first, second := asked (.walkRead .second) io.walk.second }
      undo := io.undo.map (fun u => { u with place := {
        first := asked (.undoRead u.slot .first) u.place.first
        second := asked (.undoRead u.slot .second) u.place.second } }) ++ more
      reinit := { first := noted (.reinit .first) io.reinit.first
                  second := noted (.reinit .second) io.reinit.second } } := by
  obtain ⟨more, h1, h2⟩ := SequencerIO.foldl_markIssued_undo jobs io asked ha
  refine ⟨more, h1, ?_⟩
  have e : ∀ x : SequencerIO, x = { headerA := ⟨x.headerA.first, x.headerA.second⟩
                                    headerB := ⟨x.headerB.first, x.headerB.second⟩, zeroIssued := x.zeroIssued
                                    formatHeader := ⟨x.formatHeader.first, x.formatHeader.second⟩
                                    walk := ⟨x.walk.first, x.walk.second⟩, undo := x.undo
                                    reinit := ⟨x.reinit.first, x.reinit.second⟩ } := fun _ => rfl
  rw [e (jobs.foldl _ _), h2, SequencerIO.foldl_markIssued_zero]
  simp only [ha, hn,
    SequencerIO.foldl_markIssued_mark (·.headerA.first) .issued (.headerRead .a .first)
      (fun io j => by cases j <;> (try rename Copy => c; cases c) <;> (try rename Half => h; cases h) <;> rfl),
    SequencerIO.foldl_markIssued_mark (·.headerA.second) .issued (.headerRead .a .second)
      (fun io j => by cases j <;> (try rename Copy => c; cases c) <;> (try rename Half => h; cases h) <;> rfl),
    SequencerIO.foldl_markIssued_mark (·.headerB.first) .issued (.headerRead .b .first)
      (fun io j => by cases j <;> (try rename Copy => c; cases c) <;> (try rename Half => h; cases h) <;> rfl),
    SequencerIO.foldl_markIssued_mark (·.headerB.second) .issued (.headerRead .b .second)
      (fun io j => by cases j <;> (try rename Copy => c; cases c) <;> (try rename Half => h; cases h) <;> rfl),
    SequencerIO.foldl_markIssued_mark (·.formatHeader.first) .issued (.formatHeader .first)
      (fun io j => by cases j <;> (try rename Copy => c; cases c) <;> (try rename Half => h; cases h) <;> rfl),
    SequencerIO.foldl_markIssued_mark (·.formatHeader.second) .issued (.formatHeader .second)
      (fun io j => by cases j <;> (try rename Copy => c; cases c) <;> (try rename Half => h; cases h) <;> rfl),
    SequencerIO.foldl_markIssued_mark (·.walk.first) .issued (.walkRead .first)
      (fun io j => by cases j <;> (try rename Copy => c; cases c) <;> (try rename Half => h; cases h) <;> rfl),
    SequencerIO.foldl_markIssued_mark (·.walk.second) .issued (.walkRead .second)
      (fun io j => by cases j <;> (try rename Copy => c; cases c) <;> (try rename Half => h; cases h) <;> rfl),
    SequencerIO.foldl_markIssued_mark (·.reinit.first) .issued (.reinit .first)
      (fun io j => by cases j <;> (try rename Copy => c; cases c) <;> (try rename Half => h; cases h) <;> rfl),
    SequencerIO.foldl_markIssued_mark (·.reinit.second) .issued (.reinit .second)
      (fun io j => by cases j <;> (try rename Copy => c; cases c) <;> (try rename Half => h; cases h) <;> rfl)]

/-- R145: what the sequencer issues at an opportunity: the first of the accesses it wants, as many as the free value and
the free slots allow, and at least one if none is in flight. -/
theorem State.pump_issues (s : State) (h : s.device.powerFailPending = false) : ∃ jobs : List SeqJob, jobs <+: s.seqWanted
      ∧ (s.seqOutstanding = 0 → s.seqWanted ≠ [] → (∃ k, s.access k = none) → jobs ≠ [])
      ∧ s.pump = { s with
          link := s.pump.link, issued := s.issued + jobs.length, draws := s.pump.draws
          recovery := { s.recovery with io := jobs.foldl SequencerIO.markIssued s.recovery.io } }
      ∧ (∀ k x, s.access k = some x → s.pump.access k = some x)
      ∧ (∀ n j, jobs[n]? = some j → ∃ k x, s.access k = none ∧ s.pump.access k = some x ∧ x.order = s.issued + n
          ∧ (x.purpose, x.line, x.kind) = s.jobAccess (s.recovery.io.zeroIssued + n) j)
      ∧ (∀ k x, s.pump.access k = some x → s.access k = some x ∨ ∃ n j, jobs[n]? = some j ∧ x.order = s.issued + n
          ∧ (x.purpose, x.line, x.kind) = s.jobAccess (s.recovery.io.zeroIssued + n) j) := by
  have hp : s.pump = { s with
      link := s.placeJobs (s.seqWanted.take s.issueCount) s.recovery.io.zeroIssued s.issued s.link
      issued := s.issued + (s.seqWanted.take s.issueCount).length
      draws := s.draws + 1
      recovery := { s.recovery with io := (s.seqWanted.take s.issueCount).foldl SequencerIO.markIssued s.recovery.io } } := by
    unfold State.pump
    rw [if_neg (by simp [h])]
  have hlen : (s.seqWanted.take s.issueCount).length ≤ (freeSlotsOf s.link).length := by
    rw [List.length_take]
    unfold State.issueCount
    omega
  obtain ⟨h1, h2⟩ := s.placeJobs_places _ s.recovery.io.zeroIssued s.issued s.link hlen
  refine ⟨s.seqWanted.take s.issueCount, List.take_prefix _ _, ?_, by rw [hp], fun k x => s.pump_keeps k x, ?_, ?_⟩
  · rintro h0 hw ⟨k, hk⟩ he
    have hm : k ∈ freeSlotsOf s.link := List.mem_filter.2 ⟨mem_allSlots k, by
      have : s.link[k] = none := hk
      simp [this]⟩
    have hpos := List.length_pos_of_mem hm
    rcases List.take_eq_nil_iff.1 he with e | e
    · unfold State.issueCount at e
      rw [if_pos h0] at e
      omega
    · exact hw e
  · rw [hp]; exact h1
  · rw [hp]; exact h2

/-- R150: the slots from `slot` back to the tail slot. -/
theorem slotsBack_mem (n tail fuel slot : Nat) (hs : slot < n) (ht : tail < n) (x : Nat) (hx : x ∈ slotsBack n tail fuel slot) :
    ∃ back, back ≤ (slot + n - tail) % n ∧ x = (slot + n - back) % n := by
  induction fuel generalizing slot with
  | zero => cases hx
  | succ fuel ih =>
    rw [slotsBack, List.mem_cons] at hx
    rcases hx with rfl | hx
    · exact ⟨0, Nat.zero_le _, by rw [Nat.sub_zero, Nat.add_mod_right, Nat.mod_eq_of_lt hs]⟩
    · split at hx
      · cases hx
      · rename_i hne
        have hp : prevSlot n slot < n := by unfold prevSlot; split <;> omega
        obtain ⟨b, hb, rfl⟩ := ih (prevSlot n slot) hp hx
        have hd : (slot + n - tail) % n = (prevSlot n slot + n - tail) % n + 1 := by
          unfold prevSlot
          split
          · subst_vars
            rw [Nat.mod_eq_of_lt (by omega : 0 + n - tail < n),
              show n - 1 + n - tail = n + (n - 1 - tail) by omega, Nat.add_mod_left, Nat.mod_eq_of_lt (by omega)]
            omega
          · by_cases hlt : tail < slot
            · rw [show slot + n - tail = n + (slot - tail) by omega, show slot - 1 + n - tail = n + (slot - 1 - tail) by omega,
                Nat.add_mod_left, Nat.add_mod_left, Nat.mod_eq_of_lt (by omega), Nat.mod_eq_of_lt (by omega)]
              omega
            · rw [Nat.mod_eq_of_lt (by omega), Nat.mod_eq_of_lt (by omega)]
              omega
        refine ⟨b + 1, by omega, ?_⟩
        have hbn : b < n := Nat.lt_of_le_of_lt hb (Nat.mod_lt _ (by omega))
        unfold prevSlot
        split
        · subst_vars
          have : (0 + n - (b + 1)) % n = n - (b + 1) := by
            rw [Nat.zero_add, Nat.mod_eq_of_lt (by omega)]
          rw [this, show n - 1 + n - b = n + (n - 1 - b) by omega, Nat.add_mod_left, Nat.mod_eq_of_lt (by omega)]
          omega
        · congr 1
          omega

end Sys2Proof.Machine
end

