-- ==== Sys2Proof/Laws/Layouts.lean ====
section
/-! SUPPORT. The byte layouts: what a control line built from its fields gives back, field by field, the recognition of a
line, the check word bit by bit, and the fields of journal records and header copies. -/

namespace Sys2Proof.Machine

theorem lineSignature_controlLineData (code : Byte) (f : ControlFields) :
    lineSignature (controlLineData code f) = f.signature := by
  unfold lineSignature controlLineData controlLineBody
  simp (disch := norm_num) only [BitVec.extractLsb'_append_eq_of_add_le, BitVec.extractLsb'_eq_self]

theorem lineKey_controlLineData (code : Byte) (f : ControlFields) : lineKey (controlLineData code f) = f.key := by
  unfold lineKey controlLineData controlLineBody
  simp (disch := norm_num) only [BitVec.extractLsb'_append_eq_of_le, BitVec.extractLsb'_append_eq_of_add_le]
  exact BitVec.extractLsb'_eq_self

theorem lineCommand_controlLineData (code : Byte) (f : ControlFields) :
    lineCommand (controlLineData code f) = code := by
  unfold lineCommand controlLineData controlLineBody
  simp (disch := norm_num) only [BitVec.extractLsb'_append_eq_of_le, BitVec.extractLsb'_append_eq_of_add_le]
  exact BitVec.extractLsb'_eq_self

theorem lineZeroLow_controlLineData (code : Byte) (f : ControlFields) :
    lineZeroLow (controlLineData code f) = f.zeroLow := by
  unfold lineZeroLow controlLineData controlLineBody
  simp (disch := norm_num) only [BitVec.extractLsb'_append_eq_of_le, BitVec.extractLsb'_append_eq_of_add_le]
  exact BitVec.extractLsb'_eq_self

theorem lineLabel_controlLineData (code : Byte) (f : ControlFields) :
    lineLabel (controlLineData code f) = f.label := by
  unfold lineLabel controlLineData controlLineBody
  simp (disch := norm_num) only [BitVec.extractLsb'_append_eq_of_le, BitVec.extractLsb'_append_eq_of_add_le]
  exact BitVec.extractLsb'_eq_self

theorem lineZeroHigh_controlLineData (code : Byte) (f : ControlFields) :
    lineZeroHigh (controlLineData code f) = f.zeroHigh := by
  unfold lineZeroHigh controlLineData controlLineBody
  simp (disch := norm_num) only [BitVec.extractLsb'_append_eq_of_le, BitVec.extractLsb'_append_eq_of_add_le]
  exact BitVec.extractLsb'_eq_self

theorem lineCheck_controlLineData (code : Byte) (f : ControlFields) :
    lineCheck (controlLineData code f) = f.check := BitVec.extractLsb'_append_eq_left

theorem lineBody_controlLineData (code : Byte) (f : ControlFields) :
    lineBody (controlLineData code f) = controlLineBody code f := BitVec.extractLsb'_append_eq_right

/-- R97: recognition of a full-mask control line, in its fields. -/
theorem State.recognises_controlLineData (s : State) (code : Byte) (f : ControlFields) :
    s.recognises fullMask (controlLineData code f) = true ↔ s.recognisesFields code f := by
  unfold State.recognises State.recognisesFields isControlLine
  rw [lineSignature_controlLineData, lineCheck_controlLineData, lineBody_controlLineData]
  cases s.loader.params with
  | none => simp
  | some p =>
    simp only [Option.any_some, Bool.and_eq_true, decide_eq_true_eq, Option.map_some, Option.some.injEq, true_and]
    constructor
    · exact fun h => ⟨h.1.symm, h.2⟩
    · exact fun h => ⟨h.1.symm, h.2⟩

/-- R100: the malformed test of a control line, in its fields. -/
theorem malformedLine_controlLineData (code : Byte) (f : ControlFields) :
    malformedLine (controlLineData code f) = true ↔ ¬ f.clean ∨ Command.ofCode code = none := by
  unfold malformedLine
  rw [lineZeroLow_controlLineData, lineZeroHigh_controlLineData, lineCommand_controlLineData]
  simp only [Bool.or_eq_true, decide_eq_true_eq, Option.isNone_iff_eq_none, ControlFields.clean]
  tauto

/-- The five codes and their commands (R100). -/
theorem ofCode_code (c : Command) : Command.ofCode c.code = some c := by
  cases c <;> rfl

/-- A full-mask control line that reaches the decoder goes through `controlLine` with its own fields. -/
theorem State.handleWrite_controlLine (s : State) (a : LineArrival) (hs : s.examines) (ha : s.decodes a) :
    s.handleWrite true a.requester a.tag a.line fullMask (controlLineData a.code a.fields) =
      s.controlLine a.requester a.tag a.line (controlLineData a.code a.fields) := by
  obtain ⟨⟨h1, h2⟩, h3⟩ := ha
  have h5 := (s.recognises_controlLineData a.code a.fields).2 h3
  have h6 : fullMask ≠ 0#64 := by decide
  rcases hs with ⟨p1, p2, p3⟩ | ⟨p1, p2, p3⟩ <;>
    simp [State.handleWrite, State.notReady, State.classifyWrite, p1, p2, p3, h1, h2, h5, h6]

/-- The requester of a control line whose key matches is answered by `takeMatched` (R99, R117). -/
theorem State.controlLine_admitted (s : State) (a : LineArrival) (ha : s.admits a) :
    s.controlLine a.requester a.tag a.line (controlLineData a.code a.fields) =
      s.takeMatched a.requester a.tag a.line (controlLineData a.code a.fields) := by
  obtain ⟨_, h1, h2⟩ := ha
  simp [State.controlLine, h1, lineKey_controlLineData, h2]

/-- A control line with zero must-be-zero bytes and a known code reaches its command (R101). -/
theorem State.takeMatched_known (s : State) (r : RequesterId) (t : Tag) (l : LineAddr) (code : Byte) (f : ControlFields)
    (c : Command) (hf : f.clean) (hc : Command.ofCode code = some c) :
    s.takeMatched r t l (controlLineData code f) =
      if s.device.state = .faulted then s.takeFaulted r t l c else s.takeCommand r t l f.label c := by
  have h : malformedLine (controlLineData code f) = false := by
    rw [Bool.eq_false_iff, Ne, malformedLine_controlLineData]
    simp [hf, hc]
  simp [State.takeMatched, h, lineCommand_controlLineData, hc, lineLabel_controlLineData]

/-- The write of a control line is the full-mask write of its 64 bytes. -/
theorem write?_controlLine (c : Instr) (a : LineArrival) (h : c.controlLine? = some a) :
    c.write? = some ⟨a.requester, a.tag, a.line, fullMask, controlLineData a.code a.fields⟩ := by
  cases c <;> simp_all [Instr.write?, Instr.controlLine?]

/-- A line whose tag is free does not wait. -/
theorem State.lineWaits_free (s : State) (w : WaitingLine) (h : (w.requester, w.tag) ∉ s.outstanding) :
    s.lineWaits w = false := by
  unfold State.lineWaits
  simp [h]

/-- A command whose tag is free brings a request that arrives. -/
theorem State.arrives_free (s : State) (c : Instr) (r : RequesterId) (t : Tag) (h : c.request? = some (r, t))
    (hf : (r, t) ∉ s.outstanding) : s.arrives c := by
  intro w hw
  refine s.lineWaits_free w ?_
  cases c <;> simp_all [Instr.waitingLine?, Instr.controlLine?, Instr.request?] <;> (subst hw; exact hf)

/-- Every write that arrives is handled as the write it is (R61); a control line's own command is taken at once. -/
theorem exec_write (c : Instr) (a : WriteArrival) (s : State) (h : c.write? = some a) (ha : s.arrives c) :
    exec c s = .next (s.handleWrite c.controlLine?.isSome a.requester a.tag a.line a.mask a.data) := by
  cases c <;> simp [Instr.write?, Instr.controlLine?] at h <;> subst h
  case writeRequest => rfl
  all_goals
    have hw := ha _ rfl
    unfold exec
    simp only [execOpen, execCommit, execAbort, execQuery, execAcknowledge, execControlLineUnknownCommand, State.handleLine]
    rw [if_neg (by rw [Bool.not_eq_true]; exact hw)]
    rfl

/-- Every control line that arrives is handled as the full-mask write of its 64 bytes, and taken at once. -/
theorem exec_controlLine (c : Instr) (a : LineArrival) (s : State) (h : c.controlLine? = some a) (ha : s.arrives c) :
    exec c s = .next (s.handleWrite true a.requester a.tag a.line fullMask (controlLineData a.code a.fields)) := by
  have := exec_write c _ s (write?_controlLine c a h) ha
  rw [h] at this
  exact this

/-- The command of a control line that waits takes it (R107, R108). -/
theorem exec_waitingLine (c : Instr) (w : WaitingLine) (s : State) (h : c.waitingLine? = some w)
    (hw : s.lineWaits w = true) : exec c s = .next (s.takeWaiting w) := by
  cases c <;> simp [Instr.waitingLine?, Instr.controlLine?] at h <;> subst h
  all_goals
    unfold exec
    simp only [execOpen, execCommit, execAbort, execQuery, execAcknowledge, execControlLineUnknownCommand, State.handleLine]
    rw [if_pos hw]

/-- Every read command is handled as the read it is (R61). -/
theorem exec_read (c : Instr) (s : State) (r : RequesterId) (t : Tag) (l : LineAddr) (h : c.read? = some (r, t, l)) :
    exec c s = .next (s.handleRead r t l) := by
  cases c <;> simp [Instr.read?] at h <;> obtain ⟨rfl, rfl, rfl⟩ := h <;> rfl

/-- A request command is a read or a write (R59). -/
theorem request?_cases (c : Instr) (r : RequesterId) (t : Tag) (h : c.request? = some (r, t)) :
    (∃ l, c.read? = some (r, t, l)) ∨ ∃ a, c.write? = some a ∧ a.requester = r ∧ a.tag = t := by
  cases c <;> simp_all [Instr.request?, Instr.read?, Instr.write?, Instr.controlLine?]

/-! ## Recognition (R97) -/

/-- R97: what any write must be to be a control line. -/
theorem State.recognises_iff (s : State) (mask : ByteMask) (d : Line) : s.recognises mask d = true ↔
    mask = BitVec.allOnes 64 ∧ (∃ p, s.loader.params = some p ∧ d.extractLsb' 0 64 = p.signature)
      ∧ d.extractLsb' 480 32 = crc32 (d.extractLsb' 0 480) := by
  unfold State.recognises isControlLine lineSignature lineCheck lineBody fullMask
  cases s.loader.params with
  | none => simp
  | some p => simp [and_assoc]

/-- R100: the malformed test of any 64 bytes. -/
theorem malformedLine_iff (d : Line) : malformedLine d = true ↔ d.extractLsb' 136 56 ≠ 0 ∨ d.extractLsb' 256 224 ≠ 0
    ∨ d.extractLsb' 128 8 ∉ [1#8, 2#8, 3#8, 4#8, 5#8] := by
  unfold malformedLine lineZeroLow lineZeroHigh lineCommand Command.ofCode
  generalize d.extractLsb' 128 8 = b
  by_cases h1 : b = 1#8 <;> by_cases h2 : b = 2#8 <;> by_cases h3 : b = 3#8 <;> by_cases h4 : b = 4#8 <;>
    by_cases h5 : b = 5#8 <;> simp_all

/-! ## The check word (0.8.5) -/

/-- The register after n message bits, as a fold over the bits. -/
theorem crcRun_eq_fold (n v : Nat) (c : BitVec 32) :
    crcRun n v c = (List.range n).foldl (fun (c : BitVec 32) i =>
      if c.getLsbD 0 = v.testBit i then c >>> 1 else (c >>> 1) ^^^ 0xEDB88320#32) c := by
  induction n generalizing v c with
  | zero => rfl
  | succ n ih =>
    rw [List.range_succ_eq_map, List.foldl_cons, List.foldl_map, crcRun, ih, ih]
    have h : (c.toNat + v) % 2 = 1 ↔ ¬ c.getLsbD 0 = v.testBit 0 := by
      rw [BitVec.getLsbD, Nat.testBit_zero, Nat.testBit_zero]
      rcases Nat.mod_two_eq_zero_or_one c.toNat with h1 | h1 <;> rcases Nat.mod_two_eq_zero_or_one v with h2 | h2 <;>
        simp [h1, h2, Nat.add_mod]
    simp only [Nat.testBit_succ]
    by_cases h' : c.getLsbD 0 = v.testBit 0
    · rw [if_neg (fun x => h.1 x h'), if_pos h']
    · rw [if_pos (h.2 h'), if_neg h']; rfl

/-- 0.8.5, bit by bit: least significant first, from all ones, complemented at the end. -/
theorem crc32_eq_fold {w : Nat} (v : BitVec w) : crc32 v = ~~~ (List.range w).foldl (fun (c : BitVec 32) i =>
      if c.getLsbD 0 = v.getLsbD i then c >>> 1 else (c >>> 1) ^^^ 0xEDB88320#32) (BitVec.allOnes 32) := by
  rw [crc32, crcRun_eq_fold]; rfl

/-! ## Journal records (Table 12-4) -/

/-- R163: the places of a record's fields in its 128 bytes. -/
theorem JournalRecord.image_extract (r : JournalRecord) :
    r.image.extractLsb' 0 8 = r.kind.code ∧ r.image.extractLsb' 8 8 = r.context ∧ r.image.extractLsb' 16 8 = r.reason
    ∧ r.image.extractLsb' 24 8 = 0 ∧ r.image.extractLsb' 32 32 = r.seq ∧ r.image.extractLsb' 64 32 = r.openNumber
    ∧ r.image.extractLsb' 96 32 = 0 ∧ r.image.extractLsb' 128 6 = 0 ∧ r.image.extractLsb' 134 34 = r.line
    ∧ r.image.extractLsb' 168 24 = 0 ∧ r.image.extractLsb' 192 64 = r.label ∧ r.image.extractLsb' 256 512 = r.old
    ∧ r.image.extractLsb' 768 224 = 0 ∧ r.image.extractLsb' 992 32 = crc32 (r.image.extractLsb' 0 992) := by
  have hb : r.image.extractLsb' 0 992 = r.body := BitVec.extractLsb'_append_eq_right
  rw [hb]
  unfold JournalRecord.image
  refine ⟨?_, ?_, ?_, ?_, ?_, ?_, ?_, ?_, ?_, ?_, ?_, ?_, ?_, BitVec.extractLsb'_append_eq_left⟩ <;>
    rw [BitVec.extractLsb'_append_eq_of_add_le (by norm_num)] <;> unfold JournalRecord.body <;>
    simp (disch := norm_num) only [BitVec.extractLsb'_append_eq_of_le, BitVec.extractLsb'_append_eq_of_add_le] <;>
    exact BitVec.extractLsb'_eq_self

theorem RecordKind.ofCode_code (k : RecordKind) : RecordKind.ofCode k.code = some k := by cases k <;> rfl

theorem RecordKind.ofCode_eq_none (b : Byte) : RecordKind.ofCode b = none ↔ b ≠ 1 ∧ b ≠ 2 ∧ b ≠ 3 := by
  unfold RecordKind.ofCode
  by_cases h1 : b = 1#8 <;> by_cases h2 : b = 2#8 <;> by_cases h3 : b = 3#8 <;> simp_all

theorem RecordKind.code_of_ofCode (b : Byte) (k : RecordKind) (h : RecordKind.ofCode b = some k) : k.code = b := by
  unfold RecordKind.ofCode at h
  split at h
  · cases h; simp_all [RecordKind.code]
  · split at h
    · cases h; simp_all [RecordKind.code]
    · split at h
      · cases h; simp_all [RecordKind.code]
      · cases h

/-- Every record written is read back as it is. -/
theorem JournalRecord.parse_image (r : JournalRecord) : JournalRecord.parse r.image = some r := by
  obtain ⟨h1, h2, h3, -, h4, h5, -, -, h6, -, h7, h8, -, h9⟩ := r.image_extract
  simp only [JournalRecord.parse, h1, h2, h3, h4, h5, h6, h7, h8, h9, if_true, RecordKind.ofCode_code]

/-- R39, R164: what holds no record. -/
theorem JournalRecord.parse_eq_none (v : Place) : JournalRecord.parse v = none ↔
    v.extractLsb' 992 32 ≠ crc32 (v.extractLsb' 0 992)
      ∨ (v.extractLsb' 0 8 ≠ 1 ∧ v.extractLsb' 0 8 ≠ 2 ∧ v.extractLsb' 0 8 ≠ 3) := by
  rw [← RecordKind.ofCode_eq_none]
  unfold JournalRecord.parse
  split
  · split <;> simp_all
  · simp_all

/-- R164: the places a record's fields are read from. -/
theorem JournalRecord.parse_eq_some (v : Place) (r : JournalRecord) (h : JournalRecord.parse v = some r) :
    r.kind.code = v.extractLsb' 0 8 ∧ r.context = v.extractLsb' 8 8 ∧ r.reason = v.extractLsb' 16 8
      ∧ r.seq = v.extractLsb' 32 32 ∧ r.openNumber = v.extractLsb' 64 32 ∧ r.line = v.extractLsb' 134 34
      ∧ r.label = v.extractLsb' 192 64 ∧ r.old = v.extractLsb' 256 512 := by
  unfold JournalRecord.parse at h
  split at h
  · split at h
    · rename_i k hk
      cases h
      exact ⟨RecordKind.code_of_ofCode _ _ hk, rfl, rfl, rfl, rfl, rfl, rfl, rfl⟩
    · cases h
  · cases h

/-! ## Header copies (Table 12-5) -/

/-- R163: the places of a header's fields in its 128 bytes. -/
theorem HeaderImage.bytes_extract (n : Nat) (i : HeaderImage) :
    (i.bytes n).extractLsb' 0 64 = 0x314E524A4F444E55#64 ∧ (i.bytes n).extractLsb' 64 32 = i.generation
    ∧ (i.bytes n).extractLsb' 96 32 = BitVec.ofNat 32 n ∧ (i.bytes n).extractLsb' 128 32 = BitVec.ofNat 32 i.tail.slot
    ∧ (i.bytes n).extractLsb' 160 32 = i.tail.seq ∧ (i.bytes n).extractLsb' 192 16 = i.recoveryCount
    ∧ (i.bytes n).extractLsb' 208 784 = 0
    ∧ (i.bytes n).extractLsb' 992 32 = crc32 ((i.bytes n).extractLsb' 0 992) := by
  have hb : (i.bytes n).extractLsb' 0 992 = i.body n := BitVec.extractLsb'_append_eq_right
  rw [hb]
  unfold HeaderImage.bytes
  refine ⟨?_, ?_, ?_, ?_, ?_, ?_, ?_, BitVec.extractLsb'_append_eq_left⟩ <;>
    rw [BitVec.extractLsb'_append_eq_of_add_le (by norm_num)] <;> unfold HeaderImage.body <;>
    simp (disch := norm_num) only [BitVec.extractLsb'_append_eq_of_le, BitVec.extractLsb'_append_eq_of_add_le] <;>
    exact BitVec.extractLsb'_eq_self

/-- R40: what is not a valid header copy. -/
theorem parseHeader_eq_none (n : Nat) (c : Copy) (v : Place) : parseHeader n c v = none ↔
    v.extractLsb' 992 32 ≠ crc32 (v.extractLsb' 0 992) ∨ v.extractLsb' 0 64 ≠ 0x314E524A4F444E55#64
      ∨ (v.extractLsb' 96 32).toNat ≠ n := by
  unfold parseHeader Config.formatCode
  split
  · simp_all
  · rename_i h
    simp only [true_iff]
    by_contra hc
    simp only [not_or, not_not] at hc
    exact h hc

/-- R164: the places a header's fields are read from. -/
theorem parseHeader_eq_some (n : Nat) (c : Copy) (v : Place) (x : Chosen) (h : parseHeader n c v = some x) :
    x = { copy := c, generation := v.extractLsb' 64 32
          tail := { slot := (v.extractLsb' 128 32).toNat, seq := v.extractLsb' 160 32 }
          recoveryCount := v.extractLsb' 192 16 } := by
  unfold parseHeader at h
  split at h
  · exact (Option.some.inj h).symm
  · cases h

end Sys2Proof.Machine
end

