-- ==== Sys2Proof/Laws/UndoPass.lean ====
section
/-! SUPPORT. The examination of the slots read in the undo pass (R150), one slot at a time: cited by the statement about
the undo pass. -/

namespace Sys2Proof.Machine

/-- R150: where the slot at the front is not wholly read, or its restore finds no free access slot, the pass waits; it
ends where no slot and no restore is left. -/
theorem State.undoGoOn_waits (s : State) (hp : s.recovery.phase = .undoPass)
    (h : (∀ u, s.recovery.io.undo.head? = some u → u.place.image = none)
      ∨ ∃ u rest v r, s.recovery.io.undo = u :: rest ∧ u.place.image = some v ∧ JournalRecord.parse v = some r
        ∧ r.seq = s.undoSeq u.slot ∧ s.undoMatches r = true ∧ ∀ k, s.access k ≠ none) :
    s.undoGoOn = State.pump (if s.recovery.walkPosition = none ∧ s.recovery.restoresOutstanding = 0 then
      { s with recovery := { s.recovery with phase := .reinit, io := { s.recovery.io with reinit := .fresh } } } else s) := by
  have e : ∀ n, State.undoExamine n s = s := by
    intro n
    cases n with
    | zero => rfl
    | succ n =>
      unfold State.undoExamine
      rcases h with h | ⟨u, rest, v, r, h1, h2, h3, h4, h5, h6⟩
      · cases hu : s.recovery.io.undo with
        | nil => rfl
        | cons u rest => simp only [h u (by rw [hu]; rfl)]
      · have hf : (freeSlotsOf s.link).isEmpty = true := by
          rw [List.isEmpty_iff, freeSlotsOf, List.filter_eq_nil_iff]
          intro k _ hk
          exact h6 k (Option.isNone_iff_eq_none.1 hk)
        simp only [h1, h2, h3, h4, ne_eq, not_true_eq_false, if_false, h5, if_true, hf]
  unfold State.undoGoOn
  rw [e]
  dsimp only
  rw [if_pos hp]
  simp only [Option.isNone_iff_eq_none]
  split <;> rfl

/-- R150: the slot at the front, wholly read, holds no record or a record of another sequence. -/
theorem State.undoGoOn_faults (s : State) (u : UndoRead) (rest : List UndoRead) (v : Place)
    (hu : s.recovery.io.undo = u :: rest) (hv : u.place.image = some v)
    (h : JournalRecord.parse v = none ∨ ∃ r, JournalRecord.parse v = some r ∧ r.seq ≠ s.undoSeq u.slot)
    (hf : (s.reportFault .recovery).recovery.phase ≠ .undoPass) : s.undoGoOn = s.reportFault .recovery := by
  unfold State.undoGoOn
  have e : State.undoExamine s.recovery.io.undo.length s = s.reportFault .recovery := by
    rw [hu, List.length_cons]
    unfold State.undoExamine
    rcases h with h | ⟨r, h, h'⟩
    · simp only [hu, hv, h]
    · simp only [hu, hv, h, h', ne_eq, not_false_eq_true, if_true]
  rw [e]
  exact if_neg hf

/-- R150: the slot at the front, wholly read, is restored: its restore takes a free access slot. -/
theorem State.undoGoOn_restores (s : State) (u : UndoRead) (rest : List UndoRead) (v : Place) (r : JournalRecord)
    (c : Chosen) (hu : s.recovery.io.undo = u :: rest) (hv : u.place.image = some v)
    (hr : JournalRecord.parse v = some r) (hq : r.seq = s.undoSeq u.slot) (hm : s.undoMatches r = true)
    (hc : s.recovery.chosen = some c) (k : AccessSlot) (hk : s.access k = none) :
    ∃ k, s.access k = none ∧ s.undoGoOn = State.undoGoOn { s with
      link := s.link.set k (some {
        purpose := .recoveryRestore, line := r.line, kind := .write fullMask r.old, order := s.issued })
      issued := s.issued + 1
      recovery := { s.recovery with
        restoresOutstanding := s.recovery.restoresOutstanding + 1
        walkPosition := if u.slot = c.tail.slot then none else some (prevSlot s.slotCount u.slot)
        io := { s.recovery.io with undo := rest } } } := by
  have hmem : k ∈ freeSlotsOf s.link := List.mem_filter.2 ⟨mem_allSlots k, by
    have : s.link[k] = none := hk
    simp [this]⟩
  have hf : (freeSlotsOf s.link).isEmpty = false := by
    cases e : freeSlotsOf s.link with
    | nil => rw [e] at hmem; cases hmem
    | cons _ _ => rfl
  obtain ⟨j, h1, h2, _⟩ := placeAccess_set s.link s.issued .recoveryRestore r.line (.write fullMask r.old) (by intro e; rw [e] at hf; cases hf)
  refine ⟨j, h1, ?_⟩
  have e : State.undoExamine (rest.length + 1) s = State.undoExamine rest.length ((s.issueRestore r).undoMoved u.slot) := by
    conv => lhs; unfold State.undoExamine
    simp only [hu, hv, hr, hq, ne_eq, not_true_eq_false, if_false, hm, if_true, hf, Bool.false_eq_true]
  unfold State.undoGoOn
  rw [hu, List.length_cons, e]
  have : (s.issueRestore r).undoMoved u.slot = { s with
      link := s.link.set j (some {
        purpose := .recoveryRestore, line := r.line, kind := .write fullMask r.old, order := s.issued })
      issued := s.issued + 1
      recovery := { s.recovery with
        restoresOutstanding := s.recovery.restoresOutstanding + 1
        walkPosition := if u.slot = c.tail.slot then none else some (prevSlot s.slotCount u.slot)
        io := { s.recovery.io with undo := rest } } } := by
    unfold State.undoMoved State.issueRestore
    simp only [h2, hu, hc, List.tail_cons, Option.map_some, Option.getD_some]
    rfl
  rw [this]

/-- R150: the slot at the front, wholly read, is passed over. -/
theorem State.undoGoOn_passes (s : State) (u : UndoRead) (rest : List UndoRead) (v : Place) (r : JournalRecord)
    (c : Chosen) (hu : s.recovery.io.undo = u :: rest) (hv : u.place.image = some v)
    (hr : JournalRecord.parse v = some r) (hq : r.seq = s.undoSeq u.slot) (hm : s.undoMatches r = false)
    (hc : s.recovery.chosen = some c) :
    s.undoGoOn = State.undoGoOn { s with recovery := { s.recovery with
      walkPosition := if u.slot = c.tail.slot then none else some (prevSlot s.slotCount u.slot)
      io := { s.recovery.io with undo := rest } } } := by
  have e : State.undoExamine (rest.length + 1) s = State.undoExamine rest.length (s.undoMoved u.slot) := by
    conv => lhs; unfold State.undoExamine
    simp only [hu, hv, hr, hq, ne_eq, not_true_eq_false, if_false, hm, Bool.false_eq_true]
  unfold State.undoGoOn
  rw [hu, List.length_cons, e]
  have : s.undoMoved u.slot = { s with recovery := { s.recovery with
      walkPosition := if u.slot = c.tail.slot then none else some (prevSlot s.slotCount u.slot)
      io := { s.recovery.io with undo := rest } } } := by
    unfold State.undoMoved
    simp only [hu, hc, List.tail_cons, Option.map_some, Option.getD_some]
  rw [this]

/-- R150: which records are restored. -/
theorem State.undoMatches_iff (s : State) (r : JournalRecord) : s.undoMatches r = true ↔
    r.kind = .undo ∧ { context := r.context, openNumber := r.openNumber } ∈ s.recovery.unended := by
  unfold State.undoMatches
  simp only [Bool.and_eq_true, decide_eq_true_eq, List.any_eq_true]
  refine and_congr_right (fun _ => ⟨?_, fun h => ⟨_, h, rfl, rfl⟩⟩)
  rintro ⟨⟨x, y⟩, h, rfl, rfl⟩
  exact h

/-- A link reset leaves power-fail pending as it is. -/
theorem State.takeLinkReset_powerFail (s : State) :
    s.takeLinkReset.device.powerFailPending = s.device.powerFailPending := by
  have hd : ∀ t : State, t.drainTest.device.powerFailPending = t.device.powerFailPending := by
    intro t; unfold State.drainTest; split <;> rfl
  unfold State.takeLinkReset
  split
  · rfl
  · split
    · rw [hd]; simp [State.syncNotices, State.forget]
    · rw [hd]; simp [State.syncNotices, State.forget]
    all_goals rfl

/-- A fault report leaves power-fail pending as it is (R158). -/
theorem State.reportFault_powerFail (s : State) (cause : FaultCause) :
    (s.reportFault cause).device.powerFailPending = s.device.powerFailPending := by
  have he : (s.enterFaulted cause).device.powerFailPending = s.device.powerFailPending := by
    unfold State.enterFaulted; simp
  unfold State.reportFault
  split
  · rfl
  · split
    · exact he
    · exact he
    · unfold State.entryLinkReset
      split
      · rw [State.takeLinkReset_powerFail]; exact he
      · exact he
    all_goals rfl

/-- Going on with the undo pass leaves power-fail pending as it is. -/
theorem State.undoGoOn_powerFail (s : State) : s.undoGoOn.device.powerFailPending = s.device.powerFailPending := by
  have hx : ∀ n (s : State), (State.undoExamine n s).device.powerFailPending = s.device.powerFailPending := by
    intro n
    induction n with
    | zero => intro s; rfl
    | succ n ih =>
      intro s
      have hf := s.reportFault_powerFail .recovery
      unfold State.undoExamine
      split
      · rfl
      · split
        · rfl
        · split
          · exact hf
          · split
            · exact hf
            · split
              · split
                · rfl
                · rw [ih]; rfl
              · rw [ih]; rfl
  unfold State.undoGoOn State.beginReinit
  dsimp only
  split
  · split <;> (rw [State.pump_rest]; exact hx _ _)
  · exact hx _ _
end Sys2Proof.Machine
end

