-- ==== Sys2Proof/Tests/Slice0.lean ====
section
/-! SUPPORT. The model's own tests: the check of WellFormed, the check word and the layouts, one small step of each
command, and for every statement with hypotheses a state and operands that meet them. -/

section Tests

set_option Elab.async false

open Sys2Proof Sys2Proof.Machine

/-! ## Small states -/

/-- Journal area at lines 400h to 7FFh, one journaled range at lines 4000h to 403Fh; N is 510. -/
def testParams : Params :=
  { version := 1, signature := 0x1122334455667788, key := 0x99AABBCCDDEEFF00, journalBase := 0x10000
    journalSize := 0x10000, rangeCount := 1, ranges := [{ base := 0x100000, length := 0x1000 }], holdQuota := 2
    conflictTimeout := 10, failureThreshold := 2, failureWindow := 1, lockoutDuration := 1, formatPermitted := 1
    checkWord := 0 }

/-- The part in a device state after a start-up, at time 100. -/
def partIn (d : DeviceState) : State :=
  { State.reset with
    timebase := 100
    device := { Device.reset with state := d, cause := if d = .faulted then .recovery else .noCause }
    loader := { attempt := 1, phase := .idle, params := some testParams }
    journal := { Journal.reset with started := true, head := ⟨0, 1⟩, durableHead := ⟨0, 1⟩, published := ⟨0, 1⟩ }
    recovery := { Recovery.reset with phase := .done } }

def serving : State := partIn .serving
def faulted : State := partIn .faulted
def draining : State := partIn .draining
def passing : State := { partIn .passthrough with loader := { attempt := 3, phase := .idle, params := none } }

/-- A context in a state, with open number n. -/
def inState (st : ContextState) (n : Serial) : Context :=
  { Context.reset with state := st, openNumber := some n, label := some 7 }

/-- serving with context c in a state, its open number 5. -/
def servingWith (c : RequesterId) (st : ContextState) : State := serving.setCtx c (inState st 5)

/-- The state a command leads to. -/
def after (c : Instr) (s : State) : State :=
  match exec c s with
  | .next t => t
  | .fault _ => s
  | .refused _ => s

/-- A line of the journaled range, a line of the journal area, and a line of neither. -/
def rangeLine : LineAddr := 0x4000
def areaLine : LineAddr := 0x400
def plainLine : LineAddr := 0x10

/-- Control line fields with a check word that matches. -/
def fieldsWith (code : Byte) (key : Word64) (zeroLow : BitVec 56) : ControlFields :=
  let f : ControlFields :=
    { signature := testParams.signature, key := key, zeroLow := zeroLow, label := 9, zeroHigh := 0, check := 0 }
  { f with check := crc32 (controlLineBody code f) }

def fieldsOf (code : Byte) : ControlFields := fieldsWith code testParams.key 0

def lineOf (r : RequesterId) (code : Byte) : LineArrival := ⟨r, 0, plainLine, code, fieldsOf code⟩

/-- A part that holds one access in slot 0. -/
def accessing (s : State) (p : Purpose) (l : LineAddr) : State :=
  { s with link := s.link.set 0 (some { purpose := p, line := l, kind := .read, order := 0 }), issued := 1 }

def theAccess (p : Purpose) (l : LineAddr) : Access := { purpose := p, line := l, kind := .read, order := 0 }

/-- An operation of requester 0 on rangeLine. -/
def operationIn (stage : OpStage) (slot : Option Position) : Operation :=
  { requester := 0, tag := 3, line := rangeLine, mask := 1, data := 0xAB, stage := stage, slot := slot, old := some 0xCD
    cancelled := false, forgotten := false, access := none }

/-- Context 0 OPEN with one operation on rangeLine and its hold entry. -/
def operating (stage : OpStage) (slot : Option Position) : State :=
  { serving.setCtx 0 { inState .opened 5 with holdsCount := 1, opsInFlight := 1 } with
    holds := [{ line := rangeLine, owner := 0, state := .journaling }]
    outstanding := [(0, 3)]
    ops := [operationIn stage slot] }

def operationCancelled : Operation := { operationIn .readingOld none with cancelled := true }

/-- A record of context 0 at sequence 1. -/
def recordOf (kind : RecordKind) : JournalRecord :=
  { kind := kind, context := 0, reason := 0, seq := 1, openNumber := 5, line := rangeLine, label := 0, old := 0xCD }

def assignedOf (kind : RecordKind) (first : HalfWrite) : AssignedRecord :=
  { owner := 0, slot := 0, record := recordOf kind, first := first, second := .issued, mark := false }

/-- The journal with one assigned record. -/
def journalOf (kind : RecordKind) (first : HalfWrite) : Journal :=
  { serving.journal with head := ⟨1, 2⟩, records := [assignedOf kind first] }

/-- Its second half in slot 0. -/
def recording (s : State) (kind : RecordKind) (first : HalfWrite) : State :=
  { accessing s (.recordHalf 1 .second) 0x405 with journal := journalOf kind first }

/-- Context 0 with no free slots: the journal is full to its reserve of 16. -/
def crowded (s : State) (free : Nat) : State :=
  { s with journal := { s.journal with head := ⟨510 - free, BitVec.ofNat 32 (511 - free)⟩ } }

/-- The same part in the power-fail wind-down. -/
def windingDown (s : State) : State := { s with device := { s.device with powerFailPending := true } }

/-- The engine walking for context 0 at slot 0. -/
def walking (s : State) : State :=
  { s.setCtx 0 { inState .rollingBack 5 with undoCount := 1, firstSlot := some 0, lastSlot := some 0 } with
    engine := { Engine.reset with phase := .walking, current := some 0, walkPosition := some 0 } }

/-- The engine with a slot-half read in slot 0. -/
def engineReading (h : Half) (attempt : Nat) : State :=
  let s := accessing (walking serving) .rollbackRead 0x404
  { s with engine := { s.engine with
      read := some { slot := 0, half := h, attempt := attempt, issued := true }
      firstHalf := if h = .second then some (placeHalf (recordOf .undo).image .first) else none } }

/-- The engine with a restore in slot 0. -/
def engineRestoring (attempt : Nat) : State :=
  let s := accessing (walking serving) .rollbackRestore rangeLine
  { s with engine := { s.engine with restore := some { line := rangeLine, old := 0xCD, attempt := attempt, issued := true } } }

/-- A part in RECOVERING with one access of the sequencer in slot 0. -/
def recoveringIn (p : Purpose) (r : Recovery) : State :=
  { accessing (partIn .recovering) p 0x400 with recovery := r }

def theImage : HeaderImage := { copy := .a, generation := 1, tail := { slot := 0, seq := 1 }, recoveryCount := 0 }

def bothGot (v : Place) : PlaceRead := { first := .got (placeHalf v .first), second := .got (placeHalf v .second) }

/-- The second half of header copy B is still to come; A holds v. -/
def judging (v : Place) : State :=
  recoveringIn (.recoveryHeaderRead .b .second) { Recovery.reset with
    phase := .headers
    io := { SequencerIO.reset with headerA := bothGot v, headerB := { first := .got 0, second := .issued } } }

def chosenA : Chosen := { copy := .a, generation := 1, tail := { slot := 0, seq := 1 }, recoveryCount := 0 }

/-- The forward walk at slot 0, its second half to come. -/
def examining (v : Place) (table : List Unended) : State :=
  recoveringIn (.forwardWalkRead .second) { Recovery.reset with
    phase := .forwardWalk, chosen := some chosenA, walkPosition := some 0, expected := some 1, unended := table
    io := { SequencerIO.reset with walk := { first := .got (placeHalf v .first), second := .issued } } }

/-- The undo pass at slot 0, its second half to come; the walk stopped at slot 1. -/
def undoing (v : Place) : State :=
  recoveringIn (.undoPassRead 0 .second) { Recovery.reset with
    phase := .undoPass, chosen := some chosenA, walkPosition := some 0, stop := some { slot := 1, seq := 2 }
    unended := [{ context := 0, openNumber := 5 }], undone := 1
    io := { SequencerIO.reset with
      undo := [{ slot := 0, place := { first := .got (placeHalf v .first), second := .issued } }] } }

/-- The re-initialisation header's second half is out. -/
def reinitialising : State :=
  recoveringIn (.reinitHeader .second) { Recovery.reset with
    phase := .reinit, chosen := some chosenA, stop := some { slot := 1, seq := 2 }, undone := 1
    io := { SequencerIO.reset with reinit := { first := .okay, second := .issued } } }

/-- The forward walk at the last of the N slots. -/
def examiningLast (v : Place) (table : List Unended) : State :=
  let s := examining v table
  { s with recovery := { s.recovery with examined := 509 } }

/-- The undo pass at slot 1, its second half to come; slot 0, the tail slot, has been read ahead, and the walk stopped at
slot 2. -/
def undoingAhead (v ahead : Place) : State :=
  recoveringIn (.undoPassRead 1 .second) { Recovery.reset with
    phase := .undoPass, chosen := some chosenA, walkPosition := some 1, stop := some { slot := 2, seq := 3 }
    unended := [{ context := 0, openNumber := 5 }], undone := 1
    io := { SequencerIO.reset with
      undo := [⟨1, ⟨.got (placeHalf v .first), .issued⟩⟩, ⟨0, bothGot ahead⟩] } }

/-- A control line of requester 4 that waits to be taken, in a part where context 4 is OPEN. -/
def lineWaiting : State :=
  after (.writeRequest 4 0 plainLine fullMask (controlLineData 3 (fieldsOf 3))) (servingWith 4 .opened)

def theWaitingLine : WaitingLine :=
  { requester := 4, tag := 0, line := plainLine, data := controlLineData 3 (fieldsOf 3) }

/-! ## Well-formed commands, layouts, check words -/

theorem test_wellFormed_refuses_known_codes : ∀ code : Byte, (code = 1 ∨ code = 2 ∨ code = 3 ∨ code = 4 ∨ code = 5) →
    (Instr.controlLineUnknownCommand 0 0 plainLine code (fieldsOf 1)).wellFormed = false := by
  rintro code (rfl | rfl | rfl | rfl | rfl) <;> rfl

theorem test_wellFormed_accepts_unknown_codes :
    (Instr.controlLineUnknownCommand 0 0 plainLine 0 (fieldsOf 0)).wellFormed = true
      ∧ (Instr.controlLineUnknownCommand 0 0 plainLine 6 (fieldsOf 6)).wellFormed = true
      ∧ (Instr.commit 0 0 plainLine (fieldsOf 2)).wellFormed = true := by decide +kernel

/-- 0.8.5: the CRC-32 of the nine bytes "123456789". -/
theorem test_crc32_check_value : crc32 (0x393837363534333231 : BitVec 72) = 0xCBF43926 := by decide +kernel

theorem test_formatCode_bytes : Config.formatCode.extractLsb' 0 8 = 0x55 ∧ Config.formatCode.extractLsb' 56 8 = 0x31 := by
  decide

theorem test_record_parses : JournalRecord.parse (recordOf .undo).image = some (recordOf .undo) := by decide +kernel

theorem test_header_parses : parseHeader 510 .a (theImage.bytes 510) = some chosenA := by decide +kernel

theorem test_blank_place_is_nothing : JournalRecord.parse 0 = none ∧ parseHeader 510 .a 0 = none := by decide +kernel

theorem test_slot_lines : testParams.slotCount = 510 ∧ testParams.slotLine 0 .first = 0x404
    ∧ testParams.slotLine 509 .second = 0x7FF ∧ testParams.headerLine .b .second = 0x403 := by decide +kernel

/-- R136: byte 0 comes first, and its most significant bit first. -/
theorem test_sampled_order : blockOfSampled 0x1 = 0x80 ∧ blockOfSampled 0x80 = 0x1 ∧ blockOfSampled 0x100 = 0x8000 := by
  decide +kernel

theorem test_sampledAs (b : ParamBlock) : sampledAs (blockOfSampled b) b := by
  intro byte h1 bit h2
  unfold blockOfSampled
  rw [BitVec.getLsbD_ofFnLE, dif_pos (by omega)]
  congr 1
  simp only
  omega

theorem test_decodeTableWord_none : decodeTableWord 8 0 = none ∧ serving.withFetchWord 8 0 = serving := ⟨rfl, rfl⟩

/-- Table 12-3: every field of a status record at its bytes, each with a value of its own. -/
theorem test_statusRecord_fields :
    State.statusRecord { serving.setCtx 0 { inState .aborted 0x0A0B0C0D with
        label := some 0x0102030405060708, reason := some .conflict, lastOutcome := .tooLate, holdsCount := 0x111
        undoCount := 0x122, opsInFlight := 9 } with
      key := { checker := .lockedOut 5001, failures := [], total := 0x1234, abuse := true }
      startupUndone := 3, startupFormatted := true
      header := { serving.header with recoveryCount := 0x7777 }
      journal := { serving.journal with head := ⟨4, 5⟩, published := ⟨1, 2⟩ } } 0
      = 0x0000000000000000000000000000777700000005123400000000000500000002000001FB000001FE03000309012201110A0B0C0D010203040506070803070205 := by
  decide +kernel

/-- Table 12-2: every field of a control line at its bytes, each byte with a value of its own. -/
theorem test_controlLine_bytes : controlLineData 0x31
    { signature := 0x0807060504030201, key := 0x100F0E0D0C0B0A09, zeroLow := 0x17161514131211, label := 0x2827262524232221
      zeroHigh := 0x5C5B5A595857565554535251504F4E4D4C4B4A494847464544434241, check := 0x64636261 }
    = 0x646362615C5B5A595857565554535251504F4E4D4C4B4A49484746454443424128272625242322211716151413121131100F0E0D0C0B0A090807060504030201 := by
  decide +kernel

/-- Table 12-4: the bytes of a record, and what they are read back as. -/
def layoutRecord (kind : RecordKind) : JournalRecord :=
  { kind := kind, context := 0x0D, reason := 0x05, seq := 0x14131211, openNumber := 0x24232221, line := 0x212345678
    label := 0x2827262524232221
    old := 0xBFBEBDBCBBBAB9B8B7B6B5B4B3B2B1B0AFAEADACABAAA9A8A7A6A5A4A3A2A1A09F9E9D9C9B9A999897969594939291908F8E8D8C8B8A89888786858483828180 }

theorem test_record_bytes : (layoutRecord .undo).image
    = 0xB2D04D9C00000000000000000000000000000000000000000000000000000000BFBEBDBCBBBAB9B8B7B6B5B4B3B2B1B0AFAEADACABAAA9A8A7A6A5A4A3A2A1A09F9E9D9C9B9A999897969594939291908F8E8D8C8B8A898887868584838281802827262524232221000000848D159E0000000000242322211413121100050D01 := by
  decide +kernel

/-- R164: bytes marked zero, and bits 0-5 and bytes 5-7 of the line address, are not examined; kind 04h is no record. -/
theorem test_record_read : JournalRecord.parse
      0xD4BD96C00000000000000000000000000000000000000000000000500000000BFBEBDBCBBBAB9B8B7B6B5B4B3B2B1B0AFAEADACABAAA9A8A7A6A5A4A3A2A1A09F9E9D9C9B9A999897969594939291908F8E8D8C8B8A8988878685848382818028272625242322210000EE848D159E3F00000000242322211413121177050D02
      = some (layoutRecord .commit)
    ∧ JournalRecord.parse
      0xCDBC5B1C00000000000000000000000000000000000000000000000000000000BFBEBDBCBBBAB9B8B7B6B5B4B3B2B1B0AFAEADACABAAA9A8A7A6A5A4A3A2A1A09F9E9D9C9B9A999897969594939291908F8E8D8C8B8A898887868584838281802827262524232221000000848D159E0000000000242322211413121100050D04
      = none := by decide +kernel

/-- Table 12-5: the bytes of a header copy, valid for 510 slots and for no other count. -/
theorem test_header_bytes :
    ({ copy := .a, generation := 0x14131211, tail := { slot := 0x102, seq := 0x24232221 }, recoveryCount := 0x3231 }
      : HeaderImage).bytes 510
      = 0xBD7DEB8A000000000000000000000000000000000000000000000000000000000000000000000000000000000000000000000000000000000000000000000000000000000000000000000000000000000000000000000000000000000000000000000000000032312423222100000102000001FE14131211314E524A4F444E55
    ∧ parseHeader 511 .a 0xBD7DEB8A000000000000000000000000000000000000000000000000000000000000000000000000000000000000000000000000000000000000000000000000000000000000000000000000000000000000000000000000000000000000000000000000000032312423222100000102000001FE14131211314E524A4F444E55
      = none := by decide +kernel

/-- R97: the three conditions one by one: an incomplete mask, another signature, a check word that fails. -/
theorem test_recognises : serving.recognises fullMask theWaitingLine.data = true
    ∧ serving.recognises (fullMask - 1) theWaitingLine.data = false
    ∧ serving.recognises fullMask (theWaitingLine.data ^^^ 1) = false
    ∧ serving.recognises fullMask (theWaitingLine.data ^^^ (1 <<< 480)) = false
    ∧ State.reset.recognises fullMask theWaitingLine.data = false := by decide +kernel

/-! ## One small step of each command -/

theorem test_step_runs_front : step { serving with pending := [.timebaseAdvance] } = .next { serving with timebase := 101 } :=
  rfl

theorem test_step_idles : step serving = .next serving := rfl

theorem test_porstNAssert : (after .porstNAssert serving).pins.porst = true
    ∧ (after .porstNAssert serving).loader.params = none := by decide +kernel

theorem test_porstNDeassert : after .porstNDeassert { State.reset with pins := ⟨true, false, false⟩ } = State.reset := by
  decide +kernel

/-- R82: the drains a link reset brings about form one group. -/
theorem test_linkReset_groups :
    (after .linkReset ((servingWith 2 .opened).setCtx 1 (inState .opened 4))).drains = [[1, 2]] := by decide +kernel

theorem test_linkReset : (after .linkReset (servingWith 2 .opened)).device.state = .draining
    ∧ ((after .linkReset (servingWith 2 .opened)).ctx 2).state = .abortPending := by decide +kernel

theorem test_lrstNDeassert : (after .lrstNDeassert draining).device.state = .serving
    ∧ (after .lrstNDeassert (draining.setCtx 1 (inState .rollingBack 5))).device.state = .draining := by decide +kernel

theorem test_pfailNAssert : (after .pfailNAssert serving).device.state = .halted
    ∧ (after .pfailNAssert (accessing serving .forwarded 0)).device.powerFailPending = true := by decide +kernel

theorem test_pfailNDeassert : after .pfailNDeassert { serving with pins := ⟨false, false, true⟩ } = serving := by decide +kernel

theorem test_readRequest : (after (.readRequest 3 7 plainLine) serving).forward =
    [{ requester := 3, tag := 7, kind := .read, line := plainLine, journaled := false, forgotten := false
       issued := none }] := by decide +kernel

theorem test_writeRequest_first : ((after (.writeRequest 0 3 rangeLine 1 0xAB) (servingWith 0 .opened)).ctx 0).holdsCount = 1
    ∧ (after (.writeRequest 0 3 rangeLine 1 0xAB) (servingWith 0 .opened)).holds =
        [{ line := rangeLine, owner := 0, state := .journaling }]
    ∧ (after (.writeRequest 0 3 0x7FF 1 0xAB) serving).sent =
        [{ requester := 0, tag := 3, code := .error, detail := .reservedArea, data := none }] := by decide +kernel

/-- R107, R108: a control line is classified, and then taken, left in the wind-down, or forgotten. -/
theorem test_writeRequest_classifies : lineWaiting.classified = [theWaitingLine] ∧ lineWaiting.outstanding = [(4, 0)]
    ∧ (lineWaiting.ctx 4).state = .opened ∧ lineWaiting.sent = []
    ∧ ((after (.abort 4 0 plainLine (fieldsOf 3)) lineWaiting).ctx 4).held = [0]
    ∧ (after (.abort 4 0 plainLine (fieldsOf 3)) lineWaiting).classified = []
    ∧ after (.abort 4 0 plainLine (fieldsOf 3)) (windingDown lineWaiting) = windingDown lineWaiting
    ∧ (after .linkReset lineWaiting).classified = [] := by decide +kernel

theorem test_queryRead : (after (.queryRead 0 3 plainLine)
      (serving.setCtx 0 { Context.reset with arming := some plainLine })).sent.map (fun r => r.data) =
    [some (serving.statusRecord 0)] := by decide +kernel

theorem test_openTransaction : ((after (.openTransaction 4 0 plainLine (fieldsOf 1)) serving).ctx 4).openNumber = some 1
    ∧ (after (.openTransaction 4 0 plainLine (fieldsOf 1)) serving).openCounter = 2 := by decide +kernel

theorem test_commit : ((after (.commit 4 0 plainLine (fieldsOf 2)) (servingWith 4 .opened)).ctx 4).state = .committing := by
  decide +kernel

theorem test_abort : ((after (.abort 4 0 plainLine (fieldsOf 3)) (servingWith 4 .opened)).ctx 4).held = [0] := by
  decide +kernel

/-- R76: an abort withdraws a slot request not yet taken, which brings its context to its drain. -/
theorem test_abort_withdraws : (after (.abort 0 0 plainLine (fieldsOf 3)) (operating .appending none)).sent =
      [{ requester := 0, tag := 3, code := .error, detail := .aborted, data := none }]
    ∧ (after (.abort 0 0 plainLine (fieldsOf 3)) (operating .appending none)).holds = []
    ∧ (after (.abort 0 0 plainLine (fieldsOf 3)) (operating .appending none)).drains = [[0]] := by decide +kernel

theorem test_query : ((after (.query 4 0 plainLine (fieldsOf 4)) serving).ctx 4).arming = some plainLine := by decide +kernel

theorem test_acknowledge : ((after (.acknowledge 4 0 plainLine (fieldsOf 5)) (servingWith 4 .aborted)).ctx 4).state = .idle := by
  decide +kernel

theorem test_controlLineUnknownCommand :
    ((after (.controlLineUnknownCommand 4 0 plainLine 6 (fieldsOf 6)) serving).ctx 4).lastOutcome = .malformed := by
  decide +kernel

theorem test_conflictTimerExpiry : ((after (.conflictTimerExpiry 1)
      { serving.setCtx 1 { Context.reset with wait := some ⟨rangeLine, 0, 90⟩ } with
        contexts := (serving.setCtx 1 { Context.reset with wait := some ⟨rangeLine, 0, 90⟩ }).contexts.set 0
          (inState .opened 5)
        holds := [⟨rangeLine, 0, .held⟩] }).ctx 0).reason = some .conflict := by decide +kernel

theorem test_lockoutExpiry :
    (after .lockoutExpiry { serving with key := ⟨.lockedOut 100, [], 2, false⟩ }).key.checker = .openChannel
      ∧ (after .lockoutExpiry { serving with key := ⟨.lockedOut 101, [], 2, false⟩ }).key.checker = .lockedOut 101 := by
  decide +kernel

theorem test_loadPauseEnd :
    (after .loadPauseEnd { State.reset with loader := ⟨2, .pausing 100, none⟩, timebase := 100 }).loader.phase = .transfer := by
  decide +kernel

theorem test_configurationTransferEnd :
    (after (.configurationTransferEnd 0) State.reset).loader = ⟨2, .pausing 10000, none⟩
      ∧ (after (.configurationTransferEnd 0) { State.reset with loader := ⟨3, .transfer, none⟩ }).device.state = .passthrough := by
  decide +kernel

/-- A part with a queued read issued in slot 0. -/
def forwarding (journaled : Bool) (kind : AccessKind) : State :=
  { accessing serving .forwarded plainLine with
    outstanding := [(3, 7)]
    forward := [{ requester := 3, tag := 7, kind := kind, line := plainLine, journaled := journaled, forgotten := false
                  issued := some 0 }] }

theorem test_forwardAccessComplete : (after (.forwardAccessComplete 0 (.okay 0x55)) (forwarding false .read)).sent =
      [{ requester := 3, tag := 7, code := .okay, detail := .noDetail, data := some 0x55 }]
    ∧ (after (.forwardAccessComplete 0 (.okay 0x55)) (forwarding false .read)).outstanding = [] := by decide +kernel

/-- R134, R161: the completion that empties the link ends the wind-down. -/
theorem test_windDown_halts : (after (.forwardAccessComplete 0 .error) (after .pfailNAssert (forwarding false .read))).device =
    { state := .halted, cause := .noCause, powerFailPending := false, noticesStanding := false } := by decide +kernel

theorem test_oldLineReadComplete :
    (after (.oldLineReadComplete 0 (.okay 0xCD)) (accessing (operating .readingOld none) .oldLineRead rangeLine)).ops.map
      (fun o => (o.stage, o.old)) = [(.appending, some 0xCD)] := by decide +kernel

/-- R8, R38, R48: with the other half unanswered an ERROR is not yet a fault; R161: nor is it ever in the wind-down. -/
theorem test_recordWriteComplete :
    ((after (.recordWriteComplete 0 .okay) (recording (servingWith 0 .committing) .commit .okay)).ctx 0).state = .idle
    ∧ (after (.recordWriteComplete 0 .error) (recording (servingWith 0 .committing) .commit .okay)).device.cause = .endRecord
    ∧ (after (.recordWriteComplete 0 .error) (recording (servingWith 0 .committing) .commit .issued)).device.state = .serving
    ∧ (after (.recordWriteComplete 0 .okay) (recording (servingWith 0 .committing) .commit .failed)).device.cause = .endRecord
    ∧ (after (.recordWriteComplete 0 .error) (windingDown (recording (servingWith 0 .committing) .commit .okay))).device.cause
        = .noCause := by decide +kernel

/-- R15, R77: the held responses, then the operation that ends, are answered at the entry into FAULTED. -/
theorem test_recordWriteComplete_answers :
    (after (.recordWriteComplete 0 .error) (recording { operating .appending (some ⟨0, 1⟩) with
      contexts := (operating .appending (some ⟨0, 1⟩)).contexts.set 2 { inState .committing 6 with held := [9] } }
      .undo .okay)).sent.map (fun r => (r.requester, r.tag, r.detail)) = [(2, 9, .fault), (0, 3, .fault)] := by
  decide +kernel

theorem test_operationForwardedWriteComplete :
    (after (.operationForwardedWriteComplete 0 .okay)
      (accessing (operating .forwarding (some ⟨0, 1⟩)) .operationWrite rangeLine)).sent =
        [{ requester := 0, tag := 3, code := .okay, detail := .noDetail, data := none }] := by decide +kernel

theorem test_headerWriteComplete :
    (after (.headerWriteComplete 0 .okay) { accessing serving (.headerHalf .second) 0x401 with
      header := { HeaderWriter.reset with inFlight := some ⟨⟨.b, 2, ⟨5, 6⟩, 0⟩, 1, .secondIssued⟩ } }).journal.published =
      ⟨5, 6⟩ := by decide +kernel

theorem test_rollbackReadComplete :
    (after (.rollbackReadComplete 0 (.okay (placeHalf (recordOf .undo).image .second))) (engineReading .second 1)).engine.restore =
      some { line := rangeLine, old := 0xCD, attempt := 1, issued := false } := by decide +kernel

theorem test_restoreWriteComplete : (after (.restoreWriteComplete 0 .okay) (engineRestoring 1)).engine.restore = none := by
  decide +kernel

theorem test_recoveryHeaderReadComplete :
    (after (.recoveryHeaderReadComplete 0 (.okay 0)) (judging (theImage.bytes 510))).recovery.phase = .forwardWalk := by
  decide +kernel

theorem test_zeroingWriteComplete :
    (after (.zeroingWriteComplete 0 .okay)
      (recoveringIn .zeroing { Recovery.reset with phase := .formatting })).recovery.zeroDone = 1 := by decide +kernel

theorem test_formatHeaderWriteComplete :
    (after (.formatHeaderWriteComplete 0 .okay) (recoveringIn (.formatHeader .second) { Recovery.reset with
      phase := .formatting, io := { SequencerIO.reset with formatHeader := ⟨.okay, .issued⟩ } })).recovery.phase =
      .forwardWalk := by decide +kernel

theorem test_forwardWalkReadComplete :
    (after (.forwardWalkReadComplete 0 (.okay (placeHalf (recordOf .undo).image .second)))
      (examining (recordOf .undo).image [])).recovery.unended = [{ context := 0, openNumber := 5 }] := by decide +kernel

theorem test_undoPassReadComplete :
    (after (.undoPassReadComplete 0 (.okay (placeHalf (recordOf .undo).image .second)))
      (undoing (recordOf .undo).image)).recovery.restoresOutstanding = 1 := by decide +kernel

theorem test_recoveryRestoreComplete :
    (after (.recoveryRestoreComplete 0 .okay) (recoveringIn .recoveryRestore { Recovery.reset with
      phase := .undoPass, restoresOutstanding := 1 })).recovery.phase = .reinit := by decide +kernel

theorem test_reinitHeaderWriteComplete :
    (after (.reinitHeaderWriteComplete 0 .okay) reinitialising).device.state = .serving
      ∧ (after (.reinitHeaderWriteComplete 0 .okay) reinitialising).journal.head = ⟨1, 512⟩ := by decide +kernel

theorem test_memoryResponseUnknownSlot : after (.memoryResponseUnknownSlot 0 (.okay 0)) serving = serving := rfl

theorem test_arbiterGrant :
    (after (.arbiterGrant 6) (after (.readRequest 3 7 plainLine) serving)).access 6 =
      some { purpose := .forwarded, line := plainLine, kind := .read, order := 0 } := by decide +kernel

theorem test_undoSlotRequest : (after (.undoSlotRequest rangeLine) (operating .appending none)).journal.head = ⟨1, 2⟩
    ∧ ((after (.undoSlotRequest rangeLine) (crowded (operating .appending none) 16)).ctx 0).reason = some .journalFull := by
  decide +kernel

theorem test_commitRecordAsk : (after (.commitRecordAsk 0) (servingWith 0 .committing)).journal.requests =
    [{ context := 0, kind := .commit, openNumber := 5, label := 7, reason := 0 }] := by decide +kernel

theorem test_endRecordRequest :
    (after (.endRecordRequest 0) (after (.commitRecordAsk 0) (servingWith 0 .committing))).journal.records.map
      (fun r => (r.slot, r.record.kind, r.record.seq)) = [(0, .commit, 1)] := by decide +kernel

/-- R11, R82: the drain taken first is appended first. -/
theorem test_rollbackQueueAppend :
    (after (.rollbackQueueAppend 2) (after (.rollbackQueueAppend 1) { serving with drains := [[1], [2]] })).rollbackQueue = [1, 2]
    ∧ (after (.rollbackQueueAppend 2) { serving with drains := [[1], [2]] }).rollbackQueue = []
    ∧ (after (.rollbackQueueAppend 2) { partIn .halted with drains := [[1, 2]] }).drains = [[1]] := by decide +kernel

theorem test_rollbackTakeContext :
    (after .rollbackTakeContext { servingWith 0 .abortPending with rollbackQueue := [0] }).engine.phase = .closing
      ∧ (after .rollbackTakeContext { serving.setCtx 0 { inState .abortPending 5 with undoCount := 1, lastSlot := some 9 } with
          rollbackQueue := [0] }).engine.walkPosition = some 9 := by decide +kernel

theorem test_abortRecordAsk :
    (after .abortRecordAsk { walking serving with
      engine := { Engine.reset with phase := .walking, current := some 0, walkEnded := true } }).engine.phase = .closing := by
  decide +kernel

theorem test_timebaseAdvance : (after .timebaseAdvance { serving with timebase := BitVec.allOnes 64 }).timebase = 0 := by
  decide +kernel

/-! ## States and operands that meet the hypotheses of the statements, clause by clause -/

def sixStates : State :=
  { (((((serving.setCtx 1 (inState .opened 5)).setCtx 2 (inState .committing 6)).setCtx 3 (inState .abortPending 7)).setCtx 4
      (inState .rollingBack 8)).setCtx 5 (inState .aborted 9)) with ops := [operationIn .readingOld none] }

/-- LinkResetInServiceDrains: a context in each of the six states, and no operation that asks. -/
theorem test_meets_LinkResetInServiceDrains : sixStates.works ∧ draining.works ∧ sixStates.pins.lrst = false
    ∧ (∀ o ∈ sixStates.ops, o.asking = false)
    ∧ (List.map (fun c => (sixStates.ctx c).state) [0, 1, 2, 3, 4, 5])
        = [.idle, .opened, .committing, .abortPending, .rollingBack, .aborted] := by decide +kernel

/-- LinkResetInServiceDrains: a slot request that waits is withdrawn without a response, and its context drains. -/
theorem test_meets_LinkResetInServiceDrains_withdraws : (operating .appending none).works
    ∧ (operating .appending none).pins.lrst = false
    ∧ ((operating .appending none).ops.map (fun o => o.line)).Nodup
    ∧ ((operating .appending none).holds.map (fun e => e.line)).Nodup
    ∧ (operating .appending none).ops.filter (fun o => decide (o.stage = .appending ∧ o.slot = none))
        = [operationIn .appending none]
    ∧ (after .linkReset (operating .appending none)).holds = [] ∧ (after .linkReset (operating .appending none)).ops = []
    ∧ (after .linkReset (operating .appending none)).sent = []
    ∧ ((after .linkReset (operating .appending none)).ctx 0).holdsCount = 0
    ∧ (after .linkReset (operating .appending none)).drains = [[0]] := by decide +kernel

theorem test_meets_PowerOnReset : { serving with pins := ⟨true, false, false⟩ }.pins.porst = true
    ∧ { serving with pins := ⟨true, false, true⟩ }.pins.pfail = true ∧ serving.pins.porst = false := by decide +kernel

/-- PowerOnResetOfThePart, LinkResetElsewhere and PowerFailBeginsTheWindDown: each pin at the level the command names; and
RequestsByDeviceState: a request while PORST_N is asserted. -/
theorem test_meets_pinsAtTheirLevel :
    after .porstNAssert { serving with pins := ⟨true, false, false⟩ } = { serving with pins := ⟨true, false, false⟩ }
    ∧ after .porstNDeassert serving = serving
    ∧ after .linkReset { serving with pins := ⟨false, true, false⟩ } = { serving with pins := ⟨false, true, false⟩ }
    ∧ after .pfailNAssert { serving with pins := ⟨false, false, true⟩ } = { serving with pins := ⟨false, false, true⟩ }
    ∧ after .pfailNAssert (after .porstNAssert serving)
      = { after .porstNAssert serving with pins := ⟨true, false, true⟩ }
    ∧ (after .porstNAssert serving).pins.porst = true ∧ (Instr.readRequest 0 3 plainLine).request? = some (0, 3)
    ∧ after (.readRequest 0 3 plainLine) (after .porstNAssert serving) = after .porstNAssert serving := by decide +kernel

theorem test_meets_LinkResetElsewhere : faulted.pins.lrst = false ∧ faulted.runsIn .faulted ∧ passing.runsIn .passthrough
    ∧ State.reset.device.state = .loading ∧ (partIn .recovering).device.state = .recovering
    ∧ (partIn .halted).device.state = .halted ∧ (after .pfailNAssert (accessing serving .forwarded 0)).device.powerFailPending = true := by
  decide +kernel

theorem test_meets_PinDeassertions : (draining.device.state = .draining ∧ draining.device.powerFailPending = false
      ∧ ∀ c, (draining.ctx c).state ≠ .abortPending ∧ (draining.ctx c).state ≠ .rollingBack)
    ∧ (draining.setCtx 15 (inState .rollingBack 5)).ctx 15 = inState .rollingBack 5 ∧ serving.device.state ≠ .draining := by
  decide +kernel

theorem test_meets_PowerFailBeginsTheWindDown : serving.pins.porst = false ∧ serving.pins.pfail = false
    ∧ serving.device.state ≠ .halted ∧ serving.device.powerFailPending = false ∧ (∀ k, serving.access k = none)
    ∧ (accessing serving .forwarded 0).access 0 ≠ none ∧ reinitialising.device.state = .recovering
    ∧ serving.engine.read.any (fun r => r.issued) = false ∧ serving.engine.restore.any (fun w => w.issued) = false
    ∧ (engineReading .first 1).engine.read.any (fun r => r.issued) = true
    ∧ (engineRestoring 1).engine.restore.any (fun w => w.issued) = true ∧ (partIn .halted).device.state = .halted := by
  decide +kernel

theorem test_meets_TagInUseIsRefused : (Instr.readRequest 0 3 plainLine).request? = some (0, 3)
    ∧ (0, 3) ∈ (operating .readingOld none).outstanding ∧ (operating .readingOld none).examines
    ∧ { passing with outstanding := [(0, 3)] }.runsIn .passthrough ∧ draining.answersNotReady := by decide +kernel

/-- TagInUseIsRefused, the control lines: one that arrives is classified; one that waits is taken, and left in the
wind-down. A line whose tag another request uses does not wait. -/
theorem test_meets_TagInUseIsRefused_lines :
    (servingWith 4 .opened).examines ∧ (servingWith 4 .opened).unclaimed 4 0 plainLine
    ∧ (servingWith 4 .opened).recognises fullMask theWaitingLine.data = true
    ∧ (Instr.abort 4 0 plainLine (fieldsOf 3)).waitingLine? = some theWaitingLine
    ∧ lineWaiting.lineWaits theWaitingLine = true ∧ lineWaiting.examines
    ∧ lineWaiting.params.inJournalArea plainLine = false ∧ lineWaiting.recognises fullMask theWaitingLine.data = true
    ∧ (windingDown lineWaiting).device.powerFailPending = true
    ∧ (windingDown lineWaiting).lineWaits theWaitingLine = true
    ∧ { servingWith 4 .opened with outstanding := [(4, 0)] }.lineWaits theWaitingLine = false := by decide +kernel

/-- TagInUseIsRefused: a line that waits in HALTED, and in a state in which none waits in a run. -/
theorem test_meets_TagInUseIsRefused_notTaken :
    { lineWaiting with device := (partIn .halted).device }.lineWaits theWaitingLine = true
    ∧ after (.abort 4 0 plainLine (fieldsOf 3)) { lineWaiting with device := (partIn .halted).device }
      = { lineWaiting with device := (partIn .halted).device }
    ∧ { lineWaiting with device := draining.device }.lineWaits theWaitingLine = true := by decide +kernel

theorem test_meets_RequestsByDeviceState : State.reset.answersNotReady ∧ (partIn .recovering).answersNotReady
    ∧ draining.answersNotReady ∧ (partIn .halted).answersNotReady
    ∧ (after .pfailNAssert (accessing serving .forwarded 0)).answersNotReady ∧ passing.runsIn .passthrough
    ∧ (Instr.readRequest 15 63 plainLine).read? = some (15, 63, plainLine) ∧ (15, 63) ∉ passing.outstanding
    ∧ (Instr.writeRequest 0 0 plainLine 0 1).write? = some ⟨0, 0, plainLine, 0, 1⟩
    ∧ (Instr.writeRequest 0 0 plainLine 1 1).write? = some ⟨0, 0, plainLine, 1, 1⟩ := by decide +kernel

/-- ReservedAreaAndEmptyMask: the first and the last line of the journal area, and the lines before and behind it. -/
theorem test_meets_ReservedAreaAndEmptyMask : serving.examines ∧ faulted.examines
    ∧ serving.params.inJournalArea 0x400 = true ∧ serving.params.inJournalArea 0x7FF = true
    ∧ serving.params.inJournalArea 0x3FF = false ∧ serving.params.inJournalArea 0x800 = false
    ∧ (0, 3) ∉ serving.outstanding ∧ serving.unclaimed 0 3 0x3FF
    ∧ (Instr.writeRequest 0 3 0x3FF 0 1).write? = some ⟨0, 3, 0x3FF, 0, 1⟩ := by decide +kernel

theorem test_meets_Read : serving.examines ∧ serving.unclaimed 0 3 rangeLine ∧ (serving.ctx 0).arming ≠ some rangeLine
    ∧ (operating .readingOld none).lineJournaling rangeLine = true ∧ (operating .readingOld none).unclaimed 0 4 rangeLine
    ∧ serving.lineJournaling rangeLine = false
    ∧ ((after (.query 4 0 plainLine (fieldsOf 4)) serving).ctx 4).arming = some plainLine
    ∧ (after (.query 4 0 plainLine (fieldsOf 4)) serving).unclaimed 4 1 plainLine := by decide +kernel

/-- A start-up that ended in FAULTED after a header was chosen. -/
def faultedStart : State :=
  { faulted with
    journal := Journal.reset
    recovery := { Recovery.reset with phase := .stopped, chosen := some { chosenA with recoveryCount := 3 } } }

theorem test_meets_StatusRecordFields_notStarted : faultedStart.journal.started = false
    ∧ faultedStart.recovery.chosen = some { chosenA with recoveryCount := 3 }
    ∧ State.reset.journal.started = false ∧ State.reset.recovery.chosen = none
    ∧ (faultedStart.statusRecord 0).extractLsb' 256 32 = 1 ∧ (faultedStart.statusRecord 0).extractLsb' 384 16 = 3
    ∧ (faultedStart.statusRecord 0).extractLsb' 224 32 = 0 := by decide +kernel

theorem test_meets_StatusRecordFields : serving.journal.started = true ∧ serving.key.checker = .openChannel
    ∧ { serving with key := ⟨.lockedOut 101, [], 2, false⟩ }.key.checker = .lockedOut 101 := by decide +kernel

/-- serving with context 0 OPEN and its holds, and n further operations and m further entries. -/
def filled (holds n m : Nat) : State :=
  { serving.setCtx 0 { inState .opened 5 with holdsCount := holds } with
    ops := List.replicate n { operationIn .readingOld none with requester := 1, line := 0x4001 }
    holds := List.replicate m { line := 0x4001, owner := 1, state := .held } }

/-- FirstWriteInsertsAHold: 15 and 16 operations, the quota of 2 reached or not, 511 and 512 entries. -/
theorem test_meets_FirstWriteInsertsAHold :
    (∀ s ∈ [filled 0 16 16, filled 2 15 15, filled 1 15 512, filled 1 15 511],
      s.runsIn .serving ∧ s.isDataWrite 0 3 rangeLine 1 0xAB ∧ s.params.inJournaledRange rangeLine = true
        ∧ (s.ctx 0).state = .opened ∧ s.hold? rangeLine = none ∧ s.pendingWrite rangeLine = false
        ∧ ∀ o ∈ s.ops, o.requester = 0 → o.asking = false)
    ∧ 16 ≤ (filled 0 16 16).ops.length ∧ (filled 2 15 15).ops.length < 16
    ∧ ((filled 2 15 15).ctx 0).holdsCount = (filled 2 15 15).params.holdQuota
    ∧ ((filled 1 15 512).ctx 0).holdsCount ≠ (filled 1 15 512).params.holdQuota
    ∧ 512 ≤ (filled 1 15 512).holds.length ∧ (filled 1 15 511).holds.length < 512 := by decide +kernel

/-- DataWriteByContextState: each context state in the range; the last line of the range and the line behind it. -/
theorem test_meets_DataWriteByContextState :
    (∀ st ∈ [ContextState.idle, .committing, .abortPending, .rollingBack, .aborted],
      (servingWith 0 st).isDataWrite 0 3 0x403F 1 0xAB ∧ (servingWith 0 st).lineQuiet 0x403F
        ∧ (servingWith 0 st).heldByOther 0 0x403F = none ∧ (servingWith 0 st).params.inJournaledRange 0x403F = true)
    ∧ serving.params.inJournaledRange 0x4040 = false ∧ serving.params.inJournaledRange 0x3FFF = false
    ∧ { servingWith 0 .opened with holds := [⟨rangeLine, 0, .held⟩] }.lineQuiet rangeLine
    ∧ { servingWith 0 .opened with holds := [⟨rangeLine, 0, .held⟩] }.heldByOther 0 rangeLine = none
    ∧ ({ servingWith 0 .opened with holds := [⟨rangeLine, 0, .held⟩] }.hold? rangeLine).isSome = true := by decide +kernel

/-- rangeLine held by context 1; requester 0 with a wait record. -/
def contended (w : Option WaitRecord) : State :=
  { servingWith 1 .opened with
    contexts := (servingWith 1 .opened).contexts.set 0 { Context.reset with wait := w }, holds := [⟨rangeLine, 1, .held⟩] }

theorem test_meets_ConflictSetsTheWaitRecord :
    (∀ w ∈ [none, some ⟨rangeLine, 1, 90⟩, some ⟨0x4001, 2, 90⟩],
      (contended w).runsIn .serving ∧ (contended w).isDataWrite 0 3 rangeLine 1 0xAB
        ∧ (contended w).pendingWrite rangeLine = false ∧ (contended w).hold? rangeLine = some ⟨rangeLine, 1, .held⟩
        ∧ ((contended w).ctx 0).wait = w) := by decide +kernel

theorem test_meets_WriteInFlightIsRetried :
    (operating .readingOld none).isDataWrite 0 4 rangeLine 1 0xAB
    ∧ (operating .readingOld none).hold? rangeLine = some ⟨rangeLine, 0, .journaling⟩
    ∧ (forwarding false (.write 1 1)).isDataWrite 0 4 plainLine 1 0xAB
    ∧ (∃ e ∈ (forwarding false (.write 1 1)).forward, e.line = plainLine ∧ e.kind ≠ .read)
    ∧ (∃ o ∈ (operating .forwarding none).ops, o.line = rangeLine ∧ o.stage = .forwarding) := by decide +kernel

theorem test_meets_FaultedWrite : faulted.runsIn .faulted ∧ faulted.isDataWrite 0 3 rangeLine 1 0xAB
    ∧ faulted.params.inJournaledRange rangeLine = true ∧ faulted.isDataWrite 0 3 plainLine 1 0xAB
    ∧ faulted.params.inJournaledRange plainLine = false
    ∧ { forwarding false (.write 1 1) with device := faulted.device }.pendingWrite plainLine = true := by decide +kernel

/-- The command statements: each command is taken in each context state. -/
theorem test_meets_Commands : ∀ st ∈ [ContextState.idle, .opened, .committing, .abortPending, .rollingBack, .aborted],
    ∀ code ∈ ([1, 2, 3, 4, 5] : List Byte), (servingWith 0 st).takes (lineOf 0 code) := by decide +kernel

theorem test_meets_Commands_states : ∀ st ∈ [ContextState.idle, .opened, .committing, .abortPending, .rollingBack, .aborted],
    ((servingWith 0 st).ctx 0).state = st ∧ (servingWith 0 st).examines := by decide +kernel

theorem test_meets_CommitAndAbort : ((servingWith 0 .opened).ctx 0).opsInFlight = 0
    ∧ ((operating .readingOld none).ctx 0).opsInFlight ≠ 0 ∧ (operating .readingOld none).takes (lineOf 0 3)
    ∧ (∀ o ∈ (operating .readingOld none).ops, o.requester = 0 → o.asking = false) := by decide +kernel

/-- AbortCommand, FirstWriteInsertsAHold and ConflictTimerExpiry: a slot request that is withdrawn. -/
theorem test_meets_withdrawable : (operating .appending none).takes (lineOf 0 3)
    ∧ (operating .appending none).withdrawable 0 ∧ (operating .appending none).withdrawn 0 = [operationIn .appending none]
    ∧ (operating .readingOld none).withdrawable 0 ∧ (operating .readingOld none).withdrawn 0 = []
    ∧ (operating .appending none).isDataWrite 0 4 0x4001 1 0xAB ∧ (operating .appending none).hold? 0x4001 = none
    ∧ ((operating .appending none).ctx 0).state = .opened := by decide +kernel

/-- In the wind-down the Journal Writer takes no slot request (R56), and an abort request that comes there withdraws the
one that waits (R76), which brings its context to its drain (R81; log 28). -/
theorem test_windDown_withdrawsTheSlotRequest :
    after (.undoSlotRequest 0x4001) (windingDown (operating .appending none)) = windingDown (operating .appending none)
    ∧ (windingDown (operating .appending none)).withdrawn 0 = [operationIn .appending none]
    ∧ ((windingDown (operating .appending none)).abortRequest 0 .memoryError).ops = []
    ∧ ((windingDown (operating .appending none)).abortRequest 0 .memoryError).holds = []
    ∧ ((windingDown (operating .appending none)).abortRequest 0 .memoryError).sent.map (fun r => (r.code, r.detail))
        = [(.error, .aborted)]
    ∧ (((windingDown (operating .appending none)).abortRequest 0 .memoryError).ctx 0).state = .abortPending
    ∧ ((windingDown (operating .appending none)).abortRequest 0 .memoryError).drains = [[0]] := by decide +kernel

theorem test_meets_QueryCommandArms : faulted.examines ∧ faulted.admits (lineOf 0 4) ∧ (fieldsOf 4).clean := by decide +kernel

/-- MalformedLineIsRefused: a must-be-zero bit set, and the codes 0 and 6 next to the known ones. -/
theorem test_meets_MalformedLineIsRefused :
    serving.admits ⟨0, 0, plainLine, 1, fieldsWith 1 testParams.key 1⟩ ∧ ¬ (fieldsWith 1 testParams.key 1).clean
    ∧ faulted.admits (lineOf 0 6) ∧ 5 < (lineOf 0 6).code.toNat ∧ serving.admits (lineOf 0 0)
    ∧ (lineOf 0 0).code.toNat = 0 ∧ (Instr.openTransaction 0 0 plainLine (fieldsWith 1 testParams.key 1)).controlLine?
        = some ⟨0, 0, plainLine, 1, fieldsWith 1 testParams.key 1⟩
    ∧ (Instr.controlLineUnknownCommand 0 0 plainLine 6 (fieldsOf 6)).controlLine? = some (lineOf 0 6) := by decide +kernel

theorem test_meets_LockedOutLineIsRefused : serving.decodes (lineOf 0 1) ∧ faulted.decodes (lineOf 0 1)
    ∧ { serving with key := ⟨.lockedOut 101, [], 2, false⟩ }.decodes (lineOf 0 1)
    ∧ (Instr.openTransaction 0 0 plainLine (fieldsOf 1)).controlLine? = some (lineOf 0 1) := by decide +kernel

/-- KeyMismatchIsRecorded: one failure short of the threshold of 2, and at it; totals 63 and 65535. -/
theorem test_meets_KeyMismatchIsRecorded :
    serving.decodes ⟨0, 0, plainLine, 1, fieldsWith 1 0 0⟩ ∧ (fieldsWith 1 0 0).key ≠ serving.params.key
    ∧ serving.key.checker = .openChannel
    ∧ ((after (.openTransaction 0 0 plainLine (fieldsWith 1 0 0)) serving).key = ⟨.openChannel, [100], 1, false⟩)
    ∧ (after (.openTransaction 0 0 plainLine (fieldsWith 1 0 0)) { serving with key := ⟨.openChannel, [100], 63, false⟩ }).key
        = ⟨.lockedOut 1000100, [], 64, true⟩
    ∧ (after (.openTransaction 0 0 plainLine (fieldsWith 1 0 0)) { serving with key := ⟨.openChannel, [], 65535, true⟩ }).key
        = ⟨.openChannel, [100], 65535, true⟩ := by decide +kernel

theorem test_meets_FaultedCommandsAreRefused : ∀ code ∈ ([1, 2, 3, 5] : List Byte),
    faulted.runsIn .faulted ∧ faulted.admits (lineOf 0 code) ∧ (lineOf 0 code).fields.clean := by decide +kernel

/-- Waiter 0 and holder 1 in these states, the record 10 microseconds old, which is the conflict timeout. -/
def waiting (waiter holder : Context) (entry : List HoldEntry) : State :=
  { serving with
    contexts := (serving.contexts.set 1 holder).set 0 { waiter with wait := some ⟨rangeLine, 1, 90⟩ }, holds := entry }

/-- ConflictTimerExpiry: no entry, another holder, and the recorded holder with waiter and holder in each case; the open
numbers one apart each way, and half the range apart, where the greater context number is the younger. -/
theorem test_meets_ConflictTimerExpiry :
    (waiting .reset .reset []).works ∧ (waiting .reset .reset []).hold? rangeLine = none
    ∧ ((waiting .reset .reset []).ctx 0).wait = some ⟨rangeLine, 1, 90⟩
    ∧ 90 + (waiting .reset .reset []).params.conflictTimeout ≤ (waiting .reset .reset []).timebase.toNat
    ∧ (waiting .reset .reset [⟨rangeLine, 2, .held⟩]).hold? rangeLine = some ⟨rangeLine, 2, .held⟩
    ∧ (∀ st ∈ [ContextState.committing, .abortPending, .rollingBack, .aborted],
        ((waiting (inState st 6) (inState .opened 5) [⟨rangeLine, 1, .held⟩]).ctx 0).state = st)
    ∧ (∀ st ∈ [ContextState.committing, .abortPending, .rollingBack],
        ((waiting (inState .opened 6) (inState st 5) [⟨rangeLine, 1, .held⟩]).ctx 1).state = st)
    ∧ ((waiting .reset (inState .opened 5) [⟨rangeLine, 1, .held⟩]).ctx 0).state = .idle
    ∧ ((waiting (inState .opened 6) (inState .opened 5) [⟨rangeLine, 1, .held⟩]).ctx 1).openNumber = some 5
    ∧ youngerThan 0 6 1 5 ∧ youngerThan 1 6 0 5 ∧ youngerThan 1 0x80000000 0 0 ∧ ¬ youngerThan 0 0x80000000 1 0
    ∧ youngerThan 0 0 1 0xFFFFFFFF := by decide +kernel

/-- ConflictTimerExpiry where none is taken: one microsecond early, without a record, in FAULTED and HALTED, and in the
wind-down. -/
theorem test_meets_ConflictTimerExpiry_notTaken : ∀ s, s = waiting .reset .reset [] →
    { s with timebase := 90 + BitVec.ofNat 64 s.params.conflictTimeout - 1 }.timebase.toNat
      < 90 + s.params.conflictTimeout
    ∧ after (.conflictTimerExpiry 0) s ≠ s ∧ (serving.ctx 0).wait = none
    ∧ (∀ d ∈ [faulted.device, (partIn .halted).device],
        after (.conflictTimerExpiry 0) { s with device := d } = { s with device := d })
    ∧ after (.conflictTimerExpiry 0) (windingDown s) = windingDown s := by
  rintro s rfl
  decide +kernel

theorem test_meets_LockoutExpiryOpensTheChannel : ({ serving with key := ⟨.lockedOut 100, [], 2, false⟩ } : State).keyConsistent
    ∧ (100 : Time) ≤ serving.timebase ∧ serving.timebase < (101 : Time) ∧ serving.pins.porst = false
    ∧ faulted.device.state = .faulted ∧ draining.device.state = .draining := by
  refine ⟨⟨fun e h => rfl, by decide, by decide⟩, ?_⟩
  decide +kernel

/-- LockoutExpiryOpensTheChannel in HALTED: a lockout that is over stands. -/
theorem test_meets_LockoutExpiryOpensTheChannel_halted : (partIn .halted).device.powerFailPending = false
    ∧ after .lockoutExpiry { partIn .halted with key := ⟨.lockedOut 0, [], 2, false⟩ }
      = { partIn .halted with key := ⟨.lockedOut 0, [], 2, false⟩ }
    ∧ (partIn .halted).deviceConsistent := by
  refine ⟨by decide +kernel, by decide +kernel, ?_⟩
  unfold State.deviceConsistent RecoveryPhase.active
  decide +kernel

/-- A block of Table 12-6 that passes, its check word computed. -/
def goodBlock : ParamBlock :=
  let b : BitVec 2016 := (0x300000 : BitVec 2016) <<< 512 ||| (0x1000 : BitVec 2016) <<< 576 ||| 1
    ||| (0x1122334455667788 : BitVec 2016) <<< 64 ||| (5 : BitVec 2016) <<< 128 ||| (0x10000 : BitVec 2016) <<< 192
    ||| (0x10000 : BitVec 2016) <<< 256 ||| (2 : BitVec 2016) <<< 288 ||| (1 : BitVec 2016) <<< 304
    ||| (10 : BitVec 2016) <<< 320 ||| (2 : BitVec 2016) <<< 352 ||| (1 : BitVec 2016) <<< 360 ||| (1 : BitVec 2016) <<< 368
  crc32 b ++ b

/-- ConfigurationLoading: `test_sampledAs` gives sampled bits for every block. The bits of this block are a block that
passes, and those of the block 0 one that does not. -/
theorem test_meets_ConfigurationLoading : State.reset.loader.phase = .transfer ∧ blockValid goodBlock = true
    ∧ blockValid 0 = false ∧ State.reset.loader.attempt < 3
    ∧ { State.reset with loader := ⟨3, .transfer, none⟩ }.loader.attempt = 3
    ∧ { State.reset with loader := ⟨3, .transfer, none⟩, pins := ⟨false, true, false⟩ }.pins.lrst = true
    ∧ { State.reset with loader := ⟨2, .pausing 10000, none⟩ }.loader.phase = .pausing 10000
    ∧ serving.loader.phase ≠ .transfer := by decide +kernel

/-- ConfigurationLoading: a pause one microsecond before its end, no pause, and no transfer. -/
theorem test_meets_ConfigurationLoading_notDue :
    { State.reset with loader := ⟨2, .pausing 10000, none⟩, timebase := 9999 }.timebase < (10000 : Time)
    ∧ after .loadPauseEnd { State.reset with loader := ⟨2, .pausing 10000, none⟩, timebase := 9999 }
      = { State.reset with loader := ⟨2, .pausing 10000, none⟩, timebase := 9999 }
    ∧ (∀ e, State.reset.loader.phase ≠ .pausing e) ∧ serving.loader.phase ≠ .transfer := by
  refine ⟨by decide +kernel, by decide +kernel, fun e h => ?_, by decide +kernel⟩
  cases h

/-- A block that passes; and R159: LRST_N asserted at the entry into PASSTHROUGH. -/
theorem test_configurationTransferEnd_entries :
    (after (.configurationTransferEnd (blockOfSampled goodBlock)) State.reset).device.state = .recovering
    ∧ (after (.configurationTransferEnd 0) { State.reset with
      loader := ⟨3, .transfer, none⟩, pins := ⟨false, true, false⟩, outstanding := [(0, 3)] }).outstanding = [] := by
  decide +kernel

theorem test_meets_ForwardedAccessCompletes : ∀ j ∈ [false, true], ∀ kind ∈ [AccessKind.read, .write 1 1],
    (forwarding j kind).access 0 = some (theAccess .forwarded plainLine)
    ∧ ((forwarding j kind).forward.find? (fun e => decide (e.issued = some 0))).map (fun e => (e.kind, e.journaled)) = some (kind, j)
    ∧ (forwarding j kind).device.powerFailPending = false ∧ serving.access 0 = none
    ∧ ((forwarding j kind).setCtx 3 (inState .opened 5)).ctx 3 = inState .opened 5 := by decide +kernel

/-- The wind-down of the completion statements: one access in flight, and one beside it. -/
theorem test_meets_windDown : (windingDown (forwarding true (.write 1 1))).access 0 = some (theAccess .forwarded plainLine)
    ∧ (windingDown (forwarding true (.write 1 1))).device.powerFailPending = true
    ∧ (windingDown (forwarding true (.write 1 1))).journals
    ∧ ((after (.forwardAccessComplete 0 .error) (windingDown (forwarding true (.write 1 1))))).device.state = .halted := by
  decide +kernel

theorem test_meets_OldLineReadCompletes :
    (accessing (operating .readingOld none) .oldLineRead rangeLine).access 0 = some (theAccess .oldLineRead rangeLine)
    ∧ (accessing (operating .readingOld none) .oldLineRead rangeLine).op? rangeLine = some (operationIn .readingOld none)
    ∧ { operating .readingOld none with ops := [operationCancelled] }.op? rangeLine = some operationCancelled
    ∧ ((operating .readingOld none).ctx 0).state = .opened ∧ (operationIn .readingOld none).forgotten = false := by decide +kernel

theorem test_meets_OperationWriteCompletes :
    (accessing (operating .forwarding none) .operationWrite rangeLine).access 0 = some (theAccess .operationWrite rangeLine)
    ∧ (operating .forwarding none).op? rangeLine = some (operationIn .forwarding none) := by decide +kernel

/-- UndoSlotRequest: 17 free slots, 16 free slots, and FAULTED. -/
theorem test_meets_UndoSlotRequest : (operating .appending none).op? rangeLine = some (operationIn .appending none)
    ∧ (operationIn .appending none).slot = none ∧ (crowded (operating .appending none) 17).freeSlots = 17
    ∧ (crowded (operating .appending none) 16).freeSlots = 16
    ∧ { operating .appending none with device := faulted.device }.device.state = .faulted := by decide +kernel

/-- UndoSlotRequest where none is taken: no operation, another stage, a slot already granted, and HALTED. -/
theorem test_meets_UndoSlotRequest_notTaken : serving.op? rangeLine = none
    ∧ (operating .readingOld none).op? rangeLine = some (operationIn .readingOld none)
    ∧ (operationIn .appending (some ⟨0, 1⟩)).slot ≠ none
    ∧ after (.undoSlotRequest rangeLine) { operating .appending none with device := (partIn .halted).device }
      = { operating .appending none with device := (partIn .halted).device } := by decide +kernel

/-- Two assigned records: the one at the durable head waits, and the second half of the one behind it is in slot 0. -/
def recordingBehind : State :=
  { accessing (operating .appending (some ⟨1, 2⟩)) (.recordHalf 2 .second) 0x407 with
    journal := { serving.journal with
      head := ⟨2, 3⟩
      records := [{ assignedOf .commit .waiting with owner := 1, second := .waiting },
        { assignedOf .undo .okay with slot := 1, record := { recordOf .undo with seq := 2 } }] } }

/-- RecordHalfWritten: the other half is still out, and the record behind the durable head is whole. -/
theorem test_meets_RecordHalfWritten : (recording (servingWith 0 .committing) .commit .issued).journals
    ∧ (recording (servingWith 0 .committing) .commit .issued).access 0 = some (theAccess (.recordHalf 1 .second) 0x405)
    ∧ (recording (servingWith 0 .committing) .commit .issued).record? 1 = some (assignedOf .commit .issued)
    ∧ ((recording (servingWith 0 .committing) .commit .issued).journal.records.map (fun q => q.record.seq)).Nodup
    ∧ (assignedOf .commit .issued).first ≠ .failed ∧ (windingDown recordingBehind).journals
    ∧ recordingBehind.access 0 = some (theAccess (.recordHalf 2 .second) 0x407)
    ∧ (recordingBehind.record? 2).map (fun r => r.first) = some .okay
    ∧ recordingBehind.journal.records.head?.map (fun r => r.mark) = some false
    ∧ (after (.recordWriteComplete 0 .okay) recordingBehind).ops.map (fun o => o.stage) = [.waitingDurable] := by
  decide +kernel

/-- UndoRecordDurable: the operation goes on, and is cancelled; EndRecordDurable: each kind of record. -/
theorem test_meets_RecordDurable :
    (∀ kind ∈ [RecordKind.undo, .commit, .abort],
      (recording (operating .appending (some ⟨0, 1⟩)) kind .okay).journal.records = [assignedOf kind .okay]
      ∧ (recording (operating .appending (some ⟨0, 1⟩)) kind .okay).access 0 = some (theAccess (.recordHalf 1 .second) 0x405)
      ∧ (recording (operating .appending (some ⟨0, 1⟩)) kind .okay).journals ∧ (assignedOf kind .okay).first = .okay)
    ∧ (recording (operating .appending (some ⟨0, 1⟩)) .undo .okay).op? rangeLine = some (operationIn .appending (some ⟨0, 1⟩))
    ∧ (recording { operating .appending none with ops := [operationCancelled] } .undo .okay).op? rangeLine = some operationCancelled
    ∧ (recording (walking serving) .abort .okay).engine.phase ≠ .stopped := by decide +kernel

/-- Four records: ABORT of context 4 with its last half out, COMMIT of context 2 and UNDO of context 0 written before it,
and a COMMIT of context 3 not yet written. -/
def severalWritten : State :=
  let s := ((operating .waitingDurable (some ⟨2, 3⟩)).setCtx 4 { inState .rollingBack 5 with
    noticeDue := some true, held := [9] }).setCtx 2 (inState .committing 6)
  { accessing s (.recordHalf 1 .second) 0x405 with
    engine := { Engine.reset with phase := .closing, current := some 4 }
    journal := { serving.journal with
      head := ⟨4, 5⟩
      records := [{ assignedOf .abort .okay with owner := 4 },
        { owner := 2, slot := 1, record := { recordOf .commit with seq := 2 }, first := .okay, second := .okay, mark := true },
        { owner := 0, slot := 2, record := { recordOf .undo with seq := 3 }, first := .okay, second := .okay, mark := true },
        { owner := 3, slot := 3, record := { recordOf .commit with seq := 4 }, first := .okay, second := .issued
          mark := false }] } }

/-- EndRecordDurable, several records in one advance: all three are reported, in order; one image is handed over; the
engine is FREE; the durable head stands at the fourth. -/
theorem test_meets_EndRecordDurable_several :
    severalWritten.access 0 = some (theAccess (.recordHalf 1 .second) 0x405) ∧ severalWritten.journals
    ∧ severalWritten.record? 1 = some { assignedOf .abort .okay with owner := 4 }
    ∧ (severalWritten.journal.records.map (fun q => q.record.seq)).Nodup ∧ (severalWritten.journal.records.map (fun q => q.mark))
        = [false, true, true, false]
    ∧ (after (.recordWriteComplete 0 .okay) severalWritten).journal.durableHead = ⟨3, 4⟩
    ∧ ((after (.recordWriteComplete 0 .okay) severalWritten).ctx 4).state = .aborted
    ∧ ((after (.recordWriteComplete 0 .okay) severalWritten).ctx 2).state = .idle
    ∧ (after (.recordWriteComplete 0 .okay) severalWritten).reports = [rangeLine]
    ∧ (after (.recordWriteComplete 0 .okay) severalWritten).holds = [⟨rangeLine, 0, .held⟩]
    ∧ (after (.recordWriteComplete 0 .okay) severalWritten).engine.phase = .free
    ∧ (after (.recordWriteComplete 0 .okay) severalWritten).header.inFlight.isSome = true
    ∧ (after (.recordWriteComplete 0 .okay) severalWritten).header.pendingImage = none := by decide +kernel

/-- RecordErrorFaults: the other half written, failed, waiting and out; the wind-down with the operation and without it;
FAULTED. -/
theorem test_meets_RecordErrorFaults : ∀ kind ∈ [RecordKind.undo, .commit, .abort],
    ∀ other ∈ [HalfWrite.okay, .failed, .waiting, .issued],
    (recording (operating .appending (some ⟨0, 1⟩)) kind other).record? 1 = some (assignedOf kind other)
    ∧ (recording (operating .appending (some ⟨0, 1⟩)) kind other).works
    ∧ (assignedOf kind other).mark = false
    ∧ ((recording (operating .appending (some ⟨0, 1⟩)) kind other).ops.map (fun o => o.line)).Nodup := by decide +kernel

theorem test_meets_RecordErrorFaults_windDown :
    (windingDown (recording (operating .appending (some ⟨0, 1⟩)) .undo .okay)).journals
    ∧ (windingDown (recording (operating .appending (some ⟨0, 1⟩)) .undo .okay)).op? rangeLine
        = some (operationIn .appending (some ⟨0, 1⟩))
    ∧ (operationIn .appending (some ⟨0, 1⟩)).slot.map (fun p => p.seq) = some (recordOf .undo).seq
    ∧ (recording serving .undo .okay).op? rangeLine = none
    ∧ (recording faulted .undo .okay).device.state = .faulted
    ∧ (recording faulted .undo .okay).record? 1 = some (assignedOf .undo .okay) := by decide +kernel

/-- A half of a header image in slot 0, at an attempt. -/
def publishing (h : Half) (attempt : Nat) : State :=
  { accessing serving (.headerHalf h) 0x401 with
    header := { HeaderWriter.reset with
      inFlight := some ⟨⟨.b, 2, ⟨5, 6⟩, 0⟩, attempt, if h = .first then .firstIssued else .secondIssued⟩ } }

/-- HeaderWriteCompletes: both halves, the second and the third attempt. -/
theorem test_meets_HeaderWriteCompletes : ∀ h ∈ [Half.first, .second], ∀ n ∈ [1, 2, 3],
    (publishing h n).works ∧ (publishing h n).access 0 = some (theAccess (.headerHalf h) 0x401)
    ∧ (publishing h n).header.inFlight.map (fun w => w.attempt) = some n := by decide +kernel

theorem test_meets_HeaderWriteCompletes_stopped : ∀ h ∈ [Half.first, .second],
    (windingDown (publishing h 1)).journals ∧ (windingDown (publishing h 1)).device.powerFailPending = true
    ∧ (windingDown (publishing h 1)).access 0 = some (theAccess (.headerHalf h) 0x401)
    ∧ { publishing h 1 with device := faulted.device }.device.state = .faulted := by decide +kernel

def askingEnd (x : Context) : State :=
  { serving.setCtx 0 x with journal := { serving.journal with requests := [⟨0, .abort, 5, 7, 1⟩] } }

/-- EndRecordRequest: a first record slot, none with 17 free slots, and none with 16. -/
theorem test_meets_EndRecordRequest :
    (askingEnd (inState .rollingBack 5)).journal.requests.find? (fun q => decide (q.context = 0)) = some ⟨0, .abort, 5, 7, 1⟩
    ∧ (askingEnd (inState .rollingBack 5)).works
    ∧ ((askingEnd { inState .rollingBack 5 with firstSlot := some 0 }).ctx 0).firstSlot ≠ none
    ∧ ((askingEnd (inState .rollingBack 5)).ctx 0).firstSlot = none
    ∧ (crowded (askingEnd (inState .rollingBack 5)) 17).freeSlots = 17
    ∧ (crowded (askingEnd (inState .rollingBack 5)) 16).freeSlots = 16
    ∧ ((askingEnd { inState .rollingBack 5 with noticeDue := some true }).ctx 0).noticeDue = some true := by decide +kernel

/-- EndRecordRequest and EngineTakesAndCloses where nothing is taken: in FAULTED, in the wind-down, with the engine
STOPPED or busy, and with nothing asked for. -/
theorem test_meets_nothingTaken :
    { askingEnd (inState .committing 5) with device := faulted.device }.device.state = .faulted
    ∧ after (.endRecordRequest 0) { askingEnd (inState .committing 5) with device := faulted.device }
      = { askingEnd (inState .committing 5) with device := faulted.device }
    ∧ (∀ q ∈ serving.journal.requests, q.context ≠ 0) ∧ (partIn .halted).device.state ≠ .serving
    ∧ (partIn .halted).device.state ≠ .draining
    ∧ after .rollbackTakeContext (windingDown { servingWith 0 .abortPending with rollbackQueue := [0] })
      = windingDown { servingWith 0 .abortPending with rollbackQueue := [0] }
    ∧ after .rollbackTakeContext { servingWith 0 .abortPending with rollbackQueue := [0], device := faulted.device }
      = { servingWith 0 .abortPending with rollbackQueue := [0], device := faulted.device }
    ∧ (faulted.engine.halt).phase = .stopped ∧ (walking serving).engine.phase ≠ .free
    ∧ (windingDown (walking serving)).device.powerFailPending = true ∧ (walking serving).engine.walkEnded = false
    ∧ serving.engine.current = none := by decide +kernel

/-- The tail statements of EndRecordRequest and EndRecordDurable: context 1 contributes slot 3, which lies three places
beyond the published tail and before the head at slot 5; with none contributed the head is the working tail. -/
def tailing : State :=
  { (askingEnd { inState .rollingBack 5 with noticeDue := some true }).setCtx 1 { inState .opened 6 with firstSlot := some 3 }
      with journal := { serving.journal with head := ⟨5, 6⟩, requests := [⟨0, .abort, 5, 7, 1⟩] } }

theorem test_meets_tailHanded : tailing.workingTail = ⟨3, 4⟩
    ∧ tailing.contributed 1 = some 3
    ∧ (∀ d : RequesterId, d ≠ 1 → tailing.contributed d = none)
    ∧ tailing.beyondPublished ⟨3, tailing.slotSeq 3⟩ < tailing.beyondPublished tailing.journal.head
    ∧ (crowded tailing 16).freeSlots = 16 ∧ (after (.endRecordRequest 0) (crowded tailing 16)).header.inFlight
        = some ⟨⟨.b, 1, ⟨3, 4⟩, 0⟩, 1, .firstWaiting⟩
    ∧ (after (.endRecordRequest 0) (crowded (askingEnd (inState .rollingBack 5)) 16)).header.inFlight
        = some ⟨⟨.b, 1, ⟨494, 495⟩, 0⟩, 1, .firstWaiting⟩ := by decide +kernel

/-- R90, R160: the engine's report ends DRAINING with an empty queue, and not while another context is being aborted. -/
theorem test_meets_stateAfterFree :
    (after (.endRecordRequest 0) (crowded { askingEnd (inState .rollingBack 5) with device := draining.device } 16)).device.state
      = .serving
    ∧ (after (.endRecordRequest 0) (crowded { (askingEnd (inState .rollingBack 5)).setCtx 1 (inState .abortPending 6) with
        device := draining.device } 16)).device.state = .draining := by decide +kernel

/-- DrainAsksOrQueues: the commit; the first group with one context, with two, and without the context; and no drain. -/
theorem test_meets_DrainAsksOrQueues : ((servingWith 0 .committing).ctx 0).state = .committing
    ∧ ((servingWith 0 .committing).ctx 0).opsInFlight = 0 ∧ ((servingWith 0 .committing).ctx 0).forwardedOutstanding = 0
    ∧ (∀ q ∈ (servingWith 0 .committing).journal.requests, q.context ≠ 0)
    ∧ (∀ r ∈ (servingWith 0 .committing).journal.records, r.owner = 0 → r.record.kind = .undo)
    ∧ { serving with drains := [[1], [2]] }.drains = [1] :: [[2]]
    ∧ { serving with drains := [[1, 2]] }.drains = [1, 2] :: [] ∧ (1 : RequesterId) ∈ ([1, 2] : List RequesterId)
    ∧ (2 : RequesterId) ∉ ([1] : List RequesterId) ∧ serving.drains = [] := by decide +kernel

/-- DrainAsksOrQueues where no COMMIT record is asked for: OPEN, an operation or a forwarded write in flight, the request
made, and its record assigned. -/
theorem test_meets_DrainAsksOrQueues_notAsked :
    ((servingWith 0 .opened).ctx 0).state ≠ .committing
    ∧ ((serving.setCtx 0 { inState .committing 5 with opsInFlight := 1 }).ctx 0).opsInFlight ≠ 0
    ∧ ((serving.setCtx 0 { inState .committing 5 with forwardedOutstanding := 1 }).ctx 0).forwardedOutstanding ≠ 0
    ∧ (∃ q ∈ (after (.commitRecordAsk 0) (servingWith 0 .committing)).journal.requests, q.context = 0)
    ∧ (∃ r ∈ (recording (servingWith 0 .committing) .commit .issued).journal.records,
        r.owner = 0 ∧ r.record.kind ≠ .undo) := by decide +kernel

theorem test_meets_EngineTakesAndCloses :
    { servingWith 0 .abortPending with rollbackQueue := [0] }.engine.phase = .free
    ∧ ((servingWith 0 .abortPending).ctx 0).undoCount = 0 ∧ ((walking serving).ctx 0).undoCount ≠ 0
    ∧ (walking serving).engine.current = some 0 ∧ (walking serving).engine.phase = .walking
    ∧ (walking serving).engine.waiting = [] ∧ (walking serving).engine.restore = none := by decide +kernel

/-- RollbackReadCompletes: the attempts around the third, a found record, and an end short of records at the first slot or
short of it. -/
theorem test_meets_RollbackReadCompletes :
    (∀ h ∈ [Half.first, .second], ∀ n ∈ [1, 2, 3],
      (engineReading h n).access 0 = some (theAccess .rollbackRead 0x404) ∧ (engineReading h n).engine.phase = .walking
      ∧ (engineReading h n).engine.read = some ⟨0, h, n, true⟩ ∧ (engineReading h n).works)
    ∧ JournalRecord.parse (placeOf (placeHalf (recordOf .undo).image .first) (placeHalf (recordOf .undo).image .second))
        = some (recordOf .undo)
    ∧ (recordOf .undo).seq = (engineReading .second 1).slotSeq 0 ∧ ((engineReading .second 1).ctx 0).openNumber = some 5
    ∧ (engineReading .second 1).engine.foundCount + 1 = ((engineReading .second 1).ctx 0).undoCount
    ∧ JournalRecord.parse (placeOf (placeHalf (recordOf .undo).image .first) 0) = none
    ∧ ((engineReading .second 1).ctx 0).firstSlot = some 0
    ∧ (((engineReading .second 1).setCtx 0 { inState .rollingBack 5 with undoCount := 1, firstSlot := some 9 }).ctx 0).firstSlot
        ≠ some 0 := by decide +kernel

/-- The engine reading slot 0 for a context with two UNDO records, the first of them in slot `first`. -/
def readingMore (first : Nat) : State :=
  (engineReading .second 1).setCtx 0 { inState .rollingBack 5 with
    undoCount := 2, firstSlot := some first, lastSlot := some 0 }

/-- RollbackReadCompletes, the other clauses: a match that is not the last, away from the first slot and at it, with a
restore under way and without; records of another context, kind, open number or sequence; the wind-down; STOPPED. -/
theorem test_meets_RollbackReadCompletes_passed :
    (readingMore 9).engine.foundCount + 1 < ((readingMore 9).ctx 0).undoCount ∧ ((readingMore 9).ctx 0).firstSlot ≠ some 0
    ∧ ((readingMore 0).ctx 0).firstSlot = some 0 ∧ (readingMore 9).works ∧ (readingMore 9).engine.phase = .walking
    ∧ (readingMore 9).engine.waiting = [] ∧ (readingMore 9).engine.restore = none
    ∧ (∀ r ∈ [{ recordOf .undo with context := 1 }, recordOf .commit, { recordOf .undo with openNumber := 6 },
          { recordOf .undo with seq := 2 }],
        JournalRecord.parse r.image = some r
          ∧ (after (.rollbackReadComplete 0 (.okay (placeHalf r.image .second))) { readingMore 9 with
              engine := { (readingMore 9).engine with firstHalf := some (placeHalf r.image .first) } }).engine.foundCount = 0)
    ∧ (windingDown (readingMore 9)).device.powerFailPending = true
    ∧ (after (.rollbackReadComplete 0 .error) (windingDown (readingMore 9))).device.cause = .noCause
    ∧ { readingMore 9 with engine := (readingMore 9).engine.halt }.engine.phase = .stopped
    ∧ { readingMore 9 with engine := (readingMore 9).engine.halt }.engine.read = some ⟨0, .second, 1, true⟩ := by decide +kernel

theorem test_meets_RestoreWriteCompletes_stopped :
    (windingDown (engineRestoring 1)).engine.phase = .walking ∧ (windingDown (engineRestoring 1)).device.powerFailPending = true
    ∧ { engineRestoring 1 with engine := (engineRestoring 1).engine.halt }.engine.phase = .stopped
    ∧ { engineRestoring 1 with engine := (engineRestoring 1).engine.halt }.engine.restore = some ⟨rangeLine, 0xCD, 1, true⟩ := by
  decide +kernel

theorem test_meets_RestoreWriteCompletes : ∀ n ∈ [1, 2, 3],
    (engineRestoring n).access 0 = some (theAccess .rollbackRestore rangeLine)
    ∧ (engineRestoring n).engine.restore = some ⟨rangeLine, 0xCD, n, true⟩ ∧ (engineRestoring n).engine.phase = .walking
    ∧ (engineRestoring n).works := by decide +kernel

/-- RecoveryChoosesAHeader: a valid copy, and none; the generations on either side of each comparison. -/
theorem test_meets_RecoveryChoosesAHeader :
    (judging 0).access 0 = some (theAccess (.recoveryHeaderRead .b .second) 0x400) ∧ (judging 0).runsIn .recovering
    ∧ (judging 0).recovery.phase = .headers
    ∧ (judging (theImage.bytes 510)).recovery.io.headerA = bothGot (theImage.bytes 510)
    ∧ (judging 0).recovery.io.headerB.set .second (.got 0) = bothGot 0
    ∧ theImage.bytes 510 = placeOf (placeHalf (theImage.bytes 510) .first) (placeHalf (theImage.bytes 510) .second)
    ∧ chooseHeader (parseHeader (judging 0).slotCount .a (theImage.bytes 510)) (parseHeader (judging 0).slotCount .b 0) = some chosenA
    ∧ chooseHeader (parseHeader (judging 0).slotCount .a 0) (parseHeader (judging 0).slotCount .b 0) = none
    ∧ (judging 0).params.formatPermitted = 1
    ∧ { judging 0 with loader := ⟨1, .idle, some { testParams with formatPermitted := 0 }⟩ }.params.formatPermitted ≠ 1
    ∧ chooseHeader (some chosenA) (some { chosenA with generation := 2 }) = some { chosenA with generation := 2 }
    ∧ chooseHeader (some { chosenA with generation := 0 }) (some { chosenA with generation := 0xFFFFFFFF })
        = some { chosenA with generation := 0 } := by decide +kernel

theorem test_meets_FormattingCompletes :
    (recoveringIn .zeroing { Recovery.reset with phase := .formatting }).runsIn .recovering
    ∧ (recoveringIn .zeroing { Recovery.reset with phase := .formatting }).access 0 = some (theAccess .zeroing 0x400)
    ∧ (recoveringIn (.formatHeader .second) { Recovery.reset with
        phase := .formatting, io := { SequencerIO.reset with formatHeader := ⟨.okay, .issued⟩ } }).recovery.io.formatHeader.first
        = .okay := by decide +kernel

/-- What the sequencer issues: in each phase something is wanted, the link has room, and the chosen copy and the stop of
the re-initialisation header are there. -/
theorem test_meets_FormattingCompletes_issues :
    (∀ p ∈ [RecoveryPhase.headers, .formatting, .forwardWalk, .reinit],
      { partIn .recovering with recovery := { Recovery.reset with phase := p } }.seqWanted ≠ []
      ∧ { partIn .recovering with recovery := { Recovery.reset with phase := p } }.seqOutstanding = 0
      ∧ { partIn .recovering with recovery := { Recovery.reset with phase := p } }.access 0 = none)
    ∧ (partIn .recovering).device.powerFailPending = false ∧ (windingDown (partIn .recovering)).device.powerFailPending = true
    ∧ (undoingAhead 0 0).seqWanted = [] ∧ (partIn .recovering).slotCount = 510
    ∧ { partIn .recovering with recovery := { Recovery.reset with
        phase := .undoPass, walkPosition := some 1, chosen := some chosenA } }.seqWanted
        = [.undoRead 1 .first, .undoRead 1 .second, .undoRead 0 .first, .undoRead 0 .second]
    ∧ { partIn .recovering with recovery := { Recovery.reset with phase := .formatting, zeroDone := 1020 } }.seqWanted
        = [.formatHeader .first, .formatHeader .second]
    ∧ reinitialising.recovery.chosen = some chosenA ∧ reinitialising.recovery.stop = some ⟨1, 2⟩
    ∧ (examining 0 []).recovery.walkPosition = some 0 ∧ theImage.tail.slot < 2 ^ 32 := by decide +kernel

/-- FormattingCompletes, the undo pass: the last slot read is the tail slot, and is one before it in walk order. -/
theorem test_meets_FormattingCompletes_readsAhead :
    (undoingAhead 0 0).recovery.io.undo.getLast?.map (fun u => u.slot) = some chosenA.tail.slot
    ∧ { partIn .recovering with recovery := { Recovery.reset with
        phase := .undoPass, walkPosition := some 2, chosen := some chosenA
        io := { SequencerIO.reset with undo := [⟨2, ⟨.issued, .waiting⟩⟩] } } }.seqWanted
        = [.undoRead 2 .second, .undoRead 1 .first, .undoRead 1 .second, .undoRead 0 .first, .undoRead 0 .second]
    ∧ { partIn .recovering with recovery := { Recovery.reset with
        phase := .formatting, io := { SequencerIO.reset with zeroIssued := 1017 } } }.seqWanted
        = [.zeroWrite, .zeroWrite, .zeroWrite]
    ∧ (partIn .recovering).slotCount ≤ 131070 := by decide +kernel

/-- ForwardWalkExaminesASlot: the N-th slot examined (R149). -/
theorem test_meets_ForwardWalkExaminesASlot_last :
    (examiningLast (recordOf .undo).image []).slotCount ≤ (examiningLast (recordOf .undo).image []).recovery.examined + 1
    ∧ (after (.forwardWalkReadComplete 0 (.okay (placeHalf (recordOf .undo).image .second)))
        (examiningLast (recordOf .undo).image [])).recovery.stop = some ⟨1, 2⟩
    ∧ (after (.forwardWalkReadComplete 0 (.okay (placeHalf (recordOf .undo).image .second)))
        (examiningLast (recordOf .undo).image [])).recovery.phase = .undoPass := by decide +kernel

/-- ForwardWalkExaminesASlot: the undo pass begins at the slot before the stop slot, round the ring (R150). -/
theorem test_meets_ForwardWalkExaminesASlot_undoBegins :
    (after (.forwardWalkReadComplete 0 (.okay (placeHalf (recordOf .undo).image .second)))
        (examiningLast (recordOf .undo).image [])).recovery.walkPosition = some 0
    ∧ (after (.forwardWalkReadComplete 0 (.okay 0)) (examining 0 [⟨0, 5⟩])).recovery.walkPosition = some 509
    ∧ (after (.forwardWalkReadComplete 0 (.okay 0)) (examining 0 [])).recovery.walkPosition = none := by decide +kernel

/-- ForwardWalkExaminesASlot: no record, a wrong sequence, a record of each kind with and without an entry. -/
theorem test_meets_ForwardWalkExaminesASlot :
    (examining 0 []).access 0 = some (theAccess (.forwardWalkRead .second) 0x400) ∧ (examining 0 []).runsIn .recovering
    ∧ (examining 0 []).recovery.walkPosition = some 0 ∧ (examining 0 []).recovery.expected = some 1
    ∧ (examining 0 []).recovery.io.walk.first = .got 0 ∧ JournalRecord.parse 0 = none
    ∧ (∀ kind ∈ [RecordKind.undo, .commit, .abort], JournalRecord.parse (recordOf kind).image = some (recordOf kind))
    ∧ { examining 0 [] with recovery := { (examining 0 []).recovery with expected := some 2 } }.recovery.expected
        ≠ some (recordOf .undo).seq
    ∧ (examining 0 [⟨0, 5⟩]).recovery.unended.find? (fun u => decide (u.context = (recordOf .undo).context)) = some ⟨0, 5⟩
    ∧ (examining 0 [⟨0, 6⟩]).recovery.unended.find? (fun u => decide (u.context = (recordOf .undo).context)) = some ⟨0, 6⟩
    ∧ (examining 0 []).recovery.examined + 1 < (examining 0 []).slotCount
    ∧ { examining 0 [] with recovery := { (examining 0 []).recovery with examined := 508 } }.recovery.examined + 1
        < (examining 0 []).slotCount := by decide +kernel

/-- UndoPassRestores: a record to restore, one that is not, and none; the tail slot and another slot. -/
theorem test_meets_UndoPassRestores :
    (undoing 0).access 0 = some (theAccess (.undoPassRead 0 .second) 0x400) ∧ (undoing 0).runsIn .recovering
    ∧ (undoing 0).recovery.phase = .undoPass ∧ (undoing 0).recovery.walkPosition = some 0
    ∧ (undoing 0).recovery.io.undo = [⟨0, ⟨.got 0, .issued⟩⟩] ∧ chosenA.tail.slot = 0
    ∧ (recordOf .undo).seq = (undoing 0).undoSeq 0 ∧ ⟨0, 5⟩ ∈ (undoing 0).recovery.unended
    ∧ (recordOf .commit).kind ≠ .undo
    ∧ (recoveringIn .recoveryRestore { Recovery.reset with phase := .undoPass, restoresOutstanding := 1 }).recovery.io.undo = []
    ∧ (recoveringIn .recoveryRestore { Recovery.reset with phase := .undoPass }).runsIn .recovering := by decide +kernel

/-- UndoPassRestores with a slot read ahead: the first slot restores nothing and the second is restored; the first is not
wholly read; and an ERROR. -/
theorem test_meets_UndoPassRestores_ahead :
    (undoingAhead (recordOf .commit).image (recordOf .undo).image).access 0 = some (theAccess (.undoPassRead 1 .second) 0x400)
    ∧ (undoingAhead 0 0).recovery.walkPosition = some 1 ∧ (undoingAhead 0 0).runsIn .recovering
    ∧ (undoingAhead 0 0).recovery.io.undo = [⟨1, ⟨.got 0, .issued⟩⟩, ⟨0, bothGot 0⟩] ∧ (1 : Nat) ≠ chosenA.tail.slot
    ∧ (recordOf .undo).seq = (undoingAhead 0 0).undoSeq 0 ∧ (undoingAhead 0 0).undoSeq 1 = 2
    ∧ (after (.undoPassReadComplete 0 (.okay (placeHalf { recordOf .commit with seq := 2 }.image .second)))
        (undoingAhead { recordOf .commit with seq := 2 }.image (recordOf .undo).image)).recovery.restoresOutstanding = 1
    ∧ (after (.undoPassReadComplete 0 .error) (undoingAhead 0 0)).device.cause = .recovery := by decide +kernel

theorem test_meets_UndoPassRestores_waits :
    { undoingAhead 0 0 with link := (undoingAhead 0 0).link.set 1 (some (theAccess (.undoPassRead 0 .second) 0x405)) }.access 1
      = some (theAccess (.undoPassRead 0 .second) 0x405)
    ∧ (undoingAhead 0 0).recovery.io.undo.head?.map (fun u => u.place.image) = some none
    ∧ (undoingAhead 0 0).recovery.phase = .undoPass ∧ (undoingAhead 0 0).recovery.walkPosition ≠ none
    ∧ PlaceRead.fresh.second = .waiting := by decide +kernel

/-- RecoveryChoosesAHeader, FormattingCompletes, ForwardWalkExaminesASlot and ReinitialisationEntersServing: the half
answered first, its other half still out. -/
theorem test_meets_firstHalves :
    (recoveringIn (.recoveryHeaderRead .a .first) { Recovery.reset with
      phase := .headers, io := { SequencerIO.reset with headerA := ⟨.issued, .issued⟩ } }).runsIn .recovering
    ∧ (∀ p ∈ [Purpose.recoveryHeaderRead .a .first, .formatHeader .first, .forwardWalkRead .first, .reinitHeader .first],
        (recoveringIn p Recovery.reset).access 0 = some (theAccess p 0x400))
    ∧ (∃ v ∈ [HalfRead.got 0, .issued, .waiting, .waiting], ∀ b, v ≠ .got b)
    ∧ (∀ r ∈ [HalfRead.waiting, .issued], ∀ b, r ≠ .got b)
    ∧ (∀ w ∈ [HalfWrite.waiting, .issued], w ≠ .okay) :=
  ⟨by decide +kernel, by decide +kernel, ⟨.issued, by decide, by intro b; simp⟩, by simp, by decide⟩

/-- UndoPassRestores: the half of the slot at the walk position that is answered first, and one of a slot behind it. -/
theorem test_meets_UndoPassRestores_keeps :
    (∃ v ∈ (undoingAhead 0 0).recovery.io.undo, v.slot = 1) ∧ (∃ v ∈ (undoingAhead 0 0).recovery.io.undo, v.slot = 0)
    ∧ PlaceRead.fresh.image = none ∧ (undoingAhead 0 0).recovery.walkPosition ≠ none := by decide +kernel

/-- A restore in slot 0, every other access slot busy, and the slot at the walk position wholly read, whose restore has
waited for a free access slot. -/
def restoringFull (v : Place) : State :=
  { recoveringIn .recoveryRestore { (undoing 0).recovery with
      restoresOutstanding := 1, io := { SequencerIO.reset with undo := [⟨0, bothGot v⟩] } } with
    link := Vector.ofFn (fun _ => some (theAccess .recoveryRestore 0x400)) }

/-- UndoPassRestores, the examination that waited and goes on when a restore completes: a slot to restore, one to pass over
and one that holds no record; and a link without and with a free slot. -/
theorem test_meets_UndoPassRestores_resumes :
    (restoringFull 0).access 0 = some (theAccess .recoveryRestore 0x400) ∧ (restoringFull 0).runsIn .recovering
    ∧ (∀ k, (restoringFull 0).access k ≠ none) ∧ (restoringFull 0).recovery.phase = .undoPass
    ∧ (restoringFull 0).recovery.chosen = some chosenA
    ∧ (restoringFull (recordOf .undo).image).recovery.io.undo = [⟨0, bothGot (recordOf .undo).image⟩]
    ∧ (bothGot (recordOf .undo).image).image = some (recordOf .undo).image
    ∧ (recordOf .undo).seq = (restoringFull (recordOf .undo).image).undoSeq 0
    ∧ (after (.recoveryRestoreComplete 0 .okay) (restoringFull (recordOf .undo).image)).recovery.restoresOutstanding = 1
    ∧ (after (.recoveryRestoreComplete 0 .okay) (restoringFull (recordOf .undo).image)).recovery.walkPosition = none
    ∧ (after (.recoveryRestoreComplete 0 .okay) (restoringFull (recordOf .commit).image)).recovery.phase = .reinit
    ∧ (after (.recoveryRestoreComplete 0 .okay) (restoringFull 0)).device.cause = .recovery := by decide +kernel

/-- ForwardWalkExaminesASlot: the ERROR of the half answered first. -/
theorem test_meets_ForwardWalkExaminesASlot_error :
    (after (.forwardWalkReadComplete 0 .error) (recoveringIn (.forwardWalkRead .first) { Recovery.reset with
      phase := .forwardWalk, io := { SequencerIO.reset with walk := ⟨.issued, .issued⟩ } })).device.cause = .recovery := by
  decide +kernel

/-- ReinitialisationEntersServing with LRST_N asserted (R159). -/
theorem test_meets_ReinitialisationEntersServing_linkReset :
    { reinitialising with pins := ⟨false, true, false⟩ }.pins.lrst = true ∧ reinitialising.ops = []
    ∧ (reinitialising.ctx 0).state = .idle
    ∧ (after (.reinitHeaderWriteComplete 0 .okay) { reinitialising with pins := ⟨false, true, false⟩ }).device.state
        = .draining := by decide +kernel

theorem test_meets_ReinitialisationEntersServing : reinitialising.runsIn .recovering
    ∧ reinitialising.access 0 = some (theAccess (.reinitHeader .second) 0x400) ∧ reinitialising.recovery.chosen = some chosenA
    ∧ reinitialising.recovery.stop = some ⟨1, 2⟩ ∧ reinitialising.pins.lrst = false
    ∧ reinitialising.recovery.io.reinit.first = .okay := by decide +kernel

/-- ArbiterGrants: the claimant at the pointer, one behind it, none, and a share that is full. -/
theorem test_meets_ArbiterGrants :
    (after (.readRequest 3 7 plainLine) serving).arbiterRuns = true
    ∧ (after (.readRequest 3 7 plainLine) serving).claim .forward = some ⟨.forwarded, plainLine, .read⟩
    ∧ (after (.readRequest 3 7 plainLine) serving).claimantCount .forward < Claimant.forward.share
    ∧ serving.pointer.roundFrom = [] ++ Claimant.forward :: [.journal, .rollback, .header]
    ∧ (operating .readingOld none).claim .journal = some ⟨.oldLineRead, rangeLine, .read⟩
    ∧ (operating .readingOld none).claim .forward = none
    ∧ (operating .readingOld none).pointer.roundFrom = [.forward] ++ Claimant.journal :: [.rollback, .header]
    ∧ (∀ c ∈ [Claimant.forward, .journal, .rollback, .header], serving.claim c = none)
    ∧ (accessing serving (.headerHalf .first) 0x400).claimantCount .header = Claimant.header.share
    ∧ State.reset.arbiterRuns = false := by decide +kernel

/-- ArbiterGrants, the claims: a queue with an issued entry before the one claimed; a report; records, one begun before
the one claimed, and one not begun in FAULTED; a restore and a read; each stage of the image in flight. -/
theorem test_meets_ArbiterGrants_claims :
    (after (.readRequest 3 8 rangeLine) (forwarding false .read)).claim .forward = some ⟨.forwarded, rangeLine, .read⟩
    ∧ { operating .forwarding none with reports := [rangeLine] }.claim .journal
        = some ⟨.operationWrite, rangeLine, .write 1 0xAB⟩
    ∧ (recording serving .commit .waiting).claim .journal = some ⟨.recordHalf 1 .first, 0x404,
        .write fullMask (placeHalf (recordOf .commit).image .first)⟩
    ∧ { recording serving .commit .waiting with device := faulted.device }.claim .journal = none
    ∧ { engineRestoring 1 with engine := { (engineRestoring 1).engine with
          restore := some ⟨rangeLine, 0xCD, 1, false⟩, read := some ⟨0, .first, 1, false⟩ } }.claim .rollback
        = some ⟨.rollbackRestore, rangeLine, .write fullMask 0xCD⟩
    ∧ { engineReading .first 1 with engine := { (engineReading .first 1).engine with
          read := some ⟨0, .first, 1, false⟩ } }.claim .rollback = some ⟨.rollbackRead, 0x404, .read⟩
    ∧ (engineReading .first 1).claim .rollback = none := by decide +kernel

/-- The seven completions of the sequencer, each with an access it is the completion of. -/
def sequencerCompletions : List (Instr × Instr × Purpose) :=
  [(.recoveryHeaderReadComplete 0 (.okay 0), .recoveryHeaderReadComplete 0 .error, .recoveryHeaderRead .b .first),
    (.zeroingWriteComplete 0 .okay, .zeroingWriteComplete 0 .error, .zeroing),
    (.formatHeaderWriteComplete 0 .okay, .formatHeaderWriteComplete 0 .error, .formatHeader .second),
    (.forwardWalkReadComplete 0 (.okay 0), .forwardWalkReadComplete 0 .error, .forwardWalkRead .first),
    (.undoPassReadComplete 0 (.okay 0), .undoPassReadComplete 0 .error, .undoPassRead 3 .second),
    (.recoveryRestoreComplete 0 .okay, .recoveryRestoreComplete 0 .error, .recoveryRestore),
    (.reinitHeaderWriteComplete 0 .okay, .reinitHeaderWriteComplete 0 .error, .reinitHeader .first)]

/-- RecoveryChoosesAHeader to ReinitialisationEntersServing, once STOPPED: in FAULTED the slot falls free and nothing else
changes; in the wind-down of RECOVERING the device enters HALTED with the last access, and with no cause. -/
theorem test_meets_sequencerStopped : ∀ c ∈ sequencerCompletions, ∀ i ∈ [c.1, c.2.1],
    after i { recoveringIn c.2.2 { Recovery.reset with phase := .stopped } with device := faulted.device }
      = { recoveringIn c.2.2 { Recovery.reset with phase := .stopped } with
          device := faulted.device, link := serving.link }
    ∧ (after i (windingDown (recoveringIn c.2.2 { Recovery.reset with phase := .stopped }))).device
      = { state := .halted, cause := .noCause, powerFailPending := false, noticesStanding := false }
    ∧ (after i (windingDown { recoveringIn c.2.2 { Recovery.reset with phase := .stopped } with
        link := Vector.ofFn (fun _ => some (theAccess c.2.2 0x400)) })).device
      = (windingDown (partIn .recovering)).device := by decide +kernel

/-- ForwardedAccessCompletes: a completion for a slot that holds another's access, and for a free one. -/
theorem test_meets_ForwardedAccessCompletes_other : (Instr.oldLineReadComplete 0 .error).respondedSlot? = some 0
    ∧ (accessing serving .zeroing 0).access 0 = some (theAccess .zeroing 0)
    ∧ ¬ (Instr.oldLineReadComplete 0 .error).completes .zeroing ∧ serving.access 0 = none
    ∧ (∀ c ∈ sequencerCompletions, after c.1 (accessing serving .forwarded 0) = accessing serving .forwarded 0) := by
  refine ⟨rfl, by decide +kernel, nofun, by decide +kernel, by decide +kernel⟩

theorem test_meets_ArbiterGrants_header : ∀ stage ∈ [HeaderStage.firstWaiting, .firstIssued, .secondWaiting, .secondIssued],
    ∀ d ∈ [DeviceState.serving, .draining, .faulted],
    ({ partIn d with header := { HeaderWriter.reset with inFlight := some ⟨theImage, 1, stage⟩ } }.claim .header).isSome
      = (decide (stage = .secondWaiting) || decide (stage = .firstWaiting ∧ d ≠ .faulted)) := by decide +kernel

/-- The bounds in a state with an operation and its hold entry, and one that a second entry for the line breaks. -/
theorem test_meets_TablesStayBounded : (operating .appending none).tablesBounded
    ∧ ¬ { operating .appending none with holds := [⟨rangeLine, 0, .held⟩, ⟨rangeLine, 1, .held⟩] }.tablesBounded := by
  have all : ∀ (p : Claimant → Prop), (∀ c ∈ [Claimant.forward, .journal, .rollback, .header], p c) → ∀ c, p c := by
    intro p h c
    exact h c (by cases c <;> decide)
  constructor
  · exact ⟨by decide +kernel, by decide +kernel, by decide +kernel, by decide +kernel, by decide +kernel, by decide +kernel,
      all _ (by decide +kernel)⟩
  · exact fun h => absurd h.2.1 (by decide +kernel)

/-- The invariants in a state with a context in each state, one drain taken and one end record asked for. -/
theorem test_meets_Invariants_notices :
    State.noticesTracked { sixStates with
      device := { sixStates.device with noticesStanding := true }, drains := [[3]]
      engine := { Engine.reset with phase := .walking, current := some 4 }
      journal := { sixStates.journal with requests := [⟨2, .commit, 6, 7, 0⟩] } } := by
  unfold State.noticesTracked
  decide +kernel

theorem test_meets_Invariants : step { State.reset with pending := [.timebaseAdvance] } = .next { State.reset with timebase := 1 } :=
  rfl

end Tests
end

/-! PROOFS. Family 00_scope: the timebase (R1). -/

namespace Sys2Proof.Machine

/-- The command table gives TIMEBASE_ADVANCE its meaning of Machine/Timers.lean. -/
theorem exec_timebaseAdvance (s : State) : exec .timebaseAdvance s = execTimebaseAdvance s := rfl

/-- R1, while PORST_N is asserted. -/
theorem execTimebaseAdvance_of_porst_asserted {s : State} (hporst : s.pins.porst = true) :
    execTimebaseAdvance s = .next { s with timebase := 0 } :=
  if_pos hporst

/-- R1, from the deassertion of PORST_N on, in every device state. -/
theorem execTimebaseAdvance_of_porst_deasserted {s : State} (hporst : ¬ s.pins.porst = true) :
    execTimebaseAdvance s = .next { s with timebase := s.timebase + 1 } :=
  if_neg hporst

/-- Settles O34, by the level of PORST_N. -/
theorem timebaseAdvances : Obligations.TimebaseAdvances := by
  intro s
  rw [exec_timebaseAdvance]
  by_cases hporst : s.pins.porst = true
  · rw [execTimebaseAdvance_of_porst_asserted hporst, if_pos hporst]
  · rw [execTimebaseAdvance_of_porst_deasserted hporst, if_neg hporst]

end Sys2Proof.Machine

/-! PROOFS. Family 01_contexts_and_transactions: the durable end record (R8, R12, R47). -/

namespace Sys2Proof.Machine

/-- The state in which the last half of the record numbered `seq` has been written: its access slot is free, the record
carries its completion mark, and the operation of an UNDO record waits for durability (R46, R73, R124). -/
def State.lastHalfWritten (s : State) (k : AccessSlot) (seq : Serial) (r : AssignedRecord) : State :=
  { s with
    link := s.link.set k none
    journal := { s.journal with records := s.journal.records.map (fun q =>
      if q.record.seq = seq then { r with first := .okay, second := .okay, mark := true } else q) }
    ops := if r.record.kind = .undo then
        s.ops.map (fun o => if o.line = r.record.line then { o with stage := .waitingDurable } else o)
      else s.ops }

/-- R46: the answer that writes the second of the two halves sets the completion mark. -/
theorem AssignedRecord.answer_lastHalf (r : AssignedRecord) (h : Half)
    (hother : (if h = .first then r.second else r.first) = .okay) :
    r.answer h .okay = { r with first := .okay, second := .okay, mark := true } := by
  cases h <;>
    simp_all [AssignedRecord.answer, AssignedRecord.setHalf, answeredHalf]

/-- Where only r carries a sequence, changing the record with that sequence is replacing r. -/
theorem map_modRecord_eq (records : List AssignedRecord) (seq : Serial) (r : AssignedRecord)
    (f : AssignedRecord → AssignedRecord) (honly : ∀ q ∈ records, q.record.seq = seq → q = r) :
    records.map (fun q => if q.record.seq = seq then f q else q)
      = records.map (fun q => if q.record.seq = seq then f r else q) := by
  refine List.map_congr_left (fun q hq => ?_)
  by_cases hseq : q.record.seq = seq
  · rw [if_pos hseq, if_pos hseq, honly q hq hseq]
  · rw [if_neg hseq, if_neg hseq]

/-- R46, R47: RECORD_WRITE_COMPLETE for the last half of a record, in SERVING and DRAINING and in their wind-down: the
record is marked, and the durable head advances. -/
theorem exec_recordWriteComplete_lastHalf (s : State) (k : AccessSlot) (a : Access) (seq : Serial) (h : Half)
    (r : AssignedRecord) (hacc : s.access k = some a) (hpurpose : a.purpose = .recordHalf seq h)
    (hrec : s.record? seq = some r) (hjournals : s.journals)
    (honly : ∀ q ∈ s.journal.records, q.record.seq = seq → q = r)
    (hother : (if h = .first then r.second else r.first) = .okay) :
    exec (.recordWriteComplete k .okay) s = .next (s.lastHalfWritten k seq r).advanceDurable.woundDown := by
  have hexec : exec (.recordWriteComplete k .okay) s
      = .next (s.complete k Purpose.isRecordHalf (State.recordWritten .okay)) := rfl
  have hfound : (s.freeAccess k).record? seq = some r := hrec
  have hlive : (s.freeAccess k).device.state ≠ .faulted := by
    rcases hjournals with hstate | hstate <;> simp [hstate]
  have hmarked : ((s.freeAccess k).modRecord seq (fun q => q.answer h .okay)).operationWaits (r.answer h .okay)
      = s.lastHalfWritten k seq r := by
    rw [r.answer_lastHalf h hother, State.modRecord, State.freeAccess, map_modRecord_eq _ seq r _ honly,
      r.answer_lastHalf h hother]
    unfold State.operationWaits State.modOp State.lastHalfWritten
    by_cases hkind : r.record.kind = .undo
    · simp only [if_pos hkind]
    · simp only [if_neg hkind]
  have hwritten : State.recordWritten .okay a (s.freeAccess k) = (s.lastHalfWritten k seq r).advanceDurable := by
    simp only [State.recordWritten, hpurpose, hfound, if_neg hlive, State.recordAnswered, hmarked]
    rw [r.answer_lastHalf h hother, if_pos rfl]
  rw [hexec, State.complete_delivered s k a _ _ hacc (by rw [hpurpose]; rfl), hwritten, State.settle_eq]

/-- The durable head moved on to the next place, with these records from there up to the head (R47). -/
def State.headPast (s : State) (rest : List AssignedRecord) : State :=
  { s with journal := { s.journal with
      durableHead := { slot := (s.journal.durableHead.slot + 1) % s.slotCount, seq := s.journal.durableHead.seq + 1 }
      records := rest } }

/-- R8, R12, R47, R50, R90: the durable head passes one end record. -/
theorem State.advanceDurable_endRecord (s : State) (r : AssignedRecord) (rest : List AssignedRecord)
    (hrecords : s.journal.records = r :: rest) (hmark : r.mark = true) (hrest : ∀ q, rest.head? = some q → q.mark = false)
    (hkind : r.record.kind ≠ .undo) :
    s.advanceDurable = if r.record.kind = .abort
      then (((s.headPast rest).endDurable r.owner r.record.kind).reevaluateTail).engineFreed
      else ((s.headPast rest).endDurable r.owner r.record.kind).reevaluateTail := by
  have htake : s.journal.records.takeWhile (·.mark) = [r] := by
    rw [hrecords, List.takeWhile_cons_of_pos hmark]
    cases rest with
    | nil => rfl
    | cons q tl => rw [List.takeWhile_cons_of_neg (by simp [hrest q rfl])]
  have hdrop : s.journal.records.dropWhile (·.mark) = rest := by
    rw [hrecords, List.dropWhile_cons_of_pos hmark]
    cases rest with
    | nil => rfl
    | cons q tl => rw [List.dropWhile_cons_of_neg (by simp [hrest q rfl])]
  have hreport : ∀ t : State, t.reportDurable r = t.endDurable r.owner r.record.kind := by
    intro t
    unfold State.reportDurable
    cases hk : r.record.kind with
    | undo => exact absurd hk hkind
    | commit => rfl
    | abort => rfl
  unfold State.advanceDurable
  rw [htake, hdrop]
  simp only [List.foldl_cons, List.foldl_nil, hreport, List.any_cons, List.any_nil, Bool.or_false, decide_eq_true_eq,
    if_pos hkind]
  rfl

/-- The durable head passes one end record (the first clause of O41). -/
theorem endRecordDurable_one (s : State) (k : AccessSlot) (a : Access) (h : Half) (r : AssignedRecord)
    (rest : List AssignedRecord) (hacc : s.access k = some a) (hpurpose : a.purpose = .recordHalf r.record.seq h)
    (hjournals : s.journals) (hrecords : s.journal.records = r :: rest)
    (hseqs : ∀ q ∈ rest, q.record.seq ≠ r.record.seq) (hrest : ∀ q, rest.head? = some q → q.mark = false)
    (hkind : r.record.kind ≠ .undo) (hother : (if h = .first then r.second else r.first) = .okay) :
    ∃ t : State, exec (.recordWriteComplete k .okay) s = .next t.woundDown ∧ s.recordEnded t r.owner r.record.kind
      ∧ t.journal = (s.headPast rest).journal ∧ t.ops = s.ops ∧ t.reports = s.reports ∧ t.forward = s.forward := by
  have hrec : s.record? r.record.seq = some r := by
    rw [State.record?, hrecords, List.find?_cons_of_pos (by simp)]
  have honly : ∀ q ∈ s.journal.records, q.record.seq = r.record.seq → q = r := by
    rw [hrecords]
    intro q hq hseq
    exact (List.mem_cons.1 hq).resolve_right (fun hq => hseqs q hq hseq)
  have hmarked : (s.lastHalfWritten k r.record.seq r).journal.records
      = { r with first := .okay, second := .okay, mark := true } :: rest := by
    show s.journal.records.map _ = _
    rw [hrecords, List.map_cons, if_pos rfl]
    congr 1
    exact (List.map_congr_left (fun q hq => if_neg (hseqs q hq))).trans (List.map_id _)
  have hops : (s.lastHalfWritten k r.record.seq r).ops = s.ops := if_neg hkind
  obtain ⟨hended, hjournal, hops', hreports, hforward, -⟩ := State.endDurable_recordEnded
    ((s.lastHalfWritten k r.record.seq r).headPast rest) r.owner r.record.kind _ rfl
  refine ⟨_, exec_recordWriteComplete_lastHalf s k a _ h r hacc hpurpose hrec hjournals honly hother, ?_⟩
  rw [State.advanceDurable_endRecord _ _ rest hmarked rfl hrest hkind]
  exact ⟨hended, hjournal, hops'.trans hops, hreports, hforward⟩

/-- Settles O41: the last half of a record is answered, and the durable head passes what is marked. -/
theorem endRecordDurable : Obligations.EndRecordDurable := by
  refine ⟨endRecordDurable_one, ?_⟩
  intro s k a seq h r passed rest u hacc hpurpose hrec hjournals hnodup hother hrecords hne hmarks hrest hu
  have hr : r ∈ s.journal.records ∧ r.record.seq = seq :=
    ⟨List.mem_of_find?_eq_some hrec, by simpa using List.find?_some hrec⟩
  have honly : ∀ q ∈ s.journal.records, q.record.seq = seq → q = r := fun q hq hseq =>
    List.inj_on_of_nodup_map hnodup hq hr.1 (hseq.trans hr.2.symm)
  exact ⟨_, exec_recordWriteComplete_lastHalf s k a seq h r hacc hpurpose hrec hjournals honly hother,
    State.advanceDurable_passes (s.lastHalfWritten k seq r) passed rest hrecords hne hmarks hrest u hu⟩

end Sys2Proof.Machine

/-! PROOFS. Family 01_contexts_and_transactions: the power-on reset of the Context Table (R16). -/

namespace Sys2Proof.Machine

/-- R161: the assertion of PFAIL_N leaves the Context Table as it stands. -/
theorem State.takePowerFail_openCounter (s : State) : s.takePowerFail.openCounter = s.openCounter := by
  unfold State.takePowerFail
  split
  · rfl
  · rw [State.settle_openCounter]

theorem State.takePowerFail_ctx (s : State) (c : RequesterId) : s.takePowerFail.ctx c = s.ctx c := by
  unfold State.takePowerFail
  split
  · rfl
  · exact State.ctx_congr (State.settle_contexts _) c

theorem State.powerOnValues_ctx (s : State) (porst : Bool) (c : RequesterId) :
    (s.powerOnValues porst).ctx c = Context.reset :=
  Vector.getElem_replicate c.isLt

/-- R156, R157: the deassertion of PORST_N, where it stands asserted. -/
theorem exec_porstNDeassert_asserted {s : State} (hporst : s.pins.porst = true) :
    exec .porstNDeassert s = .next (if (s.powerOnValues false).pins.pfail then (s.powerOnValues false).takePowerFail
      else s.powerOnValues false) :=
  congrArg Host.Outcome.next (if_pos hporst)

/-- Settles O3, by whether PFAIL_N stands at the deassertion. -/
theorem powerOnResetClearsContexts : Obligations.PowerOnResetClearsContexts := by
  intro s hporst
  refine ⟨_, exec_porstNDeassert_asserted hporst, ?_⟩
  split
  · exact ⟨State.takePowerFail_openCounter _, fun c => (State.takePowerFail_ctx _ c).trans (s.powerOnValues_ctx false c)⟩
  · exact ⟨rfl, s.powerOnValues_ctx false⟩

end Sys2Proof.Machine

/-! PROOFS. Family 01_contexts_and_transactions: COMMIT and ABORT in every context state (R7, R9, R10, R103, R104). -/

namespace Sys2Proof.Machine

/-- A control line is a request with its requester and tag. -/
theorem request?_of_controlLine? {c : Instr} {a : LineArrival} (hline : c.controlLine? = some a) :
    c.request? = some (a.requester, a.tag) := by
  cases c <;> simp only [Instr.controlLine?, reduceCtorEq, Option.some.injEq] at hline <;> subst hline <;> rfl

/-- R101: a control line taken in SERVING runs its command. -/
theorem exec_controlLine_taken (c : Instr) (a : LineArrival) (command : Command) (s : State)
    (hline : c.controlLine? = some a) (hcode : Command.ofCode a.code = some command) (htakes : s.takes a) :
    exec c s = .next (s.takeCommand a.requester a.tag a.line a.fields.label command) := by
  obtain ⟨hserving, hadmits, hclean⟩ := htakes
  have hfree : (a.requester, a.tag) ∉ s.outstanding := hadmits.1.1.1
  rw [exec_controlLine c a s hline (s.arrives_free c _ _ (request?_of_controlLine? hline) hfree),
    s.handleWrite_controlLine a (Or.inl hserving) hadmits.1, s.controlLine_admitted a hadmits,
    s.takeMatched_known _ _ _ a.code a.fields command hclean hcode, if_neg (by rw [hserving.2.2]; decide)]

/-- COMMIT (R103). -/
theorem exec_commit_taken {s : State} {r : RequesterId} {tag : Tag} {l : LineAddr} {f : ControlFields}
    (htakes : s.takes ⟨r, tag, l, 2, f⟩) : exec (.commit r tag l f) s = .next (s.takeCommit r tag) :=
  exec_controlLine_taken _ ⟨r, tag, l, 2, f⟩ .commit s rfl rfl htakes

/-- ABORT (R104). -/
theorem exec_abort_taken {s : State} {r : RequesterId} {tag : Tag} {l : LineAddr} {f : ControlFields}
    (htakes : s.takes ⟨r, tag, l, 3, f⟩) : exec (.abort r tag l f) s = .next (s.takeAbort r tag) :=
  exec_controlLine_taken _ ⟨r, tag, l, 3, f⟩ .abort s rfl rfl htakes

/-- R59: entering a request in the table leaves the context records. -/
theorem State.ctx_takeTag (s : State) (r c : RequesterId) (t : Tag) : (s.takeTag r t).ctx c = s.ctx c := rfl

/-- R76: marking the operations leaves the context records. -/
theorem State.ctx_markCancelled (s : State) (who : Operation → Bool) (c : RequesterId) :
    (s.markCancelled who).ctx c = s.ctx c := rfl

/-- R6: both in-flight counts are zero. -/
theorem Context.drained_iff (x : Context) : x.drained = true ↔ x.opsInFlight = 0 ∧ x.forwardedOutstanding = 0 := by
  simp [Context.drained]

/-- R7, R79: a COMMIT in OPEN; with both counts zero it asks for the record. -/
theorem State.takeCommit_opened (s : State) (r : RequesterId) (t : Tag) (h : (s.ctx r).state = .opened) :
    s.takeCommit r t = { s with
      contexts := s.contexts.set r { s.ctx r with state := .committing, held := (s.ctx r).held ++ [t] }
      outstanding := s.outstanding ++ [(r, t)]
      journal := if (s.ctx r).opsInFlight = 0 ∧ (s.ctx r).forwardedOutstanding = 0 then
          { s.journal with requests := s.journal.requests ++ [{
              context := r, kind := .commit, openNumber := (s.ctx r).openNumber.getD 0
              label := (s.ctx r).label.getD 0, reason := 0 }] }
        else s.journal } := by
  unfold State.takeCommit
  rw [h]
  dsimp only
  by_cases hd : (s.ctx r).opsInFlight = 0 ∧ (s.ctx r).forwardedOutstanding = 0
  · rw [if_pos ((Context.drained_iff _).2 hd), if_pos hd, State.askEndRecord]
    have hctx : ((s.modCtx r (fun x => { x with state := .committing, held := x.held ++ [t] })).takeTag r t).ctx r
        = { s.ctx r with state := .committing, held := (s.ctx r).held ++ [t] } := by
      rw [State.ctx_takeTag, State.ctx_modCtx_self]
    rw [hctx]
    rfl
  · rw [if_neg (fun k => hd ((Context.drained_iff _).1 k)), if_neg hd]
    rfl

/-- Settles O22, by the state of the context. -/
theorem commitCommand : Obligations.CommitCommand := by
  intro s r tag l f htakes
  rw [exec_commit_taken htakes]
  refine ⟨fun h => by rw [s.takeCommit_opened r tag h], fun h => ?_, fun h => ?_, fun h => ?_, fun h => ?_⟩
  · rw [State.takeCommit, h]; rfl
  · rw [State.takeCommit, h]; rfl
  · rcases h with h | h <;> rw [State.takeCommit, h] <;> rfl
  · rw [State.takeCommit, h]; rfl

/-- R10: an ABORT joins the abort under way. -/
theorem State.takeAbort_aborting (s : State) (r : RequesterId) (t : Tag)
    (h : (s.ctx r).state = .abortPending ∨ (s.ctx r).state = .rollingBack) :
    s.takeAbort r t = { s with
      contexts := s.contexts.set r { s.ctx r with held := (s.ctx r).held ++ [t], noticeDue := some false }
      outstanding := s.outstanding ++ [(r, t)] } := by
  rcases h with h | h <;> rw [State.takeAbort, h] <;> rfl

/-- R9: an ABORT in OPEN is an abort request whose tag is held. -/
theorem State.takeAbort_opened (s : State) (r : RequesterId) (t : Tag) (h : (s.ctx r).state = .opened) :
    s.takeAbort r t =
      ((s.abortRequest r .requested).modCtx r (fun x => { x with held := [t] })).takeTag r t := by
  rw [State.takeAbort, h]

/-- With no slot request waiting, an abort request removes nothing: the record changes, the operations are marked, and
the drain may be taken (R9, R76). -/
theorem State.abortRequest_noneAsking (s : State) (c : RequesterId) (reason : AbortReason)
    (h : (s.ctx c).state = .opened) (hnone : ∀ o ∈ s.ops, o.requester = c → o.asking = false) :
    s.abortRequest c reason = ((s.modCtx c (fun x => x.toAbortPending reason)).markCancelled
      (fun o => decide (o.requester = c))).noteDrain c := by
  rw [s.abortRequest_taken c reason h, State.cancelOps_noneAsking]
  intro o ho hreq
  exact hnone o ho (of_decide_eq_true hreq)

/-- R9: the record of the aborting context once its ABORT is held. -/
theorem State.takeAbort_ctx_self (s : State) (r : RequesterId) (t : Tag) (h : (s.ctx r).state = .opened) :
    (s.takeAbort r t).ctx r = { (s.abortRequest r .requested).ctx r with held := [t] } := by
  rw [s.takeAbort_opened r t h, State.ctx_takeTag, State.ctx_modCtx_self]

theorem State.takeAbort_ctx_other (s : State) (r c : RequesterId) (t : Tag) (h : (s.ctx r).state = .opened)
    (hc : c ≠ r) : (s.takeAbort r t).ctx c = (s.abortRequest r .requested).ctx c := by
  rw [s.takeAbort_opened r t h, State.ctx_takeTag, State.ctx_modCtx_other _ _ _ _ hc]

/-- R9: an ABORT in OPEN sets the record's fields and marks the operations. -/
theorem State.takeAbort_begun (s : State) (r : RequesterId) (t : Tag) (h : (s.ctx r).state = .opened) :
    (s.takeAbort r t).abortBegun r .requested false := by
  obtain ⟨hstate, hreason, hdue, hwait, hops⟩ := s.abortRequest_begun r .requested h
  have hops' : (s.takeAbort r t).ops = (s.abortRequest r .requested).ops := by rw [s.takeAbort_opened r t h]; rfl
  unfold State.abortBegun
  rw [s.takeAbort_ctx_self r t h, hops']
  exact ⟨hstate, hreason, hdue, hwait, hops⟩

/-- R9, R14: the last outcome stays until the abort is answered. -/
theorem State.takeAbort_lastOutcome (s : State) (r : RequesterId) (t : Tag) (h : (s.ctx r).state = .opened) :
    ((s.takeAbort r t).ctx r).lastOutcome = (s.ctx r).lastOutcome := by
  rw [s.takeAbort_ctx_self r t h]
  refine (s.abortRequest_ctx (·.lastOutcome) ⟨fun _ _ => rfl, fun _ _ => rfl⟩ r r .requested h).trans ?_
  rw [if_pos rfl]
  rfl

/-- R9, R76: an ABORT in OPEN where no slot request waits. -/
theorem State.takeAbort_noneAsking (s : State) (r : RequesterId) (t : Tag) (h : (s.ctx r).state = .opened)
    (hnone : ∀ o ∈ s.ops, o.requester = r → o.asking = false) :
    (s.takeAbort r t).ops = s.ops.map (fun o => if o.requester = r then { o with cancelled := true } else o)
      ∧ (s.takeAbort r t).holds = s.holds ∧ (s.takeAbort r t).sent = s.sent
      ∧ (s.takeAbort r t).outstanding = s.outstanding ++ [(r, t)]
      ∧ (s.takeAbort r t).ctx r = { s.ctx r with
          state := .abortPending, reason := some .requested, noticeDue := some false, wait := none, held := [t] }
      ∧ ∀ c, c ≠ r → (s.takeAbort r t).ctx c = s.ctx c := by
  have hreq := s.abortRequest_noneAsking r .requested h hnone
  have hctx : ∀ c, (s.abortRequest r .requested).ctx c
      = if c = r then (s.ctx r).toAbortPending .requested else s.ctx c := by
    intro c
    rw [hreq, State.ctx_noteDrain, State.ctx_markCancelled, State.ctx_modCtx]
  obtain ⟨hops, hholds, hsent, houtstanding⟩ :
      (s.takeAbort r t).ops = s.ops.map (fun o => if o.requester = r then { o with cancelled := true } else o)
        ∧ (s.takeAbort r t).holds = s.holds ∧ (s.takeAbort r t).sent = s.sent
        ∧ (s.takeAbort r t).outstanding = s.outstanding ++ [(r, t)] := by
    rw [s.takeAbort_opened r t h, hreq]
    simp [State.markCancelled]
  refine ⟨hops, hholds, hsent, houtstanding, ?_, fun c hc => ?_⟩
  · rw [s.takeAbort_ctx_self r t h, hctx, if_pos rfl]
    rfl
  · rw [s.takeAbort_ctx_other r c t h hc, hctx, if_neg hc]

/-- The fields that an ABORT in OPEN writes. -/
theorem State.takeAbort_rest (s : State) (r : RequesterId) (t : Tag) (h : (s.ctx r).state = .opened) :
    s.takeAbort r t = { s with
      contexts := (s.takeAbort r t).contexts, holds := (s.takeAbort r t).holds, ops := (s.takeAbort r t).ops
      outstanding := (s.takeAbort r t).outstanding, sent := (s.takeAbort r t).sent, drains := (s.takeAbort r t).drains } := by
  rw [s.takeAbort_opened r t h]
  apply State.ext_fields <;> simp

/-- Settles O23, by the state of the context. -/
theorem abortCommand : Obligations.AbortCommand := by
  intro s r tag l f htakes
  rw [exec_abort_taken htakes]
  refine ⟨fun h => ⟨_, rfl, s.takeAbort_begun r tag h, ?_, ?_, s.takeAbort_lastOutcome r tag h,
    s.takeAbort_noneAsking r tag h, fun hw => ?_, s.takeAbort_rest r tag h⟩, fun h => ?_, fun h => ?_, fun h => ?_,
    fun h => ?_⟩
  · rw [s.takeAbort_ctx_self r tag h]
  · rw [s.takeAbort_opened r tag h]
    exact List.mem_append_right _ (List.mem_singleton_self _)
  · rw [s.takeAbort_opened r tag h, s.abortRequest_eq r .requested h hw]
    rfl
  · rw [s.takeAbort_aborting r tag h]
  · rw [State.takeAbort, h]; rfl
  · rw [State.takeAbort, h]; rfl
  · rw [State.takeAbort, h]; rfl

end Sys2Proof.Machine

/-! PROOFS. Family 02_the_line_hold_table: what every step keeps of the Line Hold Table, the holds counts and the other
tables (R19, R26, R59, R70, R71, R127). -/

namespace Sys2Proof.Machine

/-! ## What the two invariants read -/

/-- R26: the context is in a state in which it owns no entry. -/
def Context.holdless (x : Context) : Prop := x.state = .idle ∨ x.state = .aborted

/-- All that R26 reads of a context record. -/
def Context.holdView (x : Context) : Nat × Prop := (x.holdsCount, x.holdless)

/-- What the bounds of the tables and R26 read of a state. -/
structure Footprint where
  counts : RequesterId → Nat × Prop
  entries : List (LineAddr × RequesterId)
  forward : Nat
  ops : Nat
  outstanding : List (RequesterId × Tag)
  claimants : Claimant → Nat

/-- That of a state; entries and contexts without what neither invariant reads. -/
def State.footprint (s : State) : Footprint where
  counts c := (s.ctx c).holdView
  entries := s.holds.map (fun e => (e.line, e.owner))
  forward := s.forward.length
  ops := s.ops.length
  outstanding := s.outstanding
  claimants := s.claimantCount

/-- R26 and the bounds of a footprint. -/
def Footprint.counted (p : Footprint) : Prop :=
  ∀ c, p.entries.countP (fun e => decide (e.2 = c)) = (p.counts c).1 ∧ ((p.counts c).2 → (p.counts c).1 = 0)

theorem State.holdsCounted_iff (s : State) : s.holdsCounted ↔ s.footprint.counted := by
  simp only [Footprint.counted, State.footprint, List.countP_map]
  rfl

theorem State.entries_lines (s : State) : s.footprint.entries.map Prod.fst = s.holds.map (fun e => e.line) := by
  simp [State.footprint]

/-- No table grows, no claimant gains an access slot, and the holds counts stay in step with the Line Hold Table. -/
structure State.Lessens (s t : State) : Prop where
  counted : s.holdsCounted → t.holdsCounted
  lines : (t.holds.map (fun e => e.line)).Sublist (s.holds.map (fun e => e.line))
  forward : t.forward.length ≤ s.forward.length
  ops : t.ops.length ≤ s.ops.length
  outstanding : t.outstanding.Sublist s.outstanding
  claimants : ∀ c, t.claimantCount c ≤ s.claimantCount c

theorem State.Lessens.trans {s t u : State} (h : s.Lessens t) (k : t.Lessens u) : s.Lessens u :=
  ⟨fun hs => k.counted (h.counted hs), k.lines.trans h.lines, k.forward.trans h.forward, k.ops.trans h.ops,
    k.outstanding.trans h.outstanding, fun c => (k.claimants c).trans (h.claimants c)⟩

/-- In particular where the footprint is left as it stands. -/
theorem State.Lessens.of_footprint {s t : State} (h : t.footprint = s.footprint) : s.Lessens t where
  counted hs := by rwa [State.holdsCounted_iff, h, ← State.holdsCounted_iff]
  lines := by rw [← State.entries_lines, ← State.entries_lines, h]
  forward := (congrArg Footprint.forward h).le
  ops := (congrArg Footprint.ops h).le
  outstanding := by rw [show t.outstanding = s.outstanding from congrArg Footprint.outstanding h]
  claimants c := (congrFun (congrArg Footprint.claimants h) c).le

theorem State.Lessens.refl (s : State) : s.Lessens s := .of_footprint rfl

theorem State.Lessens.then_same {s t u : State} (h : s.Lessens t) (e : u.footprint = t.footprint) : s.Lessens u :=
  h.trans (.of_footprint e)

theorem State.Lessens.after_same {s t u : State} (h : t.Lessens u) (e : t.footprint = s.footprint) : s.Lessens u :=
  (State.Lessens.of_footprint e).trans h

/-- A fold of operations that lessen lessens. -/
theorem State.Lessens.foldl {α : Type} (f : State → α → State) (hf : ∀ (s : State) a, s.Lessens (f s a))
    (l : List α) (s : State) :
    s.Lessens (l.foldl f s) :=
  foldl_relates State.Lessens .refl (fun _ _ _ h k => h.trans k) f l (fun t a _ => hf t a) s

/-- The invariant of the tables follows where nothing grows. -/
theorem State.Lessens.bounded {s t : State} (h : s.Lessens t) (hs : s.tablesBounded) : t.tablesBounded := by
  obtain ⟨hholds, hlines, hforward, hops, hnodup, houtstanding, hclaimants⟩ := hs
  have hlen := h.lines.length_le
  rw [List.length_map, List.length_map] at hlen
  exact ⟨hlen.trans hholds, h.lines.nodup hlines, h.forward.trans hforward, h.ops.trans hops,
    h.outstanding.nodup hnodup, h.outstanding.length_le.trans houtstanding,
    fun c => (h.claimants c).trans (hclaimants c)⟩

/-! ## Context records -/

/-- A changed record whose holds count, under R26, is what it was, and which may own entries if it did. -/
theorem State.modCtx_lessens (s : State) (c : RequesterId) (f : Context → Context)
    (h : s.holdsCounted → (f (s.ctx c)).holdsCount = (s.ctx c).holdsCount
      ∧ ((f (s.ctx c)).holdless → (s.ctx c).holdless)) : s.Lessens (s.modCtx c f) where
  counted hs d := by
    rw [State.ctx_modCtx]
    by_cases hd : d = c
    · subst hd
      rw [if_pos rfl, (h hs).1]
      exact ⟨(hs d).1, fun k => (hs d).2 ((h hs).2 k)⟩
    · rw [if_neg hd]
      exact hs d
  lines := .refl _
  forward := le_rfl
  ops := le_rfl
  outstanding := .refl _
  claimants _ := le_rfl

theorem State.footprint_modCtx (s : State) (c : RequesterId) (f : Context → Context)
    (h : (f (s.ctx c)).holdView = (s.ctx c).holdView) : (s.modCtx c f).footprint = s.footprint := by
  have hctx : ∀ d, ((s.modCtx c f).ctx d).holdView = (s.ctx d).holdView := by
    intro d
    rw [State.ctx_modCtx]
    split
    · subst_vars; exact h
    · rfl
  unfold State.footprint
  rw [funext hctx]
  rfl

theorem State.footprint_modAll (s : State) (f : Context → Context)
    (h : ∀ c, (f (s.ctx c)).holdView = (s.ctx c).holdView) : (s.modAll f).footprint = s.footprint := by
  have hctx : ∀ d, ((s.modAll f).ctx d).holdView = (s.ctx d).holdView := fun d => by rw [State.ctx_modAll, h]
  unfold State.footprint State.claimantCount State.access
  rw [funext hctx, State.modAll_holds, State.modAll_forward, State.modAll_ops, State.modAll_outstanding,
    State.modAll_link]

/-- R17: a link reset takes no context from owning entries to owning none or back. -/
theorem Context.holdView_linkReset (x : Context) : x.linkReset.holdView = x.holdView := by
  unfold Context.linkReset
  split <;> rename_i h <;> simp [Context.holdView, Context.holdless, Context.toAbortPending, h]

/-- R9: neither does an abort request to an OPEN context. -/
theorem Context.holdView_toAbortPending (x : Context) (reason : AbortReason) (h : x.state = .opened) :
    (x.toAbortPending reason).holdView = x.holdView := by
  simp [Context.holdView, Context.holdless, Context.toAbortPending, h]

/-! ## Responses -/

theorem State.finish_lessens (s : State) (forgotten : Bool) (r : RequesterId) (t : Tag) (code : ResponseCode)
    (detail : ResponseDetail) (data : Option Line) : s.Lessens (s.finish forgotten r t code detail data) where
  counted hs := hs
  lines := .refl _
  forward := le_rfl
  ops := le_rfl
  outstanding := by
    cases forgotten
    · exact List.filter_sublist
    · exact .refl _
  claimants _ := le_rfl

theorem State.answerHeld_lessens (s : State) (c : RequesterId) (code : ResponseCode) (detail : ResponseDetail)
    (outcome : ControlOutcome) : s.Lessens (s.answerHeld c code detail outcome) :=
  (State.Lessens.foldl (fun (t : State) tag => t.finish false c tag code detail)
    (fun t tag => t.finish_lessens false c tag code detail none) (s.ctx c).held s).trans
    (.of_footprint (State.footprint_modCtx _ c _ rfl))

/-! ## Hold entries -/

/-- Where the first entry of a line is removed, its owner's entries are one fewer. -/
theorem countP_owner_eraseP (holds : List HoldEntry) (l : LineAddr) (e : HoldEntry)
    (h : holds.find? (fun e => decide (e.line = l)) = some e) (c : RequesterId) :
    (holds.eraseP (fun e => decide (e.line = l))).countP (fun e => decide (e.owner = c))
      = holds.countP (fun e => decide (e.owner = c)) - if c = e.owner then 1 else 0 := by
  induction holds with
  | nil => cases h
  | cons a rest ih =>
    by_cases ha : a.line = l
    · rw [List.find?_cons_of_pos (by simpa using ha), Option.some.injEq] at h
      subst h
      rw [List.eraseP_cons_of_pos (by simpa using ha), List.countP_cons]
      simp [eq_comm]
    · rw [List.find?_cons_of_neg (by simpa using ha)] at h
      rw [List.eraseP_cons_of_neg (by simpa using ha), List.countP_cons, List.countP_cons, ih h]
      split
      · subst_vars
        have hpos : 0 < rest.countP (fun x => decide (x.owner = e.owner)) :=
          List.countP_pos_iff.2 ⟨e, List.mem_of_find?_eq_some h, by simp⟩
        omega
      · omega

/-- R24: an entry removed singly leaves the holds counts in step. -/
theorem State.removeHold_lessens (s : State) (l : LineAddr) : s.Lessens (s.removeHold l) where
  counted hs c := by
    unfold State.removeHold State.hold?
    cases h : s.holds.find? (fun e => decide (e.line = l)) with
    | none => exact hs c
    | some e =>
      dsimp only
      have hctx := State.ctx_modCtx { s with holds := s.holds.eraseP (fun e => decide (e.line = l)) } e.owner c
        (fun x => { x with holdsCount := x.holdsCount - 1 })
      rw [State.modCtx_holds, hctx, countP_owner_eraseP s.holds l e h, (hs c).1]
      by_cases hc : c = e.owner
      · subst hc
        rw [if_pos rfl, if_pos rfl]
        exact ⟨rfl, fun k => Nat.sub_eq_zero_of_le (((hs _).2 k).le.trans (Nat.zero_le 1))⟩
      · rw [if_neg hc, if_neg hc]
        exact ⟨rfl, (hs c).2⟩
  lines := (s.removeHold_shrinks l).holds.map _
  forward := by rw [(s.removeHold_shrinks l).rest]
  ops := (s.removeHold_shrinks l).ops.length_le
  outstanding := (s.removeHold_shrinks l).outstanding
  claimants c := by rw [(s.removeHold_shrinks l).rest]; exact le_rfl

/-- R25: so does the release of all entries of a context. -/
theorem State.releaseHolds_lessens (s : State) (c : RequesterId) : s.Lessens (s.releaseHolds c) where
  counted hs d := by
    have hctx : (s.releaseHolds c).ctx d = if d = c then { s.ctx c with holdsCount := 0 } else s.ctx d :=
      State.ctx_modCtx _ c d _
    rw [State.releaseHolds_holds, hctx, List.countP_filter]
    by_cases hd : d = c
    · subst hd
      rw [if_pos rfl]
      exact ⟨List.countP_eq_zero.2 (fun e _ => by simp), fun _ => rfl⟩
    · rw [if_neg hd]
      refine ⟨(List.countP_congr (fun e _ => ?_)).trans (hs d).1, (hs d).2⟩
      simp only [Bool.and_eq_true, decide_eq_true_eq]
      exact ⟨And.left, fun h => ⟨h, h ▸ hd⟩⟩
  lines := List.filter_sublist.map _
  forward := le_rfl
  ops := le_rfl
  outstanding := .refl _
  claimants _ := le_rfl

/-- R23: a promotion changes neither line nor owner. -/
theorem State.footprint_promoteHold (s : State) (l : LineAddr) : (s.promoteHold l).footprint = s.footprint := by
  have h : (s.promoteHold l).holds.map (fun e => (e.line, e.owner)) = s.holds.map (fun e => (e.line, e.owner)) := by
    rw [State.promoteHold_holds, List.map_map]
    refine List.map_congr_left (fun e _ => ?_)
    by_cases he : e.line = l <;> simp [he]
  unfold State.footprint
  rw [h]
  rfl

/-! ## Operations -/

theorem State.footprint_modOp (s : State) (l : LineAddr) (f : Operation → Operation) :
    (s.modOp l f).footprint = s.footprint := by
  unfold State.footprint
  rw [State.modOp_ops, List.length_map]
  rfl

theorem State.footprint_markCancelled (s : State) (who : Operation → Bool) :
    (s.markCancelled who).footprint = s.footprint := by
  unfold State.footprint
  rw [show (s.markCancelled who).ops.length = s.ops.length from List.length_map _]
  rfl

/-- R71: an operation leaves the table. -/
theorem State.eraseOp_lessens (s : State) (p : Operation → Bool) : s.Lessens { s with ops := s.ops.eraseP p } where
  counted hs := hs
  lines := .refl _
  forward := le_rfl
  ops := List.eraseP_sublist.length_le
  outstanding := .refl _
  claimants _ := le_rfl

/-- R71, R5: the end of an operation. -/
theorem State.endOp_lessens (s : State) (o : Operation) (code : ResponseCode) (detail : ResponseDetail) :
    s.Lessens (s.endOp o code detail) :=
  ((s.eraseOp_lessens _).trans (.of_footprint (State.footprint_modCtx _ o.requester _ rfl))).trans
    (State.finish_lessens _ o.forgotten o.requester o.tag code detail none)

/-- R76: a cancellation marks operations, and withdraws some. -/
theorem State.cancelOps_lessens (s : State) (who : Operation → Bool) : s.Lessens (s.cancelOps who) :=
  (State.Lessens.of_footprint (s.footprint_markCancelled who)).trans
    (.foldl (fun (t : State) (o : Operation) => (t.removeHold o.line).endOp o .error .aborted)
      (fun t o => (t.removeHold_lessens o.line).trans (State.endOp_lessens _ o .error .aborted)) _ _)

/-! ## Drains and abort requests -/

theorem State.footprint_noteDrain (s : State) (c : RequesterId) : (s.noteDrain c).footprint = s.footprint := by
  unfold State.noteDrain
  split <;> rfl

theorem State.footprint_noteDrains (s : State) : s.noteDrains.footprint = s.footprint := by
  unfold State.noteDrains
  dsimp only
  split <;> rfl

theorem State.retireOp_lessens (s : State) (o : Operation) (code : ResponseCode) (detail : ResponseDetail) :
    s.Lessens (s.retireOp o code detail) :=
  (s.endOp_lessens o code detail).trans (.of_footprint (State.footprint_noteDrain _ _))

/-- R9: an abort request. -/
theorem State.abortRequest_lessens (s : State) (c : RequesterId) (reason : AbortReason) :
    s.Lessens (s.abortRequest c reason) := by
  by_cases h : (s.ctx c).state = .opened
  · rw [s.abortRequest_taken c reason h]
    exact ((State.Lessens.of_footprint
      (s.footprint_modCtx c _ (Context.holdView_toAbortPending (s.ctx c) reason h))).trans
      (State.cancelOps_lessens _ _)).trans (.of_footprint (State.footprint_noteDrain _ _))
  · rw [s.abortRequest_ignored c reason h]
    exact .refl s

theorem State.failOp_lessens (s : State) (o : Operation) (detail : ResponseDetail) (reason : AbortReason) :
    s.Lessens (s.failOp o detail reason) :=
  ((s.endOp_lessens o .error detail).trans (State.abortRequest_lessens _ _ _)).trans
    (.of_footprint (State.footprint_noteDrain _ _))

/-! ## Faults and link reset -/

theorem State.footprint_drainTest (s : State) : s.drainTest.footprint = s.footprint := by
  rw [State.drainTest_rest]
  rfl

/-- R78: the outstanding requests are forgotten. -/
theorem State.forget_lessens (s : State) : s.Lessens s.forget where
  counted hs := hs
  lines := .refl _
  forward := (List.length_map _).le
  ops := (List.length_map _).le
  outstanding := List.nil_sublist _
  claimants _ := le_rfl

/-- R159: a link reset, in every device state. -/
theorem State.takeLinkReset_lessens (s : State) : s.Lessens s.takeLinkReset := by
  have hreset : s.Lessens ((s.forget.cancelOps (fun _ => true)).modAll Context.linkReset) :=
    (s.forget_lessens.trans (State.cancelOps_lessens _ _)).trans
      (.of_footprint (State.footprint_modAll _ _ (fun _ => Context.holdView_linkReset _)))
  unfold State.takeLinkReset
  dsimp only
  generalize (s.forget.cancelOps (fun _ => true)).modAll Context.linkReset = u at hreset
  have hdrain : u.Lessens u.syncNotices.noteDrains := .of_footprint u.syncNotices.footprint_noteDrains
  generalize u.syncNotices.noteDrains = v at hdrain
  split
  · exact .refl s
  · split
    · exact (hreset.trans hdrain).trans (.of_footprint (State.footprint_drainTest _))
    · exact (hreset.trans hdrain).trans (.of_footprint (State.footprint_drainTest _))
    · exact s.forget_lessens.trans (.of_footprint (State.footprint_modAll _ _ (fun _ => rfl)))
    · exact s.forget_lessens
    all_goals exact .refl s

theorem State.entryLinkReset_lessens (s : State) : s.Lessens s.entryLinkReset := by
  unfold State.entryLinkReset
  split
  · exact s.takeLinkReset_lessens
  · exact .refl s

/-- R158: the entry into FAULTED answers what is held and ends what waits; the blocks that stop keep their tables. -/
theorem State.enterFaulted_lessens (s : State) (cause : FaultCause) : s.Lessens (s.enterFaulted cause) := by
  have hheld : s.Lessens s.faultHeld :=
    .foldl _ (fun t c => t.answerHeld_lessens c .error .fault .notAvailable) _ _
  have hops : s.faultHeld.Lessens s.faultHeld.faultOps := .foldl _ (fun t o => t.endOp_lessens o .error .fault) _ _
  unfold State.enterFaulted
  dsimp only
  generalize s.faultHeld.faultOps = u at hops
  exact (hheld.trans hops).trans (.of_footprint rfl)

theorem State.reportFault_lessens (s : State) (cause : FaultCause) : s.Lessens (s.reportFault cause) := by
  unfold State.reportFault
  split
  · exact .refl s
  · split
    · exact s.enterFaulted_lessens cause
    · exact s.enterFaulted_lessens cause
    · exact (s.enterFaulted_lessens cause).trans (State.entryLinkReset_lessens _)
    all_goals exact .refl s

/-! ## Durability -/

theorem State.footprint_reevaluateTail (s : State) : s.reevaluateTail.footprint = s.footprint := by
  rw [State.reevaluateTail_rest]
  rfl

theorem State.footprint_engineFreed (s : State) : s.engineFreed.footprint = s.footprint := by
  rw [State.engineFreed_rest]
  rfl

/-- R8, R12, R25: an end record is durable; its context owns no entry where it ends IDLE or ABORTED. -/
theorem State.endDurable_lessens (s : State) (c : RequesterId) (kind : RecordKind) :
    s.Lessens (s.endDurable c kind) where
  counted hs d := by
    by_cases hd : d = c
    · obtain ⟨hholds, -, -, hcount, -⟩ := s.endDurable_endedFrom c kind
      rw [hd, hholds, hcount, List.countP_filter]
      exact ⟨List.countP_eq_zero.2 (fun e _ => by simp), fun _ => rfl⟩
    · rw [s.endDurable_ctx_other c d kind hd]
      have hrelease := (s.releaseHolds_lessens c).counted hs d
      rwa [show (s.releaseHolds c).ctx d = s.ctx d from State.ctx_modCtx_other _ c d _ hd, State.releaseHolds_holds,
        ← (s.endDurable_endedFrom c kind).1] at hrelease
  lines := by rw [State.endDurable_rest]; exact List.filter_sublist.map _
  forward := by rw [State.endDurable_rest]
  ops := by rw [State.endDurable_rest]
  outstanding := by rw [State.endDurable_rest]; exact List.filter_sublist
  claimants d := by rw [State.endDurable_rest]; exact le_rfl

/-- R23, R74: an UNDO record is durable. -/
theorem State.undoDurable_lessens (s : State) (l : LineAddr) : s.Lessens (s.undoDurable l) := by
  have hpromote : s.Lessens (s.promoteHold l) := .of_footprint (s.footprint_promoteHold l)
  unfold State.undoDurable
  dsimp only
  split
  · exact hpromote
  · split
    · exact hpromote.trans (State.retireOp_lessens _ _ _ _)
    · exact (hpromote.trans (.of_footprint (State.footprint_modOp _ l _))).trans (.of_footprint rfl)

theorem State.reportDurable_lessens (s : State) (r : AssignedRecord) : s.Lessens (s.reportDurable r) := by
  unfold State.reportDurable
  split
  · exact s.undoDurable_lessens _
  · exact s.endDurable_lessens _ _
  · exact s.endDurable_lessens _ _

theorem State.advanceDurable_lessens (s : State) : s.Lessens s.advanceDurable := by
  unfold State.advanceDurable
  dsimp only
  generalize hu : List.foldl _ _ _ = u
  have hpassed : s.Lessens u := by
    rw [← hu]
    exact (State.Lessens.foldl _ (fun t r => t.reportDurable_lessens r) _ _).after_same rfl
  have htail : ∀ p : Prop, [Decidable p] → u.Lessens (if p then u.reevaluateTail else u) := by
    intro p _
    split
    · exact .of_footprint u.footprint_reevaluateTail
    · exact .refl u
  have hfreed : ∀ (v : State) (p : Prop), [Decidable p] → v.Lessens (if p then v.engineFreed else v) := by
    intro v p _
    split
    · exact .of_footprint v.footprint_engineFreed
    · exact .refl v
  exact (hpassed.trans (htail _)).trans (hfreed _ _)

/-! ## The memory link -/

/-- R126: the number of slots of a link that a claimant's accesses occupy. -/
def claimantsOf (link : Vector (Option Access) 8) (c : Claimant) : Nat :=
  allSlots.countP (fun k => (link[k]).any (fun a => decide (a.purpose.claimant = some c)))

theorem State.claimantCount_eq (s : State) (c : Claimant) : s.claimantCount c = claimantsOf s.link c := rfl

/-- What one slot's new content does to a claimant's count. -/
theorem claimantsOf_set (link : Vector (Option Access) 8) (k : AccessSlot) (x : Option Access) (c : Claimant) :
    claimantsOf (link.set k x) c + (if (link[k]).any (fun a => decide (a.purpose.claimant = some c)) then 1 else 0)
      = claimantsOf link c + if x.any (fun a => decide (a.purpose.claimant = some c)) then 1 else 0 := by
  have hperm : allSlots.Perm (k :: allSlots.erase k) := List.perm_cons_erase (mem_allSlots k)
  have hnodup : allSlots.Nodup := by decide
  have hothers : ∀ j ∈ allSlots.erase k, (link.set k x)[j] = link[j] := by
    intro j hj
    have hne : k.val ≠ j.val := fun e => (hnodup.mem_erase_iff.1 hj).1 (Fin.ext e.symm)
    simp [hne]
  have hself : (link.set k x)[k] = x := by simp
  have hcount : (allSlots.erase k).countP
        (fun j => ((link.set k x)[j]).any (fun a => decide (a.purpose.claimant = some c)))
      = (allSlots.erase k).countP (fun j => (link[j]).any (fun a => decide (a.purpose.claimant = some c))) :=
    List.countP_congr (fun j hj => by rw [hothers j hj])
  unfold claimantsOf
  rw [hperm.countP_eq, hperm.countP_eq, List.countP_cons, List.countP_cons, hcount, hself]
  omega

/-- R124: a freed slot is nobody's. -/
theorem State.freeAccess_lessens (s : State) (k : AccessSlot) : s.Lessens (s.freeAccess k) where
  counted hs := hs
  lines := .refl _
  forward := le_rfl
  ops := le_rfl
  outstanding := .refl _
  claimants c := by
    have h := claimantsOf_set s.link k none c
    rw [if_neg (show ¬ (none : Option Access).any (fun a => decide (a.purpose.claimant = some c)) = true by simp)] at h
    exact (Nat.le_add_right _ _).trans h.le

theorem State.footprint_settle (s : State) : s.settle.footprint = s.footprint := by
  unfold State.settle State.haltIfIdle
  split
  · split <;> rfl
  · rfl

/-- A completion lessens where its delivery does. -/
theorem State.complete_lessens (s : State) (k : AccessSlot) (mine : Purpose → Bool) (deliver : Access → State → State)
    (hdeliver : ∀ a (t : State), t.Lessens (deliver a t)) : s.Lessens (s.complete k mine deliver) := by
  unfold State.complete
  split
  · split
    · exact ((s.freeAccess_lessens k).trans (hdeliver _ _)).then_same (State.footprint_settle _)
    · exact .refl s
  · exact .refl s

/-! ## The Recovery Sequencer -/

/-- R126: the sequencer's jobs belong to no claimant. -/
theorem State.jobAccess_claimant (s : State) (i : Nat) (j : SeqJob) : (s.jobAccess i j).1.claimant = none := by
  cases j <;> rfl

/-- An access of no claimant put in a free slot changes no claimant's count. -/
theorem claimantsOf_placeAccess (link : Vector (Option Access) 8) (order : Nat) (p : Purpose) (l : LineAddr)
    (kind : AccessKind) (hp : p.claimant = none) (c : Claimant) :
    claimantsOf (placeAccess link order p l kind) c = claimantsOf link c := by
  unfold placeAccess
  dsimp only
  split
  · rename_i k hk
    have hfree : (link[k]).isNone = true := by simpa using (List.mem_filter.1 (List.mem_of_getElem? hk)).2
    have h := claimantsOf_set link k (some { purpose := p, line := l, kind := kind, order := order }) c
    rw [Option.isNone_iff_eq_none.1 hfree] at h
    simpa [hp] using h
  · rfl

theorem State.claimantsOf_placeJobs (s : State) (jobs : List SeqJob) (i order : Nat) (link : Vector (Option Access) 8)
    (c : Claimant) : claimantsOf (s.placeJobs jobs i order link) c = claimantsOf link c := by
  induction jobs generalizing i order link with
  | nil => rfl
  | cons j rest ih =>
    exact (ih _ _ _).trans (claimantsOf_placeAccess _ _ _ _ _ (s.jobAccess_claimant i j) c)

theorem State.footprint_pump (s : State) : s.pump.footprint = s.footprint := by
  have hcount : s.pump.claimantCount = s.claimantCount := by
    funext c
    unfold State.pump
    split
    · rfl
    · exact s.claimantsOf_placeJobs _ _ _ _ c
  unfold State.footprint
  rw [hcount, State.pump_rest]
  rfl

theorem State.footprint_issueRestore (s : State) (r : JournalRecord) : (s.issueRestore r).footprint = s.footprint := by
  have hcount : (s.issueRestore r).claimantCount = s.claimantCount :=
    funext (claimantsOf_placeAccess s.link s.issued .recoveryRestore r.line (.write fullMask r.old) rfl)
  unfold State.footprint
  rw [hcount]
  rfl

theorem State.footprint_beginWalk (s : State) (c : Chosen) : (s.beginWalk c).footprint = s.footprint :=
  State.footprint_pump _

theorem State.footprint_beginReinit (s : State) : s.beginReinit.footprint = s.footprint :=
  State.footprint_pump _

theorem State.footprint_stopWalk (s : State) (p : Position) : (s.stopWalk p).footprint = s.footprint := by
  unfold State.stopWalk
  dsimp only
  split
  · exact State.footprint_beginReinit _
  · exact State.footprint_pump _

theorem State.footprint_walkOn (s : State) (slot : Nat) (seq : Serial) (table : List Unended) :
    (s.walkOn slot seq table).footprint = s.footprint := by
  unfold State.walkOn
  dsimp only
  split
  · exact State.footprint_stopWalk _ _
  · exact State.footprint_pump _

theorem State.footprint_examineWalk (s : State) (v : Place) : (s.examineWalk v).footprint = s.footprint := by
  unfold State.examineWalk
  dsimp only
  split
  · exact s.footprint_stopWalk _
  · split
    · exact s.footprint_stopWalk _
    · split
      · exact s.footprint_stopWalk _
      · exact s.footprint_walkOn _ _ _

theorem State.noHeader_lessens (s : State) : s.Lessens s.noHeader := by
  unfold State.noHeader
  split
  · exact .of_footprint (State.footprint_pump _)
  · exact s.reportFault_lessens _

/-- R146: both copies have been read, or the reads go on. -/
theorem State.judgeHeaders_lessens (s : State) : s.Lessens s.judgeHeaders := by
  unfold State.judgeHeaders
  split
  · split
    · exact .of_footprint (s.footprint_beginWalk _)
    · exact s.noHeader_lessens
  · exact .of_footprint s.footprint_pump

theorem State.undoExamine_lessens (fuel : Nat) (s : State) : s.Lessens (State.undoExamine fuel s) := by
  induction fuel generalizing s with
  | zero => exact .refl s
  | succ n ih =>
    unfold State.undoExamine
    split
    · exact .refl s
    · split
      · exact .refl s
      · split
        · exact s.reportFault_lessens _
        · split
          · exact s.reportFault_lessens _
          · split
            · split
              · exact .refl s
              · exact (ih _).after_same (s.footprint_issueRestore _)
            · exact (ih _).after_same rfl

theorem State.undoGoOn_lessens (s : State) : s.Lessens s.undoGoOn := by
  have hexamine := State.undoExamine_lessens s.recovery.io.undo.length s
  unfold State.undoGoOn
  dsimp only
  split
  · split
    · exact hexamine.then_same (State.footprint_beginReinit _)
    · exact hexamine.then_same (State.footprint_pump _)
  · exact hexamine

theorem State.recoverySuccess_lessens (s : State) : s.Lessens s.recoverySuccess :=
  (State.entryLinkReset_lessens _).after_same rfl

theorem State.headerRead_lessens (result : ReadResult) (a : Access) (s : State) :
    s.Lessens (State.headerRead result a s) := by
  unfold State.headerRead
  split
  · exact (State.judgeHeaders_lessens _).after_same rfl
  · exact (State.judgeHeaders_lessens _).after_same rfl
  · exact s.reportFault_lessens _
  · exact .refl s

theorem State.zeroed_lessens (result : WriteResult) (a : Access) (s : State) : s.Lessens (State.zeroed result a s) := by
  unfold State.zeroed
  split
  · exact .of_footprint (State.footprint_pump _)
  · exact s.reportFault_lessens _
  · exact .refl s

theorem State.formatHeaderWritten_lessens (result : WriteResult) (a : Access) (s : State) :
    s.Lessens (State.formatHeaderWritten result a s) := by
  unfold State.formatHeaderWritten
  split
  · dsimp only
    split
    · exact .of_footprint (State.footprint_beginWalk _ _)
    · exact .of_footprint (State.footprint_pump _)
  · exact s.reportFault_lessens _
  · exact .refl s

theorem State.walkRead_lessens (result : ReadResult) (a : Access) (s : State) :
    s.Lessens (State.walkRead result a s) := by
  unfold State.walkRead
  split
  · dsimp only
    split
    · exact .of_footprint (State.footprint_examineWalk _ _)
    · exact .of_footprint (State.footprint_pump _)
  · exact s.reportFault_lessens _
  · exact .refl s

theorem State.undoSlotRead_lessens (result : ReadResult) (a : Access) (s : State) :
    s.Lessens (State.undoSlotRead result a s) := by
  unfold State.undoSlotRead
  split
  · exact (State.undoGoOn_lessens _).after_same rfl
  · exact s.reportFault_lessens _
  · exact .refl s

theorem State.recoveryRestored_lessens (result : WriteResult) (a : Access) (s : State) :
    s.Lessens (State.recoveryRestored result a s) := by
  unfold State.recoveryRestored
  split
  · exact (State.undoGoOn_lessens _).after_same rfl
  · exact s.reportFault_lessens _
  · exact .refl s

theorem State.reinitWritten_lessens (result : WriteResult) (a : Access) (s : State) :
    s.Lessens (State.reinitWritten result a s) := by
  unfold State.reinitWritten
  split
  · dsimp only
    split
    · exact (State.recoverySuccess_lessens _).after_same rfl
    · exact .of_footprint (State.footprint_pump _)
  · exact s.reportFault_lessens _
  · exact .refl s

/-! ## The Journal Writer and the Header Writer -/

theorem State.failUndo_lessens (s : State) (r : AssignedRecord) : s.Lessens (s.failUndo r) := by
  unfold State.failUndo
  split
  · split
    · exact s.retireOp_lessens _ _ _
    · exact .refl s
  · exact .refl s

theorem State.footprint_operationWaits (s : State) (r : AssignedRecord) :
    (s.operationWaits r).footprint = s.footprint := by
  unfold State.operationWaits
  split
  · exact s.footprint_modOp _ _
  · rfl

theorem State.recordAnswered_lessens (s : State) (r : AssignedRecord) : s.Lessens (s.recordAnswered r) := by
  unfold State.recordAnswered
  split
  · exact (State.advanceDurable_lessens _).after_same (s.footprint_operationWaits r)
  · split
    · exact (s.reportFault_lessens _).trans (State.failUndo_lessens _ r)
    · exact .refl s

theorem State.recordWritten_lessens (result : WriteResult) (a : Access) (s : State) :
    s.Lessens (State.recordWritten result a s) := by
  unfold State.recordWritten
  split
  · split
    · exact .refl s
    · split
      · exact .of_footprint rfl
      · exact (State.recordAnswered_lessens _ _).after_same rfl
  · exact .refl s

theorem State.headerError_lessens (s : State) (w : HeaderWrite) : s.Lessens (s.headerError w) := by
  unfold State.headerError
  split
  · exact (State.reportFault_lessens _ _).after_same rfl
  · split
    · exact .of_footprint rfl
    · exact (State.reportFault_lessens _ _).after_same rfl

theorem State.headerWritten_lessens (result : WriteResult) (a : Access) (s : State) :
    s.Lessens (State.headerWritten result a s) := by
  unfold State.headerWritten
  split
  · split
    · split <;> exact .of_footprint rfl
    · split
      · exact .of_footprint rfl
      · exact .of_footprint rfl
      · exact s.headerError_lessens _
  · exact .refl s

theorem State.endWithoutRecord_lessens (s : State) (q : EndRequest) : s.Lessens (s.endWithoutRecord q) := by
  have hended := (s.endDurable_lessens q.context q.kind).then_same (State.footprint_reevaluateTail _)
  unfold State.endWithoutRecord
  dsimp only
  split
  · exact hended.then_same (State.footprint_engineFreed _)
  · exact hended

theorem State.takeEndRequest_lessens (s : State) (q : EndRequest) : s.Lessens (s.takeEndRequest q) := by
  unfold State.takeEndRequest
  dsimp only
  split
  · exact .of_footprint rfl
  · exact (State.endWithoutRecord_lessens _ q).after_same rfl

/-! ## The Rollback Engine -/

/-- R84: the context taken is ROLLING_BACK, a state in which a context may own entries. -/
theorem State.takeContext_lessens (s : State) (c : RequesterId) (rest : List RequesterId) :
    s.Lessens (s.takeContext c rest) := by
  have htaken : s.Lessens (State.modCtx { s with rollbackQueue := rest } c (fun x => { x with state := .rollingBack })) :=
    (State.modCtx_lessens _ c _ (fun _ => ⟨rfl, fun h => by simp [Context.holdless] at h⟩)).after_same rfl
  unfold State.takeContext
  dsimp only
  split
  · exact htaken.then_same rfl
  · exact htaken.then_same rfl

theorem State.footprint_claimRestore (s : State) : s.claimRestore.footprint = s.footprint := by
  unfold State.claimRestore
  split
  · rfl
  · split <;> rfl

theorem State.afterExamine_lessens (s : State) (c : RequesterId) (slot : Nat) : s.Lessens (s.afterExamine c slot) := by
  unfold State.afterExamine
  dsimp only
  split
  · split
    · exact (State.reportFault_lessens _ _).after_same rfl
    · exact .of_footprint (State.footprint_claimRestore _)
  · exact .of_footprint (State.footprint_claimRestore _)

theorem State.readOkay_lessens (s : State) (rd : EngineRead) (d : Line) : s.Lessens (s.readOkay rd d) := by
  unfold State.readOkay State.examineSlot
  split
  · exact .of_footprint rfl
  · split
    · exact .refl s
    · exact (State.afterExamine_lessens _ _ _).after_same rfl

theorem State.readError_lessens (s : State) (rd : EngineRead) : s.Lessens (s.readError rd) := by
  unfold State.readError
  split
  · exact .of_footprint rfl
  · exact (State.reportFault_lessens _ _).after_same rfl

theorem State.rollbackRead_lessens (result : ReadResult) (a : Access) (s : State) :
    s.Lessens (State.rollbackRead result a s) := by
  unfold State.rollbackRead
  split
  · exact .refl s
  · split
    · exact .of_footprint rfl
    · split
      · exact s.readOkay_lessens _ _
      · exact s.readError_lessens _

theorem State.restoreError_lessens (s : State) (w : EngineRestore) : s.Lessens (s.restoreError w) := by
  unfold State.restoreError
  split
  · exact .of_footprint rfl
  · exact (State.reportFault_lessens _ _).after_same rfl

theorem State.restored_lessens (result : WriteResult) (a : Access) (s : State) :
    s.Lessens (State.restored result a s) := by
  unfold State.restored
  split
  · exact .refl s
  · split
    · exact .of_footprint rfl
    · split
      · exact .of_footprint (State.footprint_claimRestore _)
      · exact s.restoreError_lessens _

/-! ## Forwarded accesses and journaling operations -/

theorem State.answerForwarded_lessens (s : State) (e : ForwardEntry) (result : ReadResult) :
    s.Lessens (s.answerForwarded e result) := by
  unfold State.answerForwarded
  split <;> exact s.finish_lessens _ _ _ _ _ _

theorem State.forwardedCounted_lessens (s : State) (e : ForwardEntry) (result : ReadResult) :
    s.Lessens (s.forwardedCounted e result) := by
  unfold State.forwardedCounted
  split
  · dsimp only
    refine State.Lessens.then_same ?_ (State.footprint_noteDrain _ _)
    split
    · exact (State.abortRequest_lessens _ _ _).after_same (s.footprint_modCtx _ _ rfl)
    · exact .of_footprint (s.footprint_modCtx _ _ rfl)
  · exact .refl s

theorem State.eraseForward_lessens (s : State) (p : ForwardEntry → Bool) :
    s.Lessens { s with forward := s.forward.eraseP p } where
  counted hs := hs
  lines := .refl _
  forward := List.eraseP_sublist.length_le
  ops := le_rfl
  outstanding := .refl _
  claimants _ := le_rfl

theorem State.forwardComplete_lessens (k : AccessSlot) (result : ReadResult) (a : Access) (s : State) :
    s.Lessens (State.forwardComplete k result a s) := by
  unfold State.forwardComplete
  split
  · exact .refl s
  · exact ((s.eraseForward_lessens _).trans (State.answerForwarded_lessens _ _ _)).trans
      (State.forwardedCounted_lessens _ _ _)

theorem State.oldLineRead_lessens (s : State) (o : Operation) (result : ReadResult) :
    s.Lessens (s.oldLineRead o result) := by
  unfold State.oldLineRead
  split
  · exact (s.removeHold_lessens _).trans (State.retireOp_lessens _ _ _ _)
  · split
    · exact (s.removeHold_lessens _).trans (State.failOp_lessens _ _ _ _)
    · exact .of_footprint (s.footprint_modOp _ _)

theorem State.oldLineReadDelivered_lessens (result : ReadResult) (a : Access) (s : State) :
    s.Lessens (State.oldLineReadDelivered result a s) := by
  unfold State.oldLineReadDelivered
  split
  · exact .refl s
  · exact s.oldLineRead_lessens _ _

theorem State.footprint_grantUndo (s : State) (o : Operation) : (s.grantUndo o).footprint = s.footprint := by
  unfold State.grantUndo
  dsimp only
  rw [State.footprint_modCtx _ _ _ rfl, State.footprint_modOp]
  rfl

theorem State.undoRequest_lessens (s : State) (o : Operation) : s.Lessens (s.undoRequest o) := by
  have hasked : s.Lessens (if Config.endReserve < s.freeSlots then s.grantUndo o else s.refuseUndo o) := by
    split
    · exact .of_footprint (s.footprint_grantUndo o)
    · exact (s.removeHold_lessens _).trans (State.failOp_lessens _ _ _ _)
  unfold State.undoRequest
  split
  · exact hasked
  · exact hasked
  · exact s.endOp_lessens o _ _
  all_goals exact .refl s

theorem State.operationWrittenDelivered_lessens (result : WriteResult) (a : Access) (s : State) :
    s.Lessens (State.operationWrittenDelivered result a s) := by
  unfold State.operationWrittenDelivered
  split
  · exact .refl s
  · cases result
    · exact s.retireOp_lessens _ _ _
    · exact s.failOp_lessens _ _ _

/-! ## Loading, resets and timers -/

theorem State.loadFailure_lessens (s : State) : s.Lessens s.loadFailure := by
  unfold State.loadFailure
  split
  · exact .of_footprint rfl
  · exact (State.entryLinkReset_lessens _).after_same rfl

theorem State.footprint_takePowerFail (s : State) : s.takePowerFail.footprint = s.footprint := by
  unfold State.takePowerFail
  split
  · rfl
  · exact State.footprint_settle _

/-- R156: at power-on every table is empty and every record is that of an idle context. -/
theorem State.powerOnValues_lessens (s : State) (porst : Bool) : s.Lessens (s.powerOnValues porst) where
  counted _ c := by
    rw [State.powerOnValues_ctx]
    exact ⟨rfl, fun _ => rfl⟩
  lines := List.nil_sublist _
  forward := Nat.zero_le _
  ops := Nat.zero_le _
  outstanding := List.nil_sublist _
  claimants c := by
    have hempty : claimantsOf (Vector.replicate 8 none) c = 0 := by cases c <;> decide
    exact hempty.le.trans (Nat.zero_le _)

theorem State.footprint_restartWait (s : State) (c : RequesterId) : (s.restartWait c).footprint = s.footprint :=
  s.footprint_modCtx c _ rfl

theorem State.chooseVictim_lessens (s : State) (waiter holder : RequesterId) :
    s.Lessens (s.chooseVictim waiter holder) := by
  have hcleared : s.Lessens (s.modCtx waiter (fun x => { x with wait := none })) :=
    .of_footprint (s.footprint_modCtx waiter _ rfl)
  have hrestarted : s.Lessens (s.restartWait waiter) := .of_footprint (s.footprint_restartWait waiter)
  have hholder : s.Lessens (s.victimHolder waiter holder) :=
    (s.abortRequest_lessens holder _).then_same (State.footprint_restartWait _ waiter)
  unfold State.chooseVictim
  split
  iterate 4 exact hcleared
  iterate 6 exact hrestarted
  · exact hholder
  · split
    · exact s.abortRequest_lessens waiter _
    · exact hholder
  all_goals exact .refl s

theorem State.conflictExpiry_lessens (s : State) (waiter : RequesterId) (w : WaitRecord) :
    s.Lessens (s.conflictExpiry waiter w) := by
  unfold State.conflictExpiry
  split
  · exact .of_footprint (s.footprint_modCtx waiter _ rfl)
  · split
    · exact s.chooseVictim_lessens _ _
    · exact .of_footprint (s.footprint_modCtx waiter _ rfl)

end Sys2Proof.Machine

/-! PROOFS. Family 02_the_line_hold_table: the tables that grow, and the invariants of the Line Hold Table and of the
tables' bounds (R21, R26, R59, R70, R71, R127). -/

namespace Sys2Proof.Machine

/-- Both invariants pass from s to t, each on its own. -/
structure State.Keeps (s t : State) : Prop where
  counted : s.holdsCounted → t.holdsCounted
  bounded : s.tablesBounded → t.tablesBounded

theorem State.Keeps.trans {s t u : State} (h : s.Keeps t) (k : t.Keeps u) : s.Keeps u :=
  ⟨fun hs => k.counted (h.counted hs), fun hs => k.bounded (h.bounded hs)⟩

theorem State.Lessens.keeps {s t : State} (h : s.Lessens t) : s.Keeps t := ⟨h.counted, h.bounded⟩

theorem State.Keeps.of_footprint {s t : State} (h : t.footprint = s.footprint) : s.Keeps t :=
  (State.Lessens.of_footprint h).keeps

theorem State.Keeps.refl (s : State) : s.Keeps s := .of_footprint rfl

theorem State.Keeps.then_same {s t u : State} (h : s.Keeps t) (e : u.footprint = t.footprint) : s.Keeps u :=
  h.trans (.of_footprint e)

theorem State.Keeps.after_same {s t u : State} (h : t.Keeps u) (e : t.footprint = s.footprint) : s.Keeps u :=
  (State.Keeps.of_footprint e).trans h

/-! ## One entry more -/

/-- R59: a request that is not outstanding enters the table, which has room for every requester's tags. -/
theorem State.takeTag_keeps (s : State) (r : RequesterId) (t : Tag) (hfree : (r, t) ∉ s.outstanding) :
    s.Keeps (s.takeTag r t) where
  counted hs := hs
  bounded hs := by
    obtain ⟨hholds, hlines, hforward, hops, hnodup, -, hclaimants⟩ := hs
    have hnodup' : (s.outstanding ++ [(r, t)]).Nodup :=
      hnodup.append (List.nodup_singleton _) (by simpa using hfree)
    have hcard : Fintype.card (RequesterId × Tag) = 1024 := by
      rw [Fintype.card_prod, Fintype.card_fin, Fintype.card_fin]
    exact ⟨hholds, hlines, hforward, hops, hnodup', hnodup'.length_le_card.trans_eq hcard, hclaimants⟩

/-- R70: a Forward Queue that is not full takes an entry. -/
theorem State.pushForward_keeps (s : State) (e : ForwardEntry) (hroom : ¬ Config.forwardEntries ≤ s.forward.length) :
    s.Keeps { s with forward := s.forward ++ [e] } where
  counted hs := hs
  bounded hs := by
    obtain ⟨hholds, hlines, -, hrest⟩ := hs
    have hlen : (s.forward ++ [e]).length ≤ 32 := by
      rw [List.length_append, List.length_singleton]
      exact Nat.lt_of_not_le hroom
    exact ⟨hholds, hlines, hlen, hrest⟩

/-- R71: a journal operation table that is not full takes an operation. -/
theorem State.pushOp_keeps (s : State) (o : Operation) (hroom : ¬ Config.opEntries ≤ s.ops.length) :
    s.Keeps { s with ops := s.ops ++ [o] } where
  counted hs := hs
  bounded hs := by
    obtain ⟨hholds, hlines, hforward, -, hrest⟩ := hs
    have hlen : (s.ops ++ [o]).length ≤ 16 := by
      rw [List.length_append, List.length_singleton]
      exact Nat.lt_of_not_le hroom
    exact ⟨hholds, hlines, hforward, hlen, hrest⟩

/-- R21: when an insertion is made, and what it makes. -/
theorem State.insertHold_inserted {s u : State} {c : RequesterId} {l : LineAddr} (h : s.insertHold c l = .inserted u) :
    (s.ctx c).holdsCount ≠ s.params.holdQuota ∧ ¬ Config.holdEntries ≤ s.holds.length
      ∧ u = State.modCtx { s with holds := s.holds ++ [{ line := l, owner := c, state := .journaling }] } c
        (fun x => { x with holdsCount := x.holdsCount + 1 }) := by
  unfold State.insertHold at h
  split at h
  · cases h
  · split at h
    · cases h
    · rename_i hquota hroom
      exact ⟨hquota, hroom, (InsertResult.inserted.inj h).symm⟩

/-- R19, R21, R26: an OPEN context's entry for a line that has none. -/
theorem State.insertHold_keeps {s u : State} {c : RequesterId} {l : LineAddr} (h : s.insertHold c l = .inserted u)
    (hline : s.hold? l = none) (hopen : (s.ctx c).state = .opened) : s.Keeps u where
  counted hs d := by
    obtain ⟨-, -, rfl⟩ := State.insertHold_inserted h
    have hctx := State.ctx_modCtx { s with holds := s.holds ++ [{ line := l, owner := c, state := .journaling }] } c d
      (fun x => { x with holdsCount := x.holdsCount + 1 })
    rw [hctx, State.modCtx_holds, List.countP_append, (hs d).1]
    by_cases hd : d = c
    · subst hd
      rw [if_pos rfl]
      rw [List.countP_singleton, if_pos (by simp)]
      exact ⟨rfl, fun k => k.elim (fun k => by cases hopen.symm.trans k) (fun k => by cases hopen.symm.trans k)⟩
    · rw [if_neg hd]
      refine ⟨?_, (hs d).2⟩
      rw [List.countP_singleton, if_neg (by simpa using Ne.symm hd)]
      rfl
  bounded hs := by
    obtain ⟨-, hroom, rfl⟩ := State.insertHold_inserted h
    obtain ⟨-, hlines, hrest⟩ := hs
    have hlen : (s.holds ++ [({ line := l, owner := c, state := .journaling } : HoldEntry)]).length ≤ 512 := by
      rw [List.length_append, List.length_singleton]
      exact Nat.lt_of_not_le hroom
    have hnew : l ∉ s.holds.map (fun e => e.line) := by
      rintro hmem
      obtain ⟨e, he, hel⟩ := List.mem_map.1 hmem
      exact List.find?_eq_none.1 hline e he (decide_eq_true hel)
    refine ⟨hlen, ?_, hrest⟩
    rw [State.modCtx_holds, List.map_append]
    exact hlines.append (List.nodup_singleton _) (by simpa using hnew)

/-! ## Requests (chapter 4) -/

theorem State.enqueue_keeps (s : State) (r : RequesterId) (t : Tag) (l : LineAddr) (kind : AccessKind)
    (journaled : Bool) (hfree : (r, t) ∉ s.outstanding) : s.Keeps (s.enqueue r t l kind journaled) := by
  unfold State.enqueue
  split
  · exact .of_footprint rfl
  · rename_i hroom
    dsimp only
    have hplaced := (s.pushForward_keeps { requester := r, tag := t, kind := kind, line := l, journaled := journaled
                                           forgotten := false, issued := none } hroom).trans
      (State.takeTag_keeps _ r t hfree)
    split
    · exact hplaced
    · exact hplaced.then_same (State.footprint_modCtx _ r _ rfl)

theorem State.footprint_clearWait_respond (s : State) (r : RequesterId) (t : Tag) (code : ResponseCode)
    (detail : ResponseDetail) (data : Option Line) :
    ((s.clearWait r).respond r t code detail data).footprint = s.footprint :=
  s.footprint_modCtx r (fun x => { x with wait := none }) rfl

/-- R67, R71: a first write. -/
theorem State.startOperation_keeps (s : State) (r : RequesterId) (t : Tag) (l : LineAddr) (mask : ByteMask) (d : Line)
    (hfree : (r, t) ∉ s.outstanding) (hline : s.hold? l = none) (hopen : (s.ctx r).state = .opened) :
    s.Keeps (s.startOperation r t l mask d) := by
  unfold State.startOperation
  split
  · exact .of_footprint rfl
  · rename_i hroom
    split
    · exact (s.abortRequest_lessens r _).keeps.then_same (State.footprint_clearWait_respond _ r t _ _ _)
    · rename_i u hu
      have hinserted := State.insertHold_keeps hu hline hopen
      obtain ⟨-, -, rfl⟩ := State.insertHold_inserted hu
      exact ((hinserted.trans (State.pushOp_keeps _ _ hroom)).trans (State.takeTag_keeps _ r t hfree)).then_same
        (State.footprint_modCtx _ r _ rfl)

theorem State.journaledWrite_keeps (s : State) (r : RequesterId) (t : Tag) (l : LineAddr) (mask : ByteMask) (d : Line)
    (hfree : (r, t) ∉ s.outstanding) : s.Keeps (s.journaledWrite r t l mask d) := by
  unfold State.journaledWrite
  split
  · rename_i hopen
    split
    · rename_i hline
      exact s.startOperation_keeps r t l mask d hfree hline hopen
    · split
      · exact .of_footprint rfl
      · exact (s.enqueue_keeps r t l _ true hfree).then_same (State.footprint_modCtx _ r _ rfl)
  · exact .of_footprint rfl
  · exact .of_footprint (s.footprint_clearWait_respond r t _ _ _)
  · exact .of_footprint (s.footprint_clearWait_respond r t _ _ _)
  · exact .of_footprint (s.footprint_clearWait_respond r t _ _ _)
  · exact s.enqueue_keeps r t l _ false hfree

theorem State.footprint_updateWait (s : State) (r : RequesterId) (l : LineAddr) (holder : RequesterId) :
    (s.updateWait r l holder).footprint = s.footprint :=
  s.footprint_modCtx r _ (by split <;> rfl)

theorem State.dataWrite_keeps (s : State) (r : RequesterId) (t : Tag) (l : LineAddr) (mask : ByteMask) (d : Line)
    (hfree : (r, t) ∉ s.outstanding) : s.Keeps (s.dataWrite r t l mask d) := by
  unfold State.dataWrite
  split
  · exact .of_footprint rfl
  · split
    · exact .of_footprint (s.footprint_updateWait r l _)
    · split
      · exact s.journaledWrite_keeps r t l mask d hfree
      · exact s.enqueue_keeps r t l _ false hfree

theorem State.faultedWrite_keeps (s : State) (r : RequesterId) (t : Tag) (l : LineAddr) (mask : ByteMask) (d : Line)
    (hfree : (r, t) ∉ s.outstanding) : s.Keeps (s.faultedWrite r t l mask d) := by
  unfold State.faultedWrite
  split
  · exact .of_footprint (s.footprint_clearWait_respond r t _ _ _)
  · split
    · exact .of_footprint rfl
    · exact s.enqueue_keeps r t l _ false hfree

/-! ## Control lines (chapters 6 and 7) -/

theorem State.footprint_answerLine (s : State) (r : RequesterId) (t : Tag) (code : ResponseCode)
    (detail : ResponseDetail) (outcome : ControlOutcome) :
    (s.answerLine r t code detail outcome).footprint = s.footprint :=
  s.footprint_modCtx r (fun x => { x with lastOutcome := outcome }) rfl

/-- A control line refused at once (R14). -/
theorem State.refuseLine_keeps (s : State) (r : RequesterId) (t : Tag) (outcome : ControlOutcome) :
    s.Keeps (s.refuseLine r t outcome) :=
  .of_footprint (s.footprint_answerLine r t _ _ outcome)

theorem State.acceptLine_keeps (s : State) (r : RequesterId) (t : Tag) (outcome : ControlOutcome) :
    s.Keeps (s.acceptLine r t outcome) :=
  .of_footprint (s.footprint_answerLine r t _ _ outcome)

theorem State.footprint_openCounter (s : State) (n : Serial) :
    ({ s with openCounter := n } : State).footprint = s.footprint := rfl

/-- R4: an IDLE context owns no entry, so its holds count opens at what it was. -/
theorem State.takeOpen_keeps (s : State) (r : RequesterId) (t : Tag) (label : Word64) :
    s.Keeps (s.takeOpen r t label) := by
  unfold State.takeOpen
  split
  · rename_i hidle
    refine State.Keeps.then_same ?_ (State.footprint_answerLine _ r t _ _ _)
    refine State.Keeps.then_same ?_ (State.footprint_openCounter _ _)
    refine (State.modCtx_lessens s r _ (fun hs => ⟨?_, fun k => ?_⟩)).keeps
    · exact ((hs r).2 (Or.inl hidle)).symm
    · exact Or.inl hidle
  · exact s.refuseLine_keeps r t _
  · exact s.refuseLine_keeps r t _
  · exact .of_footprint rfl
  · exact .of_footprint rfl
  · exact s.refuseLine_keeps r t _

theorem State.takeCommit_keeps (s : State) (r : RequesterId) (t : Tag) (hfree : (r, t) ∉ s.outstanding) :
    s.Keeps (s.takeCommit r t) := by
  unfold State.takeCommit
  split
  · exact s.refuseLine_keeps r t _
  · rename_i hopen
    have hheld : s.Keeps (s.modCtx r (fun x => { x with state := .committing, held := x.held ++ [t] })) :=
      .of_footprint (s.footprint_modCtx r _ (by simp [Context.holdView, Context.holdless, hopen]))
    have htaken := hheld.trans (State.takeTag_keeps _ r t hfree)
    dsimp only
    split
    · exact htaken.then_same rfl
    · exact htaken
  · exact s.refuseLine_keeps r t _
  · exact s.refuseLine_keeps r t _
  · exact s.refuseLine_keeps r t _
  · exact s.refuseLine_keeps r t _

theorem State.takeAbort_keeps (s : State) (r : RequesterId) (t : Tag) (hfree : (r, t) ∉ s.outstanding) :
    s.Keeps (s.takeAbort r t) := by
  have hjoin : s.Keeps (s.joinAbort r t) :=
    (State.takeTag_keeps (s.modCtx r _) r t hfree).after_same (s.footprint_modCtx r _ rfl)
  unfold State.takeAbort
  split
  · exact s.refuseLine_keeps r t _
  · have habort := s.abortRequest_lessens r .requested
    exact (habort.keeps.then_same (State.footprint_modCtx _ r _ rfl)).trans
      (State.takeTag_keeps _ r t (fun h => hfree (habort.outstanding.subset h)))
  · exact s.refuseLine_keeps r t _
  · exact hjoin
  · exact hjoin
  · exact s.refuseLine_keeps r t _

theorem State.takeQuery_keeps (s : State) (r : RequesterId) (t : Tag) (l : LineAddr) :
    s.Keeps (s.takeQuery r t l) :=
  (State.acceptLine_keeps _ r t .done).after_same (s.footprint_modCtx r _ rfl)

/-- R13: an acknowledged context goes from ABORTED to IDLE, and owns no entry in either. -/
theorem State.takeAcknowledge_keeps (s : State) (r : RequesterId) (t : Tag) : s.Keeps (s.takeAcknowledge r t) := by
  unfold State.takeAcknowledge
  split
  iterate 5 exact s.acceptLine_keeps r t _
  · rename_i haborted
    exact ((State.acceptLine_keeps _ r t .done).after_same
      (s.footprint_modCtx r _ (by simp [Context.holdView, Context.holdless, haborted]))).then_same rfl

theorem State.takeCommand_keeps (s : State) (r : RequesterId) (t : Tag) (l : LineAddr) (label : Word64) (c : Command)
    (hfree : (r, t) ∉ s.outstanding) : s.Keeps (s.takeCommand r t l label c) := by
  cases c with
  | openTransaction => exact s.takeOpen_keeps r t label
  | commit => exact s.takeCommit_keeps r t hfree
  | abort => exact s.takeAbort_keeps r t hfree
  | query => exact s.takeQuery_keeps r t l
  | acknowledge => exact s.takeAcknowledge_keeps r t

theorem State.takeFaulted_keeps (s : State) (r : RequesterId) (t : Tag) (l : LineAddr) (c : Command) :
    s.Keeps (s.takeFaulted r t l c) := by
  unfold State.takeFaulted
  split
  · exact s.takeQuery_keeps r t l
  all_goals exact s.refuseLine_keeps r t _

theorem State.controlLine_keeps (s : State) (r : RequesterId) (t : Tag) (l : LineAddr) (d : Line)
    (hfree : (r, t) ∉ s.outstanding) : s.Keeps (s.controlLine r t l d) := by
  unfold State.controlLine State.takeMatched
  split
  · exact s.refuseLine_keeps r t _
  · split
    · split
      · exact s.refuseLine_keeps r t _
      · split
        · exact s.refuseLine_keeps r t _
        · split
          · exact s.takeFaulted_keeps r t l _
          · exact s.takeCommand_keeps r t l _ _ hfree
    · exact (State.refuseLine_keeps _ r t _).after_same rfl

/-! ## Arrivals -/

theorem State.classifyWrite_keeps (s : State) (take : Bool) (r : RequesterId) (t : Tag) (l : LineAddr)
    (mask : ByteMask) (d : Line) : s.Keeps (s.classifyWrite take r t l mask d) := by
  unfold State.classifyWrite
  split
  · exact .of_footprint rfl
  · rename_i htag
    have hfree : (r, t) ∉ s.outstanding := by simpa using htag
    split
    · exact .of_footprint (s.footprint_clearWait_respond r t _ _ _)
    · split
      · exact .of_footprint (s.footprint_clearWait_respond r t _ _ _)
      · split
        · split
          · exact s.controlLine_keeps r t l d hfree
          · exact (s.takeTag_keeps r t hfree).then_same rfl
        · split
          · exact s.faultedWrite_keeps r t l mask d hfree
          · exact s.dataWrite_keeps r t l mask d hfree

theorem State.classifyRead_keeps (s : State) (r : RequesterId) (t : Tag) (l : LineAddr) :
    s.Keeps (s.classifyRead r t l) := by
  unfold State.classifyRead
  split
  · exact .of_footprint rfl
  · rename_i htag
    split
    · exact .of_footprint rfl
    · split
      · exact .of_footprint (s.footprint_modCtx r (fun x => { x with arming := none }) rfl)
      · split
        · exact .of_footprint rfl
        · exact s.enqueue_keeps r t l .read false (by simpa using htag)

theorem State.handleRead_keeps (s : State) (r : RequesterId) (t : Tag) (l : LineAddr) :
    s.Keeps (s.handleRead r t l) := by
  unfold State.handleRead
  split
  · exact .refl s
  · split
    · exact .of_footprint rfl
    · split
      · split
        · exact .of_footprint rfl
        · rename_i htag
          exact s.enqueue_keeps r t l .read false (by simpa using htag)
      · exact s.classifyRead_keeps r t l

theorem State.handleWrite_keeps (s : State) (take : Bool) (r : RequesterId) (t : Tag) (l : LineAddr) (mask : ByteMask)
    (d : Line) : s.Keeps (s.handleWrite take r t l mask d) := by
  unfold State.handleWrite
  split
  · exact .refl s
  · split
    · exact .of_footprint rfl
    · split
      · split
        · exact .of_footprint rfl
        · rename_i htag
          split
          · exact .of_footprint (s.footprint_clearWait_respond r t _ _ _)
          · exact s.enqueue_keeps r t l _ false (by simpa using htag)
      · exact s.classifyWrite_keeps take r t l mask d

/-- R107: the entry of a waiting line leaves the table before its command is taken. -/
theorem State.unlist_lessens (s : State) (w : WaitingLine) : s.Lessens { s with
    classified := s.classified.erase w
    outstanding := s.outstanding.filter (fun e => decide (e ≠ (w.requester, w.tag))) } where
  counted hs := hs
  lines := .refl _
  forward := le_rfl
  ops := le_rfl
  outstanding := List.filter_sublist
  claimants _ := le_rfl

theorem State.takeWaiting_keeps (s : State) (w : WaitingLine) : s.Keeps (s.takeWaiting w) := by
  unfold State.takeWaiting
  split
  · exact (s.unlist_lessens w).keeps.trans (State.controlLine_keeps _ w.requester w.tag w.line w.data (by simp))
  · exact .refl s

theorem State.handleLine_keeps (s : State) (r : RequesterId) (t : Tag) (l : LineAddr) (d : Line) :
    s.Keeps (s.handleLine r t l d) := by
  unfold State.handleLine
  dsimp only
  split
  · exact s.takeWaiting_keeps _
  · exact s.handleWrite_keeps true r t l fullMask d

/-! ## Grants (R127) -/

/-- R128, R129, R130: what a claimant puts forward is its own. -/
theorem State.claim_claimant {s : State} {c : Claimant} {a : Claim} (h : s.claim c = some a) :
    a.purpose.claimant = some c := by
  cases c with
  | forward =>
    obtain ⟨e, -, rfl⟩ := Option.map_eq_some_iff.1 (show s.forwardClaim = some a from h)
    rfl
  | journal =>
    have hjournal : s.operationClaim = some a ∨ s.recordClaim = some a ∨ s.oldReadClaim = some a := by
      simp only [State.claim] at h
      split at h
      · cases h
      · rcases Option.or_eq_some_iff.1 h with h | ⟨-, h⟩
        · exact Or.inl h
        · exact Or.inr ((Option.or_eq_some_iff.1 h).imp id And.right)
    rcases hjournal with h | h | h
    · obtain ⟨l, -, hl⟩ := List.exists_of_findSome?_eq_some h
      obtain ⟨o, -, rfl⟩ := Option.map_eq_some_iff.1 hl
      rfl
    · obtain ⟨r, -, hr⟩ := List.exists_of_findSome?_eq_some h
      obtain ⟨half, -, rfl⟩ := Option.map_eq_some_iff.1 hr
      rfl
    · obtain ⟨o, -, rfl⟩ := Option.map_eq_some_iff.1 h
      rfl
  | rollback =>
    simp only [State.claim, State.rollbackClaim] at h
    split at h
    · split at h
      · cases h; rfl
      · obtain ⟨r, -, rfl⟩ := Option.map_eq_some_iff.1 h
        rfl
    · cases h
  | header =>
    simp only [State.claim, State.headerClaim] at h
    split at h
    · cases h
    · split at h
      · cases h
      · split at h
        · split at h <;> cases h
          rfl
        · cases h; rfl
        · cases h
        · cases h

theorem length_modifyFirst {α : Type} (p : α → Bool) (f : α → α) (l : List α) :
    (modifyFirst p f l).length = l.length := by
  induction l with
  | nil => rfl
  | cons a rest ih =>
    unfold modifyFirst
    split
    · rfl
    · rw [List.length_cons, List.length_cons, ih]

theorem State.footprint_markIssued (s : State) (k : AccessSlot) (a : Claim) :
    (s.markIssued k a).footprint = s.footprint := by
  unfold State.markIssued
  split
  case h_1 =>
    unfold State.footprint
    rw [length_modifyFirst]
    rfl
  case h_2 => exact s.footprint_modOp a.line (fun o => { o with access := some k })
  case h_3 => exact s.footprint_modOp a.line (fun o => { o with access := some k })
  all_goals rfl

/-- R127: an access put in a free slot for a claimant below its share. -/
theorem State.putAccess_keeps (s : State) (k : AccessSlot) (c : Claimant) (p : Purpose) (l : LineAddr)
    (kind : AccessKind) (hfree : s.access k = none) (hmine : p.claimant = some c)
    (hshare : s.claimantCount c < c.share) : s.Keeps (s.putAccess k p l kind) where
  counted hs := hs
  bounded hs := by
    obtain ⟨hholds, hlines, hforward, hops, hnodup, houtstanding, hclaimants⟩ := hs
    refine ⟨hholds, hlines, hforward, hops, hnodup, houtstanding, fun b => ?_⟩
    have hcount := claimantsOf_set s.link k (some { purpose := p, line := l, kind := kind, order := s.issued }) b
    rw [show s.link[k] = none from hfree] at hcount
    have hb := hclaimants b
    rw [State.claimantCount_eq] at hb hshare ⊢
    rw [show (s.putAccess k p l kind).link = s.link.set k (some { purpose := p, line := l, kind := kind
                                                                  order := s.issued }) from rfl]
    by_cases hbc : c = b
    · subst hbc
      simp [hmine] at hcount
      omega
    · simp [hmine, hbc] at hcount
      omega

theorem State.grant_keeps (s : State) (k : AccessSlot) (c : Claimant) (hfree : s.access k = none)
    (heligible : s.eligible c = true) : s.Keeps (s.grant k c) := by
  unfold State.eligible at heligible
  rw [Bool.and_eq_true, decide_eq_true_eq] at heligible
  unfold State.grant
  split
  · rename_i a ha
    have hissued := (s.putAccess_keeps k c a.purpose a.line a.kind hfree (State.claim_claimant ha)
      heligible.2).then_same (State.footprint_markIssued _ k a)
    exact hissued.then_same rfl
  · exact .refl s

/-! ## Every command -/

/-- An outcome whose next state, if it has one, keeps both invariants. -/
def State.KeepsTo (s : State) (o : Result) : Prop := ∀ t, o = .next t → s.Keeps t

theorem State.Keeps.next {s t : State} (h : s.Keeps t) : s.KeepsTo (.next t) := by
  intro u hu
  cases hu
  exact h

theorem State.KeepsTo.of_footprint {s t : State} (h : t.footprint = s.footprint) : s.KeepsTo (.next t) :=
  (State.Keeps.of_footprint h).next

theorem State.KeepsTo.refl (s : State) : s.KeepsTo (.next s) := .of_footprint rfl

theorem execPorstNAssert_keepsTo (s : State) : s.KeepsTo (execPorstNAssert s) := by
  refine State.Keeps.next ?_
  split
  · exact .refl s
  · exact (s.powerOnValues_lessens true).keeps.then_same rfl

theorem execPorstNDeassert_keepsTo (s : State) : s.KeepsTo (execPorstNDeassert s) := by
  have hreset := (s.powerOnValues_lessens false).keeps
  refine State.Keeps.next ?_
  dsimp only
  generalize s.powerOnValues false = u at hreset
  split
  · split
    · exact hreset.then_same u.footprint_takePowerFail
    · exact hreset
  · exact .refl s

theorem execLinkReset_keepsTo (s : State) : s.KeepsTo (execLinkReset s) := by
  refine State.Keeps.next ?_
  split
  · exact .refl s
  · dsimp only
    split
    · exact .of_footprint rfl
    · exact State.Lessens.keeps (.after_same (State.takeLinkReset_lessens _) rfl)

theorem execPfailNAssert_keepsTo (s : State) : s.KeepsTo (execPfailNAssert s) := by
  refine State.Keeps.next ?_
  split
  · exact .refl s
  · dsimp only
    split
    · exact .of_footprint rfl
    · exact .of_footprint (State.footprint_takePowerFail _)

theorem execConflictTimerExpiry_keepsTo (waiter : RequesterId) (s : State) :
    s.KeepsTo (execConflictTimerExpiry waiter s) := by
  unfold execConflictTimerExpiry
  split
  · split
    · exact (s.conflictExpiry_lessens waiter _).keeps.next
    · exact .refl s
  · exact .refl s

theorem execLockoutExpiry_keepsTo (s : State) : s.KeepsTo (execLockoutExpiry s) := by
  unfold execLockoutExpiry
  split
  · split <;> exact .of_footprint rfl
  · exact .refl s

theorem execLoadPauseEnd_keepsTo (s : State) : s.KeepsTo (execLoadPauseEnd s) := by
  unfold execLoadPauseEnd
  split
  · split <;> exact .of_footprint rfl
  · exact .refl s
  · exact .refl s

theorem execConfigurationTransferEnd_keepsTo (sampled : SampledBits) (s : State) :
    s.KeepsTo (execConfigurationTransferEnd sampled s) := by
  unfold execConfigurationTransferEnd
  split
  · split
    · exact .of_footprint (State.footprint_pump _)
    · exact s.loadFailure_lessens.keeps.next
  · exact .refl s
  · exact .refl s

theorem execArbiterGrant_keepsTo (k : AccessSlot) (s : State) : s.KeepsTo (execArbiterGrant k s) := by
  unfold execArbiterGrant
  split
  · rename_i hruns
    rw [Bool.and_eq_true, Option.isNone_iff_eq_none] at hruns
    split
    · rename_i c hc
      exact (s.grant_keeps k c hruns.2 (List.find?_some hc)).next
    · exact .refl s
  · exact .refl s

theorem execUndoSlotRequest_keepsTo (l : LineAddr) (s : State) : s.KeepsTo (execUndoSlotRequest l s) := by
  unfold execUndoSlotRequest
  split
  · split
    · exact (s.undoRequest_lessens _).keeps.next
    · exact .refl s
  · exact .refl s

theorem execEndRecordRequest_keepsTo (c : RequesterId) (s : State) : s.KeepsTo (execEndRecordRequest c s) := by
  unfold execEndRecordRequest
  split
  · split
    · exact (s.takeEndRequest_lessens _).keeps.next
    · exact .refl s
  · exact .refl s

theorem execCommitRecordAsk_keepsTo (c : RequesterId) (s : State) : s.KeepsTo (execCommitRecordAsk c s) := by
  unfold execCommitRecordAsk
  split <;> exact .of_footprint rfl

theorem execRollbackQueueAppend_keepsTo (c : RequesterId) (s : State) : s.KeepsTo (execRollbackQueueAppend c s) := by
  unfold execRollbackQueueAppend
  split
  · split <;> exact .of_footprint rfl
  · exact .refl s

theorem execRollbackTakeContext_keepsTo (s : State) : s.KeepsTo (execRollbackTakeContext s) := by
  unfold execRollbackTakeContext
  split
  · split
    · exact (s.takeContext_lessens _ _).keeps.next
    · exact .refl s
  · exact .refl s

theorem execAbortRecordAsk_keepsTo (s : State) : s.KeepsTo (execAbortRecordAsk s) := by
  unfold execAbortRecordAsk
  split
  · split <;> exact .of_footprint rfl
  · exact .refl s

theorem execTimebaseAdvance_keepsTo (s : State) : s.KeepsTo (execTimebaseAdvance s) := by
  unfold execTimebaseAdvance
  split <;> exact .of_footprint rfl

/-- A completion keeps both invariants where its delivery takes nothing on. -/
theorem State.complete_keepsTo (s : State) (k : AccessSlot) (mine : Purpose → Bool) (deliver : Access → State → State)
    (hdeliver : ∀ a (t : State), t.Lessens (deliver a t)) : s.KeepsTo (.next (s.complete k mine deliver)) :=
  (s.complete_lessens k mine deliver hdeliver).keeps.next

/-- Every command keeps both invariants. -/
theorem exec_keepsTo (i : Instr) (s : State) : s.KeepsTo (exec i s) := by
  cases i with
  | porstNAssert => exact execPorstNAssert_keepsTo s
  | porstNDeassert => exact execPorstNDeassert_keepsTo s
  | linkReset => exact execLinkReset_keepsTo s
  | lrstNDeassert => exact .of_footprint (State.footprint_drainTest _)
  | pfailNAssert => exact execPfailNAssert_keepsTo s
  | pfailNDeassert => exact .of_footprint rfl
  | readRequest r t l => exact (s.handleRead_keeps r t l).next
  | writeRequest r t l m d => exact (s.handleWrite_keeps false r t l m d).next
  | queryRead r t l => exact (s.handleRead_keeps r t l).next
  | openTransaction r t l f => exact (s.handleLine_keeps r t l _).next
  | commit r t l f => exact (s.handleLine_keeps r t l _).next
  | abort r t l f => exact (s.handleLine_keeps r t l _).next
  | query r t l f => exact (s.handleLine_keeps r t l _).next
  | acknowledge r t l f => exact (s.handleLine_keeps r t l _).next
  | controlLineUnknownCommand r t l c f => exact (s.handleLine_keeps r t l _).next
  | conflictTimerExpiry w => exact execConflictTimerExpiry_keepsTo w s
  | lockoutExpiry => exact execLockoutExpiry_keepsTo s
  | loadPauseEnd => exact execLoadPauseEnd_keepsTo s
  | configurationTransferEnd b => exact execConfigurationTransferEnd_keepsTo b s
  | forwardAccessComplete k r => exact s.complete_keepsTo k _ _ (State.forwardComplete_lessens k r)
  | oldLineReadComplete k r => exact s.complete_keepsTo k _ _ (State.oldLineReadDelivered_lessens r)
  | recordWriteComplete k r => exact s.complete_keepsTo k _ _ (State.recordWritten_lessens r)
  | operationForwardedWriteComplete k r => exact s.complete_keepsTo k _ _ (State.operationWrittenDelivered_lessens r)
  | headerWriteComplete k r => exact s.complete_keepsTo k _ _ (State.headerWritten_lessens r)
  | rollbackReadComplete k r => exact s.complete_keepsTo k _ _ (State.rollbackRead_lessens r)
  | restoreWriteComplete k r => exact s.complete_keepsTo k _ _ (State.restored_lessens r)
  | recoveryHeaderReadComplete k r => exact s.complete_keepsTo k _ _ (State.headerRead_lessens r)
  | zeroingWriteComplete k r => exact s.complete_keepsTo k _ _ (State.zeroed_lessens r)
  | formatHeaderWriteComplete k r => exact s.complete_keepsTo k _ _ (State.formatHeaderWritten_lessens r)
  | forwardWalkReadComplete k r => exact s.complete_keepsTo k _ _ (State.walkRead_lessens r)
  | undoPassReadComplete k r => exact s.complete_keepsTo k _ _ (State.undoSlotRead_lessens r)
  | recoveryRestoreComplete k r => exact s.complete_keepsTo k _ _ (State.recoveryRestored_lessens r)
  | reinitHeaderWriteComplete k r => exact s.complete_keepsTo k _ _ (State.reinitWritten_lessens r)
  | memoryResponseUnknownSlot k r => exact .refl s
  | arbiterGrant k => exact execArbiterGrant_keepsTo k s
  | undoSlotRequest l => exact execUndoSlotRequest_keepsTo l s
  | endRecordRequest c => exact execEndRecordRequest_keepsTo c s
  | commitRecordAsk c => exact execCommitRecordAsk_keepsTo c s
  | rollbackQueueAppend c => exact execRollbackQueueAppend_keepsTo c s
  | rollbackTakeContext => exact execRollbackTakeContext_keepsTo s
  | abortRecordAsk => exact execAbortRecordAsk_keepsTo s
  | timebaseAdvance => exact execTimebaseAdvance_keepsTo s

/-- Every step keeps both invariants: one on an empty queue idles, and any other runs a command. -/
theorem step_keeps {s t : State} (h : step s = .next t) : s.Keeps t := by
  unfold step at h
  split at h
  · cases h
    exact .refl s
  · exact (exec_keepsTo _ _ t h).after_same rfl

/-- Settles O55: no step takes the holds counts out of step with the Line Hold Table. -/
theorem holdsCountsStayInStep : Obligations.HoldsCountsStayInStep :=
  fun _ _ hs hstep => (step_keeps hstep).counted hs

/-- Settles O56: a table takes an entry only where it has room, and a claimant a slot only below its share. -/
theorem tablesStayBounded : Obligations.TablesStayBounded :=
  fun _ _ hs hstep => (step_keeps hstep).bounded hs

end Sys2Proof.Machine

/-! PROOFS. Family 02_the_line_hold_table: a first write, and a write to a line that another context holds (R21, R27,
R67). -/

namespace Sys2Proof.Machine

/-! ## Changes that change nothing -/

theorem State.setCtx_ctx (s : State) (c : RequesterId) : s.setCtx c (s.ctx c) = s := by
  unfold State.setCtx State.ctx
  rw [Fin.getElem_fin, Vector.set_getElem_self]

theorem State.modCtx_fixed (s : State) (c : RequesterId) (f : Context → Context) (h : f (s.ctx c) = s.ctx c) :
    s.modCtx c f = s := by
  rw [State.modCtx, h, State.setCtx_ctx]

/-- R28: clearing a wait record that is absent. -/
theorem State.clearWait_absent (s : State) (r : RequesterId) (h : (s.ctx r).wait = none) : s.clearWait r = s := by
  refine s.modCtx_fixed r _ ?_
  rw [← h]

/-! ## A data write in SERVING (Table 4-2) -/

/-- R61: in SERVING requests are examined. -/
theorem State.notReady_serving {s : State} (hserving : s.runsIn .serving) : s.notReady = false := by
  unfold State.notReady
  rw [hserving.2.1, hserving.2.2]
  decide

/-- Steps 1 to 4 of Table 4-2 pass a data write on. -/
theorem exec_writeRequest_data {s : State} {r : RequesterId} {tag : Tag} {l : LineAddr} {mask : ByteMask} {d : Line}
    (hserving : s.runsIn .serving) (hdata : s.isDataWrite r tag l mask d) :
    exec (.writeRequest r tag l mask d) s = .next (s.dataWrite r tag l mask d) := by
  obtain ⟨⟨hfree, harea⟩, hmask, hdataLine⟩ := hdata
  have hhandle : s.handleWrite false r tag l mask d = s.classifyWrite false r tag l mask d := by
    unfold State.handleWrite
    rw [if_neg (by simp [hserving.1]), if_neg (by simp [State.notReady_serving hserving]),
      if_neg (by simp [hserving.2.2])]
  have hclassify : s.classifyWrite false r tag l mask d = s.dataWrite r tag l mask d := by
    unfold State.classifyWrite
    rw [if_neg (by simpa using hfree), if_neg (by simp [harea]), if_neg hmask, if_neg (by simp [hdataLine]),
      if_neg (by simp [hserving.2.2])]
  exact congrArg Host.Outcome.next (hhandle.trans hclassify)

/-! ## RETRY CONFLICT (R66, R27) -/

theorem State.dataWrite_conflict {s : State} {r : RequesterId} {tag : Tag} {l : LineAddr} {mask : ByteMask} {d : Line}
    {e : HoldEntry} (hpending : s.pendingWrite l = false) (hline : s.hold? l = some e) (hheld : e.state = .held)
    (howner : e.owner ≠ r) :
    s.dataWrite r tag l mask d = (s.updateWait r l e.owner).respond r tag .retry .conflict := by
  have hquiet : s.lineJournaling l = false := by
    unfold State.lineJournaling
    rw [hline, Option.any_some, hheld]
    decide
  have hother : s.heldByOther r l = some e.owner := by
    unfold State.heldByOther
    rw [hline]
    exact if_pos ⟨hheld, howner⟩
  unfold State.dataWrite
  rw [hquiet, hpending, hother]
  rfl

/-- R27: a wait record that names the line is kept. -/
theorem State.updateWait_kept {s : State} {r : RequesterId} {l : LineAddr} {holder : RequesterId} {w : WaitRecord}
    (hwait : (s.ctx r).wait = some w) (hline : w.line = l) : s.updateWait r l holder = s := by
  refine s.modCtx_fixed r _ (if_pos ?_)
  rw [hwait, Option.any_some]
  exact decide_eq_true hline

/-- R27: any other is replaced. -/
theorem State.updateWait_set {s : State} {r : RequesterId} {l : LineAddr} (holder : RequesterId)
    (hwait : ∀ w, (s.ctx r).wait = some w → w.line ≠ l) :
    s.updateWait r l holder = { s with contexts := s.contexts.set r { s.ctx r with
      wait := some { line := l, holder := holder, start := s.timebase } } } := by
  have hnot : ¬ (s.ctx r).wait.any (fun w => decide (w.line = l)) = true := by
    rw [Option.any_eq_true]
    rintro ⟨w, hw, hl⟩
    exact hwait w hw (of_decide_eq_true hl)
  exact congrArg (s.setCtx r) (if_neg hnot)

/-- Settles O18, by whether the wait record names the line. -/
theorem conflictSetsTheWaitRecord : Obligations.ConflictSetsTheWaitRecord := by
  intro s r tag l mask d e hserving hdata hpending hline hheld howner
  rw [exec_writeRequest_data hserving hdata, State.dataWrite_conflict hpending hline hheld howner]
  refine ⟨fun w hwait hl => ?_, fun hwait => ?_⟩
  · rw [State.updateWait_kept hwait hl]
  · rw [State.updateWait_set e.owner hwait]

/-! ## A first write (R21, R67) -/

theorem State.dataWrite_first {s : State} {r : RequesterId} {tag : Tag} {l : LineAddr} {mask : ByteMask} {d : Line}
    (hrange : s.params.inJournaledRange l = true) (hopen : (s.ctx r).state = .opened) (hline : s.hold? l = none)
    (hpending : s.pendingWrite l = false) : s.dataWrite r tag l mask d = s.startOperation r tag l mask d := by
  have hquiet : s.lineJournaling l = false := by
    unfold State.lineJournaling
    rw [hline]
    rfl
  have hother : s.heldByOther r l = none := by
    unfold State.heldByOther
    rw [hline]
  unfold State.dataWrite
  rw [hquiet, hpending, hother, if_neg (by decide), if_pos hrange]
  unfold State.journaledWrite
  rw [hopen, hline]

/-- R21: what an insertion answers. -/
theorem State.insertHold_quota {s : State} {c : RequesterId} {l : LineAddr}
    (hquota : (s.ctx c).holdsCount = s.params.holdQuota) : s.insertHold c l = .refused .quota :=
  if_pos hquota

theorem State.insertHold_full {s : State} {c : RequesterId} {l : LineAddr}
    (hquota : (s.ctx c).holdsCount ≠ s.params.holdQuota) (hfull : 512 ≤ s.holds.length) :
    s.insertHold c l = .refused .holdTableFull :=
  (if_neg hquota).trans (if_pos hfull)

theorem State.insertHold_taken {s : State} {c : RequesterId} {l : LineAddr}
    (hquota : (s.ctx c).holdsCount ≠ s.params.holdQuota) (hroom : s.holds.length < 512) :
    s.insertHold c l = .inserted { s with
      holds := s.holds ++ [{ line := l, owner := c, state := .journaling }]
      contexts := s.contexts.set c { s.ctx c with holdsCount := (s.ctx c).holdsCount + 1 } } :=
  (if_neg hquota).trans (if_neg (Nat.not_le_of_lt hroom))

theorem State.startOperation_full {s : State} {r : RequesterId} {tag : Tag} {l : LineAddr} {mask : ByteMask} {d : Line}
    (hfull : 16 ≤ s.ops.length) : s.startOperation r tag l mask d = s.respond r tag .retry .queueFull :=
  if_pos hfull

/-- R21, R9: a refused insertion aborts the context, which clears its wait record. -/
theorem State.startOperation_refused {s : State} {r : RequesterId} {tag : Tag} {l : LineAddr} {mask : ByteMask}
    {d : Line} {reason : AbortReason} (hroom : s.ops.length < 16) (hrefused : s.insertHold r l = .refused reason)
    (hopen : (s.ctx r).state = .opened) :
    s.startOperation r tag l mask d = (s.abortRequest r reason).respond r tag .error .aborted := by
  obtain ⟨-, -, -, hwait, -⟩ := s.abortRequest_begun r reason hopen
  unfold State.startOperation
  rw [if_neg (show ¬ Config.opEntries ≤ s.ops.length from Nat.not_le_of_lt hroom), hrefused]
  exact congrArg (fun u : State => u.respond r tag .error .aborted) (State.clearWait_absent _ r hwait)

/-- R67, R71: an insertion made starts the operation. -/
theorem State.startOperation_inserted {s : State} {r : RequesterId} {tag : Tag} {l : LineAddr} {mask : ByteMask}
    {d : Line} (hroom : s.ops.length < 16) (hquota : (s.ctx r).holdsCount ≠ s.params.holdQuota)
    (hholds : s.holds.length < 512) : s.startOperation r tag l mask d = { s with
      holds := s.holds ++ [{ line := l, owner := r, state := .journaling }]
      ops := s.ops ++ [{ requester := r, tag := tag, line := l, mask := mask, data := d, stage := .readingOld
                         slot := none, old := none, cancelled := false, forgotten := false, access := none }]
      outstanding := s.outstanding ++ [(r, tag)]
      contexts := s.contexts.set r { s.ctx r with
        holdsCount := (s.ctx r).holdsCount + 1, opsInFlight := (s.ctx r).opsInFlight + 1, wait := none } } := by
  unfold State.startOperation
  rw [if_neg (show ¬ Config.opEntries ≤ s.ops.length from Nat.not_le_of_lt hroom),
    State.insertHold_taken hquota hholds]
  simp [State.takeTag, State.modCtx, State.setCtx, State.ctx]

/-- R9, R21, R76: a first write whose insertion is refused. -/
theorem State.abortRequest_answersWrite (s : State) (r : RequesterId) (tag : Tag) (reason : AbortReason)
    (hopen : (s.ctx r).state = .opened) :
    let t := (s.abortRequest r reason).respond r tag .error .aborted
    t.abortBegun r reason reason.noticeDue
      ∧ (s.withdrawable r → t = (s.abortBegins r reason reason.noticeDue).respond r tag .error .aborted)
      ∧ t.sent.getLast? = some { requester := r, tag := tag, code := .error, detail := .aborted, data := none }
      ∧ ((∀ o ∈ s.ops, o.requester = r → o.asking = false) → t.holds = s.holds ∧ t.outstanding = s.outstanding
          ∧ (t.ctx r).holdsCount = (s.ctx r).holdsCount) := by
  refine ⟨s.abortRequest_begun r reason hopen, fun hwithdrawable => ?_, List.getLast?_concat, fun hnone => ?_⟩
  · rw [s.abortRequest_eq r reason hopen hwithdrawable]
  · have hcount : ((s.abortRequest r reason).ctx r).holdsCount = (s.ctx r).holdsCount := by
      rw [s.abortRequest_noneAsking r reason hopen hnone, State.ctx_noteDrain, State.ctx_markCancelled,
        State.ctx_modCtx_self]
      rfl
    refine ⟨?_, ?_, hcount⟩
    · show (s.abortRequest r reason).holds = s.holds
      rw [s.abortRequest_noneAsking r reason hopen hnone, State.noteDrain_holds]
      rfl
    · show (s.abortRequest r reason).outstanding = s.outstanding
      rw [s.abortRequest_noneAsking r reason hopen hnone, State.noteDrain_outstanding]
      rfl

/-- Settles O16, by the room in the operation table, the quota and the room in the Line Hold Table. -/
theorem firstWriteInsertsAHold : Obligations.FirstWriteInsertsAHold := by
  intro s r tag l mask d hserving hdata hrange hopen hline hpending
  rw [exec_writeRequest_data hserving hdata, State.dataWrite_first hrange hopen hline hpending]
  refine ⟨fun hfull => ?_, fun hroom hquota => ?_, fun hroom hquota hfull => ?_, fun hroom hquota hholds => ?_⟩
  · rw [State.startOperation_full hfull]
  · rw [State.startOperation_refused hroom (State.insertHold_quota hquota) hopen]
    exact ⟨_, rfl, s.abortRequest_answersWrite r tag .quota hopen⟩
  · rw [State.startOperation_refused hroom (State.insertHold_full hquota hfull) hopen]
    exact ⟨_, rfl, s.abortRequest_answersWrite r tag .holdTableFull hopen⟩
  · rw [State.startOperation_inserted hroom hquota hholds]

end Sys2Proof.Machine

/-! PROOFS. Family 02_the_line_hold_table: the conflict timer and the choice of a victim (R29 to R32, R35). -/

namespace Sys2Proof.Machine

/-! ## When an expiry is taken -/

theorem State.conflictTimersRun_works {s : State} (hworks : s.works) : s.conflictTimersRun = true := by
  unfold State.conflictTimersRun
  rw [State.works_running hworks]
  rcases State.works_state hworks with h | h <;> rw [h] <;> rfl

/-- R29, R35, R161: the device states in which no conflict timer runs. -/
theorem State.conflictTimersRun_stopped {s : State} (h : s.device.state = .faulted ∨ s.device.state = .halted
    ∨ s.device.state = .loading ∨ s.device.state = .recovering ∨ s.device.state = .passthrough
    ∨ s.device.powerFailPending = true) : s.conflictTimersRun = false := by
  unfold State.conflictTimersRun
  rcases h with h | h | h | h | h | h <;> simp [h]

theorem exec_conflictTimerExpiry_due {s : State} {waiter : RequesterId} {w : WaitRecord} (hworks : s.works)
    (hwait : (s.ctx waiter).wait = some w) (hdue : w.start.toNat + s.params.conflictTimeout ≤ s.timebase.toNat) :
    exec (.conflictTimerExpiry waiter) s = .next (s.conflictExpiry waiter w) := by
  show execConflictTimerExpiry waiter s = _
  unfold execConflictTimerExpiry
  rw [hwait]
  refine if_pos ?_
  rw [State.conflictTimersRun_works hworks, Bool.true_and]
  exact decide_eq_true hdue

theorem exec_conflictTimerExpiry_notTaken {s : State} {waiter : RequesterId}
    (h : ∀ w, (s.ctx waiter).wait = some w →
      (s.conflictTimersRun && s.reached (w.start.toNat + s.params.conflictTimeout)) = false) :
    exec (.conflictTimerExpiry waiter) s = .next s := by
  show execConflictTimerExpiry waiter s = _
  unfold execConflictTimerExpiry
  cases hwait : (s.ctx waiter).wait with
  | none => rfl
  | some w => exact if_neg (by rw [h w hwait]; decide)

/-! ## The look-up (R30) -/

theorem State.conflictExpiry_noEntry {s : State} {waiter : RequesterId} {w : WaitRecord} (h : s.hold? w.line = none) :
    s.conflictExpiry waiter w = { s with contexts := s.contexts.set waiter { s.ctx waiter with wait := none } } := by
  unfold State.conflictExpiry
  rw [h]
  rfl

theorem State.conflictExpiry_otherHolder {s : State} {waiter : RequesterId} {w : WaitRecord} {e : HoldEntry}
    (h : s.hold? w.line = some e) (howner : e.owner ≠ w.holder) :
    s.conflictExpiry waiter w = { s with contexts := s.contexts.set waiter { s.ctx waiter with
      wait := some { line := w.line, holder := e.owner, start := s.timebase } } } := by
  unfold State.conflictExpiry
  rw [h]
  exact if_neg howner

theorem State.conflictExpiry_sameHolder {s : State} {waiter : RequesterId} {w : WaitRecord} {e : HoldEntry}
    (h : s.hold? w.line = some e) (howner : e.owner = w.holder) :
    s.conflictExpiry waiter w = s.chooseVictim waiter w.holder := by
  unfold State.conflictExpiry
  rw [h]
  exact if_pos howner

/-! ## The choice of a victim (R31) -/

/-- A waiter that cannot abort or be aborted loses its record. -/
theorem State.chooseVictim_cleared {s : State} {waiter holder : RequesterId}
    (h : (s.ctx waiter).state = .committing ∨ (s.ctx waiter).state = .abortPending
      ∨ (s.ctx waiter).state = .rollingBack ∨ (s.ctx waiter).state = .aborted) :
    s.chooseVictim waiter holder
      = { s with contexts := s.contexts.set waiter { s.ctx waiter with wait := none } } := by
  unfold State.chooseVictim
  rcases h with h | h | h | h <;> rw [h] <;> rfl

/-- A holder that is ending already is waited for again. -/
theorem State.chooseVictim_restarted {s : State} {waiter holder : RequesterId}
    (hwaiter : (s.ctx waiter).state = .idle ∨ (s.ctx waiter).state = .opened)
    (hholder : (s.ctx holder).state = .committing ∨ (s.ctx holder).state = .abortPending
      ∨ (s.ctx holder).state = .rollingBack) : s.chooseVictim waiter holder = s.restartWait waiter := by
  unfold State.chooseVictim
  rcases hwaiter with h | h <;> rcases hholder with k | k | k <;> rw [h, k]

theorem State.chooseVictim_idle {s : State} {waiter holder : RequesterId} (hwaiter : (s.ctx waiter).state = .idle)
    (hholder : (s.ctx holder).state = .opened) : s.chooseVictim waiter holder = s.victimHolder waiter holder := by
  unfold State.chooseVictim
  rw [hwaiter, hholder]

theorem State.chooseVictim_opened {s : State} {waiter holder : RequesterId} {n m : Serial}
    (hwaiter : (s.ctx waiter).state = .opened) (hholder : (s.ctx holder).state = .opened)
    (hn : (s.ctx waiter).openNumber = some n) (hm : (s.ctx holder).openNumber = some m) :
    s.chooseVictim waiter holder
      = if younger waiter n holder m then s.abortRequest waiter .conflict else s.victimHolder waiter holder := by
  unfold State.chooseVictim
  rw [hwaiter, hholder, hn, hm]
  rfl

/-- R3, R31: the younger of two open transactions. -/
theorem younger_iff (a : RequesterId) (n : Serial) (b : RequesterId) (m : Serial) :
    younger a n b m = true ↔ youngerThan a n b m := by
  unfold younger youngerThan Serial.older
  by_cases h : (n - m).toNat = 2 ^ 31
  · rw [if_pos h, decide_eq_true_eq]
    exact ⟨fun k => Or.inr ⟨h, k⟩, fun k => k.elim (fun k => by omega) And.right⟩
  · rw [if_neg h, Bool.and_eq_true, decide_eq_true_eq, decide_eq_true_eq]
    exact ⟨Or.inl, fun k => k.resolve_right (fun k => h k.1)⟩

/-- Of two open transactions at most one is the younger: the distances of their numbers, each way round, sum to 2^32. -/
theorem younger_asymm {a b : RequesterId} {n m : Serial} (h : youngerThan b m a n) : ¬ younger a n b m = true := by
  have hsum : (n - m).toNat + (m - n).toNat = 0 ∨ (n - m).toNat + (m - n).toNat = 2 ^ 32 := by
    have hn := n.isLt
    have hm := m.isLt
    rw [BitVec.toNat_sub, BitVec.toNat_sub]
    omega
  rw [younger_iff]
  rintro (hnear | ⟨hhalf, hba⟩) <;> rcases h with hnear' | ⟨hhalf', hab⟩
  · omega
  · omega
  · omega
  · exact lt_asymm hab hba

/-! ## The victim (R32) -/

theorem State.restartWait_eq {s : State} {c : RequesterId} {w : WaitRecord} {now : Time}
    (hwait : (s.ctx c).wait = some w) (hnow : s.timebase = now) :
    s.restartWait c = { s with contexts := s.contexts.set c { s.ctx c with
      wait := some { w with start := now } } } := by
  subst hnow
  refine congrArg (s.setCtx c) ?_
  dsimp only
  rw [hwait]
  rfl

/-- An abort request leaves what other contexts wait for. -/
theorem State.abortRequest_wait_other {s : State} {c d : RequesterId} (reason : AbortReason)
    (h : (s.ctx c).state = .opened) (hd : d ≠ c) :
    ((s.abortRequest c reason).ctx d).wait = (s.ctx d).wait := by
  rw [s.abortRequest_ctx (·.wait) ⟨fun _ _ => rfl, fun _ _ => rfl⟩ c d reason h, if_neg hd]

/-- R32: the holder is the victim, and the waiter's record restarts. -/
theorem State.victimHolder_spec {s : State} {waiter holder : RequesterId} {w : WaitRecord}
    (hholder : (s.ctx holder).state = .opened) (hne : holder ≠ waiter) (hwait : (s.ctx waiter).wait = some w) :
    (s.victimHolder waiter holder).abortBegun holder .conflict true
      ∧ ((s.victimHolder waiter holder).ctx waiter).wait = some { w with start := s.timebase }
      ∧ ((s.victimHolder waiter holder).ctx waiter).state = (s.ctx waiter).state
      ∧ (s.withdrawable holder → s.victimHolder waiter holder = { s.abortBegins holder .conflict true with
          contexts := (s.abortBegins holder .conflict true).contexts.set waiter
            { (s.abortBegins holder .conflict true).ctx waiter with wait := some { w with start := s.timebase } } }) := by
  have hwait' : ((s.abortRequest holder .conflict).ctx waiter).wait = some w :=
    (State.abortRequest_wait_other .conflict hholder hne.symm).trans hwait
  have heq := State.restartWait_eq hwait' (State.abortRequest_timebase s holder .conflict)
  have hself : (s.victimHolder waiter holder).ctx waiter
      = { (s.abortRequest holder .conflict).ctx waiter with wait := some { w with start := s.timebase } } := by
    unfold State.victimHolder
    rw [heq]
    exact State.ctx_setCtx_self _ waiter _
  have hother : (s.victimHolder waiter holder).ctx holder = (s.abortRequest holder .conflict).ctx holder :=
    State.ctx_modCtx_other _ waiter holder _ hne
  refine ⟨?_, by rw [hself], ?_, fun hwithdrawable => ?_⟩
  · unfold State.abortBegun
    rw [hother]
    exact s.abortRequest_begun holder .conflict hholder
  · rw [hself]
    exact s.abortRequest_other holder waiter .conflict hne.symm
  · have habort : s.abortRequest holder .conflict = s.abortBegins holder .conflict true :=
      s.abortRequest_eq holder .conflict hholder hwithdrawable
    unfold State.victimHolder
    rw [heq, habort]

/-- Settles O30, by the look-up of the line and the states of the waiter and the holder. -/
theorem conflictTimerExpiry : Obligations.ConflictTimerExpiry := by
  refine ⟨fun s waiter w hworks hwait hdue => ?_, fun s waiter w hwait hearly => ?_, fun s waiter hwait => ?_,
    fun s waiter hstopped => ?_⟩
  · rw [exec_conflictTimerExpiry_due hworks hwait hdue]
    refine ⟨fun hline => by rw [State.conflictExpiry_noEntry hline],
      fun e hline howner => by rw [State.conflictExpiry_otherHolder hline howner], fun e hline howner => ?_⟩
    rw [State.conflictExpiry_sameHolder hline howner]
    refine ⟨fun hwaiter => by rw [State.chooseVictim_cleared hwaiter], fun hwaiter hholder => ?_,
      fun hwaiter hholder => ?_, fun n m hwaiter hholder hne hn hm => ⟨fun hyoung => ?_, fun hyoung => ?_⟩⟩
    · rw [State.chooseVictim_restarted hwaiter hholder, State.restartWait_eq hwait rfl]
    · have hne : w.holder ≠ waiter := fun h => by rw [h, hwaiter] at hholder; cases hholder
      obtain ⟨hbegun, hrestart, hstate, hwhole⟩ := State.victimHolder_spec hholder hne hwait
      rw [State.chooseVictim_idle hwaiter hholder]
      exact ⟨_, rfl, hbegun, hrestart, hstate.trans hwaiter, hwhole⟩
    · obtain ⟨hbegun, hrestart, hstate, hwhole⟩ := State.victimHolder_spec hholder hne hwait
      rw [State.chooseVictim_opened hwaiter hholder hn hm, if_neg (younger_asymm hyoung)]
      exact ⟨_, rfl, hbegun, hrestart, hstate.trans hwaiter, hwhole⟩
    · rw [State.chooseVictim_opened hwaiter hholder hn hm, if_pos ((younger_iff _ _ _ _).2 hyoung)]
      exact ⟨_, rfl, s.abortRequest_begun waiter .conflict hwaiter,
        (s.abortRequest_other waiter w.holder .conflict hne).trans hholder,
        fun hwithdrawable => s.abortRequest_eq waiter .conflict hwaiter hwithdrawable⟩
  · refine exec_conflictTimerExpiry_notTaken (fun v hv => ?_)
    obtain rfl : w = v := Option.some.inj (hwait.symm.trans hv)
    rw [Bool.and_eq_false_iff]
    exact Or.inr (decide_eq_false (Nat.not_le_of_lt hearly))
  · exact exec_conflictTimerExpiry_notTaken (fun v hv => by rw [hwait] at hv; cases hv)
  · exact exec_conflictTimerExpiry_notTaken (fun v _ => by rw [State.conflictTimersRun_stopped hstopped]; rfl)

end Sys2Proof.Machine

/-! PROOFS. Family 02_the_line_hold_table: the invariants right after power-on reset (R36, R123, R156). -/

namespace Sys2Proof.Machine

theorem State.reset_ctx (c : RequesterId) : State.reset.ctx c = Context.reset :=
  Vector.getElem_replicate c.isLt

theorem reset_holdsCounted : State.reset.holdsCounted := by
  intro c
  rw [State.reset_ctx]
  exact ⟨rfl, fun _ => rfl⟩

theorem reset_tablesBounded : State.reset.tablesBounded :=
  ⟨by decide, List.nodup_nil, by decide, by decide, List.nodup_nil, by decide, by intro c; cases c <;> decide⟩

theorem reset_keyConsistent : State.reset.keyConsistent := by
  refine ⟨fun e h => ?_, by decide, by decide⟩
  cases h

/-- In LOADING the loader works; the sequencer is idle, and there is no cause and no parameter set yet. -/
theorem reset_deviceConsistent : State.reset.deviceConsistent :=
  ⟨fun _ => ⟨rfl, rfl⟩, fun h => absurd rfl h.1, fun h => (by cases h), fun _ _ => rfl, fun _ => rfl,
    fun h => absurd rfl h⟩

theorem reset_journalContiguous : State.reset.journalContiguous :=
  ⟨rfl, rfl, fun r h => (by cases h)⟩

theorem reset_noticesTracked : State.reset.noticesTracked := by
  refine ⟨⟨fun h => (by cases h), fun ⟨c, h⟩ => ?_⟩, List.nodup_nil, fun c h => (by cases h), List.nodup_nil,
    fun c h => (by cases h), fun h => (by cases h)⟩
  rw [State.reset_ctx] at h
  cases h

/-- Settles O60, invariant by invariant. -/
theorem invariantsHoldAtReset : Obligations.InvariantsHoldAtReset :=
  ⟨reset_holdsCounted, reset_tablesBounded, reset_keyConsistent, reset_deviceConsistent, reset_journalContiguous,
    reset_noticesTracked⟩

end Sys2Proof.Machine

/-! PROOFS. Family 03_the_undo_journal: what the invariant of the assigned records reads of the Journal Writer, and the
operations that leave it alone (R41, R42, R47). -/

namespace Sys2Proof.Machine

/-! ## What the invariant reads -/

/-- All that the invariant reads of the Journal Writer: the assigned records and the two heads. -/
def Journal.ring (j : Journal) : List AssignedRecord × Position × Position := (j.records, j.head, j.durableHead)

/-- The sequences part of the invariant, which the answer of a half keeps while the durable head has yet to move. -/
def Journal.consecutive (j : Journal) : Prop :=
  j.records.map (fun r => r.record.seq) =
      (List.range j.records.length).map (fun i => j.durableHead.seq + BitVec.ofNat 32 i)
    ∧ j.head.seq = j.durableHead.seq + BitVec.ofNat 32 j.records.length

theorem State.journalContiguous_iff (s : State) : s.journalContiguous ↔
    s.journal.consecutive ∧ ∀ r, s.journal.records.head? = some r → r.mark = false :=
  and_assoc.symm

theorem State.journalContiguous_of_ring {s t : State} (h : t.journal.ring = s.journal.ring)
    (hs : s.journalContiguous) : t.journalContiguous := by
  obtain ⟨hrecords, hheads⟩ := Prod.mk.inj h
  obtain ⟨hhead, hdurable⟩ := Prod.mk.inj hheads
  unfold State.journalContiguous
  rwa [hrecords, hhead, hdurable]

/-! ## Requests (chapters 4, 6 and 7) -/

@[simp] theorem State.answerLine_journal (s : State) (r : RequesterId) (t : Tag) (code : ResponseCode)
    (detail : ResponseDetail) (outcome : ControlOutcome) :
    (s.answerLine r t code detail outcome).journal = s.journal := rfl

@[simp] theorem State.refuseLine_journal (s : State) (r : RequesterId) (t : Tag) (outcome : ControlOutcome) :
    (s.refuseLine r t outcome).journal = s.journal := rfl

@[simp] theorem State.acceptLine_journal (s : State) (r : RequesterId) (t : Tag) (outcome : ControlOutcome) :
    (s.acceptLine r t outcome).journal = s.journal := rfl

theorem State.takeOpen_journal (s : State) (r : RequesterId) (t : Tag) (label : Word64) :
    (s.takeOpen r t label).journal = s.journal := by
  unfold State.takeOpen
  split <;> simp

/-- R7, R79: a COMMIT may ask for its record, which assigns nothing yet. -/
theorem State.takeCommit_ring (s : State) (r : RequesterId) (t : Tag) :
    (s.takeCommit r t).journal.ring = s.journal.ring := by
  unfold State.takeCommit
  split
  case h_2 =>
    dsimp only
    split <;> rfl
  all_goals rfl

theorem State.takeAbort_journal (s : State) (r : RequesterId) (t : Tag) : (s.takeAbort r t).journal = s.journal := by
  unfold State.takeAbort State.joinAbort
  split <;> simp

theorem State.takeAcknowledge_journal (s : State) (r : RequesterId) (t : Tag) :
    (s.takeAcknowledge r t).journal = s.journal := by
  unfold State.takeAcknowledge
  split <;> simp

theorem State.takeCommand_ring (s : State) (r : RequesterId) (t : Tag) (l : LineAddr) (label : Word64) (c : Command) :
    (s.takeCommand r t l label c).journal.ring = s.journal.ring := by
  cases c with
  | openTransaction => exact congrArg Journal.ring (s.takeOpen_journal r t label)
  | commit => exact s.takeCommit_ring r t
  | abort => exact congrArg Journal.ring (s.takeAbort_journal r t)
  | query => rfl
  | acknowledge => exact congrArg Journal.ring (s.takeAcknowledge_journal r t)

theorem State.controlLine_ring (s : State) (r : RequesterId) (t : Tag) (l : LineAddr) (d : Line) :
    (s.controlLine r t l d).journal.ring = s.journal.ring := by
  have hfaulted : ∀ c, (s.takeFaulted r t l c).journal.ring = s.journal.ring := fun c => by cases c <;> rfl
  unfold State.controlLine State.takeMatched
  split
  · rfl
  · split
    · split
      · rfl
      · split
        · rfl
        · split
          · exact hfaulted _
          · exact s.takeCommand_ring r t l _ _
    · rfl

@[simp] theorem State.enqueue_journal (s : State) (r : RequesterId) (t : Tag) (l : LineAddr) (kind : AccessKind)
    (journaled : Bool) : (s.enqueue r t l kind journaled).journal = s.journal := by
  unfold State.enqueue
  split
  · rfl
  · dsimp only
    split <;> rfl

theorem State.startOperation_journal (s : State) (r : RequesterId) (t : Tag) (l : LineAddr) (mask : ByteMask)
    (d : Line) : (s.startOperation r t l mask d).journal = s.journal := by
  unfold State.startOperation
  split
  · rfl
  · split
    · simp
    · rename_i u hu
      obtain ⟨-, -, rfl⟩ := State.insertHold_inserted hu
      rfl

theorem State.dataWrite_journal (s : State) (r : RequesterId) (t : Tag) (l : LineAddr) (mask : ByteMask) (d : Line) :
    (s.dataWrite r t l mask d).journal = s.journal := by
  have hjournaled : (s.journaledWrite r t l mask d).journal = s.journal := by
    unfold State.journaledWrite
    split
    · split
      · exact s.startOperation_journal r t l mask d
      · split <;> simp
    all_goals simp
  unfold State.dataWrite
  split
  · rfl
  · split
    · rfl
    · split
      · exact hjournaled
      · simp

theorem State.faultedWrite_journal (s : State) (r : RequesterId) (t : Tag) (l : LineAddr) (mask : ByteMask)
    (d : Line) : (s.faultedWrite r t l mask d).journal = s.journal := by
  unfold State.faultedWrite
  split
  · rfl
  · split <;> simp

theorem State.classifyWrite_ring (s : State) (take : Bool) (r : RequesterId) (t : Tag) (l : LineAddr)
    (mask : ByteMask) (d : Line) : (s.classifyWrite take r t l mask d).journal.ring = s.journal.ring := by
  unfold State.classifyWrite
  split
  · rfl
  · split
    · rfl
    · split
      · rfl
      · split
        · split
          · exact s.controlLine_ring r t l d
          · rfl
        · split
          · exact congrArg Journal.ring (s.faultedWrite_journal r t l mask d)
          · exact congrArg Journal.ring (s.dataWrite_journal r t l mask d)

theorem State.handleRead_journal (s : State) (r : RequesterId) (t : Tag) (l : LineAddr) :
    (s.handleRead r t l).journal = s.journal := by
  have hclassify : (s.classifyRead r t l).journal = s.journal := by
    unfold State.classifyRead State.answerQuery
    split
    · rfl
    · split
      · rfl
      · split
        · rfl
        · split <;> simp
  unfold State.handleRead
  split
  · rfl
  · split
    · rfl
    · split
      · split <;> simp
      · exact hclassify

theorem State.handleWrite_ring (s : State) (take : Bool) (r : RequesterId) (t : Tag) (l : LineAddr) (mask : ByteMask)
    (d : Line) : (s.handleWrite take r t l mask d).journal.ring = s.journal.ring := by
  unfold State.handleWrite
  split
  · rfl
  · split
    · rfl
    · split
      · split
        · rfl
        · split <;> simp
      · exact s.classifyWrite_ring take r t l mask d

theorem State.handleLine_ring (s : State) (r : RequesterId) (t : Tag) (l : LineAddr) (d : Line) :
    (s.handleLine r t l d).journal.ring = s.journal.ring := by
  unfold State.handleLine State.takeWaiting
  dsimp only
  split
  · split
    · exact State.controlLine_ring _ r t l d
    · rfl
  · exact s.handleWrite_ring true r t l fullMask d

/-! ## Pins and timers (chapters 1, 7, 9 and 11) -/

theorem State.takePowerFail_journal (s : State) : s.takePowerFail.journal = s.journal := by
  unfold State.takePowerFail
  split <;> simp

theorem State.conflictExpiry_journal (s : State) (waiter : RequesterId) (w : WaitRecord) :
    (s.conflictExpiry waiter w).journal = s.journal := by
  have hvictim : ∀ holder, (s.victimHolder waiter holder).journal = s.journal :=
    fun holder => s.abortRequest_journal holder .conflict
  have hchoice : ∀ holder, (s.chooseVictim waiter holder).journal = s.journal := by
    intro holder
    unfold State.chooseVictim
    split
    case h_11 => exact hvictim _
    case h_12 => split <;> simp [hvictim]
    all_goals rfl
  unfold State.conflictExpiry
  split
  · rfl
  · split
    · exact hchoice _
    · rfl

theorem State.loadFailure_journal (s : State) : s.loadFailure.journal = s.journal := by
  unfold State.loadFailure
  split <;> simp

/-! ## Forwarding and the journaling operations (4.4, 4.7) -/

theorem State.forwardComplete_journal (k : AccessSlot) (result : ReadResult) (a : Access) (s : State) :
    (State.forwardComplete k result a s).journal = s.journal := by
  have hanswer : ∀ (t : State) e, (t.answerForwarded e result).journal = t.journal := by
    intro t e
    unfold State.answerForwarded
    split <;> rfl
  have hcount : ∀ (t : State) e, (t.forwardedCounted e result).journal = t.journal := by
    intro t e
    unfold State.forwardedCounted
    split
    · dsimp only
      split <;> simp
    · rfl
  unfold State.forwardComplete
  split
  · rfl
  · rw [hcount, hanswer]

theorem State.oldLineReadDelivered_journal (result : ReadResult) (a : Access) (s : State) :
    (State.oldLineReadDelivered result a s).journal = s.journal := by
  unfold State.oldLineReadDelivered State.oldLineRead
  split
  · rfl
  · split
    · simp
    · split <;> simp

theorem State.operationWrittenDelivered_journal (result : WriteResult) (a : Access) (s : State) :
    (State.operationWrittenDelivered result a s).journal = s.journal := by
  unfold State.operationWrittenDelivered State.operationWritten
  split
  · rfl
  · split <;> simp

/-! ## The Header Writer and the Rollback Engine -/

theorem State.headerWritten_ring (result : WriteResult) (a : Access) (s : State) :
    (State.headerWritten result a s).journal.ring = s.journal.ring := by
  have herror : ∀ w, (s.headerError w).journal.ring = s.journal.ring := by
    intro w
    unfold State.headerError
    split
    · simp
    · split <;> simp
  unfold State.headerWritten
  split
  · split
    · split <;> rfl
    · split
      · rfl
      · rfl
      · exact herror _
  · rfl

@[simp] theorem State.claimRestore_journal (s : State) : s.claimRestore.journal = s.journal := by
  unfold State.claimRestore
  split
  · rfl
  · split <;> rfl

theorem State.examineSlot_journal (s : State) (slot : Nat) (v : Place) :
    (s.examineSlot slot v).journal = s.journal := by
  have hafter : ∀ (t : State) c, (t.afterExamine c slot).journal = t.journal := by
    intro t c
    unfold State.afterExamine State.claimRead
    dsimp only
    split
    · split <;> simp
    · simp
  unfold State.examineSlot
  split
  · rfl
  · exact hafter _ _

theorem State.rollbackRead_journal (result : ReadResult) (a : Access) (s : State) :
    (State.rollbackRead result a s).journal = s.journal := by
  have hokay : ∀ rd d, (s.readOkay rd d).journal = s.journal := by
    intro rd d
    unfold State.readOkay
    split
    · rfl
    · exact s.examineSlot_journal _ _
  have herror : ∀ rd, (s.readError rd).journal = s.journal := by
    intro rd
    unfold State.readError
    split <;> simp
  unfold State.rollbackRead
  split
  · rfl
  · split
    · rfl
    · split
      · exact hokay _ _
      · exact herror _

theorem State.restored_journal (result : WriteResult) (a : Access) (s : State) :
    (State.restored result a s).journal = s.journal := by
  have herror : ∀ w, (s.restoreError w).journal = s.journal := by
    intro w
    unfold State.restoreError
    split <;> simp
  unfold State.restored
  split
  · rfl
  · split
    · rfl
    · split
      · simp
      · exact herror _

theorem State.takeContext_ring (s : State) (c : RequesterId) (rest : List RequesterId) :
    (s.takeContext c rest).journal.ring = s.journal.ring := by
  unfold State.takeContext
  dsimp only
  split <;> rfl

/-! ## The Recovery Sequencer (chapter 10) -/

@[simp] theorem State.pump_journal (s : State) : s.pump.journal = s.journal := by rw [State.pump_rest]

@[simp] theorem State.beginWalk_journal (s : State) (c : Chosen) : (s.beginWalk c).journal = s.journal :=
  State.pump_journal _

@[simp] theorem State.beginReinit_journal (s : State) : s.beginReinit.journal = s.journal := State.pump_journal _

theorem State.headerRead_journal (result : ReadResult) (a : Access) (s : State) :
    (State.headerRead result a s).journal = s.journal := by
  have hjudge : ∀ t : State, t.judgeHeaders.journal = t.journal := by
    intro t
    unfold State.judgeHeaders State.noHeader
    split
    · split
      · simp
      · split <;> simp
    · simp
  unfold State.headerRead
  split <;> simp [hjudge]

theorem State.zeroed_journal (result : WriteResult) (a : Access) (s : State) :
    (State.zeroed result a s).journal = s.journal := by
  unfold State.zeroed
  split <;> simp

theorem State.formatHeaderWritten_journal (result : WriteResult) (a : Access) (s : State) :
    (State.formatHeaderWritten result a s).journal = s.journal := by
  unfold State.formatHeaderWritten
  split
  · dsimp only
    split <;> simp
  · simp
  · rfl

theorem State.walkRead_journal (result : ReadResult) (a : Access) (s : State) :
    (State.walkRead result a s).journal = s.journal := by
  have hstop : ∀ (t : State) p, (t.stopWalk p).journal = t.journal := by
    intro t p
    unfold State.stopWalk
    dsimp only
    split <;> simp
  have hon : ∀ (t : State) slot seq table, (t.walkOn slot seq table).journal = t.journal := by
    intro t slot seq table
    unfold State.walkOn
    dsimp only
    split <;> simp [hstop]
  have hexamine : ∀ (t : State) v, (t.examineWalk v).journal = t.journal := by
    intro t v
    unfold State.examineWalk
    dsimp only
    split
    · exact hstop _ _
    · split
      · exact hstop _ _
      · split
        · exact hstop _ _
        · exact hon _ _ _ _
  unfold State.walkRead
  split
  · dsimp only
    split <;> simp [hexamine]
  · simp
  · rfl

theorem State.undoExamine_journal (fuel : Nat) (s : State) : (State.undoExamine fuel s).journal = s.journal := by
  induction fuel generalizing s with
  | zero => rfl
  | succ fuel ih =>
    unfold State.undoExamine
    split
    · rfl
    · split
      · rfl
      · split
        · simp
        · split
          · simp
          · split
            · split
              · rfl
              · exact ih _
            · exact ih _

theorem State.undoGoOn_journal (s : State) : s.undoGoOn.journal = s.journal := by
  unfold State.undoGoOn
  dsimp only
  split
  · split <;> simp [State.undoExamine_journal]
  · exact State.undoExamine_journal _ s

theorem State.undoSlotRead_journal (result : ReadResult) (a : Access) (s : State) :
    (State.undoSlotRead result a s).journal = s.journal := by
  unfold State.undoSlotRead
  split <;> simp [State.undoGoOn_journal]

theorem State.recoveryRestored_journal (result : WriteResult) (a : Access) (s : State) :
    (State.recoveryRestored result a s).journal = s.journal := by
  unfold State.recoveryRestored
  split <;> simp [State.undoGoOn_journal]

end Sys2Proof.Machine

/-! PROOFS. Family 03_the_undo_journal: what moves the assigned records and the two heads, and that every command keeps them
consecutive (R41, R42, R46, R47, R152). -/

namespace Sys2Proof.Machine

/-! ## What moves the ring -/

/-- R42: the head slot's record takes the next sequence, its halves yet to be written. -/
theorem State.grantSlot_contiguous (s : State) (c : RequesterId) (record : JournalRecord)
    (hs : s.journalContiguous) : (s.grantSlot c record).journalContiguous := by
  obtain ⟨hseqs, hhead, hmark⟩ := hs
  refine ⟨?_, ?_, ?_⟩
  · simp only [State.grantSlot, List.map_append, List.map_cons, List.map_nil, List.length_append, List.length_singleton,
      List.range_succ, hseqs, hhead]
  · simp only [State.grantSlot, State.nextPosition, List.length_append, List.length_singleton, BitVec.ofNat_add, hhead]
    rw [BitVec.add_assoc]
    rfl
  · intro r hr
    cases hrecords : s.journal.records with
    | nil =>
      simp only [State.grantSlot, hrecords, List.nil_append, List.head?_cons, Option.some.injEq] at hr
      rw [← hr]
    | cons q rest =>
      simp only [State.grantSlot, hrecords, List.cons_append, List.head?_cons, Option.some.injEq] at hr
      exact hmark r (by rw [hrecords, ← hr, List.head?_cons])

/-- A change of records that keeps their sequences keeps them consecutive. -/
theorem Journal.consecutive_map (j : Journal) (f : AssignedRecord → AssignedRecord)
    (hf : ∀ r, (f r).record.seq = r.record.seq) (hj : j.consecutive) :
    ({ j with records := j.records.map f } : Journal).consecutive := by
  obtain ⟨hseqs, hhead⟩ := hj
  refine ⟨?_, ?_⟩
  · simpa only [List.map_map, Function.comp_def, hf, List.length_map] using hseqs
  · simpa only [List.length_map] using hhead

theorem State.modRecord_consecutive (s : State) (seq : Serial) (f : AssignedRecord → AssignedRecord)
    (hf : ∀ r, (f r).record.seq = r.record.seq) (hs : s.journal.consecutive) :
    (s.modRecord seq f).journal.consecutive :=
  s.journal.consecutive_map _ (fun r => by split <;> simp only [hf]) hs

/-- The record at the durable head after a change of the records with a sequence. -/
theorem State.modRecord_head (s : State) (seq : Serial) (f : AssignedRecord → AssignedRecord) (r : AssignedRecord)
    (hr : (s.modRecord seq f).journal.records.head? = some r) :
    ∃ q, s.journal.records.head? = some q ∧ r = if q.record.seq = seq then f q else q := by
  have hhead : (s.journal.records.map (fun r => if r.record.seq = seq then f r else r)).head? = some r := hr
  rw [List.head?_map, Option.map_eq_some_iff] at hhead
  obtain ⟨q, hq, hqr⟩ := hhead
  exact ⟨q, hq, hqr.symm⟩

/-- A change of records that keeps their sequences and marks keeps the invariant. -/
theorem State.modRecord_contiguous (s : State) (seq : Serial) (f : AssignedRecord → AssignedRecord)
    (hseq : ∀ r, (f r).record.seq = r.record.seq) (hmark : ∀ r, (f r).mark = r.mark) (hs : s.journalContiguous) :
    (s.modRecord seq f).journalContiguous := by
  obtain ⟨hconsecutive, hunmarked⟩ := s.journalContiguous_iff.1 hs
  refine (State.journalContiguous_iff _).2 ⟨s.modRecord_consecutive seq f hseq hconsecutive, fun r hr => ?_⟩
  obtain ⟨q, hq, rfl⟩ := s.modRecord_head seq f r hr
  have := hunmarked q hq
  split
  · rw [hmark, this]
  · exact this

@[simp] theorem AssignedRecord.setHalf_record (r : AssignedRecord) (h : Half) (v : HalfWrite) :
    (r.setHalf h v).record = r.record := by cases h <;> rfl

@[simp] theorem AssignedRecord.setHalf_mark (r : AssignedRecord) (h : Half) (v : HalfWrite) :
    (r.setHalf h v).mark = r.mark := by cases h <;> rfl

@[simp] theorem AssignedRecord.answer_record (r : AssignedRecord) (h : Half) (result : WriteResult) :
    (r.answer h result).record = r.record := r.setHalf_record h _

/-- R47: the ring after the durable head has moved over the marked records at its front. -/
theorem State.advanceDurable_ring (s : State) : s.advanceDurable.journal.ring =
    (s.journal.records.dropWhile (·.mark), s.journal.head,
      s.advancePosition s.journal.durableHead (s.journal.records.takeWhile (·.mark)).length) := by
  have hreports : ∀ (l : List AssignedRecord) (t : State),
      (l.foldl (fun t r => t.reportDurable r) t).journal = t.journal :=
    fun l t => foldl_keeps (fun s => s.journal) _ (fun t r => t.reportDurable_journal r) l t
  unfold State.advanceDurable
  dsimp only
  split <;> split <;> simp only [State.engineFreed_journal, State.reevaluateTail_journal, hreports] <;> rfl

/-- R47: the durable head stops at a record that lacks its mark, and what is left is consecutive from there. -/
theorem State.advanceDurable_contiguous (s : State) (hs : s.journal.consecutive) :
    s.advanceDurable.journalContiguous := by
  obtain ⟨hseqs, hhead⟩ := hs
  obtain ⟨hrecords, hheads⟩ := Prod.mk.inj s.advanceDurable_ring
  obtain ⟨hhead', hdurable⟩ := Prod.mk.inj hheads
  have hsplit := List.takeWhile_append_dropWhile (p := AssignedRecord.mark) (l := s.journal.records)
  have hlength : s.journal.records.length = (s.journal.records.takeWhile AssignedRecord.mark).length
      + (s.journal.records.dropWhile AssignedRecord.mark).length := by
    rw [← List.length_append, hsplit]
  have hshift : ∀ n i : Nat, s.journal.durableHead.seq + BitVec.ofNat 32 (n + i)
      = s.journal.durableHead.seq + BitVec.ofNat 32 n + BitVec.ofNat 32 i := by
    intro n i
    rw [BitVec.ofNat_add, BitVec.add_assoc]
  unfold State.journalContiguous
  rw [hrecords, hhead', hdurable, State.advancePosition_seq]
  refine ⟨?_, ?_, ?_⟩
  · rw [hlength, List.range_add, List.map_append, ← hsplit, List.map_append] at hseqs
    rw [hsplit] at hseqs
    have htail := List.append_inj_right hseqs (by simp)
    rw [htail, List.map_map]
    exact List.map_congr_left (fun i _ => hshift _ i)
  · rw [hhead, hlength, hshift]
  · intro r hr
    have := List.head?_dropWhile_not AssignedRecord.mark s.journal.records
    rw [hr] at this
    simpa using this

/-- R46: where the answer does not complete the record found, the record at the durable head stays unmarked: it is the
first to be found. -/
theorem State.answer_contiguous (s : State) (seq : Serial) (r : AssignedRecord) (h : Half) (result : WriteResult)
    (hr : s.record? seq = some r) (hmark : (r.answer h result).mark = false) (hs : s.journalContiguous) :
    (s.modRecord seq (fun q => q.answer h result)).journalContiguous := by
  obtain ⟨hconsecutive, hunmarked⟩ := s.journalContiguous_iff.1 hs
  refine (State.journalContiguous_iff _).2
    ⟨s.modRecord_consecutive seq _ (fun q => by rw [AssignedRecord.answer_record]) hconsecutive, fun p hp => ?_⟩
  obtain ⟨q, hq, rfl⟩ := s.modRecord_head seq _ p hp
  split
  · rename_i hseq
    obtain ⟨rest, hrecords⟩ := List.head?_eq_some_iff.1 hq
    rw [State.record?, hrecords, List.find?_cons_of_pos (by simpa using hseq), Option.some.injEq] at hr
    rwa [hr]
  · exact hunmarked q hq

theorem State.operationWaits_journal (s : State) (r : AssignedRecord) : (s.operationWaits r).journal = s.journal := by
  unfold State.operationWaits
  split <;> rfl

theorem State.recordFailed_journal (s : State) (r : AssignedRecord) : (s.recordFailed r).journal = s.journal := by
  unfold State.recordFailed State.failUndo
  split
  · split <;> simp
  · simp

theorem State.recordWritten_contiguous (result : WriteResult) (a : Access) (s : State) (hs : s.journalContiguous) :
    (State.recordWritten result a s).journalContiguous := by
  unfold State.recordWritten
  split
  · rename_i seq h _
    split
    · exact hs
    · rename_i r hr
      split
      · exact s.modRecord_contiguous _ _ (fun q => by rw [AssignedRecord.setHalf_record])
          (fun q => q.setHalf_mark h _) hs
      · unfold State.recordAnswered
        split
        · refine State.advanceDurable_contiguous _ ?_
          rw [State.operationWaits_journal]
          exact s.modRecord_consecutive seq _ (fun q => by rw [AssignedRecord.answer_record])
            (s.journalContiguous_iff.1 hs).1
        · rename_i hmark
          have hanswered := s.answer_contiguous seq r h result hr (by simpa using hmark) hs
          split
          · exact State.journalContiguous_of_ring (congrArg Journal.ring (State.recordFailed_journal _ _)) hanswered
          · exact hanswered
  · exact hs

/-- R127: an access issued to write a record's half marks that half only. -/
theorem State.grant_contiguous (s : State) (k : AccessSlot) (c : Claimant) (hs : s.journalContiguous) :
    (s.grant k c).journalContiguous := by
  have hissued : ∀ (t : State) a, t.journalContiguous → (t.markIssued k a).journalContiguous := by
    intro t a ht
    unfold State.markIssued
    split
    case h_4 =>
      rename_i seq h _
      exact t.modRecord_contiguous seq _ (fun r => by rw [AssignedRecord.setHalf_record])
        (fun r => r.setHalf_mark h _) ht
    all_goals exact ht
  unfold State.grant
  split
  · rename_i a _
    exact hissued (s.putAccess k a.purpose a.line a.kind) a hs
  · exact hs

theorem State.undoRequest_contiguous (s : State) (o : Operation) (hs : s.journalContiguous) :
    (s.undoRequest o).journalContiguous := by
  have htaken : (if Config.endReserve < s.freeSlots then s.grantUndo o else s.refuseUndo o).journalContiguous := by
    split
    · exact s.grantSlot_contiguous o.requester (s.undoRecord o) hs
    · exact State.journalContiguous_of_ring (s := s) (by simp [State.refuseUndo]) hs
  unfold State.undoRequest
  split
  · exact htaken
  · exact htaken
  · exact hs
  all_goals exact hs

/-- R44: a request leaves the list, and its record takes the head slot or is not written. -/
theorem State.takeEndRequest_contiguous (s : State) (q : EndRequest) (hs : s.journalContiguous) :
    (s.takeEndRequest q).journalContiguous := by
  unfold State.takeEndRequest
  dsimp only
  split
  · exact State.grantSlot_contiguous _ q.context q.record hs
  · refine State.journalContiguous_of_ring (s := s) ?_ hs
    unfold State.endWithoutRecord
    dsimp only
    split <;> simp <;> rfl

/-- R41, R152: the Journal Writer starts with no record assigned. -/
theorem State.recoverySuccess_contiguous (s : State) : s.recoverySuccess.journalContiguous := by
  refine State.journalContiguous_of_ring (s := { s with journal := { s.journal with
    head := s.reinitImage.tail, durableHead := s.reinitImage.tail, records := [] } }) ?_ ⟨rfl, ?_, ?_⟩
  · unfold State.recoverySuccess
    dsimp only
    rw [State.entryLinkReset_journal]
    rfl
  · exact (BitVec.add_zero _).symm
  · exact fun r hr => by cases hr

theorem State.reinitWritten_contiguous (result : WriteResult) (a : Access) (s : State) (hs : s.journalContiguous) :
    (State.reinitWritten result a s).journalContiguous := by
  unfold State.reinitWritten
  split
  · dsimp only
    split
    · exact State.recoverySuccess_contiguous _
    · exact State.journalContiguous_of_ring (by rw [State.pump_journal]) hs
  · exact State.journalContiguous_of_ring (by rw [State.reportFault_journal]) hs
  · exact hs

/-! ## Every command -/

/-- An outcome whose next state, if it has one, keeps the invariant. -/
def State.ContiguousTo (s : State) (o : Result) : Prop := ∀ t, o = .next t → s.journalContiguous → t.journalContiguous

theorem State.ContiguousTo.next {s t : State} (h : s.journalContiguous → t.journalContiguous) :
    s.ContiguousTo (.next t) := by
  intro u hu
  cases hu
  exact h

theorem State.ContiguousTo.of_ring {s t : State} (h : t.journal.ring = s.journal.ring) : s.ContiguousTo (.next t) :=
  .next (State.journalContiguous_of_ring h)

theorem State.ContiguousTo.of_journal {s t : State} (h : t.journal = s.journal) : s.ContiguousTo (.next t) :=
  .of_ring (congrArg Journal.ring h)

theorem State.ContiguousTo.refl (s : State) : s.ContiguousTo (.next s) := .of_ring rfl

/-- A completion keeps the invariant where its delivery does. -/
theorem State.complete_contiguousTo (s : State) (k : AccessSlot) (mine : Purpose → Bool)
    (deliver : Access → State → State) (h : ∀ a (t : State), t.journalContiguous → (deliver a t).journalContiguous) :
    s.ContiguousTo (.next (s.complete k mine deliver)) := by
  refine .next (fun hs => ?_)
  unfold State.complete
  split
  · split
    · exact State.journalContiguous_of_ring (by rw [State.settle_journal]) (h _ (s.freeAccess k) hs)
    · exact hs
  · exact hs

theorem State.complete_contiguousTo_of_ring (s : State) (k : AccessSlot) (mine : Purpose → Bool)
    (deliver : Access → State → State) (h : ∀ a (t : State), (deliver a t).journal.ring = t.journal.ring) :
    s.ContiguousTo (.next (s.complete k mine deliver)) :=
  s.complete_contiguousTo k mine deliver (fun a t => State.journalContiguous_of_ring (h a t))

theorem State.complete_contiguousTo_of_journal (s : State) (k : AccessSlot) (mine : Purpose → Bool)
    (deliver : Access → State → State) (h : ∀ a (t : State), (deliver a t).journal = t.journal) :
    s.ContiguousTo (.next (s.complete k mine deliver)) :=
  s.complete_contiguousTo_of_ring k mine deliver (fun a t => congrArg Journal.ring (h a t))

/-- R41: the Journal Writer at power-on reset has no record assigned. -/
theorem execPorstNAssert_contiguousTo (s : State) : s.ContiguousTo (execPorstNAssert s) := by
  refine .next (fun hs => ?_)
  split
  · exact hs
  · exact State.journalContiguous_of_ring rfl reset_journalContiguous

theorem execPorstNDeassert_contiguousTo (s : State) : s.ContiguousTo (execPorstNDeassert s) := by
  have hreset : (s.powerOnValues false).journalContiguous :=
    State.journalContiguous_of_ring rfl reset_journalContiguous
  refine .next (fun hs => ?_)
  dsimp only
  split
  · split
    · exact State.journalContiguous_of_ring (by rw [State.takePowerFail_journal]) hreset
    · exact hreset
  · exact hs

theorem execLinkReset_contiguousTo (s : State) : s.ContiguousTo (execLinkReset s) := by
  refine .of_journal ?_
  split
  · rfl
  · dsimp only
    split
    · rfl
    · rw [State.takeLinkReset_journal]

theorem execPfailNAssert_contiguousTo (s : State) : s.ContiguousTo (execPfailNAssert s) := by
  refine .of_journal ?_
  split
  · rfl
  · dsimp only
    split
    · rfl
    · rw [State.takePowerFail_journal]

theorem execConflictTimerExpiry_contiguousTo (waiter : RequesterId) (s : State) :
    s.ContiguousTo (execConflictTimerExpiry waiter s) := by
  unfold execConflictTimerExpiry
  split
  · split
    · exact .of_journal (s.conflictExpiry_journal waiter _)
    · exact .refl s
  · exact .refl s

theorem execLockoutExpiry_contiguousTo (s : State) : s.ContiguousTo (execLockoutExpiry s) := by
  unfold execLockoutExpiry
  split
  · split <;> exact .of_journal rfl
  · exact .refl s

theorem execLoadPauseEnd_contiguousTo (s : State) : s.ContiguousTo (execLoadPauseEnd s) := by
  unfold execLoadPauseEnd
  split
  · split <;> exact .of_journal rfl
  · exact .refl s
  · exact .refl s

theorem execConfigurationTransferEnd_contiguousTo (sampled : SampledBits) (s : State) :
    s.ContiguousTo (execConfigurationTransferEnd sampled s) := by
  unfold execConfigurationTransferEnd
  split
  · split
    · exact .of_journal (State.pump_journal _)
    · exact .of_journal s.loadFailure_journal
  · exact .refl s
  · exact .refl s

theorem execArbiterGrant_contiguousTo (k : AccessSlot) (s : State) : s.ContiguousTo (execArbiterGrant k s) := by
  unfold execArbiterGrant
  split
  · split
    · exact .next (s.grant_contiguous k _)
    · exact .refl s
  · exact .refl s

theorem execUndoSlotRequest_contiguousTo (l : LineAddr) (s : State) : s.ContiguousTo (execUndoSlotRequest l s) := by
  unfold execUndoSlotRequest
  split
  · split
    · exact .next (s.undoRequest_contiguous _)
    · exact .refl s
  · exact .refl s

theorem execEndRecordRequest_contiguousTo (c : RequesterId) (s : State) :
    s.ContiguousTo (execEndRecordRequest c s) := by
  unfold execEndRecordRequest
  split
  · split
    · exact .next (s.takeEndRequest_contiguous _)
    · exact .refl s
  · exact .refl s

theorem execCommitRecordAsk_contiguousTo (c : RequesterId) (s : State) :
    s.ContiguousTo (execCommitRecordAsk c s) := by
  unfold execCommitRecordAsk
  split <;> exact .of_ring rfl

theorem execRollbackQueueAppend_contiguousTo (c : RequesterId) (s : State) :
    s.ContiguousTo (execRollbackQueueAppend c s) := by
  unfold execRollbackQueueAppend
  split
  · split <;> exact .of_ring rfl
  · exact .refl s

theorem execRollbackTakeContext_contiguousTo (s : State) : s.ContiguousTo (execRollbackTakeContext s) := by
  unfold execRollbackTakeContext
  split
  · split
    · exact .of_ring (s.takeContext_ring _ _)
    · exact .refl s
  · exact .refl s

theorem execAbortRecordAsk_contiguousTo (s : State) : s.ContiguousTo (execAbortRecordAsk s) := by
  unfold execAbortRecordAsk
  split
  · split <;> exact .of_ring rfl
  · exact .refl s

theorem execTimebaseAdvance_contiguousTo (s : State) : s.ContiguousTo (execTimebaseAdvance s) := by
  unfold execTimebaseAdvance
  split <;> exact .of_ring rfl

/-- Every command keeps the invariant. -/
theorem exec_contiguousTo (i : Instr) (s : State) : s.ContiguousTo (exec i s) := by
  cases i with
  | porstNAssert => exact execPorstNAssert_contiguousTo s
  | porstNDeassert => exact execPorstNDeassert_contiguousTo s
  | linkReset => exact execLinkReset_contiguousTo s
  | lrstNDeassert => exact .of_journal (State.drainTest_journal _)
  | pfailNAssert => exact execPfailNAssert_contiguousTo s
  | pfailNDeassert => exact .of_ring rfl
  | readRequest r t l => exact .of_journal (s.handleRead_journal r t l)
  | writeRequest r t l m d => exact .of_ring (s.handleWrite_ring false r t l m d)
  | queryRead r t l => exact .of_journal (s.handleRead_journal r t l)
  | openTransaction r t l f => exact .of_ring (s.handleLine_ring r t l _)
  | commit r t l f => exact .of_ring (s.handleLine_ring r t l _)
  | abort r t l f => exact .of_ring (s.handleLine_ring r t l _)
  | query r t l f => exact .of_ring (s.handleLine_ring r t l _)
  | acknowledge r t l f => exact .of_ring (s.handleLine_ring r t l _)
  | controlLineUnknownCommand r t l c f => exact .of_ring (s.handleLine_ring r t l _)
  | conflictTimerExpiry w => exact execConflictTimerExpiry_contiguousTo w s
  | lockoutExpiry => exact execLockoutExpiry_contiguousTo s
  | loadPauseEnd => exact execLoadPauseEnd_contiguousTo s
  | configurationTransferEnd b => exact execConfigurationTransferEnd_contiguousTo b s
  | forwardAccessComplete k r => exact s.complete_contiguousTo_of_journal k _ _ (State.forwardComplete_journal k r)
  | oldLineReadComplete k r => exact s.complete_contiguousTo_of_journal k _ _ (State.oldLineReadDelivered_journal r)
  | recordWriteComplete k r => exact s.complete_contiguousTo k _ _ (State.recordWritten_contiguous r)
  | operationForwardedWriteComplete k r =>
    exact s.complete_contiguousTo_of_journal k _ _ (State.operationWrittenDelivered_journal r)
  | headerWriteComplete k r => exact s.complete_contiguousTo_of_ring k _ _ (State.headerWritten_ring r)
  | rollbackReadComplete k r => exact s.complete_contiguousTo_of_journal k _ _ (State.rollbackRead_journal r)
  | restoreWriteComplete k r => exact s.complete_contiguousTo_of_journal k _ _ (State.restored_journal r)
  | recoveryHeaderReadComplete k r => exact s.complete_contiguousTo_of_journal k _ _ (State.headerRead_journal r)
  | zeroingWriteComplete k r => exact s.complete_contiguousTo_of_journal k _ _ (State.zeroed_journal r)
  | formatHeaderWriteComplete k r => exact s.complete_contiguousTo_of_journal k _ _ (State.formatHeaderWritten_journal r)
  | forwardWalkReadComplete k r => exact s.complete_contiguousTo_of_journal k _ _ (State.walkRead_journal r)
  | undoPassReadComplete k r => exact s.complete_contiguousTo_of_journal k _ _ (State.undoSlotRead_journal r)
  | recoveryRestoreComplete k r => exact s.complete_contiguousTo_of_journal k _ _ (State.recoveryRestored_journal r)
  | reinitHeaderWriteComplete k r => exact s.complete_contiguousTo k _ _ (State.reinitWritten_contiguous r)
  | memoryResponseUnknownSlot k r => exact .refl s
  | arbiterGrant k => exact execArbiterGrant_contiguousTo k s
  | undoSlotRequest l => exact execUndoSlotRequest_contiguousTo l s
  | endRecordRequest c => exact execEndRecordRequest_contiguousTo c s
  | commitRecordAsk c => exact execCommitRecordAsk_contiguousTo c s
  | rollbackQueueAppend c => exact execRollbackQueueAppend_contiguousTo c s
  | rollbackTakeContext => exact execRollbackTakeContext_contiguousTo s
  | abortRecordAsk => exact execAbortRecordAsk_contiguousTo s
  | timebaseAdvance => exact execTimebaseAdvance_contiguousTo s

/-- Settles O59: only a grant, an answered half, power-on reset and the start of the Journal Writer move the ring, and
each keeps it consecutive; a step on an empty queue idles. -/
theorem journalStaysContiguous : Obligations.JournalStaysContiguous := by
  intro s t hs hstep
  unfold step at hstep
  split at hstep
  · cases hstep
    exact hs
  · exact exec_contiguousTo _ _ t hstep hs

end Sys2Proof.Machine

/-! PROOFS. Family 03_the_undo_journal: the Journal Writer takes a slot request (R42, R43, R54, R56, R73). -/

namespace Sys2Proof.Machine

/-! ## When a request is taken -/

theorem State.op?_line {s : State} {l : LineAddr} {o : Operation} (hop : s.op? l = some o) : o.line = l := by
  simpa using List.find?_some hop

theorem Operation.asking_iff (o : Operation) : o.asking = true ↔ o.stage = .appending ∧ o.slot = none := by
  simp [Operation.asking]

theorem exec_undoSlotRequest_taken {s : State} {l : LineAddr} {o : Operation} (hop : s.op? l = some o)
    (hstage : o.stage = .appending) (hslot : o.slot = none) (hpower : s.device.powerFailPending = false) :
    exec (.undoSlotRequest l) s = .next (s.undoRequest o) := by
  have hasking := o.asking_iff.2 ⟨hstage, hslot⟩
  show execUndoSlotRequest l s = _
  simp only [execUndoSlotRequest, hop, hasking, hpower, Bool.not_false, Bool.and_self, if_true]

/-- R43, R56: no request is taken without one, nor from the assertion of PFAIL_N. -/
theorem exec_undoSlotRequest_notTaken {s : State} {l : LineAddr}
    (h : ∀ o, s.op? l = some o → o.asking = true → s.device.powerFailPending = false → s.undoRequest o = s) :
    exec (.undoSlotRequest l) s = .next s := by
  show execUndoSlotRequest l s = _
  unfold execUndoSlotRequest
  split
  · rename_i o hop
    split
    · rename_i htaken
      rw [Bool.and_eq_true, Bool.not_eq_true'] at htaken
      rw [h o hop htaken.1 htaken.2]
    · rfl
  · rfl

theorem State.undoRequest_working {s : State} (o : Operation) (hstate : s.device.state = .serving ∨ s.device.state = .draining) :
    s.undoRequest o = if 16 < s.freeSlots then s.grantUndo o else s.refuseUndo o := by
  unfold State.undoRequest
  rcases hstate with hstate | hstate <;> rw [hstate] <;> rfl

/-! ## Granted (R42) -/

theorem State.grantUndo_eq (s : State) (o : Operation) : s.grantUndo o = { s with
    journal := { s.journal with
      head := { slot := (s.journal.head.slot + 1) % s.slotCount, seq := s.journal.head.seq + 1 }
      records := s.journal.records ++ [{
        owner := o.requester, slot := s.journal.head.slot
        record := { kind := .undo, context := BitVec.ofNat 8 o.requester, reason := 0, seq := s.journal.head.seq
                    openNumber := (s.ctx o.requester).openNumber.getD 0, line := o.line, label := 0
                    old := o.old.getD 0 }
        first := .waiting, second := .waiting, mark := false }] }
    ops := s.ops.map (fun p => if p.line = o.line then { p with slot := some s.journal.head } else p)
    contexts := s.contexts.set o.requester { s.ctx o.requester with
      undoCount := (s.ctx o.requester).undoCount + 1, lastSlot := some s.journal.head.slot
      firstSlot := some ((s.ctx o.requester).firstSlot.getD s.journal.head.slot) } } := by
  have hfirst : (s.ctx o.requester).firstSlot.or (some s.journal.head.slot)
      = some ((s.ctx o.requester).firstSlot.getD s.journal.head.slot) := by
    cases (s.ctx o.requester).firstSlot <;> rfl
  rw [← hfirst]
  rfl

/-! ## Refused (R43, R73) -/

/-- R6: a drain is taken once. -/
theorem State.noteDrain_noteDrain (s : State) (c : RequesterId) : (s.noteDrain c).noteDrain c = s.noteDrain c := by
  by_cases hdue : s.drainDue c = true
  · have hnoted : s.noteDrain c = { s with drains := s.drains ++ [[c]] } := if_pos hdue
    have hdone : ¬ (s.noteDrain c).drainDue c = true := by
      rw [hnoted, State.drainDue_iff]
      rintro ⟨-, -, -, -, hfresh, -⟩
      exact hfresh [c] (by simp) (by simp)
    exact if_neg hdone
  · have hkept : s.noteDrain c = s := if_neg hdue
    rw [hkept, hkept]

/-- What a refusal does to an operation, seen from the state after the entry and the operation are gone. -/
theorem State.refuseUndo_eq (s : State) (o : Operation) : s.refuseUndo o =
    ((((s.removeHold o.line).opGone o .error .aborted).abortRequest o.requester .journalFull).noteDrain o.requester) := by
  rw [← State.endOp_eq]
  rfl

/-- The end of an operation leaves the context state of its requester. -/
theorem State.ctx_state_removed (s : State) (l : LineAddr) (o : Operation) (code : ResponseCode)
    (detail : ResponseDetail) (c : RequesterId) :
    (((s.removeHold l).opGone o code detail).ctx c).state = (s.ctx c).state := by
  have hblind : Context.Blind (fun x => x.state) := ⟨fun _ _ => rfl, fun _ _ => rfl⟩
  rw [← State.endOp_eq]
  exact (State.endOp_blind (fun x => x.state) hblind _ o code detail c).trans
    (State.removeHold_blind (fun x => x.state) hblind s l c)

/-- R9, R43, R73: the operation and its entry are gone with ERROR ABORTED, and an OPEN context becomes ABORT_PENDING. -/
theorem State.refuseUndo_spec (s : State) (l : LineAddr) (o : Operation) (hline : o.line = l) :
    (s.refuseUndo o).journal = s.journal
      ∧ (∀ e ∈ (s.refuseUndo o).holds, e ∈ s.holds.eraseP (fun e => decide (e.line = l)))
      ∧ (∀ p ∈ (s.refuseUndo o).ops, ∃ q ∈ s.ops.eraseP (fun p => decide (p.line = l)), q.line = p.line ∧ q.tag = p.tag)
      ∧ (o.forgotten = false → { requester := o.requester, tag := o.tag, code := .error, detail := .aborted
                                 data := none } ∈ (s.refuseUndo o).sent)
      ∧ ((s.ctx o.requester).state = .opened → (s.refuseUndo o).abortBegun o.requester .journalFull true)
      ∧ (∀ u, u = (s.removeHold l).opGone o .error .aborted →
          ((s.ctx o.requester).state = .opened → u.withdrawable o.requester →
            s.refuseUndo o = u.abortBegins o.requester .journalFull true)
          ∧ ((s.ctx o.requester).state ≠ .opened → s.refuseUndo o = u.drainTaken o.requester)) := by
  subst hline
  rw [State.refuseUndo_eq]
  have hstate := s.ctx_state_removed o.line o .error .aborted o.requester
  generalize hu : (s.removeHold o.line).opGone o .error .aborted = u at hstate
  have huholds : u.holds = s.holds.eraseP (fun e => decide (e.line = o.line)) := by
    rw [← hu, ← State.removeHold_holds]; rfl
  have huops : u.ops = s.ops.eraseP (fun p => decide (p.line = o.line)) := by
    rw [← hu, State.opGone, State.removeHold_ops]
  have hujournal : u.journal = s.journal := by rw [← hu, State.opGone, State.removeHold_journal]
  have husent : o.forgotten = false → { requester := o.requester, tag := o.tag, code := .error, detail := .aborted
                                        data := none } ∈ u.sent := by
    intro hkept
    rw [← hu]
    simp [State.opGone, hkept]
  obtain ⟨hops, hholds, -, hsent⟩ := u.abortRequest_shrinks o.requester .journalFull
  refine ⟨?_, ?_, ?_, ?_, ?_, ?_⟩
  · simpa using hujournal
  · intro e he
    rw [State.noteDrain_holds] at he
    exact huholds ▸ hholds.subset he
  · intro p hp
    rw [State.noteDrain_ops] at hp
    obtain ⟨q, hq, hqline, hqtag, -⟩ := hops p hp
    exact ⟨q, huops ▸ hq, hqline, hqtag⟩
  · intro hkept
    rw [State.noteDrain_sent]
    exact hsent.subset (husent hkept)
  · intro hopen
    have hbegun := u.abortRequest_begun o.requester .journalFull (hstate.trans hopen)
    unfold State.abortBegun at hbegun ⊢
    rwa [State.ctx_noteDrain, State.noteDrain_ops]
  · rintro _ rfl
    refine ⟨fun hopen hwithdrawable => ?_, fun hopen => ?_⟩
    · have hopen := hstate.trans hopen
      have hbegins := State.abortRequest_eq _ _ .journalFull hopen hwithdrawable
      rw [State.abortRequest_taken _ _ _ hopen] at hbegins ⊢
      rw [State.noteDrain_noteDrain]
      exact hbegins
    · rw [State.abortRequest_ignored _ _ _ (by rwa [hstate]), State.noteDrain_eq]

/-- Settles O38, by the device state and the free slots. -/
theorem undoSlotRequest : Obligations.UndoSlotRequest := by
  refine ⟨fun s l o hop hstage hslot hpower => ⟨fun hstate hfree => ?_, fun hstate hfull => ?_, fun hfaulted => ?_⟩,
    fun s l hstopped => ?_, fun s l hnone => ?_⟩
  · rw [exec_undoSlotRequest_taken hop hstage hslot hpower, State.undoRequest_working o hstate, if_pos hfree,
      State.grantUndo_eq, State.op?_line hop]
  · rw [exec_undoSlotRequest_taken hop hstage hslot hpower, State.undoRequest_working o hstate,
      if_neg (Nat.not_lt.2 hfull)]
    exact ⟨_, rfl, s.refuseUndo_spec l o (State.op?_line hop)⟩
  · have hended : s.undoRequest o = s.opGone o .error .fault := by
      rw [← State.endOp_eq, State.undoRequest, hfaulted]
    rw [exec_undoSlotRequest_taken hop hstage hslot hpower, hended]
    refine ⟨_, rfl, rfl, ?_, rfl, rfl, rfl, rfl, rfl⟩
    rw [State.opGone, State.op?_line hop]
  · refine exec_undoSlotRequest_notTaken (fun o _ _ hpower => ?_)
    unfold State.undoRequest
    rcases hstopped with hstopped | hstate | hstate | hstate | hstate
    · cases hpower.symm.trans hstopped
    all_goals rw [hstate]
  · refine exec_undoSlotRequest_notTaken (fun o hop hasking _ => ?_)
    obtain ⟨hstage, hslot⟩ := o.asking_iff.1 hasking
    exact ((hnone o hop).elim (fun h => h hstage) (fun h => h hslot)).elim

end Sys2Proof.Machine

/-! PROOFS. Family 03_the_undo_journal: a record half is answered, with what follows a record written and a record written
with error (R38, R46, R47, R48, R73, R74, R158). -/

namespace Sys2Proof.Machine

/-! ## The answer of a half (R38, R46) -/

/-- R46: the completion mark stands once both halves have been answered OKAY. -/
theorem AssignedRecord.answer_mark (r : AssignedRecord) (h : Half) (result : WriteResult) :
    (r.answer h result).mark = true ↔
      result = .okay ∧ (if h = .first then r.second else r.first) = .okay := by
  cases h <;> cases result <;> simp [AssignedRecord.answer, AssignedRecord.setHalf, answeredHalf]

/-- R38: the record write has completed with error once both halves are answered, one of them ERROR (log 11). -/
theorem AssignedRecord.answer_failed (r : AssignedRecord) (h : Half) (result : WriteResult) (other : HalfWrite)
    (hother : other = (if h = .first then r.second else r.first)) :
    (r.answer h result).failed = true ↔
      (result = .error ∧ (other = .okay ∨ other = .failed)) ∨ (result = .okay ∧ other = .failed) := by
  subst hother
  obtain ⟨owner, slot, record, first, second, mark⟩ := r
  cases h with
  | first =>
    cases second <;> cases result <;> simp [AssignedRecord.failed, AssignedRecord.answer, AssignedRecord.setHalf,
      answeredHalf, HalfWrite.answered]
  | second =>
    cases first <;> cases result <;> simp [AssignedRecord.failed, AssignedRecord.answer, AssignedRecord.setHalf,
      answeredHalf, HalfWrite.answered]

/-- R46: an unfinished record changes in the answered half only. -/
theorem AssignedRecord.answer_unmarked (r : AssignedRecord) (h : Half) (result : WriteResult) (hmark : r.mark = false)
    (hanswer : ¬ (r.answer h result).mark = true) :
    r.answer h result = r.setHalf h (answeredHalf result) := by
  have hmark' : (r.answer h result).mark = (r.setHalf h (answeredHalf result)).mark := by
    rw [AssignedRecord.setHalf_mark, hmark, ← Bool.not_eq_true]
    exact hanswer
  calc r.answer h result = { r.setHalf h (answeredHalf result) with mark := (r.answer h result).mark } := rfl
    _ = r.setHalf h (answeredHalf result) := by rw [hmark']

theorem AssignedRecord.setHalf_eq (r : AssignedRecord) (h : Half) (v : HalfWrite) :
    r.setHalf h v = if h = .first then { r with first := v } else { r with second := v } := by
  cases h <;> rfl

/-- One record at most carries a sequence: the one found. -/
theorem State.record?_only {s : State} {seq : Serial} {r : AssignedRecord} (hrec : s.record? seq = some r)
    (hnodup : (s.journal.records.map (fun q => q.record.seq)).Nodup) :
    r.record.seq = seq ∧ ∀ q ∈ s.journal.records, q.record.seq = seq → q = r := by
  have hseq : r.record.seq = seq := by simpa using List.find?_some hrec
  exact ⟨hseq, fun q hq hq' =>
    List.inj_on_of_nodup_map hnodup hq (List.mem_of_find?_eq_some hrec) (hq'.trans hseq.symm)⟩

theorem State.journals_notFaulted {s : State} (hjournals : s.journals) : s.device.state ≠ .faulted := by
  rcases hjournals with hstate | hstate <;> simp [hstate]

/-- RECORD_WRITE_COMPLETE in SERVING and DRAINING and in their wind-down. -/
theorem exec_recordWriteComplete_answered {s : State} {k : AccessSlot} {a : Access} {seq : Serial} {h : Half}
    {r : AssignedRecord} (result : WriteResult) (hacc : s.access k = some a) (hpurpose : a.purpose = .recordHalf seq h)
    (hrec : s.record? seq = some r) (hjournals : s.journals) :
    exec (.recordWriteComplete k result) s = .next (State.woundDown (State.recordAnswered
      ((s.freeAccess k).modRecord seq (fun q => q.answer h result)) (r.answer h result))) := by
  have hexec : exec (.recordWriteComplete k result) s
      = .next (s.complete k Purpose.isRecordHalf (State.recordWritten result)) := rfl
  have hfound : (s.freeAccess k).record? seq = some r := hrec
  have hlive : (s.freeAccess k).device.state ≠ .faulted := State.journals_notFaulted hjournals
  rw [hexec, State.complete_delivered s k a _ _ hacc (by rw [hpurpose]; rfl), State.settle_eq]
  simp only [State.recordWritten, hpurpose, hfound, if_neg hlive]

/-! ## A half written without error (R46, R73) -/

/-- R47: where the record at the durable head lacks its mark, the durable head stays. -/
theorem State.advanceDurable_stays (s : State) (h : ∀ q, s.journal.records.head? = some q → q.mark = false) :
    s.advanceDurable = s := by
  have htake : s.journal.records.takeWhile (·.mark) = [] := by
    cases hrecords : s.journal.records with
    | nil => rfl
    | cons q rest => exact List.takeWhile_cons_of_neg (by simp [h q (by rw [hrecords, List.head?_cons])])
  have hdrop : s.journal.records.dropWhile (·.mark) = s.journal.records := by
    have hsplit := List.takeWhile_append_dropWhile (p := fun q : AssignedRecord => q.mark) (l := s.journal.records)
    rwa [htake, List.nil_append] at hsplit
  unfold State.advanceDurable
  dsimp only
  rw [htake, hdrop]
  rfl

/-- Settles O39: the half is the record's last, whose mark stays where the durable head is not, or its first. -/
theorem recordHalfWritten : Obligations.RecordHalfWritten := by
  intro s k a seq h r records hacc hpurpose hrec hjournals hnodup hother hrecords hhead
  obtain ⟨-, honly⟩ := State.record?_only hrec hnodup
  by_cases hlast : (if h = .first then r.second else r.first) = .okay
  · have hmarked : ({ r with
        first := (if h = .first then .okay else r.first), second := (if h = .second then .okay else r.second)
        mark := (if h = .first then decide (r.second = .okay) else decide (r.first = .okay)) } : AssignedRecord)
        = { r with first := .okay, second := .okay, mark := true } := by
      cases h <;> simp_all
    have hwritten : (s.lastHalfWritten k seq r).journal.records = records := by
      rw [hrecords, hmarked]
      rfl
    rw [exec_recordWriteComplete_lastHalf s k a seq h r hacc hpurpose hrec hjournals honly hlast,
      State.advanceDurable_stays _ (by rwa [hwritten]), ← hwritten]
    simp only [hlast, and_true]
    rfl
  · have hmark : ¬ (r.answer h .okay).mark = true := fun hmark => hlast ((r.answer_mark h .okay).1 hmark).2
    have hfailed : ¬ (r.answer h .okay).failed = true := fun hfailed => by
      rcases (r.answer_failed h .okay _ rfl).1 hfailed with ⟨hresult, -⟩ | ⟨-, hfailed⟩
      · cases hresult
      · exact hother hfailed
    have hanswered : r.answer h .okay = { r with
        first := (if h = .first then .okay else r.first), second := (if h = .second then .okay else r.second)
        mark := (if h = .first then decide (r.second = .okay) else decide (r.first = .okay)) } := by
      cases h <;> simp [AssignedRecord.answer, AssignedRecord.setHalf, answeredHalf]
    have hwritten := map_modRecord_eq s.journal.records seq r (fun q => q.answer h .okay) honly
    rw [hanswered, ← hrecords] at hwritten
    rw [exec_recordWriteComplete_answered .okay hacc hpurpose hrec hjournals, State.recordAnswered, if_neg hmark,
      if_neg hfailed, if_neg (fun hboth => hlast hboth.2), ← hwritten]
    rfl

/-! ## The durable head passes an UNDO record (R47, R74) -/

/-- R73: the operation of a line waits for its record to become durable. -/
def waitDurable (l : LineAddr) (o : Operation) : Operation :=
  if o.line = l then { o with stage := .waitingDurable } else o

theorem waitDurable_line (l : LineAddr) (o : Operation) : (waitDurable l o).line = o.line := by
  unfold waitDurable
  split <;> rfl

theorem waitDurable_tag (l : LineAddr) (o : Operation) : (waitDurable l o).tag = o.tag := by
  unfold waitDurable
  split <;> rfl

theorem waitDurable_find? (l : LineAddr) (ops : List Operation) :
    (ops.map (waitDurable l)).find? (fun o => decide (o.line = l))
      = (ops.find? (fun o => decide (o.line = l))).map (waitDurable l) := by
  rw [List.find?_map]
  congr 2
  funext o
  show decide ((waitDurable l o).line = l) = _
  rw [waitDurable_line]

theorem waitDurable_eraseP (l : LineAddr) (ops : List Operation) :
    (ops.map (waitDurable l)).eraseP (fun o => decide (o.line = l))
      = (ops.eraseP (fun o => decide (o.line = l))).map (waitDurable l) := by
  rw [List.eraseP_map]
  congr 2
  funext o
  show decide ((waitDurable l o).line = l) = _
  rw [waitDurable_line]

/-- The operation of a line is the only one that waits, so once it is gone none does. -/
theorem waitDurable_erased (l : LineAddr) (ops : List Operation) (hnodup : (ops.map (fun o => o.line)).Nodup) :
    (ops.eraseP (fun o => decide (o.line = l))).map (waitDurable l) = ops.eraseP (fun o => decide (o.line = l)) := by
  rw [eraseP_eq_filter_of_nodup (fun o : Operation => o.line) l ops hnodup]
  refine (List.map_congr_left (fun o ho => ?_)).trans (List.map_id _)
  exact if_neg (fun hline => by simpa [hline] using (List.mem_filter.1 ho).2)

/-- R23, R47: the durable head has passed the UNDO record of a line whose last half is now written: the line's entry is
HELD. What the report makes of the operation is still to come. -/
def State.undoPassed (s : State) (k : AccessSlot) (l : LineAddr) (rest : List AssignedRecord) : State :=
  { s with
    link := s.link.set k none
    journal := (s.headPast rest).journal
    holds := s.holds.map (fun e => if e.line = l then { e with state := .held } else e) }

/-- R47, R74: the durable head passes one UNDO record, and its operation goes on or, if cancelled, ends. -/
theorem State.advanceDurable_undoRecord (s : State) (k : AccessSlot) (r : AssignedRecord) (rest : List AssignedRecord)
    (o : Operation) (hrecords : s.journal.records = r :: rest) (hseqs : ∀ q ∈ rest, q.record.seq ≠ r.record.seq)
    (hrest : ∀ q, rest.head? = some q → q.mark = false) (hkind : r.record.kind = .undo)
    (hop : s.op? r.record.line = some o) :
    (s.lastHalfWritten k r.record.seq r).advanceDurable =
      if o.cancelled = true then State.drainTaken (State.opGone { s.undoPassed k r.record.line rest with
          ops := s.ops.map (waitDurable r.record.line) } o .error .aborted) o.requester
      else { s.undoPassed k r.record.line rest with
        ops := s.ops.map (fun p => if p.line = r.record.line then { p with stage := .forwarding, access := none } else p)
        reports := s.reports ++ [r.record.line] } := by
  have hmarked : (s.lastHalfWritten k r.record.seq r).journal.records
      = [{ r with first := .okay, second := .okay, mark := true }] ++ rest := by
    show s.journal.records.map _ = _
    rw [hrecords, List.map_cons, if_pos rfl]
    exact congrArg _ ((List.map_congr_left (fun q hq => if_neg (hseqs q hq))).trans (List.map_id _))
  have hops : (s.lastHalfWritten k r.record.seq r).ops = s.ops.map (waitDurable r.record.line) := if_pos hkind
  have hfound : (s.ops.map (waitDurable r.record.line)).find? (fun o => decide (o.line = r.record.line))
      = some { o with stage := .waitingDurable } := by
    have hop' : s.ops.find? (fun o => decide (o.line = r.record.line)) = some o := hop
    rw [waitDurable_find?, hop', Option.map_some, waitDurable, if_pos (State.op?_line hop)]
  have hforwarding : (s.ops.map (waitDurable r.record.line)).map (fun p =>
        if p.line = r.record.line then { p with stage := .forwarding, access := none } else p)
      = s.ops.map (fun p => if p.line = r.record.line then { p with stage := .forwarding, access := none } else p) := by
    rw [List.map_map]
    refine List.map_congr_left (fun p _ => ?_)
    by_cases hline : p.line = r.record.line <;> simp [waitDurable, hline]
  obtain ⟨-, hpassed, -⟩ := State.advanceDurable_passes (s.lastHalfWritten k r.record.seq r) _ rest hmarked
    (List.cons_ne_nil _ _) (by simp) hrest _ rfl
  rw [hpassed (by simpa using hkind), State.allReported, List.foldl_cons, List.foldl_nil, if_pos hkind,
    State.undoReported]
  dsimp only
  rw [hops, hfound]
  dsimp only
  rw [hforwarding]
  rfl

/-- Settles O40: the record is the only one the durable head passes, and its report reaches the operation, which goes on
or, if cancelled, ends. -/
theorem undoRecordDurable : Obligations.UndoRecordDurable := by
  intro s k a h r rest o hacc hpurpose hjournals hrecords hseqs hrest hkind hother hop
  have hrec : s.record? r.record.seq = some r := by
    rw [State.record?, hrecords, List.find?_cons_of_pos (by simp)]
  have honly : ∀ q ∈ s.journal.records, q.record.seq = r.record.seq → q = r := by
    rw [hrecords]
    intro q hq hseq
    exact (List.mem_cons.1 hq).resolve_right (fun hq => hseqs q hq hseq)
  have hline : o.line = r.record.line := State.op?_line hop
  refine ⟨_, exec_recordWriteComplete_lastHalf s k a _ h r hacc hpurpose hrec hjournals honly hother, ?_⟩
  rw [s.advanceDurable_undoRecord k r rest o hrecords hseqs hrest hkind hop]
  by_cases hcancelled : o.cancelled = true
  · rw [if_pos hcancelled]
    refine ⟨rfl, rfl, fun hgoes => absurd hcancelled (by simp [hgoes]), fun _ => ⟨rfl, fun p hp => ?_, rfl,
      fun hnodup => ?_⟩, rfl⟩
    · have hp : p ∈ (s.ops.map (waitDurable r.record.line)).eraseP (fun p => decide (p.line = o.line)) := hp
      rw [hline, waitDurable_eraseP] at hp
      obtain ⟨q, hq, rfl⟩ := List.mem_map.1 hp
      exact ⟨q, hq, (waitDurable_line _ q).symm, (waitDurable_tag _ q).symm⟩
    · simp only [State.opGone, hline, waitDurable_eraseP, waitDurable_erased _ _ hnodup]
      rfl
  · rw [if_neg hcancelled]
    exact ⟨rfl, rfl, fun _ => ⟨rfl, rfl, rfl, rfl, rfl, rfl⟩, fun hends => absurd hends hcancelled, rfl⟩

/-! ## A record written with error (R48) -/

/-- A record's half answered, as the statement about its error writes it. -/
def State.halfAnswered (s : State) (k : AccessSlot) (seq : Serial) (h : Half) (v : HalfWrite) : State :=
  { s with
    link := s.link.set k none
    journal := { s.journal with records := s.journal.records.map (fun q =>
      if q.record.seq = seq then (if h = .first then { q with first := v } else { q with second := v }) else q) } }

theorem State.modRecord_setHalf (s : State) (k : AccessSlot) (seq : Serial) (h : Half) (v : HalfWrite) :
    (s.freeAccess k).modRecord seq (fun q => q.setHalf h v) = s.halfAnswered k seq h v := by
  simp only [AssignedRecord.setHalf_eq]
  rfl

/-- R46: an answer that leaves the record unmarked changes nothing but the half. -/
theorem State.modRecord_unmarked {s : State} {seq : Serial} {r : AssignedRecord} (k : AccessSlot) (h : Half)
    (result : WriteResult) (hrec : s.record? seq = some r)
    (hnodup : (s.journal.records.map (fun q => q.record.seq)).Nodup) (hmark : r.mark = false)
    (hanswer : ¬ (r.answer h result).mark = true) :
    (s.freeAccess k).modRecord seq (fun q => q.answer h result) = s.halfAnswered k seq h (answeredHalf result) := by
  obtain ⟨-, honly⟩ := State.record?_only hrec hnodup
  rw [← State.modRecord_setHalf]
  have hrecords := (map_modRecord_eq s.journal.records seq r (fun q => q.answer h result) honly).trans
    ((congrArg (fun x => s.journal.records.map (fun q => if q.record.seq = seq then x else q))
      (r.answer_unmarked h result hmark hanswer)).trans
    (map_modRecord_eq s.journal.records seq r (fun q => q.setHalf h (answeredHalf result)) honly).symm)
  unfold State.modRecord
  rw [show (s.freeAccess k).journal = s.journal from rfl, hrecords]

/-- R77: the entry into FAULTED has ended the operations that wait for their record. -/
theorem State.failUndo_ended (s : State) (r : AssignedRecord) (h : ∀ o ∈ s.ops, o.stage ≠ .appending) :
    s.failUndo r = s := by
  unfold State.failUndo
  split
  · rename_i o _ hop
    exact if_neg (fun hstage => h o (List.mem_of_find?_eq_some hop) hstage.1)
  · rfl

theorem State.failUndo_none (s : State) (r : AssignedRecord)
    (h : r.record.kind ≠ .undo ∨ s.op? r.record.line = none) : s.failUndo r = s := by
  unfold State.failUndo
  split
  · rename_i hkind hop
    exact (h.elim (fun h => h hkind) (fun h => by cases hop.symm.trans h)).elim
  · rfl

theorem State.failUndo_ends {s : State} {r : AssignedRecord} {o : Operation} (hkind : r.record.kind = .undo)
    (hop : s.op? r.record.line = some o) (hstage : o.stage = .appending)
    (hslot : o.slot.map (fun p => p.seq) = some r.record.seq) :
    s.failUndo r = (s.opGone o .error .fault).drainTaken o.requester := by
  unfold State.failUndo
  rw [hkind, hop]
  dsimp only
  rw [if_pos ⟨hstage, hslot⟩, State.retireOp, State.noteDrain_eq, State.endOp_eq]

/-- R48, R158: in SERVING and DRAINING the fault is taken. -/
theorem State.recordFailed_works (s : State) (r : AssignedRecord) (hworks : s.works)
    (hnodup : (s.ops.map (fun o => o.line)).Nodup) :
    s.recordFailed r = s.enterFaulted r.record.kind.faultCause := by
  have hfaulted := State.reportFault_works_faultedFrom s r.record.kind.faultCause hworks
  rw [s.reportFault_works _ hworks] at hfaulted
  obtain ⟨-, -, -, -, -, -, -, -, hops, -⟩ := hfaulted
  have hentry : ¬ s.resetAtEntry := fun hentry => by
    rcases State.works_state hworks with hstate | hstate <;> cases hstate.symm.trans hentry.1
  unfold State.recordFailed
  rw [s.reportFault_works _ hworks]
  refine State.failUndo_ended _ r (fun o ho hstage => ?_)
  rw [hops hnodup] at ho
  simp only [if_neg hentry, List.map_id'] at ho
  obtain ⟨ho, hkept⟩ := List.mem_filter.1 ho
  exact of_decide_eq_true hkept (List.mem_filter.2 ⟨ho, decide_eq_true (Or.inl hstage)⟩)

/-- R73, R161: in the wind-down the fault report is discarded. -/
theorem State.recordFailed_windDown (s : State) (r : AssignedRecord) (hpower : s.device.powerFailPending = true) :
    s.recordFailed r = s.failUndo r := by
  unfold State.recordFailed State.reportFault
  rw [if_pos hpower]

theorem RecordKind.faultCause_eq (kind : RecordKind) :
    kind.faultCause = if kind = .undo then .journalWrite else .endRecord := by
  cases kind <;> rfl

theorem answeredHalf_eq (result : WriteResult) :
    answeredHalf result = if result = .okay then .okay else .failed := rfl

theorem State.woundDown_running (s : State) (h : s.device.powerFailPending = false) : s.woundDown = s := if_pos h

/-- R38, R48: both halves are answered and one of them ERROR: the record write has completed with error. -/
theorem exec_recordWriteComplete_failed {s : State} {k : AccessSlot} {a : Access} {seq : Serial} {h : Half}
    {r : AssignedRecord} {result : WriteResult} {other : HalfWrite} (hacc : s.access k = some a)
    (hpurpose : a.purpose = .recordHalf seq h) (hrec : s.record? seq = some r)
    (hnodup : (s.journal.records.map (fun q => q.record.seq)).Nodup)
    (hother : other = (if h = .first then r.second else r.first)) (hjournals : s.journals) (hmark : r.mark = false)
    (hboth : (result = .error ∧ (other = .okay ∨ other = .failed)) ∨ (result = .okay ∧ other = .failed)) :
    exec (.recordWriteComplete k result) s = .next
      ((s.halfAnswered k seq h (answeredHalf result)).recordFailed (r.answer h result)).woundDown := by
  have hfailed := (r.answer_failed h result other hother).2 hboth
  have hunmarked : ¬ (r.answer h result).mark = true := by
    rw [AssignedRecord.answer_mark, ← hother]
    rintro ⟨rfl, rfl⟩
    rcases hboth with ⟨hresult, -⟩ | ⟨-, hresult⟩ <;> cases hresult
  rw [exec_recordWriteComplete_answered result hacc hpurpose hrec hjournals, State.recordAnswered, if_neg hunmarked,
    if_pos hfailed, State.modRecord_unmarked k h result hrec hnodup hmark hunmarked]

/-- R38: a first ERROR is only noted. -/
theorem exec_recordWriteComplete_noted {s : State} {k : AccessSlot} {a : Access} {seq : Serial} {h : Half}
    {r : AssignedRecord} {other : HalfWrite} (hacc : s.access k = some a)
    (hpurpose : a.purpose = .recordHalf seq h) (hrec : s.record? seq = some r)
    (hnodup : (s.journal.records.map (fun q => q.record.seq)).Nodup)
    (hother : other = (if h = .first then r.second else r.first)) (hjournals : s.journals) (hmark : r.mark = false)
    (hopen : other = .waiting ∨ other = .issued) :
    exec (.recordWriteComplete k .error) s = .next (s.halfAnswered k seq h .failed).woundDown := by
  have hunmarked : ¬ (r.answer h .error).mark = true := by
    rw [AssignedRecord.answer_mark]
    rintro ⟨hresult, -⟩
    cases hresult
  have hunfailed : ¬ (r.answer h .error).failed = true := by
    rw [AssignedRecord.answer_failed r h .error other hother]
    rcases hopen with rfl | rfl <;> simp
  rw [exec_recordWriteComplete_answered .error hacc hpurpose hrec hjournals, State.recordAnswered, if_neg hunmarked,
    if_neg hunfailed, State.modRecord_unmarked k h .error hrec hnodup hmark hunmarked]
  rfl

/-- R54, R132: in FAULTED the result is discarded. -/
theorem exec_recordWriteComplete_faulted {s : State} {k : AccessSlot} {a : Access} {seq : Serial} {h : Half}
    {r : AssignedRecord} (result : WriteResult) (hacc : s.access k = some a)
    (hpurpose : a.purpose = .recordHalf seq h) (hrec : s.record? seq = some r) (hstate : s.device.state = .faulted) :
    exec (.recordWriteComplete k result) s
      = .next (s.halfAnswered k seq h (answeredHalf result)).woundDown := by
  have hexec : exec (.recordWriteComplete k result) s
      = .next (s.complete k Purpose.isRecordHalf (State.recordWritten result)) := rfl
  have hfound : (s.freeAccess k).record? seq = some r := hrec
  have hseq : r.record.seq = seq := by simpa using List.find?_some hrec
  have hfaulted : (s.freeAccess k).device.state = .faulted := hstate
  rw [hexec, State.complete_delivered s k a _ _ hacc (by rw [hpurpose]; rfl), State.settle_eq]
  simp only [State.recordWritten, hpurpose, hfound, if_pos hfaulted]
  rw [State.recordDiscarded, hseq, State.modRecord_setHalf]

/-- R48, R158: the device enters FAULTED with the record's cause. -/
theorem State.halfAnswered_recordFailed_works {s : State} (k : AccessSlot) (seq : Serial) (h : Half) (v : HalfWrite)
    (r : AssignedRecord) (hworks : s.works) (hlines : (s.ops.map (fun o => o.line)).Nodup) :
    let u := s.halfAnswered k seq h v
    let t := u.recordFailed r
    t.woundDown = t ∧ s.faultedFrom t (if r.record.kind = .undo then .journalWrite else .endRecord)
      ∧ t.journal = u.journal ∧ t.access k = none ∧ t.forward = s.forward := by
  intro u t
  have hworks' : u.works := hworks
  have ht : t = u.reportFault (if r.record.kind = .undo then .journalWrite else .endRecord) := by
    rw [State.reportFault_works _ _ hworks', ← RecordKind.faultCause_eq]
    exact State.recordFailed_works u r hworks' hlines
  have hfreed : u.access k = none := (s.access_freeAccess k k).trans (if_pos rfl)
  rw [ht]
  refine ⟨State.woundDown_running _ ?_, State.reportFault_works_faultedFrom u _ hworks', State.reportFault_journal _ _,
    ?_, ?_⟩
  · rw [State.reportFault_powerFail]
    exact State.works_running hworks'
  · unfold State.access
    rwa [State.reportFault_link]
  · rw [State.reportFault_works _ _ hworks', State.enterFaulted_forward]
    rfl

/-- Settles O42: by what the answer makes of the record, and by the device state. -/
theorem recordErrorFaults : Obligations.RecordErrorFaults := by
  intro s k a seq h r result other answered hacc hpurpose hrec hnodup hother hanswered
  obtain rfl : answered = s.halfAnswered k seq h := funext hanswered
  rw [← answeredHalf_eq]
  refine ⟨fun hworks hlines hmark hboth => ?_, fun hjournals hmark hresult hopen => ?_,
    fun hjournals hpower hmark hboth u hu => ?_, exec_recordWriteComplete_faulted result hacc hpurpose hrec⟩
  · obtain ⟨hrunning, hfaulted⟩ := State.halfAnswered_recordFailed_works k seq h (answeredHalf result)
      (r.answer h result) hworks hlines
    rw [exec_recordWriteComplete_failed hacc hpurpose hrec hnodup hother (State.works_state hworks) hmark hboth, hrunning]
    rw [AssignedRecord.answer_record] at hfaulted
    exact ⟨_, rfl, hfaulted⟩
  · rw [hresult]
    exact exec_recordWriteComplete_noted hacc hpurpose hrec hnodup hother hjournals hmark hopen
  · have hpower' : u.device.powerFailPending = true := by rw [hu]; exact hpower
    rw [exec_recordWriteComplete_failed hacc hpurpose hrec hnodup hother hjournals hmark hboth, ← hu,
      State.recordFailed_windDown _ _ hpower']
    refine ⟨fun o hkind hop hstage hslot => ?_, fun hnone => ?_⟩
    · have hop' : u.op? r.record.line = some o := by rw [hu]; exact hop
      rw [State.failUndo_ends (o := o) (by rwa [AssignedRecord.answer_record]) (by rwa [AssignedRecord.answer_record])
        hstage (by rwa [AssignedRecord.answer_record])]
    · rw [State.failUndo_none]
      rw [AssignedRecord.answer_record, hu]
      exact hnone

end Sys2Proof.Machine

/-! PROOFS. Family 03_the_undo_journal: a half of a header image is answered (R51, R52, R53, R54, R56). -/

namespace Sys2Proof.Machine

/-- HEADER_WRITE_COMPLETE delivers the answer to the Header Writer, and the wind-down goes on. -/
theorem exec_headerWriteComplete {s : State} {k : AccessSlot} {a : Access} {h : Half} (result : WriteResult)
    (hacc : s.access k = some a) (hpurpose : a.purpose = .headerHalf h) :
    exec (.headerWriteComplete k result) s
      = .next (State.headerWritten result a (s.freeAccess k)).woundDown := by
  have hexec : exec (.headerWriteComplete k result) s
      = .next (s.complete k Purpose.isHeaderHalf (State.headerWritten result)) := rfl
  rw [hexec, State.complete_delivered s k a _ _ hacc (by rw [hpurpose]; rfl), State.settle_eq]

section Answers

variable {s : State} {a : Access} {w : HeaderWrite}

/-- R51: the first half's OKAY lets the second be issued. -/
theorem State.headerWritten_first (hpurpose : a.purpose = .headerHalf .first) (hflight : s.header.inFlight = some w)
    (hstate : s.device.state ≠ .faulted) :
    State.headerWritten .okay a s = s.setInFlight (some { w with stage := .secondWaiting }) := by
  simp only [State.headerWritten, hflight, hpurpose, if_neg hstate]

/-- R52: the second half's OKAY publishes the image's tail. -/
theorem State.headerWritten_second (hpurpose : a.purpose = .headerHalf .second) (hflight : s.header.inFlight = some w)
    (hstate : s.device.state ≠ .faulted) : State.headerWritten .okay a s = s.publish w.image := by
  simp only [State.headerWritten, hflight, hpurpose, if_neg hstate]

theorem State.headerWritten_error {h : Half} (hpurpose : a.purpose = .headerHalf h)
    (hflight : s.header.inFlight = some w) (hstate : s.device.state ≠ .faulted) :
    State.headerWritten .error a s = s.headerError w := by
  simp only [State.headerWritten, hflight, hpurpose, if_neg hstate]

/-- R54, R133: in FAULTED the result is discarded, and the second half of an image begun may still be issued (log 12). -/
theorem State.headerWritten_faulted {h : Half} (result : WriteResult) (hpurpose : a.purpose = .headerHalf h)
    (hflight : s.header.inFlight = some w) (hstate : s.device.state = .faulted) :
    State.headerWritten result a s
      = s.setInFlight (if h = .first then some { w with stage := .secondWaiting } else none) := by
  simp only [State.headerWritten, hflight, hpurpose, if_pos hstate]
  cases h <;> rfl

end Answers

/-- R53, R131: an image is written three times in all. -/
theorem State.headerError_again {s : State} {w : HeaderWrite} (hpower : s.device.powerFailPending = false)
    (hattempt : w.attempt < 3) : s.headerError w
      = s.setInFlight (some { image := w.image, attempt := w.attempt + 1, stage := .firstWaiting }) := by
  rw [State.headerError, if_neg (by simp [hpower]), if_pos (show w.attempt < Config.attempts from hattempt)]

theorem State.headerError_last {s : State} {w : HeaderWrite} (hpower : s.device.powerFailPending = false)
    (hattempt : 3 ≤ w.attempt) : s.headerError w = (s.setInFlight none).reportFault .headerWrite := by
  rw [State.headerError, if_neg (by simp [hpower]),
    if_neg (show ¬ w.attempt < Config.attempts from Nat.not_lt.2 hattempt)]

/-- R56, R161: in the wind-down nothing is repeated, and the fault report is discarded. -/
theorem State.headerError_windDown {s : State} {w : HeaderWrite} (hpower : s.device.powerFailPending = true) :
    s.headerError w = s.setInFlight none := by
  have hdiscarded : (s.setInFlight none).reportFault .headerWrite = s.setInFlight none := if_pos hpower
  rw [State.headerError, if_pos hpower, hdiscarded]

/-- R53, R158: the last attempt's ERROR leads to FAULTED, where no image is kept. -/
theorem State.reportFault_headerWrite {s : State} (hworks : s.works) :
    (s.reportFault .headerWrite).woundDown = s.reportFault .headerWrite
      ∧ s.faultedFrom (s.reportFault .headerWrite) .headerWrite
      ∧ (s.header.inFlight = none → (s.reportFault .headerWrite).header.inFlight = none)
      ∧ (s.reportFault .headerWrite).journal = s.journal := by
  refine ⟨State.woundDown_running _ ?_, State.reportFault_works_faultedFrom s _ hworks, fun hflight => ?_,
    State.reportFault_journal s _⟩
  · rw [State.reportFault_powerFail]
    exact State.works_running hworks
  · have hheader : (s.faultHeld.faultOps).header = s.header := by
      rw [State.faultOps_header, State.faultHeld_header]
    rw [State.reportFault_works s _ hworks]
    show (s.faultHeld.faultOps).header.stop.inFlight = none
    rw [hheader, HeaderWriter.stop, hflight]
    rfl

/-- Settles O43: by the half, the result and the device state. -/
theorem headerWriteCompletes : Obligations.HeaderWriteCompletes := by
  refine ⟨fun s k a h w hacc hpurpose hflight hworks => ?_, fun s k a h w hacc hpurpose hflight hjournals hpower => ?_,
    fun s k a h w result hacc hpurpose hflight hstate => ?_⟩
  · have hlive : (s.freeAccess k).device.state ≠ .faulted := State.journals_notFaulted (State.works_state hworks)
    have hflight : (s.freeAccess k).header.inFlight = some w := hflight
    have hpower : (s.freeAccess k).device.powerFailPending = false := State.works_running hworks
    rw [exec_headerWriteComplete .okay hacc hpurpose, exec_headerWriteComplete .error hacc hpurpose]
    refine ⟨?_, ?_, fun hattempt => ?_, fun hattempt => ?_⟩
    · rintro rfl
      rw [State.headerWritten_first hpurpose hflight hlive, State.woundDown_running]
      · rfl
      · exact hpower
    · rintro rfl
      rw [State.headerWritten_second hpurpose hflight hlive, State.woundDown_running, State.publish, hpower]
      · rfl
      · exact hpower
    · rw [State.headerWritten_error hpurpose hflight hlive, State.headerError_again hpower hattempt,
        State.woundDown_running]
      · rfl
      · exact hpower
    · obtain ⟨hrunning, hfaulted, hnone, hjournal⟩ :=
        State.reportFault_headerWrite (s := (s.freeAccess k).setInFlight none) hworks
      rw [State.headerWritten_error hpurpose hflight hlive, State.headerError_last hpower hattempt, hrunning]
      exact ⟨_, rfl, hfaulted, hnone rfl, hjournal⟩
  · have hlive : (s.freeAccess k).device.state ≠ .faulted := State.journals_notFaulted hjournals
    have hflight : (s.freeAccess k).header.inFlight = some w := hflight
    have hpower : (s.freeAccess k).device.powerFailPending = true := hpower
    rw [exec_headerWriteComplete .okay hacc hpurpose, exec_headerWriteComplete .error hacc hpurpose]
    refine ⟨?_, ?_, ?_⟩
    · rintro rfl
      rw [State.headerWritten_first hpurpose hflight hlive]
      rfl
    · rintro rfl
      rw [State.headerWritten_second hpurpose hflight hlive, State.publish, hpower]
      rfl
    · rw [State.headerWritten_error hpurpose hflight hlive, State.headerError_windDown hpower]
      rfl
  · rw [exec_headerWriteComplete result hacc hpurpose,
      State.headerWritten_faulted (s := s.freeAccess k) result hpurpose hflight hstate]
    rfl

end Sys2Proof.Machine

/-! PROOFS. Family 03_the_undo_journal: the Journal Writer takes an end-record request (R44, R54, R56). -/

namespace Sys2Proof.Machine

/-! ## When a request is taken -/

theorem exec_endRecordRequest_taken {s : State} {c : RequesterId} {q : EndRequest}
    (hrequest : s.journal.requests.find? (fun q => decide (q.context = c)) = some q) (hworks : s.works) :
    exec (.endRecordRequest c) s = .next (s.takeEndRequest q) := by
  have htaken : (!s.device.powerFailPending && (decide (s.device.state = .serving) || decide (s.device.state = .draining)))
      = true := by
    rw [State.works_running hworks]
    rcases State.works_state hworks with hstate | hstate <;> simp [hstate]
  show execEndRecordRequest c s = _
  simp only [execEndRecordRequest, hrequest, htaken, if_true]

theorem exec_endRecordRequest_notTaken {s : State} {c : RequesterId}
    (h : s.device.powerFailPending = true ∨ (s.device.state ≠ .serving ∧ s.device.state ≠ .draining)
      ∨ ∀ q ∈ s.journal.requests, q.context ≠ c) : exec (.endRecordRequest c) s = .next s := by
  show execEndRecordRequest c s = _
  unfold execEndRecordRequest
  split
  · rename_i q hrequest
    refine if_neg (fun htaken => ?_)
    simp only [Bool.and_eq_true, Bool.not_eq_true', Bool.or_eq_true, decide_eq_true_eq] at htaken
    rcases h with hpower | ⟨hserving, hdraining⟩ | hnone
    · cases hpower.symm.trans htaken.1
    · exact htaken.2.elim hserving hdraining
    · exact hnone q (List.mem_of_find?_eq_some hrequest) (by simpa using List.find?_some hrequest)
  · rfl

/-! ## With a record, or without one (R44) -/

/-- The request leaves the list. -/
def State.endRequestTaken (s : State) (c : RequesterId) : State :=
  { s with journal := { s.journal with requests := s.journal.requests.eraseP (fun q => decide (q.context = c)) } }

theorem State.takeEndRequest_granted {s : State} {q : EndRequest}
    (h : (s.ctx q.context).firstSlot ≠ none ∨ 16 < s.freeSlots) :
    s.takeEndRequest q = (s.endRequestTaken q.context).grantSlot q.context q.record :=
  if_pos (h.imp_left Option.isSome_iff_ne_none.2)

theorem State.takeEndRequest_withoutRecord {s : State} {q : EndRequest} (hfirst : (s.ctx q.context).firstSlot = none)
    (hfull : s.freeSlots ≤ 16) : s.takeEndRequest q = (s.endRequestTaken q.context).endWithoutRecord q :=
  if_neg (fun h => h.elim (by simp [hfirst]) (Nat.not_lt.2 hfull))

/-- Settles O44, by the device state and whether a slot is granted. -/
theorem endRecordRequest : Obligations.EndRecordRequest := by
  refine ⟨fun s c q hrequest hworks => ?_, fun s c hpower => exec_endRecordRequest_notTaken (.inl hpower),
    fun s c hfaulted => exec_endRecordRequest_notTaken (.inr (.inl (by simp [hfaulted]))),
    fun s c h => exec_endRecordRequest_notTaken (.inr h)⟩
  obtain rfl : q.context = c := by simpa using List.find?_some hrequest
  rw [exec_endRecordRequest_taken hrequest hworks]
  refine ⟨fun hgranted => ?_, fun hfirst hfull => ?_⟩
  · rw [State.takeEndRequest_granted hgranted]
    rfl
  · obtain ⟨hended, hjournal, hops, -, hforward, hlink⟩ :=
      State.endDurable_recordEnded (s.endRequestTaken q.context) q.context q.kind _ rfl
    rw [State.takeEndRequest_withoutRecord hfirst hfull]
    exact ⟨_, rfl, hended, hjournal, hops, hforward, hlink⟩

end Sys2Proof.Machine

/-! PROOFS. Family 03_the_undo_journal: what the Recovery Sequencer asks for in each phase (R38, R58, R145, R150, R151). -/

namespace Sys2Proof.Machine

/-! ## Where the accesses go (R38, R58) -/

theorem Half.offset_eq (h : Half) : h.offset = if h = .first then 0 else 64 := by cases h <;> rfl

theorem Copy.offset_eq (c : Copy) : c.offset = if c = .a then 0 else 128 := by cases c <;> rfl

theorem Copy.other_eq (c : Copy) : c.other = if c = .a then .b else .a := by cases c <;> rfl

/-- R58: the n-th place of a formatting's order: the slot and the half with this number. -/
def Params.halfSlotLine (p : Params) (j : Nat) : LineAddr := p.slotLine (j / 2) (if j % 2 = 0 then .first else .second)

theorem State.zeroLine_eq (s : State) (i : Nat) (hi : i < 2 * s.slotCount) :
    s.zeroLine i
      = s.params.halfSlotLine (Config.zeroOrder s.recovery.zeroDraw (2 * s.slotCount) ⟨i, hi⟩).val :=
  dif_pos hi

/-- R58: each half of each slot has its place in the order. -/
theorem State.zeroLine_surjective (s : State) (slot : Nat) (hslot : slot < s.slotCount) (h : Half) :
    ∃ i < 2 * s.slotCount, s.zeroLine i = s.params.slotLine slot h := by
  have hnumber : ∃ j < 2 * s.slotCount, j / 2 = slot ∧ (if j % 2 = 0 then Half.first else Half.second) = h := by
    cases h with
    | first => exact ⟨2 * slot, by omega, by omega, if_pos (by omega)⟩
    | second => exact ⟨2 * slot + 1, by omega, by omega, if_neg (by omega)⟩
  obtain ⟨j, hj, hjslot, hjhalf⟩ := hnumber
  let order := Config.zeroOrder s.recovery.zeroDraw (2 * s.slotCount)
  refine ⟨(order.symm ⟨j, hj⟩).val, (order.symm ⟨j, hj⟩).isLt, ?_⟩
  rw [State.zeroLine_eq _ _ (order.symm ⟨j, hj⟩).isLt]
  have hback : order ⟨(order.symm ⟨j, hj⟩).val, (order.symm ⟨j, hj⟩).isLt⟩ = ⟨j, hj⟩ := order.apply_symm_apply _
  rw [hback, Params.halfSlotLine, hjslot, hjhalf]

/-- R38: the line of the half slot with a number lies that many lines past the first slot. -/
theorem Params.halfSlotLine_eq (p : Params) (j : Nat) :
    p.halfSlotLine j = BitVec.ofNat 34 (p.journalBase / 64 + 4 + j) := by
  have hoffset : 256 + 128 * (j / 2) + (if j % 2 = 0 then Half.first else Half.second).offset = 64 * (4 + j) := by
    rw [Half.offset_eq]
    rcases Nat.mod_two_eq_zero_or_one j with hj | hj <;> simp only [hj] <;> simp <;> omega
  unfold Params.halfSlotLine Params.slotLine Params.areaLine
  rw [hoffset]
  congr 1
  omega

/-- R58: the journal area is no larger than the address space, so no two of them share a line. -/
theorem State.zeroLine_injective (s : State) (hcount : s.slotCount ≤ 131070) (i : Nat) (hi : i < 2 * s.slotCount)
    (j : Nat) (hj : j < 2 * s.slotCount) (hline : s.zeroLine i = s.zeroLine j) : i = j := by
  rw [State.zeroLine_eq s i hi, State.zeroLine_eq s j hj, Params.halfSlotLine_eq, Params.halfSlotLine_eq] at hline
  generalize hx : Config.zeroOrder s.recovery.zeroDraw (2 * s.slotCount) ⟨i, hi⟩ = x at hline
  generalize hy : Config.zeroOrder s.recovery.zeroDraw (2 * s.slotCount) ⟨j, hj⟩ = y at hline
  have hxy : x = y := by
    have hmod := congrArg BitVec.toNat hline
    simp only [BitVec.toNat_ofNat] at hmod
    have := x.isLt
    have := y.isLt
    exact Fin.ext (by omega)
  have hij := (Config.zeroOrder s.recovery.zeroDraw (2 * s.slotCount)).injective (hx.trans (hxy.trans hy.symm))
  exact congrArg Fin.val hij

/-! ## What is wanted (R145) -/

/-- The halves not yet asked for, each under its job's name. -/
theorem mem_wantedHalves (asked : Half → Prop) [DecidablePred asked] (job : Half → SeqJob) (j : SeqJob) :
    j ∈ (if asked .first then [job .first] else []) ++ (if asked .second then [job .second] else []) ↔
      ∃ h, j = job h ∧ asked h := by
  rw [List.mem_append]
  constructor
  · rintro (hj | hj)
    · split at hj
      · exact ⟨.first, List.mem_singleton.1 hj, by assumption⟩
      · cases hj
    · split at hj
      · exact ⟨.second, List.mem_singleton.1 hj, by assumption⟩
      · cases hj
  · rintro ⟨h, rfl, hasked⟩
    cases h with
    | first => exact .inl (by rw [if_pos hasked]; exact List.mem_singleton_self _)
    | second => exact .inr (by rw [if_pos hasked]; exact List.mem_singleton_self _)

theorem PlaceRead.mem_wanted (p : PlaceRead) (job : Half → SeqJob) (j : SeqJob) : j ∈ p.wanted job ↔
    ∃ h, j = job h ∧ (if h = .first then p.first else p.second) = .waiting :=
  mem_wantedHalves (fun h => (if h = .first then p.first else p.second) = .waiting) job j

theorem PlaceWrite.mem_wanted (p : PlaceWrite) (job : Half → SeqJob) (j : SeqJob) : j ∈ p.wanted job ↔
    ∃ h, j = job h ∧ (if h = .first then p.first else p.second) = .waiting :=
  mem_wantedHalves (fun h => (if h = .first then p.first else p.second) = .waiting) job j

/-- Jobs named by their half are wanted exactly for the halves that are. -/
theorem wanted_byHalf {wanted : List SeqJob} {job : Half → SeqJob} {asked : Half → Prop} (hjob : Function.Injective job)
    (hwanted : ∀ j, j ∈ wanted ↔ ∃ h, j = job h ∧ asked h) :
    (∀ j ∈ wanted, ∃ h, j = job h) ∧ ∀ h, job h ∈ wanted ↔ asked h := by
  refine ⟨fun j hj => ?_, fun h => ⟨fun hj => ?_, fun hasked => (hwanted _).2 ⟨h, rfl, hasked⟩⟩⟩
  · obtain ⟨h, hj, -⟩ := (hwanted j).1 hj
    exact ⟨h, hj⟩
  · obtain ⟨h', heq, hasked⟩ := (hwanted _).1 hj
    rwa [hjob heq]

section Phases

variable {s : State}

theorem State.seqWanted_headers (hphase : s.recovery.phase = .headers) :
    s.seqWanted = s.recovery.io.headerA.wanted (.headerRead .a) ++ s.recovery.io.headerB.wanted (.headerRead .b) := by
  rw [State.seqWanted, hphase]

theorem State.seqWanted_zeroing (hphase : s.recovery.phase = .formatting)
    (hleft : s.recovery.zeroDone < 2 * s.slotCount) : s.seqWanted
      = List.replicate (min Config.accessSlots (2 * s.slotCount - s.recovery.io.zeroIssued)) .zeroWrite := by
  rw [State.seqWanted, hphase]
  exact if_pos hleft

theorem State.seqWanted_formatHeader (hphase : s.recovery.phase = .formatting)
    (hdone : 2 * s.slotCount ≤ s.recovery.zeroDone) :
    s.seqWanted = s.recovery.io.formatHeader.wanted .formatHeader := by
  rw [State.seqWanted, hphase]
  exact if_neg (Nat.not_lt.2 hdone)

theorem State.seqWanted_forwardWalk (hphase : s.recovery.phase = .forwardWalk) :
    s.seqWanted = s.recovery.io.walk.wanted .walkRead := by
  rw [State.seqWanted, hphase]

theorem State.seqWanted_undoPass (hphase : s.recovery.phase = .undoPass) : s.seqWanted
    = s.recovery.io.undo.flatMap (fun u => u.place.wanted (.undoRead u.slot))
      ++ s.undoAhead.flatMap (fun slot => [.undoRead slot .first, .undoRead slot .second]) := by
  rw [State.seqWanted, hphase]

theorem State.seqWanted_reinit (hphase : s.recovery.phase = .reinit) :
    s.seqWanted = s.recovery.io.reinit.wanted .reinit := by
  rw [State.seqWanted, hphase]

theorem State.seqWanted_none (hphase : s.recovery.phase = .idle ∨ s.recovery.phase = .done ∨ s.recovery.phase = .stopped) :
    s.seqWanted = [] := by
  unfold State.seqWanted
  rcases hphase with hphase | hphase | hphase <;> rw [hphase]

/-- R145: both header copies are read. -/
theorem State.mem_seqWanted_headers (hphase : s.recovery.phase = .headers) (j : SeqJob) : j ∈ s.seqWanted ↔
    ∃ copy h, j = .headerRead copy h ∧
      (if h = .first then (if copy = .a then s.recovery.io.headerA else s.recovery.io.headerB).first
        else (if copy = .a then s.recovery.io.headerA else s.recovery.io.headerB).second) = .waiting := by
  rw [State.seqWanted_headers hphase, List.mem_append, PlaceRead.mem_wanted, PlaceRead.mem_wanted]
  constructor
  · rintro (⟨h, hj, hwaiting⟩ | ⟨h, hj, hwaiting⟩)
    · exact ⟨.a, h, hj, hwaiting⟩
    · exact ⟨.b, h, hj, hwaiting⟩
  · rintro ⟨copy, h, hj, hwaiting⟩
    cases copy with
    | a => exact .inl ⟨h, hj, hwaiting⟩
    | b => exact .inr ⟨h, hj, hwaiting⟩

/-- R150: in the undo pass, halves of slots known that are not yet asked for, and slots read ahead. -/
theorem State.mem_seqWanted_undoPass (hphase : s.recovery.phase = .undoPass) (j : SeqJob) : j ∈ s.seqWanted ↔
    (∃ u ∈ s.recovery.io.undo, ∃ h, j = .undoRead u.slot h
        ∧ (if h = .first then u.place.first else u.place.second) = .waiting)
      ∨ ∃ slot ∈ s.undoAhead, ∃ h, j = .undoRead slot h := by
  have hhalves : ∀ slot, j ∈ [SeqJob.undoRead slot .first, SeqJob.undoRead slot .second] ↔ ∃ h, j = .undoRead slot h := by
    intro slot
    rw [List.mem_cons, List.mem_singleton]
    exact ⟨fun hj => hj.elim (fun hj => ⟨_, hj⟩) (fun hj => ⟨_, hj⟩), fun ⟨h, hj⟩ => by cases h <;> simp [hj]⟩
  rw [State.seqWanted_undoPass hphase, List.mem_append, List.mem_flatMap, List.mem_flatMap]
  simp only [PlaceRead.mem_wanted, hhalves]

/-- R150: nothing is read ahead once the tail slot has been asked for. -/
theorem State.undoAhead_tail {u : UndoRead} {w : Nat} {c : Chosen} (hwalk : s.recovery.walkPosition = some w)
    (hchosen : s.recovery.chosen = some c) (hlast : s.recovery.io.undo.getLast? = some u) (htail : u.slot = c.tail.slot) :
    s.undoAhead = [] := by
  simp only [State.undoAhead, hwalk, hchosen, hlast, if_pos htail]

/-- R150: the slots read ahead run from the walk position, or the slot behind the last one read, back to the tail. -/
theorem State.undoAhead_next {next w : Nat} {c : Chosen} (hwalk : s.recovery.walkPosition = some w)
    (hchosen : s.recovery.chosen = some c)
    (hnext : (s.recovery.io.undo = [] ∧ next = w) ∨ ∃ u, s.recovery.io.undo.getLast? = some u
      ∧ u.slot ≠ c.tail.slot ∧ next = (if u.slot = 0 then s.slotCount - 1 else u.slot - 1)) :
    s.undoAhead = slotsBack s.slotCount c.tail.slot 8 next := by
  rcases hnext with ⟨hnone, rfl⟩ | ⟨u, hlast, htail, rfl⟩
  · simp only [State.undoAhead, hwalk, hchosen, hnone, List.getLast?_nil]
    rfl
  · simp only [State.undoAhead, hwalk, hchosen, hlast, if_neg htail]
    rfl

end Phases

/-! ## The jobs as accesses (R38, R163) -/

/-- R38, R58, R145, R151: where each access goes and what it carries. -/
theorem State.jobAccess_lines (s : State) (i slot : Nat) (copy : Copy) (h : Half) :
    let lineAt := fun (offset : Nat) => BitVec.ofNat 34
      ((s.params.journalBase + (offset + if h = .first then 0 else 64)) / 64)
    let copyAt := fun (c : Copy) => if c = .a then 0 else 128
    s.jobAccess i (.headerRead copy h) = (.recoveryHeaderRead copy h, lineAt (copyAt copy), .read)
    ∧ s.jobAccess i .zeroWrite = (.zeroing, s.zeroLine i, .write fullMask 0)
    ∧ s.jobAccess i (.formatHeader h) =
        (.formatHeader h, lineAt 0, .write fullMask (placeHalf (formatImage.bytes s.slotCount) h))
    ∧ (s.recovery.walkPosition = some slot →
        s.jobAccess i (.walkRead h) = (.forwardWalkRead h, lineAt (256 + 128 * slot), .read))
    ∧ s.jobAccess i (.undoRead slot h) = (.undoPassRead slot h, lineAt (256 + 128 * slot), .read)
    ∧ (∀ c p, s.recovery.chosen = some c → s.recovery.stop = some p → ∃ image : HeaderImage,
        image = { copy := if c.copy = .a then .b else .a, generation := c.generation + 1
                  tail := { slot := p.slot, seq := p.seq + BitVec.ofNat 32 s.slotCount }
                  recoveryCount := if 1 ≤ s.recovery.undone ∧ c.recoveryCount.toNat < 65535 then c.recoveryCount + 1
                    else c.recoveryCount }
        ∧ s.jobAccess i (.reinit h) = (.reinitHeader h, lineAt (copyAt image.copy),
            .write fullMask (placeHalf (image.bytes s.slotCount) h))) := by
  intro lineAt copyAt
  have hheader : ∀ c, s.params.headerLine c h = lineAt (copyAt c) := by
    intro c
    rw [Params.headerLine, Copy.offset_eq, Half.offset_eq]
    rfl
  have hslot : ∀ slot, s.params.slotLine slot h = lineAt (256 + 128 * slot) := by
    intro slot
    rw [Params.slotLine, Half.offset_eq]
    rfl
  refine ⟨?_, rfl, ?_, fun hwalk => ?_, ?_, fun c p hchosen hstop => ⟨s.reinitImage, ?_, ?_⟩⟩
  · rw [← hheader]
    rfl
  · show (_, s.params.headerLine .a h, _) = _
    rw [hheader]
    rfl
  · rw [← hslot, State.jobAccess, hwalk]
    rfl
  · rw [← hslot]
    rfl
  · rw [State.reinitImage, hchosen, hstop, ← Copy.other_eq]
    rfl
  · rw [← hheader]
    rfl

/-- R40: a header written parses back to its fields. -/
theorem HeaderImage.parse_bytes (n : Nat) (image : HeaderImage) (hn : n < 2 ^ 32) (htail : image.tail.slot < 2 ^ 32) :
    parseHeader n image.copy (image.bytes n) = some {
      copy := image.copy, generation := image.generation, tail := image.tail, recoveryCount := image.recoveryCount } := by
  obtain ⟨hformat, hgeneration, hcount, hslot, hseq, hrecovery, -, hcheck⟩ := image.bytes_extract n
  have hvalid : ¬ parseHeader n image.copy (image.bytes n) = none := by
    rw [parseHeader_eq_none, hcount, BitVec.toNat_ofNat, Nat.mod_eq_of_lt hn]
    exact fun h => h.elim (fun h => h hcheck) (fun h => h.elim (fun h => h hformat) (fun h => h rfl))
  obtain ⟨x, hx⟩ := Option.ne_none_iff_exists'.1 hvalid
  rw [hx, parseHeader_eq_some n _ _ x hx, hgeneration, hslot, hseq, hrecovery, BitVec.toNat_ofNat,
    Nat.mod_eq_of_lt htail]

end Sys2Proof.Machine

/-! PROOFS. Family 03_the_undo_journal: formatting, and what an opportunity of the Recovery Sequencer changes (R58, R145,
R147, R153). -/

namespace Sys2Proof.Machine

/-! ## What an opportunity changes (R145) -/

@[simp] theorem State.pump_device (s : State) : s.pump.device = s.device := by rw [State.pump_rest]

/-- Issuing changes only what has been asked for. -/
theorem State.pump_recovery (s : State) : s.pump.recovery = { s.recovery with io := s.pump.recovery.io } :=
  congrArg State.recovery s.pump_rest

/-- R145: the accesses issued are the first of those wanted, and of what has been read and written only their halves
change their mark. -/
theorem State.pump_marks (s : State) (h : s.device.powerFailPending = false) : ∃ jobs : List SeqJob, jobs <+: s.seqWanted
    ∧ (s.seqOutstanding = 0 → s.seqWanted ≠ [] → (∃ k, s.access k = none) → jobs ≠ [])
    ∧ s.pump = { s with
        link := s.pump.link, issued := s.issued + jobs.length, draws := s.pump.draws
        recovery := { s.recovery with io := s.pump.recovery.io } }
    ∧ s.pump.recovery.io = jobs.foldl SequencerIO.markIssued s.recovery.io
    ∧ (∀ k x, s.access k = some x → s.pump.access k = some x)
    ∧ (∀ n j, jobs[n]? = some j → ∃ k x, s.access k = none ∧ s.pump.access k = some x ∧ x.order = s.issued + n
        ∧ (x.purpose, x.line, x.kind) = s.jobAccess (s.recovery.io.zeroIssued + n) j)
    ∧ (∀ k x, s.pump.access k = some x → s.access k = some x ∨ ∃ n j, jobs[n]? = some j ∧ x.order = s.issued + n
        ∧ (x.purpose, x.line, x.kind) = s.jobAccess (s.recovery.io.zeroIssued + n) j) := by
  obtain ⟨jobs, hprefix, hsome, hpump, hkeeps, hplaces, honly⟩ := s.pump_issues h
  have hio : s.pump.recovery.io = jobs.foldl SequencerIO.markIssued s.recovery.io :=
    congrArg (fun t => t.recovery.io) hpump
  refine ⟨jobs, hprefix, hsome, ?_, hio, hkeeps, hplaces, honly⟩
  rw [hio]
  exact hpump

/-- R58: a half of header A that is no longer waiting is not asked for again. -/
theorem State.pump_formatHeader (s : State) (h : Half) (hphase : s.recovery.phase = .formatting)
    (hnoted : (if h = .first then s.recovery.io.formatHeader.first else s.recovery.io.formatHeader.second) = .okay) :
    (if h = .first then s.pump.recovery.io.formatHeader.first else s.pump.recovery.io.formatHeader.second) = .okay := by
  cases hpower : s.device.powerFailPending with
  | true => rwa [State.pump, if_pos hpower]
  | false =>
    obtain ⟨jobs, hprefix, -, -, hio, -⟩ := s.pump_marks hpower
    obtain ⟨more, -, hmarks⟩ := SequencerIO.foldl_markIssued jobs s.recovery.io _ (fun _ _ => rfl) _ (fun _ _ => rfl)
    have hnone : SeqJob.formatHeader h ∉ jobs := by
      intro hj
      have hj := hprefix.subset hj
      rcases Nat.lt_or_ge s.recovery.zeroDone (2 * s.slotCount) with hleft | hdone
      · rw [State.seqWanted_zeroing hphase hleft] at hj
        cases List.eq_of_mem_replicate hj
      · rw [State.seqWanted_formatHeader hphase hdone] at hj
        have hwaiting := ((wanted_byHalf (fun _ _ => SeqJob.formatHeader.inj)
          (s.recovery.io.formatHeader.mem_wanted .formatHeader)).2 h).1 hj
        cases hwaiting.symm.trans hnoted
    rw [hio, hmarks]
    cases h with
    | first => exact (if_neg hnone).trans hnoted
    | second => exact (if_neg hnone).trans hnoted

/-! ## Completions of formatting (R58, R147) -/

theorem exec_zeroingWriteComplete {s : State} {k : AccessSlot} {a : Access} (result : WriteResult)
    (hacc : s.access k = some a) (hpurpose : a.purpose = .zeroing) :
    exec (.zeroingWriteComplete k result) s = .next (State.zeroed result a (s.freeAccess k)).woundDown := by
  have hexec : exec (.zeroingWriteComplete k result) s
      = .next (s.complete k (fun p => decide (p = .zeroing)) (State.zeroed result)) := rfl
  rw [hexec, State.complete_delivered s k a _ _ hacc (by rw [hpurpose]; rfl), State.settle_eq]

theorem exec_formatHeaderWriteComplete {s : State} {k : AccessSlot} {a : Access} {h : Half} (result : WriteResult)
    (hacc : s.access k = some a) (hpurpose : a.purpose = .formatHeader h) :
    exec (.formatHeaderWriteComplete k result) s
      = .next (State.formatHeaderWritten result a (s.freeAccess k)).woundDown := by
  have hexec : exec (.formatHeaderWriteComplete k result) s
      = .next (s.complete k Purpose.isFormatHeader (State.formatHeaderWritten result)) := rfl
  rw [hexec, State.complete_delivered s k a _ _ hacc (by rw [hpurpose]; rfl), State.settle_eq]

section Delivered

variable {s : State} {a : Access} {h : Half}

theorem State.zeroed_okay (hphase : s.recovery.phase = .formatting) : State.zeroed .okay a s
    = State.pump { s with recovery := { s.recovery with zeroDone := s.recovery.zeroDone + 1 } } := by
  simp only [State.zeroed, hphase]

theorem State.zeroed_error (hphase : s.recovery.phase = .formatting) :
    State.zeroed .error a s = s.reportFault .recovery := by
  simp only [State.zeroed, hphase]

theorem State.zeroed_otherPhase (result : WriteResult) (hphase : s.recovery.phase ≠ .formatting) :
    State.zeroed result a s = s := by
  unfold State.zeroed
  split
  · exact absurd ‹_› hphase
  · exact absurd ‹_› hphase
  · rfl

/-- R58: a half of header A is noted as written. -/
def Recovery.formatNoted (r : Recovery) (h : Half) : Recovery :=
  { r with io := { r.io with formatHeader :=
    if h = .first then { r.io.formatHeader with first := .okay } else { r.io.formatHeader with second := .okay } } }

/-- R147: header A has been written once both halves have. -/
theorem Recovery.formatNoted_whole (r : Recovery) (h : Half) : (r.formatNoted h).io.formatHeader.whole = true ↔
    (if h = .first then r.io.formatHeader.second else r.io.formatHeader.first) = .okay := by
  cases h <;> simp [Recovery.formatNoted, PlaceWrite.whole]

theorem Recovery.formatNoted_half (r : Recovery) (h : Half) :
    (if h = .first then (r.formatNoted h).io.formatHeader.first else (r.formatNoted h).io.formatHeader.second)
      = .okay := by
  cases h <;> rfl

theorem State.formatHeaderWritten_okay (hpurpose : a.purpose = .formatHeader h)
    (hphase : s.recovery.phase = .formatting) : State.formatHeaderWritten .okay a s =
      if (s.recovery.formatNoted h).io.formatHeader.whole
      then State.beginWalk { s with recovery := s.recovery.formatNoted h } formatChosen
      else State.pump { s with recovery := s.recovery.formatNoted h } := by
  unfold State.formatHeaderWritten
  split
  · rename_i h' _ hpurpose' _
    obtain rfl := Purpose.formatHeader.inj (hpurpose'.symm.trans hpurpose)
    cases h' <;> rfl
  · rename_i hresult
    cases hresult
  · rename_i hother
    exact (hother h hphase hpurpose rfl).elim

theorem State.formatHeaderWritten_error (hpurpose : a.purpose = .formatHeader h)
    (hphase : s.recovery.phase = .formatting) :
    State.formatHeaderWritten .error a s = s.reportFault .recovery := by
  simp only [State.formatHeaderWritten, hphase, hpurpose]

theorem State.formatHeaderWritten_otherPhase (result : WriteResult) (hphase : s.recovery.phase ≠ .formatting) :
    State.formatHeaderWritten result a s = s := by
  unfold State.formatHeaderWritten
  split
  · exact absurd ‹_› hphase
  · exact absurd ‹_› hphase
  · rfl

end Delivered

/-- R153: an ERROR in formatting leads to FAULTED, and the sequencer stops. -/
theorem State.reportFault_formatting {s : State} (k : AccessSlot) (hruns : s.runsIn .recovering)
    (hphase : s.recovery.phase = .formatting) :
    let t := (s.freeAccess k).reportFault .recovery
    t.woundDown = t ∧ s.faultedFrom t .recovery ∧ t.recovery.phase = .stopped := by
  have hactive : (s.freeAccess k).recovery.phase.active := by
    show s.recovery.phase.active
    rw [hphase]
    exact ⟨by decide, by decide, by decide⟩
  obtain ⟨hfaulted, hrecovery⟩ := State.reportFault_recovering_faultedFrom (s.freeAccess k) .recovery hruns hactive
  refine ⟨State.woundDown_running _ ?_, hfaulted, congrArg Recovery.phase hrecovery⟩
  rw [State.reportFault_powerFail]
  exact hruns.2.1

theorem State.woundDown_pump (s : State) (h : s.device.powerFailPending = false) : s.pump.woundDown = s.pump :=
  State.woundDown_running _ (by rw [State.pump_device, h])

/-- R58, R153: a zeroing write is answered. -/
theorem exec_zeroingWriteComplete_formatting (s : State) (k : AccessSlot) (a : Access) (hacc : s.access k = some a)
    (hpurpose : a.purpose = .zeroing) (hruns : s.runsIn .recovering) (hphase : s.recovery.phase = .formatting) :
    (∃ t : State, exec (.zeroingWriteComplete k .okay) s = .next t ∧ t.device = s.device
      ∧ t.recovery.phase = .formatting ∧ t.recovery.zeroDone = s.recovery.zeroDone + 1
      ∧ t = State.pump { s with
          link := s.link.set k none, recovery := { s.recovery with zeroDone := s.recovery.zeroDone + 1 } })
    ∧ (∃ t : State, exec (.zeroingWriteComplete k .error) s = .next t ∧ s.faultedFrom t .recovery
      ∧ t.recovery.phase = .stopped) := by
  have hphase' : (s.freeAccess k).recovery.phase = .formatting := hphase
  rw [exec_zeroingWriteComplete .okay hacc hpurpose, exec_zeroingWriteComplete .error hacc hpurpose,
    State.zeroed_okay hphase', State.zeroed_error hphase']
  refine ⟨⟨_, congrArg _ (State.woundDown_pump _ hruns.2.1), State.pump_device _, ?_, ?_, rfl⟩, ?_⟩
  · rw [State.pump_recovery]
    exact hphase
  · rw [State.pump_recovery]
    rfl
  · obtain ⟨hrunning, hfaulted, hstopped⟩ := State.reportFault_formatting k hruns hphase
    rw [hrunning]
    exact ⟨_, rfl, hfaulted, hstopped⟩

/-- R147, R153: a half of header A is answered. -/
theorem exec_formatHeaderWriteComplete_formatting (s : State) (k : AccessSlot) (a : Access) (h : Half)
    (hacc : s.access k = some a) (hpurpose : a.purpose = .formatHeader h) (hruns : s.runsIn .recovering)
    (hphase : s.recovery.phase = .formatting) :
    ((if h = .first then s.recovery.io.formatHeader.second else s.recovery.io.formatHeader.first) = .okay →
      ∃ t : State, exec (.formatHeaderWriteComplete k .okay) s = .next t ∧ t.device = s.device
        ∧ t.recovery.phase = .forwardWalk ∧ t.recovery.walkPosition = some 0 ∧ t.recovery.expected = some 1
        ∧ t.recovery.chosen = some { copy := .a, generation := 1, tail := { slot := 0, seq := 1 }, recoveryCount := 0 }
        ∧ t.recovery.formatted = s.recovery.formatted)
    ∧ ((if h = .first then s.recovery.io.formatHeader.second else s.recovery.io.formatHeader.first) ≠ .okay →
      ∃ t : State, exec (.formatHeaderWriteComplete k .okay) s = .next t ∧ t.device = s.device
        ∧ t.recovery.phase = .formatting
        ∧ (if h = .first then t.recovery.io.formatHeader.first else t.recovery.io.formatHeader.second) = .okay
        ∧ t = State.pump { s with link := s.link.set k none, recovery := s.recovery.formatNoted h })
    ∧ (∃ t : State, exec (.formatHeaderWriteComplete k .error) s = .next t ∧ s.faultedFrom t .recovery
      ∧ t.recovery.phase = .stopped) := by
  have hphase' : (s.freeAccess k).recovery.phase = .formatting := hphase
  rw [exec_formatHeaderWriteComplete .okay hacc hpurpose, exec_formatHeaderWriteComplete .error hacc hpurpose,
    State.formatHeaderWritten_okay hpurpose hphase', State.formatHeaderWritten_error hpurpose hphase']
  have hwhole := (s.freeAccess k).recovery.formatNoted_whole h
  refine ⟨fun hother => ?_, fun hother => ?_, ?_⟩
  · rw [if_pos (hwhole.2 hother)]
    refine ⟨_, congrArg _ (State.woundDown_pump _ hruns.2.1), State.pump_device _, ?_⟩
    rw [State.pump_recovery]
    exact ⟨rfl, rfl, rfl, rfl, rfl⟩
  · rw [if_neg (fun hw => hother (hwhole.1 hw))]
    refine ⟨_, congrArg _ (State.woundDown_pump _ hruns.2.1), State.pump_device _, ?_, ?_, rfl⟩
    · rw [State.pump_recovery]
      exact hphase
    · exact State.pump_formatHeader _ h hphase ((s.freeAccess k).recovery.formatNoted_half h)
  · obtain ⟨hrunning, hfaulted, hstopped⟩ := State.reportFault_formatting k hruns hphase
    rw [hrunning]
    exact ⟨_, rfl, hfaulted, hstopped⟩

/-! ## The statement -/

/-- R58, R145, R150, R151: in each phase only the accesses of that phase are wanted. -/
theorem State.seqWanted_byPhase (s : State) :
    (s.recovery.phase = .headers → (∀ j ∈ s.seqWanted, ∃ copy h, j = .headerRead copy h)
      ∧ ∀ copy h p, p = (if copy = .a then s.recovery.io.headerA else s.recovery.io.headerB) →
        (SeqJob.headerRead copy h ∈ s.seqWanted ↔ (if h = .first then p.first else p.second) = .waiting))
    ∧ (s.recovery.phase = .formatting → s.recovery.zeroDone < 2 * s.slotCount → (∀ j ∈ s.seqWanted, j = .zeroWrite)
      ∧ s.seqWanted.length = min 8 (2 * s.slotCount - s.recovery.io.zeroIssued))
    ∧ (s.recovery.phase = .formatting → 2 * s.slotCount ≤ s.recovery.zeroDone → (∀ j ∈ s.seqWanted, ∃ h,
        j = .formatHeader h)
      ∧ ∀ h p, p = s.recovery.io.formatHeader →
        (SeqJob.formatHeader h ∈ s.seqWanted ↔ (if h = .first then p.first else p.second) = .waiting))
    ∧ (s.recovery.phase = .forwardWalk → (∀ j ∈ s.seqWanted, ∃ h, j = .walkRead h)
      ∧ ∀ h p, p = s.recovery.io.walk →
        (SeqJob.walkRead h ∈ s.seqWanted ↔ (if h = .first then p.first else p.second) = .waiting)) := by
  refine ⟨fun hphase => ⟨fun j hj => ?_, ?_⟩, fun hphase hleft => ?_, fun hphase hdone => ?_, fun hphase => ?_⟩
  · obtain ⟨copy, h, hj, -⟩ := (State.mem_seqWanted_headers hphase j).1 hj
    exact ⟨copy, h, hj⟩
  · rintro copy h _ rfl
    rw [State.mem_seqWanted_headers hphase]
    refine ⟨?_, fun hwaiting => ⟨copy, h, rfl, hwaiting⟩⟩
    rintro ⟨copy', h', heq, hwaiting⟩
    obtain ⟨rfl, rfl⟩ := SeqJob.headerRead.inj heq
    exact hwaiting
  · rw [State.seqWanted_zeroing hphase hleft]
    exact ⟨fun j hj => List.eq_of_mem_replicate hj, List.length_replicate⟩
  · rw [State.seqWanted_formatHeader hphase hdone]
    obtain ⟨hnames, hwaiting⟩ := wanted_byHalf (fun _ _ => SeqJob.formatHeader.inj)
      (s.recovery.io.formatHeader.mem_wanted .formatHeader)
    exact ⟨hnames, fun h p hp => hp ▸ hwaiting h⟩
  · rw [State.seqWanted_forwardWalk hphase]
    obtain ⟨hnames, hwaiting⟩ := wanted_byHalf (fun _ _ => SeqJob.walkRead.inj)
      (s.recovery.io.walk.mem_wanted .walkRead)
    exact ⟨hnames, fun h p hp => hp ▸ hwaiting h⟩

/-- R150: in the undo pass the reads of slots known, and those ahead in walk order to the published tail slot. -/
theorem State.seqWanted_inUndoPass (s : State) (hphase : s.recovery.phase = .undoPass) :
    (∀ j ∈ s.seqWanted, ∃ slot h, j = .undoRead slot h)
      ∧ (∀ u ∈ s.recovery.io.undo, ∀ h, (if h = .first then u.place.first else u.place.second) = .waiting →
          SeqJob.undoRead u.slot h ∈ s.seqWanted)
      ∧ ∀ w c, s.recovery.walkPosition = some w → s.recovery.chosen = some c →
        let known := fun (slot : Nat) (h : Half) => ∃ u ∈ s.recovery.io.undo, u.slot = slot
          ∧ (if h = .first then u.place.first else u.place.second) = .waiting
        ((∃ u, s.recovery.io.undo.getLast? = some u ∧ u.slot = c.tail.slot) →
          ∀ slot h, SeqJob.undoRead slot h ∈ s.seqWanted → known slot h)
        ∧ (∀ next, next < s.slotCount → c.tail.slot < s.slotCount →
          ((s.recovery.io.undo = [] ∧ next = w) ∨ ∃ u, s.recovery.io.undo.getLast? = some u
            ∧ u.slot ≠ c.tail.slot ∧ next = (if u.slot = 0 then s.slotCount - 1 else u.slot - 1)) →
          (∀ h, SeqJob.undoRead next h ∈ s.seqWanted)
          ∧ ∀ slot h, SeqJob.undoRead slot h ∈ s.seqWanted → known slot h
            ∨ ∃ back, back ≤ (next + s.slotCount - c.tail.slot) % s.slotCount
              ∧ slot = (next + s.slotCount - back) % s.slotCount) := by
  have hmem := State.mem_seqWanted_undoPass hphase
  refine ⟨fun j hj => ?_, fun u hu h hwaiting => (hmem _).2 (.inl ⟨u, hu, h, rfl, hwaiting⟩),
    fun w c hwalk hchosen => ?_⟩
  · rcases (hmem j).1 hj with ⟨u, -, h, hj, -⟩ | ⟨slot, -, h, hj⟩
    · exact ⟨u.slot, h, hj⟩
    · exact ⟨slot, h, hj⟩
  · intro known
    have hcases : ∀ slot h, SeqJob.undoRead slot h ∈ s.seqWanted → known slot h ∨ slot ∈ s.undoAhead := by
      intro slot h hj
      rcases (hmem _).1 hj with ⟨u, hu, h', heq, hwaiting⟩ | ⟨slot', hslot, h', heq⟩
      · obtain ⟨rfl, rfl⟩ := SeqJob.undoRead.inj heq
        exact .inl ⟨u, hu, rfl, hwaiting⟩
      · obtain ⟨rfl, rfl⟩ := SeqJob.undoRead.inj heq
        exact .inr hslot
    refine ⟨fun ⟨u, hlast, htail⟩ slot h hj => ?_, fun next hnext htail hfrom => ?_⟩
    · refine (hcases slot h hj).resolve_right ?_
      rw [State.undoAhead_tail hwalk hchosen hlast htail]
      exact List.not_mem_nil
    · have hahead := State.undoAhead_next hwalk hchosen hfrom
      refine ⟨fun h => (hmem _).2 (.inr ⟨next, ?_, h, rfl⟩), fun slot h hj => (hcases slot h hj).imp_right (fun hslot => ?_)⟩
      · rw [hahead]
        exact List.mem_cons_self
      · rw [hahead] at hslot
        exact slotsBack_mem _ _ _ next hnext htail slot hslot

/-- Settles O50: what is wanted in each phase, where it goes, what an opportunity changes, and the completions of
formatting. -/
theorem formattingCompletes : Obligations.FormattingCompletes := by
  refine ⟨exec_zeroingWriteComplete_formatting, exec_formatHeaderWriteComplete_formatting, ?_, ?_,
    State.zeroLine_injective, fun s => ?_, fun s => ⟨fun hpower => if_pos hpower, fun hpower => ?_⟩,
    HeaderImage.parse_bytes, fun s k a result hacc hpurpose hphase => ?_,
    fun s k a h result hacc hpurpose hphase => ?_⟩
  · exact fun s i slot copy h => s.jobAccess_lines i slot copy h
  · exact fun s slot hslot h => s.zeroLine_surjective slot hslot h
  · obtain ⟨hheaders, hzeroing, hformat, hwalk⟩ := s.seqWanted_byPhase
    refine ⟨hheaders, hzeroing, hformat, hwalk, s.seqWanted_inUndoPass, fun hphase => ?_, State.seqWanted_none⟩
    rw [State.seqWanted_reinit hphase]
    obtain ⟨hnames, hwaiting⟩ := wanted_byHalf (fun _ _ => SeqJob.reinit.inj) (s.recovery.io.reinit.mem_wanted .reinit)
    exact ⟨hnames, fun h p hp => hp ▸ hwaiting h⟩
  · obtain ⟨jobs, hprefix, hsome, hpump, hio, hkeeps, hplaces, honly⟩ := s.pump_marks hpower
    refine ⟨jobs, hprefix, hsome, hpump, fun asked hasked noted hnoted => ?_, hkeeps, hplaces, honly⟩
    rw [hio]
    exact SequencerIO.foldl_markIssued jobs s.recovery.io asked hasked noted hnoted
  · rw [exec_zeroingWriteComplete result hacc hpurpose, State.zeroed_otherPhase (s := s.freeAccess k) result hphase]
    rfl
  · rw [exec_formatHeaderWriteComplete result hacc hpurpose,
      State.formatHeaderWritten_otherPhase (s := s.freeAccess k) result hphase]
    rfl

end Sys2Proof.Machine

/-! PROOFS. Family 04_request_handling: the completions of forwarded work (R70, R72, R75, R124). -/

namespace Sys2Proof.Machine

/-! ## What the wind-down leaves of a completion (R134, R161) -/

@[simp] theorem State.woundDown_contexts (s : State) : s.woundDown.contexts = s.contexts := by
  rw [← State.settle_eq, State.settle_contexts]

@[simp] theorem State.woundDown_holds (s : State) : s.woundDown.holds = s.holds := by
  rw [← State.settle_eq, State.settle_holds]

@[simp] theorem State.woundDown_forward (s : State) : s.woundDown.forward = s.forward := by
  rw [← State.settle_eq, State.settle_forward]

@[simp] theorem State.woundDown_ops (s : State) : s.woundDown.ops = s.ops := by
  rw [← State.settle_eq, State.settle_ops]

@[simp] theorem State.woundDown_link (s : State) : s.woundDown.link = s.link := by
  rw [← State.settle_eq, State.settle_link]

@[simp] theorem State.woundDown_sent (s : State) : s.woundDown.sent = s.sent := by
  rw [← State.settle_eq, State.settle_sent]

@[simp] theorem State.woundDown_ctx (s : State) (c : RequesterId) : s.woundDown.ctx c = s.ctx c :=
  State.ctx_congr s.woundDown_contexts c

theorem State.abortBegun_woundDown {t : State} {c : RequesterId} {reason : AbortReason} {due : Bool}
    (h : t.abortBegun c reason due) : t.woundDown.abortBegun c reason due := by
  unfold State.abortBegun at h ⊢
  rwa [State.woundDown_ctx, State.woundDown_ops]

/-! ## An abort request whose context may reach its drain (R9, R11) -/

/-- R6, R9: an abort request that begins an abort has tested its drain already. -/
theorem State.abortRequest_noteDrain_opened (s : State) (c : RequesterId) (reason : AbortReason)
    (hopen : (s.ctx c).state = .opened) : (s.abortRequest c reason).noteDrain c = s.abortRequest c reason := by
  rw [s.abortRequest_taken c reason hopen, State.noteDrain_noteDrain]

/-- R9: a context that is not OPEN ignores the request, and its drain may be taken. -/
theorem State.abortRequest_noteDrain_notOpened (s : State) (c : RequesterId) (reason : AbortReason)
    (hother : (s.ctx c).state ≠ .opened) : (s.abortRequest c reason).noteDrain c = s.drainTaken c := by
  rw [s.abortRequest_ignored c reason hother, State.noteDrain_eq]

theorem State.failOp_eq (s : State) (o : Operation) (detail : ResponseDetail) (reason : AbortReason) :
    s.failOp o detail reason
      = ((s.opGone o .error detail).abortRequest o.requester reason).noteDrain o.requester := by
  rw [← State.endOp_eq]
  rfl

theorem State.retireOp_eq (s : State) (o : Operation) (code : ResponseCode) (detail : ResponseDetail) :
    s.retireOp o code detail = (s.opGone o code detail).drainTaken o.requester := by
  rw [← State.endOp_eq, ← State.noteDrain_eq]
  rfl

theorem State.opGone_state (s : State) (o : Operation) (code : ResponseCode) (detail : ResponseDetail)
    (c : RequesterId) : ((s.opGone o code detail).ctx c).state = (s.ctx c).state := by
  rw [← State.endOp_eq]
  exact s.endOp_blind (fun x => x.state) ⟨fun _ _ => rfl, fun _ _ => rfl⟩ o code detail c

/-- R73, R75, R9: what an operation that ends with ERROR leaves, the wind-down included: the operation is gone and
answered, and an OPEN context becomes ABORT_PENDING. -/
theorem State.failOp_woundDown (s : State) (o : Operation) (detail : ResponseDetail) (reason : AbortReason) :
    let t := (s.failOp o detail reason).woundDown
    t.holds.Sublist s.holds
      ∧ (∀ p ∈ t.ops, ∃ q ∈ s.ops.eraseP (fun p => decide (p.line = o.line)), q.line = p.line ∧ q.tag = p.tag)
      ∧ (o.forgotten = false → { requester := o.requester, tag := o.tag, code := .error, detail := detail
                                 data := none } ∈ t.sent)
      ∧ ((s.ctx o.requester).state = .opened → t.abortBegun o.requester reason reason.noticeDue)
      ∧ ((s.ctx o.requester).state ≠ .opened → (t.ctx o.requester).state = (s.ctx o.requester).state)
      ∧ (∀ u, u = s.opGone o .error detail →
          ((s.ctx o.requester).state = .opened → u.withdrawable o.requester →
            t = (u.abortBegins o.requester reason reason.noticeDue).woundDown)
          ∧ ((s.ctx o.requester).state ≠ .opened → t = (u.drainTaken o.requester).woundDown)) := by
  dsimp only
  rw [State.failOp_eq]
  have hstate := s.opGone_state o .error detail o.requester
  have hsent : o.forgotten = false → { requester := o.requester, tag := o.tag, code := .error, detail := detail
                                       data := none } ∈ (s.opGone o .error detail).sent := by
    intro hkept
    simp [State.opGone, hkept]
  have hops : (s.opGone o .error detail).ops = s.ops.eraseP (fun p => decide (p.line = o.line)) := rfl
  have hholds : (s.opGone o .error detail).holds = s.holds := rfl
  rw [← hops, ← hholds, ← hstate]
  generalize s.opGone o .error detail = u at hsent
  obtain ⟨hkeptOps, hkeptHolds, -, hkeptSent⟩ := u.abortRequest_shrinks o.requester reason
  refine ⟨?_, ?_, ?_, fun hopen => ?_, fun hother => ?_, ?_⟩
  · rwa [State.woundDown_holds, State.noteDrain_holds]
  · intro p hp
    rw [State.woundDown_ops, State.noteDrain_ops] at hp
    obtain ⟨q, hq, hline, htag, -⟩ := hkeptOps p hp
    exact ⟨q, hq, hline, htag⟩
  · intro hkept
    rw [State.woundDown_sent, State.noteDrain_sent]
    exact hkeptSent.subset (hsent hkept)
  · rw [u.abortRequest_noteDrain_opened _ _ hopen]
    exact State.abortBegun_woundDown (u.abortRequest_begun o.requester reason hopen)
  · rw [State.woundDown_ctx, State.ctx_noteDrain, u.abortRequest_ignored _ _ hother]
  · rintro _ rfl
    refine ⟨fun hopen hwithdrawable => ?_, fun hother => ?_⟩
    · rw [State.abortRequest_noteDrain_opened _ _ _ hopen, State.abortRequest_eq _ _ _ hopen hwithdrawable]
    · rw [State.abortRequest_noteDrain_notOpened _ _ _ hother]

/-! ## An operation's forwarded write (R75) -/

theorem exec_operationForwardedWriteComplete {s : State} {k : AccessSlot} {a : Access} {o : Operation}
    (result : WriteResult) (hacc : s.access k = some a) (hpurpose : a.purpose = .operationWrite)
    (hop : s.op? a.line = some o) : exec (.operationForwardedWriteComplete k result) s
      = .next ((s.freeAccess k).operationWritten o result).woundDown := by
  have hmine : decide (a.purpose = .operationWrite) = true := decide_eq_true hpurpose
  have hdelivered : State.operationWrittenDelivered result a (s.freeAccess k)
      = (s.freeAccess k).operationWritten o result := by
    have hfound : (s.freeAccess k).op? a.line = some o := hop
    rw [State.operationWrittenDelivered, hfound]
  rw [← hdelivered, ← State.settle_eq]
  exact congrArg Host.Outcome.next (State.complete_delivered s k a _ _ hacc hmine)

/-- Settles O37, by the result of the write. -/
theorem operationWriteCompletes : Obligations.OperationWriteCompletes := by
  intro s k a o hacc hpurpose hop
  have hline : o.line = a.line := State.op?_line hop
  refine ⟨⟨_, exec_operationForwardedWriteComplete .okay hacc hpurpose hop, ?_⟩,
    ⟨_, exec_operationForwardedWriteComplete .error hacc hpurpose hop, ?_⟩⟩
  · have hretired : (s.freeAccess k).operationWritten o .okay
        = ((s.freeAccess k).opGone o .okay .noDetail).drainTaken o.requester := State.retireOp_eq _ o _ _
    rw [hretired, ← hline, State.woundDown_ops, State.woundDown_contexts, State.woundDown_sent]
    exact ⟨rfl, rfl, rfl, rfl⟩
  · rw [← hline]
    obtain ⟨-, hfailed⟩ := (s.freeAccess k).failOp_woundDown o .memoryError .memoryError
    exact hfailed

/-! ## An operation's old-line read (R72) -/

theorem exec_oldLineReadComplete {s : State} {k : AccessSlot} {a : Access} {o : Operation} (result : ReadResult)
    (hacc : s.access k = some a) (hpurpose : a.purpose = .oldLineRead) (hop : s.op? a.line = some o) :
    exec (.oldLineReadComplete k result) s = .next ((s.freeAccess k).oldLineRead o result).woundDown := by
  have hmine : decide (a.purpose = .oldLineRead) = true := decide_eq_true hpurpose
  have hdelivered : State.oldLineReadDelivered result a (s.freeAccess k) = (s.freeAccess k).oldLineRead o result := by
    have hfound : (s.freeAccess k).op? a.line = some o := hop
    rw [State.oldLineReadDelivered, hfound]
  rw [← hdelivered, ← State.settle_eq]
  exact congrArg Host.Outcome.next (State.complete_delivered s k a _ _ hacc hmine)

theorem State.oldLineRead_cancelled (s : State) {o : Operation} (result : ReadResult) (h : o.cancelled = true) :
    s.oldLineRead o result = ((s.removeHold o.line).opGone o .error .aborted).drainTaken o.requester := by
  rw [← State.retireOp_eq]
  exact if_pos h

theorem State.oldLineRead_error (s : State) {o : Operation} (h : o.cancelled = false) :
    s.oldLineRead o .error = (s.removeHold o.line).failOp o .memoryError .memoryError :=
  if_neg (by simp [h])

theorem State.oldLineRead_okay (s : State) {o : Operation} (d : Line) (h : o.cancelled = false) :
    s.oldLineRead o (.okay d)
      = s.modOp o.line (fun p => { p with stage := .appending, old := some d, access := none }) :=
  if_neg (by simp [h])

theorem State.removeHold_state (s : State) (l : LineAddr) (c : RequesterId) :
    ((s.removeHold l).ctx c).state = (s.ctx c).state :=
  s.removeHold_blind (fun x => x.state) ⟨fun _ _ => rfl, fun _ _ => rfl⟩ l c

/-- Settles O36, by the cancelled mark and the result of the read. -/
theorem oldLineReadCompletes : Obligations.OldLineReadCompletes := by
  intro s k result a o hacc hpurpose hop
  have hline : o.line = a.line := State.op?_line hop
  rw [exec_oldLineReadComplete result hacc hpurpose hop, ← hline]
  refine ⟨fun hcancelled => ⟨_, rfl, ?_⟩, fun hlive hresult => ⟨_, rfl, ?_⟩, fun d hlive hresult => ⟨_, rfl, ?_⟩⟩
  · rw [State.oldLineRead_cancelled _ result hcancelled]
    refine ⟨?_, ?_, ?_, ?_, rfl⟩
    · rw [State.woundDown_holds]
      exact State.removeHold_holds _ _
    · rw [State.woundDown_ops]
      exact congrArg (List.eraseP _) (State.removeHold_ops _ _)
    · rw [State.woundDown_sent]
      show (if o.forgotten = true then State.sent _ else State.sent _ ++ _) = _
      rw [State.removeHold_sent]
      rfl
    · rw [State.woundDown_link]
      exact State.removeHold_link _ _
  · subst hresult
    rw [State.oldLineRead_error _ hlive]
    have hholds := (s.freeAccess k).removeHold_holds o.line
    have hops := (s.freeAccess k).removeHold_ops o.line
    have hstate := (s.freeAccess k).removeHold_state o.line o.requester
    obtain ⟨hkeptHolds, hfailed⟩ := ((s.freeAccess k).removeHold o.line).failOp_woundDown o .memoryError .memoryError
    rw [hops, hstate] at hfailed
    exact ⟨fun e he => hholds ▸ hkeptHolds.subset he, hfailed⟩
  · subst hresult
    rw [State.oldLineRead_okay _ d hlive, State.woundDown_ops]
    exact ⟨rfl, rfl⟩

/-! ## A Forward Queue entry (R70) -/

theorem exec_forwardAccessComplete {s : State} {k : AccessSlot} {a : Access} {e : ForwardEntry} (result : ReadResult)
    (hacc : s.access k = some a) (hpurpose : a.purpose = .forwarded)
    (hentry : s.forward.find? (fun e => decide (e.issued = some k)) = some e) :
    exec (.forwardAccessComplete k result) s = .next (State.woundDown (State.forwardedCounted
      (State.answerForwarded { s with
        link := s.link.set k none, forward := s.forward.eraseP (fun e => decide (e.issued = some k)) } e result)
      e result)) := by
  have hmine : decide (a.purpose = .forwarded) = true := decide_eq_true hpurpose
  have hdelivered : State.forwardComplete k result a (s.freeAccess k) = State.forwardedCounted
      (State.answerForwarded { s with
        link := s.link.set k none, forward := s.forward.eraseP (fun e => decide (e.issued = some k)) } e result)
      e result := by
    have hfound : (s.freeAccess k).forward.find? (fun e => decide (e.issued = some k)) = some e := hentry
    rw [State.forwardComplete, hfound]
    rfl
  rw [← hdelivered, ← State.settle_eq]
  exact congrArg Host.Outcome.next (State.complete_delivered s k a _ _ hacc hmine)

theorem State.answerForwarded_read (s : State) {e : ForwardEntry} (d : Line) (hkind : e.kind = .read) :
    s.answerForwarded e (.okay d) = s.finish e.forgotten e.requester e.tag .okay .noDetail (some d) := by
  unfold State.answerForwarded
  rw [hkind]

theorem State.answerForwarded_error (s : State) (e : ForwardEntry) :
    s.answerForwarded e .error = s.finish e.forgotten e.requester e.tag .error .memoryError := by
  unfold State.answerForwarded
  cases e.kind <;> rfl

theorem State.answerForwarded_write (s : State) {e : ForwardEntry} {result : ReadResult} (hkind : e.kind ≠ .read)
    (hresult : result ≠ .error) :
    s.answerForwarded e result = s.finish e.forgotten e.requester e.tag .okay .noDetail := by
  unfold State.answerForwarded
  cases hk : e.kind with
  | read => exact absurd hk hkind
  | write mask data =>
    cases result with
    | error => exact absurd rfl hresult
    | okay d => rfl

/-- R5: the forwarded count of a context falls by one. -/
def State.forwardedLess (s : State) (c : RequesterId) : State :=
  { s with contexts := s.contexts.set c { s.ctx c with
      forwardedOutstanding := (s.ctx c).forwardedOutstanding - 1 } }

theorem State.ctx_forwardedLess (s : State) (c : RequesterId) : (s.forwardedLess c).ctx c
    = { s.ctx c with forwardedOutstanding := (s.ctx c).forwardedOutstanding - 1 } :=
  s.ctx_modCtx_self c (fun x => { x with forwardedOutstanding := x.forwardedOutstanding - 1 })

theorem State.forwardedCounted_unmarked (s : State) {e : ForwardEntry} (result : ReadResult)
    (hmark : e.journaled = false) : s.forwardedCounted e result = s :=
  if_neg (by simp [hmark])

theorem State.forwardedCounted_okay (s : State) {e : ForwardEntry} {result : ReadResult} (hmark : e.journaled = true)
    (hresult : result ≠ .error) :
    s.forwardedCounted e result = (s.forwardedLess e.requester).drainTaken e.requester := by
  unfold State.forwardedCounted
  dsimp only
  rw [if_pos hmark, if_neg hresult, State.noteDrain_eq]
  rfl

theorem State.forwardedCounted_error (s : State) {e : ForwardEntry} (hmark : e.journaled = true) :
    s.forwardedCounted e .error
      = ((s.forwardedLess e.requester).abortRequest e.requester .memoryError).noteDrain e.requester := by
  unfold State.forwardedCounted
  dsimp only
  rw [if_pos hmark, if_pos rfl]
  rfl

/-- R9, R70: an ERROR of a journaled write aborts its OPEN context. -/
theorem State.abortRequest_forwardedLess (s : State) (c : RequesterId) (hopen : (s.ctx c).state = .opened) :
    let t := ((s.forwardedLess c).abortRequest c .memoryError).woundDown
    t.abortBegun c .memoryError true
      ∧ (t.ctx c).forwardedOutstanding = (s.ctx c).forwardedOutstanding - 1
      ∧ t.forward = s.forward ∧ t.link = s.link ∧ s.sent <+: t.sent
      ∧ (s.withdrawable c → t = ((s.forwardedLess c).abortBegins c .memoryError true).woundDown) := by
  have hopen' : ((s.forwardedLess c).ctx c).state = .opened := by rw [State.ctx_forwardedLess]; exact hopen
  have hcount := (s.forwardedLess c).abortRequest_ctx (fun x => x.forwardedOutstanding)
    ⟨fun _ _ => rfl, fun _ _ => rfl⟩ c c .memoryError hopen'
  obtain ⟨-, -, -, hsent⟩ := (s.forwardedLess c).abortRequest_shrinks c .memoryError
  refine ⟨State.abortBegun_woundDown ((s.forwardedLess c).abortRequest_begun c .memoryError hopen'), ?_, ?_, ?_, ?_,
    fun hwithdrawable => ?_⟩
  · rw [State.woundDown_ctx, hcount, if_pos rfl, State.ctx_forwardedLess]
    rfl
  · rw [State.woundDown_forward, State.abortRequest_forward]
    rfl
  · rw [State.woundDown_link, State.abortRequest_link]
    rfl
  · rw [State.woundDown_sent]
    exact hsent
  · rw [(s.forwardedLess c).abortRequest_eq c .memoryError hopen' hwithdrawable]
    rfl

/-! ## A response that reaches no access of its own (R124, R132) -/

/-- R124: every memory-link response is a completion for its slot, of the accesses that are its own. -/
theorem exec_response (c : Instr) (k : AccessSlot) (s : State) (hslot : c.respondedSlot? = some k) :
    ∃ (mine : Purpose → Bool) (deliver : Access → State → State),
      exec c s = .next (s.complete k mine deliver) ∧ ∀ p, mine p = true → c.completes p := by
  cases c <;> cases hslot
  case memoryResponseUnknownSlot result =>
    exact ⟨fun _ => false, fun _ t => t,
      congrArg Host.Outcome.next (s.complete_other k _ _ (fun _ _ => rfl)).symm, fun _ hmine => nomatch hmine⟩
  case recordWriteComplete | recoveryHeaderReadComplete | undoPassReadComplete =>
    refine ⟨_, _, rfl, fun p hmine => ?_⟩
    cases p <;> cases hmine
    exact ⟨_, _, rfl⟩
  case headerWriteComplete | formatHeaderWriteComplete | forwardWalkReadComplete | reinitHeaderWriteComplete =>
    refine ⟨_, _, rfl, fun p hmine => ?_⟩
    cases p <;> cases hmine
    exact ⟨_, rfl⟩
  all_goals
    refine ⟨_, _, rfl, fun p hmine => ?_⟩
    cases p <;> cases hmine
    rfl

theorem exec_response_other (c : Instr) (k : AccessSlot) (s : State) (hslot : c.respondedSlot? = some k)
    (hother : ∀ a, s.access k = some a → ¬ c.completes a.purpose) : exec c s = .next s := by
  obtain ⟨mine, deliver, hexec, hmine⟩ := exec_response c k s hslot
  rw [hexec, s.complete_other k mine deliver]
  exact fun a hacc => Bool.eq_false_iff.2 (fun howner => hother a hacc (hmine a.purpose howner))

/-- Settles O35, by the kind, the mark and the result of the entry's access. -/
theorem forwardedAccessCompletes : Obligations.ForwardedAccessCompletes := by
  refine ⟨fun s k result a e hacc hpurpose hentry => ?_, fun _ _ _ _ => rfl, fun s c k => exec_response_other c k s⟩
  have hexec := exec_forwardAccessComplete result hacc hpurpose hentry
  dsimp only
  refine ⟨fun d hkind hmark hresult => ?_, fun hmark hresult => ?_, fun hkind hmark hresult => ?_,
    fun hkind hmark hresult => ?_, fun hkind hmark hresult hother => ?_, fun hkind hmark hresult hopen => ?_⟩
  · rw [hexec, State.forwardedCounted_unmarked _ _ hmark, hresult, State.answerForwarded_read _ d hkind]
  · rw [hexec, State.forwardedCounted_unmarked _ _ hmark, hresult, State.answerForwarded_error]
  · rw [hexec, State.forwardedCounted_unmarked _ _ hmark, State.answerForwarded_write _ hkind hresult]
  · rw [hexec, State.forwardedCounted_okay _ hmark hresult, State.answerForwarded_write _ hkind hresult]
    rfl
  · rw [hexec, hresult, State.forwardedCounted_error _ hmark, State.answerForwarded_error,
      State.abortRequest_noteDrain_notOpened _ _ _ (by rw [State.ctx_forwardedLess]; exact hother)]
    rfl
  · rw [hexec, hresult, State.forwardedCounted_error _ hmark, State.answerForwarded_error,
      State.abortRequest_noteDrain_opened _ _ _ (by rw [State.ctx_forwardedLess]; exact hopen)]
    obtain ⟨hbegun, hcount, hforward, hlink, hsent, hwhole⟩ :=
      State.abortRequest_forwardedLess (State.finish { s with
        link := s.link.set k none, forward := s.forward.eraseP (fun e => decide (e.issued = some k)) }
        e.forgotten e.requester e.tag .error .memoryError) e.requester hopen
    refine ⟨_, rfl, hbegun, hcount, hforward, hlink, fun hkept => hsent.subset ?_, hwhole⟩
    rw [hkept]
    exact List.mem_append_right _ (List.mem_singleton_self _)

end Sys2Proof.Machine

/-! PROOFS. Family 04_request_handling: requests by device state and in the classification order (R60 to R70, R107,
R108, R143). -/

namespace Sys2Proof.Machine

/-! ## The classifier by device state (R61, R143, R156) -/

theorem State.notReady_iff (s : State) : s.notReady = true ↔ s.device.powerFailPending = true ∨ s.device.state = .loading
    ∨ s.device.state = .recovering ∨ s.device.state = .draining ∨ s.device.state = .halted := by
  simp [State.notReady, or_assoc]

/-- R61: in SERVING, FAULTED and PASSTHROUGH requests are taken. -/
theorem State.notReady_running {s : State} {d : DeviceState} (hruns : s.runsIn d)
    (hd : d = .serving ∨ d = .faulted ∨ d = .passthrough) : s.notReady = false := by
  obtain ⟨-, hpower, hstate⟩ := hruns
  unfold State.notReady
  rw [hpower, hstate]
  rcases hd with rfl | rfl | rfl <;> rfl

theorem State.handleRead_unpowered {s : State} (r : RequesterId) (t : Tag) (l : LineAddr) (h : s.pins.porst = true) :
    s.handleRead r t l = s := if_pos h

theorem State.handleWrite_unpowered {s : State} (take : Bool) (r : RequesterId) (t : Tag) (l : LineAddr)
    (mask : ByteMask) (d : Line) (h : s.pins.porst = true) : s.handleWrite take r t l mask d = s := if_pos h

theorem State.handleRead_notReady {s : State} (r : RequesterId) (t : Tag) (l : LineAddr) (h : s.answersNotReady) :
    s.handleRead r t l = s.respond r t .retry .notReady :=
  (if_neg (by simp [h.1])).trans (if_pos (s.notReady_iff.2 h.2))

theorem State.handleWrite_notReady {s : State} (take : Bool) (r : RequesterId) (t : Tag) (l : LineAddr)
    (mask : ByteMask) (d : Line) (h : s.answersNotReady) :
    s.handleWrite take r t l mask d = s.respond r t .retry .notReady :=
  (if_neg (by simp [h.1])).trans (if_pos (s.notReady_iff.2 h.2))

theorem State.handleRead_passthrough {s : State} (r : RequesterId) (t : Tag) (l : LineAddr) (h : s.runsIn .passthrough) :
    s.handleRead r t l = if s.outstanding.contains (r, t) then s.respond r t .error .tagInUse
      else s.enqueue r t l .read false :=
  (if_neg (by simp [h.1])).trans ((if_neg (by simp [State.notReady_running h])).trans (if_pos h.2.2))

theorem State.handleWrite_passthrough {s : State} (take : Bool) (r : RequesterId) (t : Tag) (l : LineAddr)
    (mask : ByteMask) (d : Line) (h : s.runsIn .passthrough) :
    s.handleWrite take r t l mask d = if s.outstanding.contains (r, t) then s.respond r t .error .tagInUse
      else if mask = 0 then (s.clearWait r).respond r t .okay .noDetail
      else s.enqueue r t l (.write mask d) false :=
  (if_neg (by simp [h.1])).trans ((if_neg (by simp [State.notReady_running h])).trans (if_pos h.2.2))

theorem State.examines_ready {s : State} (h : s.examines) :
    s.pins.porst = false ∧ s.notReady = false ∧ s.device.state ≠ .passthrough := by
  rcases h with h | h <;>
    exact ⟨h.1, State.notReady_running h (by simp), fun hpass => nomatch h.2.2.symm.trans hpass⟩

theorem State.handleRead_examined {s : State} (r : RequesterId) (t : Tag) (l : LineAddr) (h : s.examines) :
    s.handleRead r t l = s.classifyRead r t l := by
  obtain ⟨hporst, hready, hstate⟩ := State.examines_ready h
  exact (if_neg (by simp [hporst])).trans ((if_neg (by simp [hready])).trans (if_neg hstate))

theorem State.handleWrite_examined {s : State} (take : Bool) (r : RequesterId) (t : Tag) (l : LineAddr)
    (mask : ByteMask) (d : Line) (h : s.examines) :
    s.handleWrite take r t l mask d = s.classifyWrite take r t l mask d := by
  obtain ⟨hporst, hready, hstate⟩ := State.examines_ready h
  exact (if_neg (by simp [hporst])).trans ((if_neg (by simp [hready])).trans (if_neg hstate))

/-! ## The Forward Queue (R68, R70) -/

theorem State.enqueue_read (s : State) (r : RequesterId) (t : Tag) (l : LineAddr) (journaled : Bool) :
    s.enqueue r t l .read journaled = if s.forward.length < 32 then s.placed r t l .read journaled
      else s.respond r t .retry .queueFull := by
  by_cases hroom : s.forward.length < 32
  · rw [if_pos hroom]
    exact if_neg (Nat.not_le_of_lt hroom)
  · rw [if_neg hroom]
    exact if_pos (Nat.le_of_not_lt hroom)

/-- R28: a write placed in the Forward Queue clears the wait record. -/
theorem State.enqueue_write (s : State) (r : RequesterId) (t : Tag) (l : LineAddr) (mask : ByteMask) (d : Line)
    (journaled : Bool) : s.enqueue r t l (.write mask d) journaled =
      if s.forward.length < 32 then (s.placed r t l (.write mask d) journaled).clearWait r
      else s.respond r t .retry .queueFull := by
  by_cases hroom : s.forward.length < 32
  · rw [if_pos hroom]
    exact if_neg (Nat.not_le_of_lt hroom)
  · rw [if_neg hroom]
    exact if_pos (Nat.le_of_not_lt hroom)

/-! ## A request of any kind -/

/-- A request that reads and writes answer alike. -/
theorem exec_request {c : Instr} {s t : State} {r : RequesterId} {tag : Tag} (hrequest : c.request? = some (r, tag))
    (harrives : s.arrives c) (hread : ∀ l, s.handleRead r tag l = t)
    (hwrite : ∀ take l mask d, s.handleWrite take r tag l mask d = t) : exec c s = .next t := by
  rcases request?_cases c r tag hrequest with ⟨l, hc⟩ | ⟨a, hc, rfl, rfl⟩
  · rw [exec_read c s r tag l hc, hread]
  · rw [exec_write c a s hc harrives, hwrite]

theorem request?_of_write? {c : Instr} {a : WriteArrival} (hwrite : c.write? = some a) :
    c.request? = some (a.requester, a.tag) := by
  cases c <;> cases hwrite <;> rfl

/-- A write whose tag is free arrives. -/
theorem exec_write_free {c : Instr} {a : WriteArrival} {s : State} (hwrite : c.write? = some a)
    (hfree : (a.requester, a.tag) ∉ s.outstanding) :
    exec c s = .next (s.handleWrite c.controlLine?.isSome a.requester a.tag a.line a.mask a.data) :=
  exec_write c a s hwrite (s.arrives_free c _ _ (request?_of_write? hwrite) hfree)

theorem exec_request_notReady {c : Instr} {s : State} {r : RequesterId} {tag : Tag}
    (hrequest : c.request? = some (r, tag)) (harrives : s.arrives c) (hstate : s.answersNotReady) :
    exec c s = .next (s.respond r tag .retry .notReady) :=
  exec_request hrequest harrives (fun l => State.handleRead_notReady r tag l hstate)
    (fun take l mask d => State.handleWrite_notReady take r tag l mask d hstate)

/-- Settles O11, by the device state and whether the request is a read or a write. -/
theorem requestsByDeviceState : Obligations.RequestsByDeviceState := by
  refine ⟨fun s c r tag hrequest harrives hstate => exec_request_notReady hrequest harrives hstate,
    fun s c r tag l hread hpass hfree => ?_, fun s c a hwrite hpass hfree => ?_,
    fun s c r tag hrequest hporst harrives => ?_⟩
  · rw [exec_read c s r tag l hread, State.handleRead_passthrough r tag l hpass, if_neg (by simpa using hfree),
      State.enqueue_read]
  · rw [exec_write_free hwrite hfree, State.handleWrite_passthrough _ _ _ _ _ _ hpass, if_neg (by simpa using hfree),
      State.enqueue_write]
  · exact exec_request hrequest harrives (fun l => State.handleRead_unpowered r tag l hporst)
      (fun take l mask d => State.handleWrite_unpowered take r tag l mask d hporst)

/-! ## A tag in use, and a control line that waits (R60, R107, R108) -/

theorem State.handleRead_tagInUse {s : State} {r : RequesterId} {t : Tag} (l : LineAddr)
    (hstate : s.examines ∨ s.runsIn .passthrough) (hused : (r, t) ∈ s.outstanding) :
    s.handleRead r t l = s.respond r t .error .tagInUse := by
  have hcontains : s.outstanding.contains (r, t) = true := by simpa using hused
  rcases hstate with hstate | hstate
  · rw [State.handleRead_examined r t l hstate]
    exact if_pos hcontains
  · rw [State.handleRead_passthrough r t l hstate, if_pos hcontains]

theorem State.handleWrite_tagInUse {s : State} {r : RequesterId} {t : Tag} (take : Bool) (l : LineAddr) (mask : ByteMask)
    (d : Line) (hstate : s.examines ∨ s.runsIn .passthrough) (hused : (r, t) ∈ s.outstanding) :
    s.handleWrite take r t l mask d = s.respond r t .error .tagInUse := by
  have hcontains : s.outstanding.contains (r, t) = true := by simpa using hused
  rcases hstate with hstate | hstate
  · rw [State.handleWrite_examined take r t l mask d hstate]
    exact if_pos hcontains
  · rw [State.handleWrite_passthrough take r t l mask d hstate, if_pos hcontains]

/-- Table 4-2 and R62, steps 1 to 4: a recognised control line. -/
theorem State.classifyWrite_controlLine {s : State} (take : Bool) {r : RequesterId} {t : Tag} {l : LineAddr} {d : Line}
    (hunclaimed : s.unclaimed r t l) (hline : s.recognises fullMask d = true) :
    s.classifyWrite take r t l fullMask d = if take then s.controlLine r t l d else s.awaitLine r t l d := by
  obtain ⟨hfree, harea⟩ := hunclaimed
  unfold State.classifyWrite
  rw [if_neg (by simpa using hfree), if_neg (by simp [harea]), if_neg (by decide), if_pos hline]

/-- R107: the state in which the command of a waiting line is taken: the line waits no more. -/
def State.withoutLine (s : State) (w : WaitingLine) : State :=
  { s with
    classified := s.classified.erase w
    outstanding := s.outstanding.filter (fun e => decide (e ≠ (w.requester, w.tag))) }

theorem State.withoutLine_free (s : State) (w : WaitingLine) : (w.requester, w.tag) ∉ (s.withoutLine w).outstanding := by
  simp [State.withoutLine]

theorem State.takeWaiting_examined {s : State} (w : WaitingLine) (h : s.examines) :
    s.takeWaiting w = (s.withoutLine w).controlLine w.requester w.tag w.line w.data := by
  unfold State.takeWaiting
  refine if_pos ?_
  rcases h with ⟨-, hpower, hstate⟩ | ⟨-, hpower, hstate⟩ <;> simp [hpower, hstate]

/-- R108, log 4: with power-fail pending, and in a state that examines no request, the line is left as it stands. -/
theorem State.takeWaiting_left {s : State} (w : WaitingLine)
    (h : s.device.powerFailPending = true ∨ s.device.state ≠ .serving ∧ s.device.state ≠ .faulted) :
    s.takeWaiting w = s := by
  unfold State.takeWaiting
  refine if_neg ?_
  rcases h with hpower | ⟨hserving, hfaulted⟩
  · simp [hpower]
  · simp [hserving, hfaulted]

/-- A control line's command is the full-mask write of the line's bytes, and brings the line that may wait. -/
theorem controlLine?_of_waitingLine? {c : Instr} {w : WaitingLine} (h : c.waitingLine? = some w) : ∃ a : LineArrival,
    c.controlLine? = some a ∧ w = { requester := a.requester, tag := a.tag, line := a.line
                                    data := controlLineData a.code a.fields } := by
  obtain ⟨a, ha, hw⟩ := Option.map_eq_some_iff.1 h
  exact ⟨a, ha, hw.symm⟩

/-- R107, log 7: a line that waits is taken with the effect it would have on arrival. -/
theorem exec_waitingLine_asArriving {c : Instr} {w : WaitingLine} {s : State} (hc : c.waitingLine? = some w)
    (hwaits : s.lineWaits w = true) (hstate : s.examines) (harea : s.params.inJournalArea w.line = false)
    (hline : s.recognises fullMask w.data = true) : exec c s = exec c (s.withoutLine w) := by
  obtain ⟨a, ha, rfl⟩ := controlLine?_of_waitingLine? hc
  have hfree := s.withoutLine_free
    { requester := a.requester, tag := a.tag, line := a.line, data := controlLineData a.code a.fields }
  rw [exec_waitingLine c _ s hc hwaits, State.takeWaiting_examined _ hstate]
  generalize hu : s.withoutLine _ = u at hfree ⊢
  have hunclaimed : u.unclaimed a.requester a.tag a.line := ⟨hfree, by rw [← hu]; exact harea⟩
  have hrecognised : u.recognises fullMask (controlLineData a.code a.fields) = true := by rw [← hu]; exact hline
  have hexamines : u.examines := by rw [← hu]; exact hstate
  rw [exec_controlLine c a u ha (u.arrives_free c _ _ (request?_of_controlLine? ha) hfree),
    State.handleWrite_examined _ _ _ _ _ _ hexamines, State.classifyWrite_controlLine true hunclaimed hrecognised,
    if_pos rfl]

/-- Settles O10, by whether the request arrives or is a line that waits, and by the device state. -/
theorem tagInUseIsRefused : Obligations.TagInUseIsRefused := by
  refine ⟨fun s c r tag hrequest hused harrives => ⟨fun hstate => ?_, exec_request_notReady hrequest harrives⟩,
    fun s r tag l d hstate hunclaimed hline => ?_, fun s c w hc hwaits => ⟨?_, fun hstate => ?_, fun hserving hfaulted => ?_⟩⟩
  · exact exec_request hrequest harrives (fun l => State.handleRead_tagInUse l hstate hused)
      (fun take l mask d => State.handleWrite_tagInUse take l mask d hstate hused)
  · have hwaits : s.handleWrite false r tag l fullMask d = s.awaitLine r tag l d := by
      rw [State.handleWrite_examined _ _ _ _ _ _ hstate, State.classifyWrite_controlLine false hunclaimed hline]
      rfl
    exact congrArg Host.Outcome.next hwaits
  · exact exec_waitingLine_asArriving hc hwaits
  · rw [exec_waitingLine c w s hc hwaits, State.takeWaiting_left w (hstate.imp id (fun hhalted => ?_))]
    rw [hhalted]
    decide
  · rw [exec_waitingLine c w s hc hwaits, State.takeWaiting_left w (Or.inr ⟨hserving, hfaulted⟩)]

/-! ## The journal area and the empty mask (R63) -/

theorem State.classifyRead_area {s : State} {r : RequesterId} {t : Tag} {l : LineAddr} (hfree : (r, t) ∉ s.outstanding)
    (harea : s.params.inJournalArea l = true) : s.classifyRead r t l = s.respond r t .error .reservedArea :=
  (if_neg (by simpa using hfree)).trans (if_pos harea)

theorem State.classifyWrite_area {s : State} (take : Bool) {r : RequesterId} {t : Tag} {l : LineAddr} (mask : ByteMask)
    (d : Line) (hfree : (r, t) ∉ s.outstanding) (harea : s.params.inJournalArea l = true) :
    s.classifyWrite take r t l mask d = (s.clearWait r).respond r t .error .reservedArea :=
  (if_neg (by simpa using hfree)).trans (if_pos harea)

theorem State.classifyWrite_emptyMask {s : State} (take : Bool) {r : RequesterId} {t : Tag} {l : LineAddr}
    {mask : ByteMask} (d : Line) (hunclaimed : s.unclaimed r t l) (hmask : mask = 0) :
    s.classifyWrite take r t l mask d = (s.clearWait r).respond r t .okay .noDetail :=
  (if_neg (by simpa using hunclaimed.1)).trans ((if_neg (by simp [hunclaimed.2])).trans (if_pos hmask))

/-- Settles O12: these are steps 2 and 3 of the classification, which SERVING and FAULTED share. -/
theorem reservedAreaAndEmptyMask : Obligations.ReservedAreaAndEmptyMask := by
  refine ⟨fun s c r tag l hread hstate hfree harea => ?_, fun s c a hwrite hstate hfree harea => ?_,
    fun s c a hwrite hstate hunclaimed hmask => ?_⟩
  · rw [exec_read c s r tag l hread, State.handleRead_examined r tag l hstate, State.classifyRead_area hfree harea]
  · rw [exec_write_free hwrite hfree, State.handleWrite_examined _ _ _ _ _ _ hstate,
      State.classifyWrite_area _ _ _ hfree harea]
  · rw [exec_write_free hwrite hunclaimed.1, State.handleWrite_examined _ _ _ _ _ _ hstate,
      State.classifyWrite_emptyMask _ _ hunclaimed hmask]

/-! ## Reads (R65, R68, R69) -/

/-- In FAULTED no read is checked against hold entries (R62). -/
theorem State.classifyRead_plain {s : State} {r : RequesterId} {t : Tag} {l : LineAddr} (hunclaimed : s.unclaimed r t l)
    (harming : (s.ctx r).arming ≠ some l) : s.classifyRead r t l =
      if s.device.state ≠ .faulted ∧ s.lineJournaling l = true then s.respond r t .retry .inFlight
      else s.enqueue r t l .read false := by
  obtain ⟨hfree, harea⟩ := hunclaimed
  have harmed : s.queryArmed r l = false := decide_eq_false harming
  unfold State.classifyRead
  rw [if_neg (by simpa using hfree), if_neg (by simp [harea]), if_neg (by simp [harmed])]
  refine if_congr ?_ rfl rfl
  rw [Bool.and_eq_true, decide_eq_true_iff, and_comm]

theorem State.examines_notFaulted {s : State} (h : s.examines) : s.device.state ≠ .faulted ↔ s.device.state = .serving := by
  rcases h with ⟨-, -, hstate⟩ | ⟨-, -, hstate⟩ <;> rw [hstate] <;> decide

/-- Settles O13, by the hold entry of the line and the room in the Forward Queue. -/
theorem readIsForwardedOrRetried : Obligations.ReadIsForwardedOrRetried := by
  intro s c r tag l hread hstate hunclaimed harming
  rw [exec_read c s r tag l hread, State.handleRead_examined r tag l hstate,
    State.classifyRead_plain hunclaimed harming, State.enqueue_read]
  simp only [State.examines_notFaulted hstate]

/-! ## Data writes in SERVING (R65, R67, R68) -/

theorem State.lineJournaling_iff (s : State) (l : LineAddr) :
    s.lineJournaling l = true ↔ ∃ e, s.hold? l = some e ∧ e.state = .journaling := by
  simp [State.lineJournaling, Option.any_eq_true]

theorem State.pendingWrite_iff (s : State) (l : LineAddr) : s.pendingWrite l = true ↔
    (∃ e ∈ s.forward, e.line = l ∧ e.kind ≠ .read) ∨ ∃ o ∈ s.ops, o.line = l ∧ o.stage = .forwarding := by
  simp [State.pendingWrite]

theorem State.dataWrite_inFlight {s : State} {r : RequesterId} {t : Tag} {l : LineAddr} {mask : ByteMask} {d : Line}
    (h : s.lineJournaling l = true ∨ s.pendingWrite l = true) :
    s.dataWrite r t l mask d = s.respond r t .retry .inFlight :=
  if_pos (by rwa [Bool.or_eq_true])

/-- Settles O19, by what makes the line in flight. -/
theorem writeInFlightIsRetried : Obligations.WriteInFlightIsRetried := by
  intro s r tag l mask d hserving hdata hflight
  rw [exec_writeRequest_data hserving hdata, State.dataWrite_inFlight]
  rwa [State.lineJournaling_iff, State.pendingWrite_iff]

/-- R66: a write to a line that is neither in flight nor held by another context goes on by the ranges. -/
theorem State.dataWrite_quiet {s : State} {r : RequesterId} {t : Tag} {l : LineAddr} (mask : ByteMask) (d : Line)
    (hquiet : s.lineQuiet l) (hown : s.heldByOther r l = none) : s.dataWrite r t l mask d =
      if s.params.inJournaledRange l = true then s.journaledWrite r t l mask d
      else s.enqueue r t l (.write mask d) false := by
  unfold State.dataWrite
  rw [hquiet.1, hquiet.2, hown]
  rfl

/-- R67, the row of OPEN for a line the context holds. -/
theorem State.journaledWrite_holder {s : State} {r : RequesterId} {t : Tag} {l : LineAddr} (mask : ByteMask) (d : Line)
    (hopen : (s.ctx r).state = .opened) (hheld : (s.hold? l).isSome = true) : s.journaledWrite r t l mask d =
      if s.forward.length < 32 then
        { s.placed r t l (.write mask d) true with
          contexts := s.contexts.set r { s.ctx r with
            forwardedOutstanding := (s.ctx r).forwardedOutstanding + 1, wait := none } }
      else s.respond r t .retry .queueFull := by
  obtain ⟨e, he⟩ := Option.isSome_iff_exists.1 hheld
  unfold State.journaledWrite
  rw [hopen, he]
  by_cases hroom : s.forward.length < 32
  · have hcounted : (s.enqueue r t l (.write mask d) true).modCtx r
          (fun x => { x with forwardedOutstanding := x.forwardedOutstanding + 1 })
        = (s.placed r t l (.write mask d) true).modCtx r
          (fun x => { x with forwardedOutstanding := x.forwardedOutstanding + 1, wait := none }) := by
      rw [State.enqueue_write, if_pos hroom, State.clearWait, State.modCtx_modCtx]
    rw [if_pos hroom, ← State.setCtx_contexts]
    exact (if_neg (Nat.not_le_of_lt hroom)).trans hcounted
  · rw [if_neg hroom]
    exact if_pos (Nat.le_of_not_lt hroom)

theorem State.journaledWrite_committing {s : State} {r : RequesterId} {t : Tag} {l : LineAddr} (mask : ByteMask)
    (d : Line) (h : (s.ctx r).state = .committing) : s.journaledWrite r t l mask d = s.respond r t .retry .busy := by
  rw [State.journaledWrite, h]

theorem State.journaledWrite_aborted {s : State} {r : RequesterId} {t : Tag} {l : LineAddr} (mask : ByteMask)
    (d : Line) (h : (s.ctx r).state = .abortPending ∨ (s.ctx r).state = .rollingBack ∨ (s.ctx r).state = .aborted) :
    s.journaledWrite r t l mask d = (s.clearWait r).respond r t .error .aborted := by
  rcases h with h | h | h <;> rw [State.journaledWrite, h]

theorem State.journaledWrite_idle {s : State} {r : RequesterId} {t : Tag} {l : LineAddr} (mask : ByteMask)
    (d : Line) (h : (s.ctx r).state = .idle) : s.journaledWrite r t l mask d = s.enqueue r t l (.write mask d) false := by
  rw [State.journaledWrite, h]

/-- Settles O17, by the range and the state of the context. -/
theorem dataWriteByContextState : Obligations.DataWriteByContextState := by
  intro s r tag l mask d hserving hdata hquiet hown
  rw [exec_writeRequest_data hserving hdata, State.dataWrite_quiet mask d hquiet hown]
  refine ⟨fun hrange hopen hheld => ?_, fun hrange hcommitting => ?_, fun hrange haborted => ?_, fun hfree => ?_⟩
  · rw [if_pos hrange, State.journaledWrite_holder mask d hopen hheld]
  · rw [if_pos hrange, State.journaledWrite_committing mask d hcommitting]
  · rw [if_pos hrange, State.journaledWrite_aborted mask d haborted]
  · rcases hfree with ⟨hrange, hidle⟩ | hrange
    · rw [if_pos hrange, State.journaledWrite_idle mask d hidle, State.enqueue_write]
    · rw [if_neg (by simp [hrange]), State.enqueue_write]

/-! ## Data writes in FAULTED (R62) -/

theorem State.classifyWrite_faulted {s : State} {take : Bool} {r : RequesterId} {t : Tag} {l : LineAddr} {mask : ByteMask}
    {d : Line} (hdata : s.isDataWrite r t l mask d) (hfaulted : s.device.state = .faulted) :
    s.classifyWrite take r t l mask d = s.faultedWrite r t l mask d := by
  obtain ⟨⟨hfree, harea⟩, hmask, hdataLine⟩ := hdata
  unfold State.classifyWrite
  rw [if_neg (by simpa using hfree), if_neg (by simp [harea]), if_neg hmask, if_neg (by simp [hdataLine]),
    if_pos hfaulted]

/-- Settles O20: the range decides before the pending write, and both before the Forward Queue. -/
theorem faultedWrite : Obligations.FaultedWrite := by
  intro s r tag l mask d hfaulted hdata
  have hhandle : s.handleWrite false r tag l mask d = s.faultedWrite r tag l mask d :=
    (State.handleWrite_examined _ _ _ _ _ _ (Or.inr hfaulted)).trans (State.classifyWrite_faulted hdata hfaulted.2.2)
  rw [← State.enqueue_write]
  exact congrArg Host.Outcome.next hhandle

end Sys2Proof.Machine

/-! PROOFS. Family 05_commit_abort_and_rollback: what a context's drain asks for or queues (R7, R11, R79, R82). -/

namespace Sys2Proof.Machine

/-! ## The COMMIT record (R7, R79) -/

theorem State.endAsked_iff (s : State) (c : RequesterId) : s.endAsked c = true ↔
    (∃ q ∈ s.journal.requests, q.context = c) ∨ ∃ r ∈ s.journal.records, r.owner = c ∧ r.record.kind ≠ .undo := by
  simp [State.endAsked]

theorem State.endAsked_eq_false {s : State} {c : RequesterId} (hrequests : ∀ q ∈ s.journal.requests, q.context ≠ c)
    (hrecords : ∀ r ∈ s.journal.records, r.owner = c → r.record.kind = .undo) : s.endAsked c = false := by
  refine Bool.eq_false_iff.2 (fun hasked => ?_)
  rcases (s.endAsked_iff c).1 hasked with ⟨q, hq, hcontext⟩ | ⟨r, hr, howner, hkind⟩
  · exact hrequests q hq hcontext
  · exact hkind (hrecords r hr howner)

theorem exec_commitRecordAsk_drained {s : State} {c : RequesterId} (hstate : (s.ctx c).state = .committing)
    (hdrained : (s.ctx c).drained = true) (hasked : s.endAsked c = false) :
    exec (.commitRecordAsk c) s = .next (s.askEndRecord c .commit) :=
  if_pos ⟨hstate, hdrained, hasked⟩

/-- Log 4: before the drain, outside COMMITTING, and once the record has been asked for. -/
theorem exec_commitRecordAsk_outOfTurn {s : State} {c : RequesterId} (h : (s.ctx c).state ≠ .committing
    ∨ ¬ (s.ctx c).drained = true ∨ s.endAsked c = true) : exec (.commitRecordAsk c) s = .next s := by
  refine if_neg ?_
  rintro ⟨hstate, hdrained, hasked⟩
  rcases h with h | h | h
  · exact h hstate
  · exact h hdrained
  · cases h.symm.trans hasked

/-! ## The rollback queue (R11, R82) -/

theorem dropDrain_singleton (c : RequesterId) (rest : List (List RequesterId)) : dropDrain c [c] rest = rest := by
  simp [dropDrain]

/-- R82: the drains taken together with that of c keep their place. -/
theorem dropDrain_others {c : RequesterId} {group : List RequesterId} (rest : List (List RequesterId))
    (hmem : c ∈ group) (hothers : group ≠ [c]) : dropDrain c group rest = group.erase c :: rest := by
  have hleft : group.erase c ≠ [] := fun hnil => hothers (List.perm_singleton.1 (hnil ▸ List.perm_cons_erase hmem))
  exact if_neg (by simpa using hleft)

theorem exec_rollbackQueueAppend_oldest {s : State} {c : RequesterId} {group : List RequesterId}
    {rest : List (List RequesterId)} (hdrains : s.drains = group :: rest) (hmem : c ∈ group) :
    exec (.rollbackQueueAppend c) s
      = .next { s with rollbackQueue := s.rollbackQueue ++ [c], drains := dropDrain c group rest } := by
  show execRollbackQueueAppend c s = _
  unfold execRollbackQueueAppend
  rw [hdrains]
  exact if_pos (List.contains_iff_mem.2 hmem)

/-- Log 4: a context whose drain is not the oldest taken, or has not been taken. -/
theorem exec_rollbackQueueAppend_outOfTurn {s : State} {c : RequesterId} (h : ∀ group ∈ s.drains.head?, c ∉ group) :
    exec (.rollbackQueueAppend c) s = .next s := by
  show execRollbackQueueAppend c s = _
  unfold execRollbackQueueAppend
  split
  · rename_i group rest hdrains
    exact if_neg (fun hmem => h group (by rw [hdrains]; rfl) (List.contains_iff_mem.1 hmem))
  · rfl

/-- Settles O45, command by command: by the context's drain, and by the group of the oldest drain. -/
theorem drainAsksOrQueues : Obligations.DrainAsksOrQueues := by
  refine ⟨fun s c hstate hops hforwarded hrequests hrecords => ?_, fun s c group rest hdrains => ⟨?_, ?_, ?_⟩,
    fun s c hdrains => ?_, fun s c h => ?_⟩
  · rw [exec_commitRecordAsk_drained hstate ((Context.drained_iff _).2 ⟨hops, hforwarded⟩)
      (State.endAsked_eq_false hrequests hrecords)]
    rfl
  · rintro rfl
    rw [exec_rollbackQueueAppend_oldest hdrains (List.mem_singleton_self c), dropDrain_singleton]
  · intro hmem hothers
    rw [exec_rollbackQueueAppend_oldest hdrains hmem, dropDrain_others rest hmem hothers]
  · intro hmem
    refine exec_rollbackQueueAppend_outOfTurn (fun g hg => ?_)
    rw [hdrains] at hg
    exact Option.some.inj hg ▸ hmem
  · refine exec_rollbackQueueAppend_outOfTurn (fun g hg => ?_)
    rw [hdrains] at hg
    cases hg
  · refine exec_commitRecordAsk_outOfTurn ?_
    rw [State.endAsked_iff, Context.drained_iff]
    rcases h with h | h | h | h | h
    · exact .inl h
    · exact .inr (.inl (fun hdrained => h hdrained.1))
    · exact .inr (.inl (fun hdrained => h hdrained.2))
    · exact .inr (.inr (.inl h))
    · exact .inr (.inr (.inr h))

end Sys2Proof.Machine

/-! PROOFS. Family 05_commit_abort_and_rollback: the Rollback Engine takes a context and asks for the ABORT record (R84,
R90, R92, R94). -/

namespace Sys2Proof.Machine

theorem State.askEndRecord_abort (s : State) (c : RequesterId) :
    s.askEndRecord c .abort = { s with journal := { s.journal with requests := s.journal.requests ++ [{
      context := c, kind := .abort, openNumber := (s.ctx c).openNumber.getD 0, label := (s.ctx c).label.getD 0
      reason := reasonCode (s.ctx c).reason }] } } := rfl

/-! ## The engine takes a context (R84) -/

theorem State.ctx_setEngine (s : State) (e : Engine) (c : RequesterId) : (s.setEngine e).ctx c = s.ctx c := rfl

theorem exec_rollbackTakeContext_taken {s : State} {c : RequesterId} {rest : List RequesterId}
    (hqueue : s.rollbackQueue = c :: rest) (hphase : s.engine.phase = .free) (hworks : s.works) :
    exec .rollbackTakeContext s = .next (s.takeContext c rest) := by
  show execRollbackTakeContext s = _
  unfold execRollbackTakeContext
  rw [hqueue]
  exact if_pos ⟨hphase, State.works_running hworks, State.works_state hworks⟩

theorem exec_rollbackTakeContext_notTaken {s : State} (h : s.device.powerFailPending = true
    ∨ (s.device.state ≠ .serving ∧ s.device.state ≠ .draining) ∨ s.engine.phase ≠ .free ∨ s.rollbackQueue = []) :
    exec .rollbackTakeContext s = .next s := by
  show execRollbackTakeContext s = _
  unfold execRollbackTakeContext
  split
  · rename_i c rest hqueue
    refine if_neg ?_
    rintro ⟨hphase, hpower, hstate⟩
    rcases h with h | ⟨hserving, hdraining⟩ | h | h
    · cases h.symm.trans hpower
    · exact hstate.elim hserving hdraining
    · exact h hphase
    · cases h.symm.trans hqueue
  · rfl

/-- R84: with undo records the walk begins at the last slot. -/
theorem State.takeContext_walks {s : State} {c : RequesterId} (rest : List RequesterId)
    (hundo : (s.ctx c).undoCount ≠ 0) : s.takeContext c rest = { s with
      rollbackQueue := rest
      contexts := s.contexts.set c { s.ctx c with state := .rollingBack }
      engine := {
        phase := .walking, current := some c, walkPosition := some ((s.ctx c).lastSlot.getD 0), walkEnded := false
        foundCount := 0, firstHalf := none, waiting := [], restore := none
        read := some { slot := (s.ctx c).lastSlot.getD 0, half := .first, attempt := 1, issued := false } } } :=
  if_neg hundo

/-- R84: with no undo record the engine is CLOSING at once, and asks for the ABORT record. -/
theorem State.takeContext_closes {s : State} {c : RequesterId} (rest : List RequesterId)
    (hundo : (s.ctx c).undoCount = 0) : s.takeContext c rest = { s with
      rollbackQueue := rest
      contexts := s.contexts.set c { s.ctx c with state := .rollingBack }
      engine := {
        phase := .closing, current := some c, walkPosition := none, walkEnded := false, foundCount := 0
        firstHalf := none, waiting := [], restore := none, read := none }
      journal := { s.journal with requests := s.journal.requests ++ [{
        context := c, kind := .abort, openNumber := (s.ctx c).openNumber.getD 0, label := (s.ctx c).label.getD 0
        reason := reasonCode (s.ctx c).reason }] } } := by
  unfold State.takeContext
  dsimp only
  rw [if_pos hundo, State.askEndRecord_abort, State.ctx_setEngine, State.ctx_modCtx_self]
  rfl

/-! ## The ABORT record (R90) -/

theorem Engine.finished_iff (e : Engine) : e.finished = true ↔
    e.phase = .walking ∧ e.walkEnded = true ∧ e.waiting = [] ∧ e.restore = none := by
  simp [Engine.finished, and_assoc]

theorem exec_abortRecordAsk_finished {s : State} {c : RequesterId} (hcurrent : s.engine.current = some c)
    (hfinished : s.engine.finished = true) (hpower : s.device.powerFailPending = false) :
    exec .abortRecordAsk s
      = .next (State.askEndRecord (s.setEngine { s.engine with phase := .closing, walkEnded := false }) c .abort) := by
  show execAbortRecordAsk s = _
  unfold execAbortRecordAsk
  rw [hcurrent]
  exact if_pos ⟨hfinished, hpower⟩

theorem exec_abortRecordAsk_notAsked {s : State} (h : s.device.powerFailPending = true ∨ s.engine.current = none
    ∨ ¬ s.engine.finished = true) : exec .abortRecordAsk s = .next s := by
  show execAbortRecordAsk s = _
  unfold execAbortRecordAsk
  split
  · rename_i c hcurrent
    refine if_neg ?_
    rintro ⟨hfinished, hpower⟩
    rcases h with h | h | h
    · cases h.symm.trans hpower
    · cases h.symm.trans hcurrent
    · exact h hfinished
  · rfl

/-- Settles O46, by the undo record count, and by what keeps either command from its effect. -/
theorem engineTakesAndCloses : Obligations.EngineTakesAndCloses := by
  refine ⟨fun s c rest hqueue hphase hworks => ?_, fun s c hcurrent hphase hended hwaiting hrestore hpower => ?_,
    fun s h => ?_, fun s h => exec_rollbackTakeContext_notTaken (.inr h), fun s h => ?_, fun s h => ?_⟩
  · rw [exec_rollbackTakeContext_taken hqueue hphase hworks]
    exact ⟨fun hundo => congrArg _ (State.takeContext_walks rest hundo),
      fun hundo => congrArg _ (State.takeContext_closes rest hundo)⟩
  · rw [exec_abortRecordAsk_finished hcurrent ((Engine.finished_iff _).2 ⟨hphase, hended, hwaiting, hrestore⟩) hpower,
      State.askEndRecord_abort]
    rfl
  · rcases h with hfaulted | hstopped | hpower
    · exact exec_rollbackTakeContext_notTaken (.inr (.inl (by simp [hfaulted])))
    · exact exec_rollbackTakeContext_notTaken (.inr (.inr (.inl (by simp [hstopped]))))
    · exact exec_rollbackTakeContext_notTaken (.inl hpower)
  · refine exec_abortRecordAsk_notAsked (h.imp_right (fun hstopped => .inr ?_))
    rw [Engine.finished_iff, hstopped]
    rintro ⟨hwalking, -⟩
    cases hwalking
  · refine exec_abortRecordAsk_notAsked (.inr (h.imp_right (fun h hfinished => ?_)))
    obtain ⟨hphase, hended, hwaiting, hrestore⟩ := (Engine.finished_iff _).1 hfinished
    rcases h with h | h | h | h
    · exact h hphase
    · cases h.symm.trans hended
    · exact h hwaiting
    · exact h hrestore

end Sys2Proof.Machine

/-! PROOFS. Family 05_commit_abort_and_rollback: a restore write of the Rollback Engine completes (R87, R88, R92,
R94). -/

namespace Sys2Proof.Machine

/-! ## Claiming a restore (R87, R94) -/

section ClaimRestore

variable {s : State} {e : Engine}

theorem State.claimRestore_windDown (hpower : s.device.powerFailPending = true) :
    (s.setEngine e).claimRestore = s.setEngine e :=
  if_pos hpower

theorem State.claimRestore_underWay (hrestore : e.restore ≠ none) : (s.setEngine e).claimRestore = s.setEngine e := by
  obtain ⟨w, hw⟩ := Option.ne_none_iff_exists'.1 hrestore
  unfold State.claimRestore
  rw [State.setEngine_engine, hw]
  exact ite_self _

theorem State.claimRestore_noneWaiting (hwaiting : e.waiting = []) : (s.setEngine e).claimRestore = s.setEngine e := by
  unfold State.claimRestore
  rw [State.setEngine_engine, hwaiting]
  cases e.restore <;> exact ite_self _

theorem State.claimRestore_oldest {l : LineAddr} {d : Line} {rest : List (LineAddr × Line)}
    (hpower : s.device.powerFailPending = false) (hrestore : e.restore = none) (hwaiting : e.waiting = (l, d) :: rest) :
    (s.setEngine e).claimRestore = s.setEngine { e with
      waiting := rest, restore := some { line := l, old := d, attempt := 1, issued := false } } := by
  unfold State.claimRestore
  rw [State.setEngine_engine, hrestore, hwaiting, State.setEngine_device, hpower]
  rfl

end ClaimRestore

/-! ## Fault reports of the engine (R88, R158) -/

/-- R158: seen from the state before the completion freed its slot. -/
theorem State.reportFault_engine_works {s : State} (k : AccessSlot) {e : Engine}
    (hcurrent : e.current = s.engine.current) (hworks : s.works) :
    let t := ((s.freeAccess k).setEngine e).reportFault .rollbackAccess
    t.woundDown = t ∧ s.faultedFrom t .rollbackAccess ∧ t.engine.current = s.engine.current
      ∧ t.journal = s.journal := by
  have hfaulted := State.reportFault_works_faultedFrom ((s.freeAccess k).setEngine e) .rollbackAccess hworks
  unfold State.faultedFrom at hfaulted ⊢
  rw [State.setEngine_engine, hcurrent] at hfaulted
  have hkept : (((s.freeAccess k).setEngine e).reportFault .rollbackAccess).engine.current = s.engine.current := by
    obtain ⟨-, -, -, -, -, -, -, -, -, -, -, hkept, -⟩ := hfaulted
    exact hkept
  refine ⟨State.woundDown_running _ ?_, hfaulted, hkept, State.reportFault_journal _ _⟩
  rw [State.reportFault_powerFail]
  exact State.works_running hworks

/-- R161: in the wind-down a fault report is discarded. -/
theorem State.reportFault_discarded {s : State} (cause : FaultCause) (hpower : s.device.powerFailPending = true) :
    s.reportFault cause = s :=
  if_pos hpower

/-! ## The answer to a restore -/

/-- RESTORE_WRITE_COMPLETE delivers the answer to the engine, and the wind-down goes on. -/
theorem exec_restoreWriteComplete {s : State} {k : AccessSlot} {a : Access} (result : WriteResult)
    (hacc : s.access k = some a) (hpurpose : a.purpose = .rollbackRestore) :
    exec (.restoreWriteComplete k result) s = .next (State.restored result a (s.freeAccess k)).woundDown := by
  have hexec : exec (.restoreWriteComplete k result) s
      = .next (s.complete k (fun p => decide (p = .rollbackRestore)) (State.restored result)) := rfl
  rw [hexec, State.complete_delivered s k a _ _ hacc (decide_eq_true hpurpose), State.settle_eq]

section Restored

variable {s : State} {w : EngineRestore}

theorem State.restored_okay (a : Access) (hrestore : s.engine.restore = some w) (hphase : s.engine.phase = .walking) :
    State.restored .okay a s = (s.setEngine { s.engine with restore := none }).claimRestore := by
  simp only [State.restored, hrestore, hphase, reduceCtorEq, if_false]

theorem State.restored_error (a : Access) (hrestore : s.engine.restore = some w) (hphase : s.engine.phase = .walking) :
    State.restored .error a s = s.restoreError w := by
  simp only [State.restored, hrestore, hphase, reduceCtorEq, if_false]

/-- R92: once the engine is STOPPED the result is discarded. -/
theorem State.restored_stopped (result : WriteResult) (a : Access) (hrestore : s.engine.restore = some w)
    (hphase : s.engine.phase = .stopped) :
    State.restored result a s = s.setEngine { s.engine with restore := none } := by
  simp only [State.restored, hrestore, if_pos hphase]

/-- R88: a restore is written three times in all. -/
theorem State.restoreError_again (hpower : s.device.powerFailPending = false) (hattempt : w.attempt < 3) :
    s.restoreError w
      = s.setEngine { s.engine with restore := some { w with attempt := w.attempt + 1, issued := false } } :=
  if_pos ⟨hpower, hattempt⟩

theorem State.restoreError_last (hattempt : 3 ≤ w.attempt) :
    s.restoreError w = (s.setEngine { s.engine with restore := none }).reportFault .rollbackAccess :=
  if_neg (fun h => Nat.not_lt.2 hattempt h.2)

/-- R94, R161: in the wind-down nothing is repeated, and no fault is taken. -/
theorem State.restoreError_windDown (hpower : s.device.powerFailPending = true) :
    s.restoreError w = s.setEngine { s.engine with restore := none } := by
  have hnotRepeated : ¬ (s.device.powerFailPending = false ∧ w.attempt < Config.attempts) := by simp [hpower]
  exact (if_neg hnotRepeated).trans (State.reportFault_discarded _ hpower)

/-- R94: in the wind-down the restore under way is dropped, whatever its result. -/
theorem State.restored_windDown (result : WriteResult) (a : Access) (hrestore : s.engine.restore = some w)
    (hphase : s.engine.phase = .walking) (hpower : s.device.powerFailPending = true) :
    State.restored result a s = s.setEngine { s.engine with restore := none } := by
  cases result with
  | okay => rw [State.restored_okay a hrestore hphase, State.claimRestore_windDown hpower]
  | error => rw [State.restored_error a hrestore hphase, State.restoreError_windDown hpower]

end Restored

/-- Settles O48, by the phase of the engine, the result of the write and its attempt. -/
theorem restoreWriteCompletes : Obligations.RestoreWriteCompletes := by
  refine ⟨fun s k a w hacc hpurpose hrestore hphase hworks => ?_, fun s k a w result hacc hpurpose hrestore h => ?_⟩
  · have hrestore' : (s.freeAccess k).engine.restore = some w := hrestore
    have hphase' : (s.freeAccess k).engine.phase = .walking := hphase
    have hpower : s.device.powerFailPending = false := State.works_running hworks
    rw [exec_restoreWriteComplete .okay hacc hpurpose, exec_restoreWriteComplete .error hacc hpurpose,
      State.restored_okay a hrestore' hphase', State.restored_error a hrestore' hphase']
    refine ⟨fun hwaiting => ?_, fun l d rest hwaiting => ?_, fun hattempt => ?_, fun hattempt => ?_⟩
    · rw [State.claimRestore_noneWaiting (by exact hwaiting)]
      exact congrArg _ (State.woundDown_running _ hpower)
    · have hclaimed := State.claimRestore_oldest (s := s.freeAccess k) (e := { s.engine with restore := none })
        hpower rfl hwaiting
      exact congrArg _ ((congrArg State.woundDown hclaimed).trans (State.woundDown_running _ hpower))
    · rw [State.restoreError_again (s := s.freeAccess k) hpower hattempt]
      exact congrArg _ (State.woundDown_running _ hpower)
    · obtain ⟨hrunning, hfaulted, -, hjournal⟩ :=
        State.reportFault_engine_works k (e := { s.engine with restore := none }) rfl hworks
      rw [State.restoreError_last hattempt]
      exact ⟨_, congrArg _ hrunning, hfaulted, hjournal⟩
  · rw [exec_restoreWriteComplete result hacc hpurpose]
    rcases h with ⟨hphase, hpower⟩ | hphase
    · rw [State.restored_windDown (s := s.freeAccess k) result a hrestore hphase hpower]
      rfl
    · rw [State.restored_stopped (s := s.freeAccess k) result a hrestore hphase]
      rfl

end Sys2Proof.Machine

/-! PROOFS. Family 05_commit_abort_and_rollback: a slot-half read of the Rollback Engine completes (R85, R86, R88, R92,
R94). -/

namespace Sys2Proof.Machine

/-! ## What a slot holds (R85) -/

theorem State.slotMatches_iff (s : State) (c : RequesterId) (slot : Nat) (r : JournalRecord) :
    s.slotMatches c slot r = true ↔ r.kind = .undo ∧ r.context = BitVec.ofNat 8 c
      ∧ (s.ctx c).openNumber = some r.openNumber ∧ r.seq = s.slotSeq slot := by
  simp only [State.slotMatches, Bool.and_eq_true, decide_eq_true_iff, and_assoc, eq_comm (a := some r.openNumber)]

theorem State.foundIn_match {s : State} {c : RequesterId} {slot : Nat} {v : Place} {r : JournalRecord}
    (hparse : JournalRecord.parse v = some r) (hmatch : s.slotMatches c slot r = true) :
    s.foundIn c slot v = [(r.line, r.old)] := by
  unfold State.foundIn
  rw [hparse]
  exact if_pos hmatch

/-- R85: no record, or another one. -/
theorem State.foundIn_passedOver {s : State} {c : RequesterId} {slot : Nat} {v : Place}
    (h : JournalRecord.parse v = none ∨ ∃ r, JournalRecord.parse v = some r ∧ ¬ s.slotMatches c slot r = true) :
    s.foundIn c slot v = [] := by
  unfold State.foundIn
  rcases h with hparse | ⟨r, hparse, hother⟩
  · rw [hparse]
  · rw [hparse]
    exact if_neg hother

/-! ## Where the walk goes after a slot (R86) -/

section AfterExamine

variable {s : State} {e : Engine} {c : RequesterId} {slot : Nat}

/-- R86: the last record sought ends the walk. -/
theorem State.afterExamine_last (hall : (s.ctx c).undoCount ≤ e.foundCount) : (s.setEngine e).afterExamine c slot
    = (s.setEngine { e with walkEnded := true, walkPosition := none }).claimRestore :=
  (if_pos (.inl hall)).trans (if_neg (Nat.not_lt.2 hall))

/-- R86, R88: the first slot has been examined, and records are missing. -/
theorem State.afterExamine_short (hmore : e.foundCount < (s.ctx c).undoCount)
    (hfirst : (s.ctx c).firstSlot = some slot) : (s.setEngine e).afterExamine c slot
    = (s.setEngine { e with walkEnded := true, walkPosition := none }).reportFault .rollbackAccess :=
  (if_pos (.inr hfirst)).trans (if_pos hmore)

/-- R86: the walk goes one slot back. -/
theorem State.afterExamine_back (hmore : e.foundCount < (s.ctx c).undoCount)
    (hfirst : (s.ctx c).firstSlot ≠ some slot) : (s.setEngine e).afterExamine c slot
    = ((s.setEngine { e with walkPosition := some (prevSlot s.slotCount slot) }).claimRead
        (prevSlot s.slotCount slot) .first).claimRestore :=
  if_neg (fun h => h.elim (Nat.not_le.2 hmore) hfirst)

theorem State.claimRead_running (h : Half) (hpower : s.device.powerFailPending = false) :
    (s.setEngine e).claimRead slot h
      = s.setEngine { e with read := some { slot := slot, half := h, attempt := 1, issued := false } } := by
  rw [State.claimRead, State.setEngine_device, hpower]
  rfl

theorem State.claimRead_windDown (h : Half) (hpower : s.device.powerFailPending = true) :
    (s.setEngine e).claimRead slot h = s.setEngine { e with read := none } := by
  rw [State.claimRead, State.setEngine_device, hpower]
  rfl

/-- R94, R161: in the wind-down nothing is claimed and no fault is taken, wherever the walk stands. -/
theorem State.afterExamine_windDown (hpower : s.device.powerFailPending = true) (hread : e.read = none) :
    ∃ f : Engine, (s.setEngine e).afterExamine c slot = s.setEngine f ∧ f.read = none ∧ f.restore = e.restore := by
  rcases Nat.lt_or_ge e.foundCount (s.ctx c).undoCount with hmore | hall
  · by_cases hfirst : (s.ctx c).firstSlot = some slot
    · rw [State.afterExamine_short hmore hfirst, State.reportFault_discarded _ (by exact hpower)]
      exact ⟨_, rfl, hread, rfl⟩
    · rw [State.afterExamine_back hmore hfirst, State.claimRead_windDown _ hpower, State.claimRestore_windDown hpower]
      exact ⟨_, rfl, rfl, rfl⟩
  · rw [State.afterExamine_last hall, State.claimRestore_windDown hpower]
    exact ⟨_, rfl, hread, rfl⟩

end AfterExamine

/-! ## A slot is examined (R85) -/

/-- R85: the engine with what a slot's bytes add to the restore list. -/
def Engine.examined (e : Engine) (found : List (LineAddr × Line)) : Engine :=
  { e with
    read := none, firstHalf := none, foundCount := e.foundCount + found.length, waiting := e.waiting ++ found }

theorem Engine.examined_nil (e : Engine) : e.examined [] = { e with read := none, firstHalf := none } := by
  simp [Engine.examined]

theorem State.examineSlot_current {s : State} {c : RequesterId} (slot : Nat) (v : Place)
    (hcurrent : s.engine.current = some c) :
    s.examineSlot slot v = (s.setEngine (s.engine.examined (s.foundIn c slot v))).afterExamine c slot := by
  unfold State.examineSlot
  rw [hcurrent]
  rfl

/-- R87: a restore found is claimed at once where none waits and none is under way, and waits behind one under way. -/
theorem State.claimRestore_found {s : State} (e : Engine) (l : LineAddr) (d : Line)
    (hpower : s.device.powerFailPending = false) :
    let t := (s.setEngine { e with waiting := e.waiting ++ [(l, d)] }).claimRestore.woundDown
    (e.waiting = [] → e.restore = none →
      t = s.setEngine { e with restore := some { line := l, old := d, attempt := 1, issued := false } })
    ∧ (e.restore ≠ none → t = s.setEngine { e with waiting := e.waiting ++ [(l, d)] }) := by
  refine ⟨fun hwaiting hrestore => ?_, fun hrestore => ?_⟩
  · have hnext : e.waiting ++ [(l, d)] = (l, d) :: e.waiting := by rw [hwaiting]; rfl
    rw [State.claimRestore_oldest hpower (by exact hrestore) (by exact hnext)]
    exact State.woundDown_running _ hpower
  · rw [State.claimRestore_underWay (by exact hrestore)]
    exact State.woundDown_running _ hpower

/-- R87: where no restore waits, or one is under way, a slot that is passed over leads to no claim. -/
theorem State.claimRestore_unchanged {s : State} {e : Engine} (h : e.waiting = [] ∨ e.restore ≠ none) :
    (s.setEngine e).claimRestore = s.setEngine e :=
  h.elim State.claimRestore_noneWaiting State.claimRestore_underWay

/-! ## The answer to a slot-half read -/

/-- ROLLBACK_READ_COMPLETE delivers the answer to the engine, and the wind-down goes on. -/
theorem exec_rollbackReadComplete {s : State} {k : AccessSlot} {a : Access} (result : ReadResult)
    (hacc : s.access k = some a) (hpurpose : a.purpose = .rollbackRead) :
    exec (.rollbackReadComplete k result) s = .next (State.rollbackRead result a (s.freeAccess k)).woundDown := by
  have hexec : exec (.rollbackReadComplete k result) s
      = .next (s.complete k (fun p => decide (p = .rollbackRead)) (State.rollbackRead result)) := rfl
  rw [hexec, State.complete_delivered s k a _ _ hacc (decide_eq_true hpurpose), State.settle_eq]

section Read

variable {s : State} {rd : EngineRead}

theorem State.rollbackRead_okay (a : Access) (d : Line) (hread : s.engine.read = some rd)
    (hphase : s.engine.phase = .walking) : State.rollbackRead (.okay d) a s = s.readOkay rd d := by
  simp only [State.rollbackRead, hread, hphase, reduceCtorEq, if_false]

theorem State.rollbackRead_error (a : Access) (hread : s.engine.read = some rd) (hphase : s.engine.phase = .walking) :
    State.rollbackRead .error a s = s.readError rd := by
  simp only [State.rollbackRead, hread, hphase, reduceCtorEq, if_false]

/-- R92: once the engine is STOPPED the result is discarded. -/
theorem State.rollbackRead_stopped (result : ReadResult) (a : Access) (hread : s.engine.read = some rd)
    (hphase : s.engine.phase = .stopped) :
    State.rollbackRead result a s = s.setEngine { s.engine with read := none } := by
  simp only [State.rollbackRead, hread, if_pos hphase]

theorem State.readOkay_first (d : Line) (hhalf : rd.half = .first) :
    s.readOkay rd d = (s.setEngine { s.engine with firstHalf := some d }).claimRead rd.slot .second := by
  rw [State.readOkay, hhalf]

theorem State.readOkay_second (d : Line) (hhalf : rd.half = .second) :
    s.readOkay rd d = s.examineSlot rd.slot (placeOf (s.engine.firstHalf.getD 0) d) := by
  rw [State.readOkay, hhalf]

/-- R88: a half is read three times in all. -/
theorem State.readError_again (hpower : s.device.powerFailPending = false) (hattempt : rd.attempt < 3) :
    s.readError rd
      = s.setEngine { s.engine with read := some { rd with attempt := rd.attempt + 1, issued := false } } :=
  if_pos ⟨hpower, hattempt⟩

theorem State.readError_last (hattempt : 3 ≤ rd.attempt) :
    s.readError rd = (s.setEngine { s.engine with read := none }).reportFault .rollbackAccess :=
  if_neg (fun h => Nat.not_lt.2 hattempt h.2)

theorem State.readError_windDown (hpower : s.device.powerFailPending = true) :
    s.readError rd = s.setEngine { s.engine with read := none } := by
  have hnotRepeated : ¬ (s.device.powerFailPending = false ∧ rd.attempt < Config.attempts) := by simp [hpower]
  exact (if_neg hnotRepeated).trans (State.reportFault_discarded _ hpower)

/-- R94: in the wind-down a read that completes leads to no claim and to no fault, whatever its result. -/
theorem State.rollbackRead_windDown {c : RequesterId} (result : ReadResult) (a : Access)
    (hread : s.engine.read = some rd) (hcurrent : s.engine.current = some c) (hphase : s.engine.phase = .walking)
    (hpower : s.device.powerFailPending = true) :
    ∃ e : Engine, State.rollbackRead result a s = s.setEngine e ∧ e.read = none ∧ e.restore = s.engine.restore := by
  cases result with
  | error =>
    rw [State.rollbackRead_error a hread hphase, State.readError_windDown hpower]
    exact ⟨_, rfl, rfl, rfl⟩
  | okay d =>
    rw [State.rollbackRead_okay a d hread hphase]
    cases hhalf : rd.half with
    | first =>
      rw [State.readOkay_first d hhalf, State.claimRead_windDown _ hpower]
      exact ⟨_, rfl, rfl, rfl⟩
    | second =>
      rw [State.readOkay_second d hhalf, State.examineSlot_current _ _ hcurrent]
      exact State.afterExamine_windDown hpower rfl

end Read

/-! ## Both halves of a slot have been read, in SERVING and DRAINING (R85, R86) -/

section Walking

variable {s : State} {k : AccessSlot} {a : Access} {rd : EngineRead} {c : RequesterId}

/-- R85: the second half's OKAY, by what the slot adds to the restore list. -/
theorem exec_rollbackReadComplete_second {d d0 : Line} {found : List (LineAddr × Line)}
    (hacc : s.access k = some a) (hpurpose : a.purpose = .rollbackRead) (hread : s.engine.read = some rd)
    (hcurrent : s.engine.current = some c) (hphase : s.engine.phase = .walking) (hhalf : rd.half = .second)
    (hfirst : s.engine.firstHalf = some d0) (hfound : s.foundIn c rd.slot (placeOf d0 d) = found) :
    exec (.rollbackReadComplete k (.okay d)) s = .next
      (((s.freeAccess k).setEngine (s.engine.examined found)).afterExamine c rd.slot).woundDown := by
  have hfirst' : (s.freeAccess k).engine.firstHalf = some d0 := hfirst
  have hfound' : (s.freeAccess k).foundIn c rd.slot (placeOf d0 d) = found := hfound
  rw [exec_rollbackReadComplete _ hacc hpurpose, State.rollbackRead_okay (s := s.freeAccess k) a d hread hphase,
    State.readOkay_second d hhalf, State.examineSlot_current (s := s.freeAccess k) _ _ hcurrent, hfirst',
    Option.getD_some, hfound']
  rfl

/-- R85, R86: the last record sought ends the walk. -/
theorem State.afterExamine_found_last {r : JournalRecord} (hworks : s.works)
    (hlast : s.engine.foundCount + 1 = (s.ctx c).undoCount) :
    let t := (((s.freeAccess k).setEngine (s.engine.examined [(r.line, r.old)])).afterExamine c rd.slot).woundDown
    (s.engine.waiting = [] → s.engine.restore = none → t = { s with
      link := s.link.set k none
      engine := { s.engine with
        read := none, firstHalf := none, foundCount := s.engine.foundCount + 1, walkEnded := true, walkPosition := none
        restore := some { line := r.line, old := r.old, attempt := 1, issued := false } } })
    ∧ (s.engine.restore ≠ none → t = { s with
      link := s.link.set k none
      engine := { s.engine with
        read := none, firstHalf := none, foundCount := s.engine.foundCount + 1, walkEnded := true, walkPosition := none
        waiting := s.engine.waiting ++ [(r.line, r.old)] } }) := by
  rw [State.afterExamine_last (by exact Nat.le_of_eq hlast.symm)]
  exact State.claimRestore_found (s := s.freeAccess k) { s.engine with
    read := none, firstHalf := none, foundCount := s.engine.foundCount + 1, walkEnded := true, walkPosition := none }
    r.line r.old (State.works_running hworks)

/-- R85, R86: one before the last record sought moves the walk a slot back. -/
theorem State.afterExamine_found_back {r : JournalRecord} (hworks : s.works)
    (hmore : s.engine.foundCount + 1 < (s.ctx c).undoCount) (hfirst : (s.ctx c).firstSlot ≠ some rd.slot) :
    let t := (((s.freeAccess k).setEngine (s.engine.examined [(r.line, r.old)])).afterExamine c rd.slot).woundDown
    let p := prevSlot s.slotCount rd.slot
    (s.engine.waiting = [] → s.engine.restore = none → t = { s with
      link := s.link.set k none
      engine := { s.engine with
        firstHalf := none, foundCount := s.engine.foundCount + 1, walkPosition := some p
        read := some { slot := p, half := .first, attempt := 1, issued := false }
        restore := some { line := r.line, old := r.old, attempt := 1, issued := false } } })
    ∧ (s.engine.restore ≠ none → t = { s with
      link := s.link.set k none
      engine := { s.engine with
        firstHalf := none, foundCount := s.engine.foundCount + 1, walkPosition := some p
        read := some { slot := p, half := .first, attempt := 1, issued := false }
        waiting := s.engine.waiting ++ [(r.line, r.old)] } }) := by
  have hpower : s.device.powerFailPending = false := State.works_running hworks
  rw [State.afterExamine_back (s := s.freeAccess k) hmore hfirst,
    State.claimRead_running (s := s.freeAccess k) _ hpower]
  exact State.claimRestore_found (s := s.freeAccess k) { s.engine with
    firstHalf := none, foundCount := s.engine.foundCount + 1, walkPosition := some (prevSlot s.slotCount rd.slot)
    read := some { slot := prevSlot s.slotCount rd.slot, half := .first, attempt := 1, issued := false } }
    r.line r.old hpower

/-- R86: a slot passed over before the first one moves the walk a slot back. -/
theorem State.afterExamine_passedOver_back (hworks : s.works) (hmore : s.engine.foundCount < (s.ctx c).undoCount)
    (hfirst : (s.ctx c).firstSlot ≠ some rd.slot) (hrestore : s.engine.waiting = [] ∨ s.engine.restore ≠ none) :
    (((s.freeAccess k).setEngine (s.engine.examined [])).afterExamine c rd.slot).woundDown = { s with
      link := s.link.set k none
      engine := { s.engine with
        firstHalf := none, walkPosition := some (prevSlot s.slotCount rd.slot)
        read := some { slot := prevSlot s.slotCount rd.slot, half := .first, attempt := 1, issued := false } } } := by
  have hpower : s.device.powerFailPending = false := State.works_running hworks
  rw [Engine.examined_nil, State.afterExamine_back (by exact hmore) (by exact hfirst),
    State.claimRead_running (s := s.freeAccess k) _ hpower, State.claimRestore_unchanged (by exact hrestore)]
  exact State.woundDown_running _ hpower

/-- R86, R88: at the first slot with records missing the device enters FAULTED. -/
theorem State.afterExamine_short_works {found : List (LineAddr × Line)} (hworks : s.works)
    (hmore : s.engine.foundCount + found.length < (s.ctx c).undoCount) (hfirst : (s.ctx c).firstSlot = some rd.slot) :
    s.faultedFrom (((s.freeAccess k).setEngine (s.engine.examined found)).afterExamine c rd.slot).woundDown
      .rollbackAccess := by
  obtain ⟨hrunning, hfaulted, -⟩ := State.reportFault_engine_works k
    (e := { s.engine.examined found with walkEnded := true, walkPosition := none }) rfl hworks
  rw [State.afterExamine_short (s := s.freeAccess k) hmore hfirst, hrunning]
  exact hfaulted

end Walking

/-- Settles O47, by the phase of the engine, the half read, its result, and what the slot holds. -/
theorem rollbackReadCompletes : Obligations.RollbackReadCompletes := by
  refine ⟨fun s k a rd c hacc hpurpose hread hcurrent hphase hworks => ?_,
    fun s k a rd c result hacc hpurpose hread hcurrent hphase hpower => ?_,
    fun s k a rd result hacc hpurpose hread hphase => ?_⟩
  · intro matching passedOver
    have hpower : s.device.powerFailPending = false := State.works_running hworks
    have hsecond {d d0 found} (hhalf : rd.half = .second) (hfirst : s.engine.firstHalf = some d0)
        (hfound : s.foundIn c rd.slot (placeOf d0 d) = found) :=
      exec_rollbackReadComplete_second hacc hpurpose hread hcurrent hphase hhalf hfirst hfound
    have hmatched {v r} (hparse : JournalRecord.parse v = some r) (hmatch : matching r) :
        s.foundIn c rd.slot v = [(r.line, r.old)] :=
      State.foundIn_match hparse ((s.slotMatches_iff c rd.slot r).2 hmatch)
    have hpassed {v} (h : passedOver v) : s.foundIn c rd.slot v = [] :=
      State.foundIn_passedOver (h.imp_right (fun ⟨r, hparse, hother⟩ =>
        ⟨r, hparse, fun hmatch => hother ((s.slotMatches_iff c rd.slot r).1 hmatch)⟩))
    refine ⟨fun d hhalf => ?_, fun hattempt => ?_, fun hattempt => ?_,
      fun d d0 r hhalf hfirst hparse hmatch hlast => ?_, fun d d0 r hhalf hfirst hparse hmatch hmore hslot => ?_,
      fun d d0 r hhalf hfirst hparse hmatch hmore hslot => ?_,
      fun d d0 hhalf hfirst hover hmore hslot hrestore => ?_, fun d d0 hhalf hfirst hover hmore hslot => ?_⟩
    · rw [exec_rollbackReadComplete _ hacc hpurpose, State.rollbackRead_okay (s := s.freeAccess k) a d hread hphase,
        State.readOkay_first d hhalf, State.claimRead_running (s := s.freeAccess k) _ hpower]
      exact congrArg _ (State.woundDown_running _ hpower)
    · rw [exec_rollbackReadComplete _ hacc hpurpose, State.rollbackRead_error (s := s.freeAccess k) a hread hphase,
        State.readError_again (s := s.freeAccess k) hpower hattempt]
      exact congrArg _ (State.woundDown_running _ hpower)
    · obtain ⟨hrunning, hfaulted, hkept, hjournal⟩ :=
        State.reportFault_engine_works k (e := { s.engine with read := none }) rfl hworks
      rw [exec_rollbackReadComplete _ hacc hpurpose, State.rollbackRead_error (s := s.freeAccess k) a hread hphase,
        State.readError_last hattempt]
      exact ⟨_, congrArg _ hrunning, hfaulted, hkept.trans hcurrent, hjournal⟩
    · obtain ⟨hclaimed, hwaits⟩ := State.afterExamine_found_last (k := k) (rd := rd) (r := r) hworks hlast
      rw [hsecond hhalf hfirst (hmatched hparse hmatch)]
      exact ⟨fun hwaiting hrestore => congrArg _ (hclaimed hwaiting hrestore),
        fun hrestore => congrArg _ (hwaits hrestore)⟩
    · obtain ⟨hclaimed, hwaits⟩ := State.afterExamine_found_back (k := k) (r := r) hworks hmore hslot
      rw [hsecond hhalf hfirst (hmatched hparse hmatch)]
      exact ⟨fun hwaiting hrestore => congrArg _ (hclaimed hwaiting hrestore),
        fun hrestore => congrArg _ (hwaits hrestore)⟩
    · rw [hsecond hhalf hfirst (hmatched hparse hmatch)]
      exact ⟨_, rfl, State.afterExamine_short_works hworks hmore hslot⟩
    · rw [hsecond hhalf hfirst (hpassed hover), State.afterExamine_passedOver_back hworks hmore hslot hrestore]
    · rw [hsecond hhalf hfirst (hpassed hover)]
      exact ⟨_, rfl, State.afterExamine_short_works hworks hmore hslot⟩
  · obtain ⟨e, hleft, hnone, hkept⟩ :=
      State.rollbackRead_windDown (s := s.freeAccess k) result a hread hcurrent hphase hpower
    rw [exec_rollbackReadComplete result hacc hpurpose, hleft]
    exact ⟨_, rfl, rfl, hnone, hkept, rfl⟩
  · rw [exec_rollbackReadComplete result hacc hpurpose,
      State.rollbackRead_stopped (s := s.freeAccess k) result a hread hphase]
    rfl

end Sys2Proof.Machine

/-! PROOFS. Family 06_control_lines_and_status_queries: the status record, field by field (R111, R112, R121, R57, R153,
Table 12-3). -/

namespace Sys2Proof.Machine

/-! ## The two parts of the record -/

theorem State.statusRecord_extract_low (s : State) (r : RequesterId) {start len : Nat} (h : start + len ≤ 192) :
    (s.statusRecord r).extractLsb' start len = (s.statusLow (s.ctx r)).extractLsb' start len :=
  BitVec.extractLsb'_append_eq_of_add_le h

theorem State.statusRecord_extract_high (s : State) (r : RequesterId) {start len : Nat} (h : 192 ≤ start) :
    (s.statusRecord r).extractLsb' start len = s.statusHigh.extractLsb' (start - 192) len :=
  BitVec.extractLsb'_append_eq_of_le h

/-- Bytes 0-23: the requester's context, and the device's small fields. -/
theorem State.statusLow_extract (s : State) (x : Context) :
    (s.statusLow x).extractLsb' 0 8 = x.state.code ∧ (s.statusLow x).extractLsb' 8 8 = reasonCode x.reason
    ∧ (s.statusLow x).extractLsb' 16 8 = x.lastOutcome.code ∧ (s.statusLow x).extractLsb' 24 8 = s.device.state.code
    ∧ (s.statusLow x).extractLsb' 32 64 = x.label.getD 0 ∧ (s.statusLow x).extractLsb' 96 32 = x.openNumber.getD 0
    ∧ (s.statusLow x).extractLsb' 128 16 = BitVec.ofNat 16 x.holdsCount
    ∧ (s.statusLow x).extractLsb' 144 16 = BitVec.ofNat 16 x.undoCount
    ∧ (s.statusLow x).extractLsb' 160 8 = BitVec.ofNat 8 x.opsInFlight
    ∧ (s.statusLow x).extractLsb' 168 8 = s.indicators ∧ (s.statusLow x).extractLsb' 176 8 = s.device.cause.code
    ∧ (s.statusLow x).extractLsb' 184 8 = BitVec.ofNat 8 s.startupUndone := by
  unfold State.statusLow
  refine ⟨?_, ?_, ?_, ?_, ?_, ?_, ?_, ?_, ?_, ?_, ?_, ?_⟩ <;>
    simp (disch := norm_num) only [BitVec.extractLsb'_append_eq_of_le, BitVec.extractLsb'_append_eq_of_add_le] <;>
    exact BitVec.extractLsb'_eq_self

/-- Bytes 24-63: the journal, the Line Hold Table and the Key Checker, then zeros. -/
theorem State.statusHigh_extract (s : State) :
    s.statusHigh.extractLsb' 0 32 = BitVec.ofNat 32 s.slotCount
    ∧ s.statusHigh.extractLsb' 32 32 = BitVec.ofNat 32 s.reportedFree
    ∧ s.statusHigh.extractLsb' 64 32 = s.reportedTailSeq ∧ s.statusHigh.extractLsb' 96 32 = s.reportedHeadSeq
    ∧ s.statusHigh.extractLsb' 128 16 = BitVec.ofNat 16 s.holds.length
    ∧ s.statusHigh.extractLsb' 144 16 = BitVec.ofNat 16 s.key.total
    ∧ s.statusHigh.extractLsb' 160 32 = BitVec.ofNat 32 s.lockoutRemaining
    ∧ s.statusHigh.extractLsb' 192 16 = s.reportedRecoveryCount ∧ s.statusHigh.extractLsb' 208 112 = 0 := by
  unfold State.statusHigh
  refine ⟨?_, ?_, ?_, ?_, ?_, ?_, ?_, ?_, ?_⟩ <;>
    simp (disch := norm_num) only [BitVec.extractLsb'_append_eq_of_le, BitVec.extractLsb'_append_eq_of_add_le] <;>
    exact BitVec.extractLsb'_eq_self

/-! ## What the fields report -/

/-- Byte 21: bit 0 is the abuse indicator, bit 1 the formatted indicator, and the others are zero. -/
theorem State.indicators_bits (s : State) : s.indicators.getLsbD 0 = s.key.abuse
    ∧ s.indicators.getLsbD 1 = s.startupFormatted ∧ s.indicators.extractLsb' 2 6 = 0 := by
  unfold State.indicators
  cases s.key.abuse <;> cases s.startupFormatted <;> decide

/-- The indicators at their bits of the record. -/
theorem State.statusRecord_indicators (s : State) (r : RequesterId)
    (hbyte : (s.statusRecord r).extractLsb' 168 8 = s.indicators) :
    (s.statusRecord r).getLsbD 168 = s.key.abuse ∧ (s.statusRecord r).getLsbD 169 = s.startupFormatted
    ∧ (s.statusRecord r).extractLsb' 170 6 = 0 := by
  obtain ⟨habuse, hformatted, hzero⟩ := s.indicators_bits
  rw [← hbyte, BitVec.getLsbD_extractLsb'] at habuse hformatted
  have hbits : s.indicators.extractLsb' 2 6 = (s.statusRecord r).extractLsb' 170 6 := by
    rw [← hbyte]
    ext i hi
    simp [show 2 + i < 8 by omega, ← Nat.add_assoc]
  exact ⟨by simpa using habuse, by simpa using hformatted, hbits.symm.trans hzero⟩

/-- R57: once the Journal Writer has its positions, the record reports them. -/
theorem State.reported_started {s : State} (h : s.journal.started = true) :
    s.reportedFree = s.slotCount - (s.journal.head.seq - s.journal.published.seq).toNat
    ∧ s.reportedTailSeq = s.journal.published.seq ∧ s.reportedHeadSeq = s.journal.head.seq
    ∧ s.reportedRecoveryCount = s.header.recoveryCount :=
  ⟨if_pos h, if_pos h, if_pos h, if_pos h⟩

/-- R153: before that, no slot is free, and the rest is the chosen copy's, or 0 where none was chosen. -/
theorem State.reported_notStarted {s : State} (h : s.journal.started = false) : s.reportedFree = 0
    ∧ (∀ c, s.recovery.chosen = some c → s.reportedTailSeq = c.tail.seq ∧ s.reportedHeadSeq = c.tail.seq
      ∧ s.reportedRecoveryCount = c.recoveryCount)
    ∧ (s.recovery.chosen = none → s.reportedTailSeq = 0 ∧ s.reportedHeadSeq = 0 ∧ s.reportedRecoveryCount = 0) := by
  have hnot : ¬ s.journal.started = true := by simp [h]
  refine ⟨if_neg hnot, fun c hchosen => ?_, fun hchosen => ?_⟩ <;>
    rw [State.reportedTailSeq, State.reportedHeadSeq, State.reportedRecoveryCount, if_neg hnot, if_neg hnot, if_neg hnot,
      State.chosenTailSeq, hchosen] <;>
    exact ⟨rfl, rfl, rfl⟩

theorem State.lockoutRemaining_open {s : State} (h : s.key.checker = .openChannel) : s.lockoutRemaining = 0 := by
  rw [State.lockoutRemaining, h]

/-- R121: milliseconds, rounded up. -/
theorem State.lockoutRemaining_lockedOut {s : State} {e : Time} (h : s.key.checker = .lockedOut e) :
    s.lockoutRemaining = (e.toNat - s.timebase.toNat + 999) / 1000 := by
  rw [State.lockoutRemaining, h]

/-- Settles O15: each field is read from the part of the record that holds it, and reports what its rule names. -/
theorem statusRecordFields : Obligations.StatusRecordFields := by
  refine ⟨fun s r => ?_, rfl, rfl, rfl, rfl, rfl⟩
  obtain ⟨hstate, hreason, houtcome, hdevice, hlabel, hopen, hheld, hundo, hops, hindicators, hcause, hundone⟩ :=
    s.statusLow_extract (s.ctx r)
  obtain ⟨hslots, hfree, htail, hhead, hholds, htotal, hlockout, hrecovery, hzero⟩ := s.statusHigh_extract
  obtain ⟨habuse, hformatted, hunused⟩ :=
    s.statusRecord_indicators r ((s.statusRecord_extract_low r (by norm_num)).trans hindicators)
  simp (disch := norm_num) only [State.statusRecord_extract_low, State.statusRecord_extract_high, Nat.reduceSub,
    hstate, hreason, houtcome, hdevice, hlabel, hopen, hheld, hundo, hops, habuse, hformatted, hcause, hundone, hslots,
    hfree, htail, hhead, hholds, htotal, hlockout, hrecovery, hzero, true_and, and_true]
  refine ⟨(s.statusRecord_extract_low r (by norm_num)).symm.trans hunused, fun hstarted => ?_, fun hnot => ?_,
    fun hchannel => congrArg _ (State.lockoutRemaining_open hchannel),
    fun e hlocked => congrArg _ (State.lockoutRemaining_lockedOut hlocked)⟩
  · obtain ⟨hfree, htail, hhead, hcount⟩ := State.reported_started hstarted
    exact ⟨congrArg _ hfree, htail, hhead, hcount⟩
  · obtain ⟨hfree, hcopy⟩ := State.reported_notStarted hnot
    exact ⟨congrArg _ hfree, hcopy⟩

end Sys2Proof.Machine

/-! PROOFS. Family 06_control_lines_and_status_queries: query reads, the checks of the decoder, and the commands OPEN,
QUERY and ACKNOWLEDGE (R97 to R106, R110, R115, R117). -/

namespace Sys2Proof.Machine

/-! ## Query reads (R110) -/

/-- Table 4-2, step 5: a read of the line its requester's arming names. -/
theorem State.classifyRead_armed {s : State} {r : RequesterId} {t : Tag} {l : LineAddr} (hunclaimed : s.unclaimed r t l)
    (harming : (s.ctx r).arming = some l) : s.classifyRead r t l = s.answerQuery r t := by
  obtain ⟨hfree, harea⟩ := hunclaimed
  have harmed : s.queryArmed r l = true := decide_eq_true harming
  unfold State.classifyRead
  rw [if_neg (by simpa using hfree), if_neg (by simp [harea]), if_pos harmed]

/-- Settles O14: the read reaches the step of the query reads, by whichever of the two commands it comes. -/
theorem queryReadReturnsTheStatusRecord : Obligations.QueryReadReturnsTheStatusRecord := by
  intro s r tag l hstate hunclaimed harming c hc
  have hread : c.read? = some (r, tag, l) := by rcases hc with rfl | rfl <;> rfl
  rw [exec_read c s r tag l hread, State.handleRead_examined r tag l hstate, State.classifyRead_armed hunclaimed harming]
  rfl

/-! ## The checks of the decoder (R99, R100, R115, R117) -/

/-- R14: the answers of the decoder are answers at once. -/
theorem State.refuseLine_eq (s : State) (r : RequesterId) (t : Tag) (outcome : ControlOutcome) :
    s.refuseLine r t outcome = s.lineAnswered r t .error .controlRefused outcome := rfl

theorem State.acceptLine_eq (s : State) (r : RequesterId) (t : Tag) (outcome : ControlOutcome) :
    s.acceptLine r t outcome = s.lineAnswered r t .okay .noDetail outcome := rfl

/-- A control line that reaches the decoder is checked there. -/
theorem exec_controlLine_decoded {c : Instr} {a : LineArrival} {s : State} (hline : c.controlLine? = some a)
    (hstate : s.examines) (hdecodes : s.decodes a) :
    exec c s = .next (s.controlLine a.requester a.tag a.line (controlLineData a.code a.fields)) := by
  obtain ⟨⟨hfree, -⟩, -⟩ := id hdecodes
  rw [exec_controlLine c a s hline (s.arrives_free c _ _ (request?_of_controlLine? hline) hfree),
    s.handleWrite_controlLine a hstate hdecodes]

/-- A control line that passes the lockout and key checks meets the format check. -/
theorem exec_controlLine_admitted {c : Instr} {a : LineArrival} {s : State} (hline : c.controlLine? = some a)
    (hstate : s.examines) (hadmits : s.admits a) :
    exec c s = .next (s.takeMatched a.requester a.tag a.line (controlLineData a.code a.fields)) := by
  rw [exec_controlLine_decoded hline hstate hadmits.1, s.controlLine_admitted a hadmits]

theorem State.controlLine_lockedOut {s : State} {e : Time} (r : RequesterId) (t : Tag) (l : LineAddr) (d : Line)
    (h : s.key.checker = .lockedOut e) : s.controlLine r t l d = s.refuseLine r t .lockedOut := by
  rw [State.controlLine, h]

/-- Settles O27: the lockout is the first check of the decoder. -/
theorem lockedOutLineIsRefused : Obligations.LockedOutLineIsRefused := by
  intro s c a e hline hstate hdecodes hlocked
  rw [exec_controlLine_decoded hline hstate hdecodes, State.controlLine_lockedOut _ _ _ _ hlocked, State.refuseLine_eq]

theorem State.takeMatched_malformed {s : State} (r : RequesterId) (t : Tag) (l : LineAddr) {d : Line}
    (h : malformedLine d = true) : s.takeMatched r t l d = s.refuseLine r t .malformed := if_pos h

/-- R100: the codes that name no command. -/
theorem Command.ofCode_eq_none (b : Byte) : Command.ofCode b = none ↔ b.toNat = 0 ∨ 5 < b.toNat := by
  unfold Command.ofCode
  split_ifs <;> simp <;> bv_omega

theorem knownCommand_eq_false (b : Byte) : knownCommand b = false ↔ b.toNat = 0 ∨ 5 < b.toNat := by
  simp only [knownCommand, Bool.and_eq_false_iff, decide_eq_false_iff_not]
  omega

theorem malformedLine_refused {c : Instr} {a : LineArrival} {s : State} (hline : c.controlLine? = some a)
    (hstate : s.examines) (hadmits : s.admits a) (h : ¬ a.fields.clean ∨ a.code.toNat = 0 ∨ 5 < a.code.toNat) :
    exec c s = .next (s.lineAnswered a.requester a.tag .error .controlRefused .malformed) := by
  have hmalformed : malformedLine (controlLineData a.code a.fields) = true :=
    (malformedLine_controlLineData _ _).2 (h.imp_right (Command.ofCode_eq_none _).2)
  rw [exec_controlLine_admitted hline hstate hadmits, State.takeMatched_malformed _ _ _ hmalformed, State.refuseLine_eq]

/-- Settles O26: the format check, then what it reads: the places of a control line, its recognition and its check
word. -/
theorem malformedLineIsRefused : Obligations.MalformedLineIsRefused := by
  refine ⟨fun s c a hline hstate hadmits h => malformedLine_refused hline hstate hadmits h,
    fun s r tag l code f hformed hstate hadmits => ?_, ?_,
    fun d => ⟨rfl, rfl, rfl, rfl, rfl, rfl, rfl, malformedLine_iff d⟩, State.recognises_iff, rfl,
    fun w v => crc32_eq_fold v, by decide⟩
  · have hunknown : knownCommand code = false := by simpa [Instr.wellFormed] using hformed
    exact malformedLine_refused (a := ⟨r, tag, l, code, f⟩) rfl hstate hadmits
      (Or.inr ((knownCommand_eq_false code).1 hunknown))
  · rintro code f d rfl
    exact ⟨lineSignature_controlLineData code f, lineKey_controlLineData code f, lineCommand_controlLineData code f,
      lineZeroLow_controlLineData code f, lineLabel_controlLineData code f, lineZeroHigh_controlLineData code f,
      lineCheck_controlLineData code f, lineBody_controlLineData code f⟩

/-- R115: a clean control line of a known command, in FAULTED. -/
theorem exec_controlLine_faulted {c : Instr} {a : LineArrival} {s : State} {command : Command}
    (hline : c.controlLine? = some a) (hcode : Command.ofCode a.code = some command) (hfaulted : s.runsIn .faulted)
    (hadmits : s.admits a) (hclean : a.fields.clean) :
    exec c s = .next (s.takeFaulted a.requester a.tag a.line command) := by
  obtain ⟨-, -, hstate⟩ := id hfaulted
  rw [exec_controlLine_admitted hline (Or.inr hfaulted) hadmits,
    s.takeMatched_known _ _ _ a.code a.fields command hclean hcode, if_pos hstate]

theorem State.takeFaulted_refused (s : State) (r : RequesterId) (t : Tag) (l : LineAddr) {command : Command}
    (h : command ≠ .query) : s.takeFaulted r t l command = s.refuseLine r t .notAvailable := by
  cases command with
  | query => exact absurd rfl h
  | openTransaction => rfl
  | commit => rfl
  | abort => rfl
  | acknowledge => rfl

/-- Settles O29: each of the four codes names a command other than QUERY. -/
theorem faultedCommandsAreRefused : Obligations.FaultedCommandsAreRefused := by
  intro s c a hline hfaulted hadmits hclean hcodes
  obtain ⟨command, hcode, hother⟩ : ∃ command, Command.ofCode a.code = some command ∧ command ≠ .query := by
    rcases hcodes with h | h | h | h <;> rw [h]
    · exact ⟨.openTransaction, rfl, by decide⟩
    · exact ⟨.commit, rfl, by decide⟩
    · exact ⟨.abort, rfl, by decide⟩
    · exact ⟨.acknowledge, rfl, by decide⟩
  rw [exec_controlLine_faulted hline hcode hfaulted hadmits hclean, s.takeFaulted_refused _ _ _ hother,
    State.refuseLine_eq]

/-! ## QUERY (R106) -/

/-- SERVING and FAULTED take a QUERY alike. -/
theorem exec_query_taken {s : State} {r : RequesterId} {tag : Tag} {l : LineAddr} {f : ControlFields}
    (hstate : s.examines) (hadmits : s.admits ⟨r, tag, l, 4, f⟩) (hclean : f.clean) :
    exec (.query r tag l f) s = .next (s.takeQuery r tag l) := by
  rcases hstate with hserving | hfaulted
  · exact exec_controlLine_taken _ ⟨r, tag, l, 4, f⟩ .query s rfl rfl ⟨hserving, hadmits, hclean⟩
  · exact exec_controlLine_faulted (a := ⟨r, tag, l, 4, f⟩) (command := .query) rfl rfl hfaulted hadmits hclean

/-- R14: a command that changes its requester's record and is answered at once writes the record once. -/
theorem State.lineAnswered_modCtx (s : State) (r : RequesterId) (f : Context → Context) (t : Tag) (code : ResponseCode)
    (detail : ResponseDetail) (outcome : ControlOutcome) : (s.modCtx r f).lineAnswered r t code detail outcome = { s with
      contexts := s.contexts.set r { f (s.ctx r) with lastOutcome := outcome }
      sent := s.sent ++ [{ requester := r, tag := t, code := code, detail := detail, data := none }] } := by
  rw [State.lineAnswered, State.ctx_modCtx_self, State.modCtx_contexts, Vector.set_set]
  rfl

theorem State.takeQuery_eq (s : State) (r : RequesterId) (t : Tag) (l : LineAddr) : s.takeQuery r t l = { s with
    contexts := s.contexts.set r { s.ctx r with arming := some l, lastOutcome := .done }
    sent := s.sent ++ [{ requester := r, tag := t, code := .okay, detail := .noDetail, data := none }] } := by
  rw [State.takeQuery, State.acceptLine_eq, State.lineAnswered_modCtx]

/-- Settles O24: the command is the same in both device states, and reads no context state. -/
theorem queryCommandArms : Obligations.QueryCommandArms := by
  intro s r tag l f hstate hadmits hclean
  rw [exec_query_taken hstate hadmits hclean, State.takeQuery_eq]

/-! ## OPEN (R102) -/

theorem exec_openTransaction_taken {s : State} {r : RequesterId} {tag : Tag} {l : LineAddr} {f : ControlFields}
    (htakes : s.takes ⟨r, tag, l, 1, f⟩) : exec (.openTransaction r tag l f) s = .next (s.takeOpen r tag f.label) :=
  exec_controlLine_taken _ ⟨r, tag, l, 1, f⟩ .openTransaction s rfl rfl htakes

/-- R4: the record of a context in which a transaction begins. -/
def Context.begun (number : Serial) (label : Word64) (x : Context) : Context :=
  { x with
    state := .opened, openNumber := some number, label := some label, undoCount := 0, holdsCount := 0, opsInFlight := 0
    forwardedOutstanding := 0, firstSlot := none, lastSlot := none, reason := none, noticeDue := none, held := [] }

/-- R4: an OPEN in IDLE starts the transaction with the counter's value, and moves the counter on. -/
theorem State.takeOpen_idle {s : State} {r : RequesterId} (t : Tag) (label : Word64) (h : (s.ctx r).state = .idle) :
    s.takeOpen r t label = { s with
      openCounter := s.openCounter + 1
      contexts := s.contexts.set r { s.ctx r with
        state := .opened, openNumber := some s.openCounter, label := some label, undoCount := 0, holdsCount := 0
        opsInFlight := 0, forwardedOutstanding := 0, firstSlot := none, lastSlot := none, reason := none
        noticeDue := none, held := [], lastOutcome := .done }
      sent := s.sent ++ [{ requester := r, tag := t, code := .okay, detail := .noDetail, data := none }] } := by
  rw [State.takeOpen, h]
  exact State.lineAnswered_modCtx { s with openCounter := s.openCounter + 1 } r (Context.begun s.openCounter label) t
    .okay .noDetail .done

/-- Settles O21, by the state of the context. -/
theorem openCommand : Obligations.OpenCommand := by
  intro s r tag l f htakes
  rw [exec_openTransaction_taken htakes]
  refine ⟨fun h => by rw [State.takeOpen_idle tag f.label h], fun h => ?_, fun h => ?_, fun h => ?_⟩
  · rcases h with h | h <;> rw [State.takeOpen, h] <;> rfl
  · rcases h with h | h <;> rw [State.takeOpen, h]
  · rw [State.takeOpen, h]
    rfl

/-! ## ACKNOWLEDGE (R13, R105) -/

theorem exec_acknowledge_taken {s : State} {r : RequesterId} {tag : Tag} {l : LineAddr} {f : ControlFields}
    (htakes : s.takes ⟨r, tag, l, 5, f⟩) : exec (.acknowledge r tag l f) s = .next (s.takeAcknowledge r tag) :=
  exec_controlLine_taken _ ⟨r, tag, l, 5, f⟩ .acknowledge s rfl rfl htakes

/-- R105: with no notice pending nothing is acknowledged. -/
theorem State.takeAcknowledge_nothingPending {s : State} {r : RequesterId} (t : Tag) (h : (s.ctx r).state ≠ .aborted) :
    s.takeAcknowledge r t = s.lineAnswered r t .okay .noDetail .nothingPending := by
  unfold State.takeAcknowledge
  cases hstate : (s.ctx r).state with
  | aborted => exact absurd hstate h
  | idle => rfl
  | opened => rfl
  | committing => rfl
  | abortPending => rfl
  | rollingBack => rfl

/-- R105: the record of a context whose notice has been acknowledged. -/
def Context.noticeTaken (x : Context) : Context :=
  { x with state := .idle, openNumber := none, label := none, reason := none, lastOutcome := .done }

/-- R105: the notice of a context is acknowledged, before the Context Table reports what notices are left. -/
def State.noticeTaken (s : State) (r : RequesterId) (t : Tag) : State :=
  { s with
    contexts := s.contexts.set r (s.ctx r).noticeTaken
    sent := s.sent ++ [{ requester := r, tag := t, code := .okay, detail := .noDetail, data := none }] }

theorem State.takeAcknowledge_aborted {s : State} {r : RequesterId} (t : Tag) (h : (s.ctx r).state = .aborted) :
    s.takeAcknowledge r t = (s.noticeTaken r t).syncNotices := by
  rw [State.takeAcknowledge, h]
  dsimp only
  rw [State.acceptLine_eq, State.lineAnswered_modCtx]
  rfl

/-- R13: the notices left are those of the other contexts. -/
theorem State.noticeTaken_standing (s : State) (r : RequesterId) (t : Tag) :
    (s.noticeTaken r t).syncNotices.device.noticesStanding = true ↔ ∃ c, c ≠ r ∧ (s.ctx c).state = .aborted := by
  rw [State.syncNotices_standing]
  refine exists_congr (fun c => ?_)
  have hctx : (s.noticeTaken r t).syncNotices.ctx c = if c = r then (s.ctx r).noticeTaken else s.ctx c :=
    s.ctx_modCtx r c Context.noticeTaken
  rw [hctx]
  by_cases hc : c = r
  · simp [hc, Context.noticeTaken]
  · simp [hc]

/-- R162: in SERVING the notices alone raise ATTN. -/
theorem State.attn_serving {s : State} (hporst : s.pins.porst = false) (hstate : s.device.state = .serving) :
    s.attn = s.device.noticesStanding := by
  simp [State.attn, hporst, hstate]

/-- Settles O25, by whether the context is ABORTED. -/
theorem acknowledgeCommand : Obligations.AcknowledgeCommand := by
  intro s r tag l f htakes
  obtain ⟨hporst, -, hserving⟩ := htakes.1
  rw [exec_acknowledge_taken htakes]
  refine ⟨fun h => ?_, fun h => by rw [State.takeAcknowledge_nothingPending tag h]⟩
  have hattn : (s.noticeTaken r tag).syncNotices.attn = (s.noticeTaken r tag).syncNotices.device.noticesStanding :=
    State.attn_serving hporst hserving
  rw [State.takeAcknowledge_aborted tag h]
  exact ⟨_, rfl, s.noticeTaken_standing r tag, by rw [hattn]; exact s.noticeTaken_standing r tag, rfl⟩

end Sys2Proof.Machine

/-! PROOFS. Family 07_key_checking_and_lockout: the operations that leave the Key Checker as it stands (R116). -/

namespace Sys2Proof.Machine

/-! ## Control lines (chapter 6) -/

@[simp] theorem State.answerLine_key (s : State) (r : RequesterId) (t : Tag) (code : ResponseCode)
    (detail : ResponseDetail) (outcome : ControlOutcome) : (s.answerLine r t code detail outcome).key = s.key := rfl

@[simp] theorem State.refuseLine_key (s : State) (r : RequesterId) (t : Tag) (outcome : ControlOutcome) :
    (s.refuseLine r t outcome).key = s.key := rfl

@[simp] theorem State.acceptLine_key (s : State) (r : RequesterId) (t : Tag) (outcome : ControlOutcome) :
    (s.acceptLine r t outcome).key = s.key := rfl

@[simp] theorem State.takeOpen_key (s : State) (r : RequesterId) (t : Tag) (label : Word64) :
    (s.takeOpen r t label).key = s.key := by
  unfold State.takeOpen
  split <;> rfl

@[simp] theorem State.takeCommit_key (s : State) (r : RequesterId) (t : Tag) : (s.takeCommit r t).key = s.key := by
  unfold State.takeCommit
  split
  case h_2 =>
    dsimp only
    split <;> rfl
  all_goals rfl

@[simp] theorem State.takeAbort_key (s : State) (r : RequesterId) (t : Tag) : (s.takeAbort r t).key = s.key := by
  unfold State.takeAbort State.joinAbort
  split <;> simp

@[simp] theorem State.takeAcknowledge_key (s : State) (r : RequesterId) (t : Tag) :
    (s.takeAcknowledge r t).key = s.key := by
  unfold State.takeAcknowledge
  split <;> rfl

@[simp] theorem State.takeCommand_key (s : State) (r : RequesterId) (t : Tag) (l : LineAddr) (label : Word64)
    (c : Command) : (s.takeCommand r t l label c).key = s.key := by
  cases c with
  | openTransaction => exact s.takeOpen_key r t label
  | commit => exact s.takeCommit_key r t
  | abort => exact s.takeAbort_key r t
  | query => rfl
  | acknowledge => exact s.takeAcknowledge_key r t

/-- R117: a line whose key matches is no matter of the Key Checker any more. -/
@[simp] theorem State.takeMatched_key (s : State) (r : RequesterId) (t : Tag) (l : LineAddr) (d : Line) :
    (s.takeMatched r t l d).key = s.key := by
  have hfaulted : ∀ c, (s.takeFaulted r t l c).key = s.key := fun c => by cases c <;> rfl
  unfold State.takeMatched
  split
  · rfl
  · split
    · rfl
    · split
      · exact hfaulted _
      · exact s.takeCommand_key r t l _ _

/-! ## Requests (chapter 4) -/

@[simp] theorem State.enqueue_key (s : State) (r : RequesterId) (t : Tag) (l : LineAddr) (kind : AccessKind)
    (journaled : Bool) : (s.enqueue r t l kind journaled).key = s.key := by
  unfold State.enqueue
  split
  · rfl
  · dsimp only
    split <;> rfl

@[simp] theorem State.startOperation_key (s : State) (r : RequesterId) (t : Tag) (l : LineAddr) (mask : ByteMask)
    (d : Line) : (s.startOperation r t l mask d).key = s.key := by
  unfold State.startOperation
  split
  · rfl
  · split
    · simp
    · rename_i u hu
      obtain ⟨-, -, rfl⟩ := State.insertHold_inserted hu
      rfl

@[simp] theorem State.journaledWrite_key (s : State) (r : RequesterId) (t : Tag) (l : LineAddr) (mask : ByteMask)
    (d : Line) : (s.journaledWrite r t l mask d).key = s.key := by
  unfold State.journaledWrite
  split
  · split
    · exact s.startOperation_key r t l mask d
    · split <;> simp
  all_goals simp

@[simp] theorem State.dataWrite_key (s : State) (r : RequesterId) (t : Tag) (l : LineAddr) (mask : ByteMask)
    (d : Line) : (s.dataWrite r t l mask d).key = s.key := by
  unfold State.dataWrite
  split
  · rfl
  · split
    · rfl
    · split <;> simp

@[simp] theorem State.faultedWrite_key (s : State) (r : RequesterId) (t : Tag) (l : LineAddr) (mask : ByteMask)
    (d : Line) : (s.faultedWrite r t l mask d).key = s.key := by
  unfold State.faultedWrite
  split
  · rfl
  · split <;> simp

@[simp] theorem State.classifyRead_key (s : State) (r : RequesterId) (t : Tag) (l : LineAddr) :
    (s.classifyRead r t l).key = s.key := by
  unfold State.classifyRead State.answerQuery
  split
  · rfl
  · split
    · rfl
    · split
      · rfl
      · split <;> simp

@[simp] theorem State.handleRead_key (s : State) (r : RequesterId) (t : Tag) (l : LineAddr) :
    (s.handleRead r t l).key = s.key := by
  unfold State.handleRead
  split
  · rfl
  · split
    · rfl
    · split
      · split <;> simp
      · simp

/-! ## Pins, timers and loading (chapters 1, 2, 9 and 11) -/

@[simp] theorem State.takePowerFail_key (s : State) : s.takePowerFail.key = s.key := by
  unfold State.takePowerFail
  split <;> simp

@[simp] theorem State.victimHolder_key (s : State) (waiter holder : RequesterId) :
    (s.victimHolder waiter holder).key = s.key := s.abortRequest_key holder .conflict

@[simp] theorem State.chooseVictim_key (s : State) (waiter holder : RequesterId) :
    (s.chooseVictim waiter holder).key = s.key := by
  unfold State.chooseVictim
  split
  case h_11 => simp
  case h_12 => split <;> simp
  all_goals rfl

@[simp] theorem State.conflictExpiry_key (s : State) (waiter : RequesterId) (w : WaitRecord) :
    (s.conflictExpiry waiter w).key = s.key := by
  unfold State.conflictExpiry
  split
  · rfl
  · split
    · simp
    · rfl

@[simp] theorem State.loadFailure_key (s : State) : s.loadFailure.key = s.key := by
  unfold State.loadFailure
  split <;> simp

/-! ## The memory link (chapter 8) -/

/-- A completion leaves the Key Checker as it stands where its delivery does. -/
theorem State.complete_key (s : State) (k : AccessSlot) (mine : Purpose → Bool) (deliver : Access → State → State)
    (h : ∀ a (t : State), (deliver a t).key = t.key) : (s.complete k mine deliver).key = s.key := by
  unfold State.complete
  split
  · split
    · rw [State.settle_key, h, State.freeAccess_key]
    · rfl
  · rfl

@[simp] theorem State.markIssued_key (s : State) (k : AccessSlot) (a : Claim) : (s.markIssued k a).key = s.key := by
  unfold State.markIssued
  split <;> rfl

@[simp] theorem State.grant_key (s : State) (k : AccessSlot) (c : Claimant) : (s.grant k c).key = s.key := by
  unfold State.grant
  split
  · exact (s.putAccess k _ _ _).markIssued_key k _
  · rfl

/-! ## Forwarding and the journaling operations (4.4, 4.7) -/

@[simp] theorem State.answerForwarded_key (s : State) (e : ForwardEntry) (result : ReadResult) :
    (s.answerForwarded e result).key = s.key := by
  unfold State.answerForwarded
  split <;> rfl

@[simp] theorem State.forwardedCounted_key (s : State) (e : ForwardEntry) (result : ReadResult) :
    (s.forwardedCounted e result).key = s.key := by
  unfold State.forwardedCounted
  split
  · dsimp only
    split <;> simp
  · rfl

theorem State.forwardComplete_key (k : AccessSlot) (result : ReadResult) (a : Access) (s : State) :
    (State.forwardComplete k result a s).key = s.key := by
  unfold State.forwardComplete
  split <;> simp

theorem State.oldLineReadDelivered_key (result : ReadResult) (a : Access) (s : State) :
    (State.oldLineReadDelivered result a s).key = s.key := by
  unfold State.oldLineReadDelivered State.oldLineRead
  split
  · rfl
  · split
    · simp
    · split <;> simp

theorem State.operationWrittenDelivered_key (result : WriteResult) (a : Access) (s : State) :
    (State.operationWrittenDelivered result a s).key = s.key := by
  unfold State.operationWrittenDelivered State.operationWritten
  split
  · rfl
  · split <;> simp

@[simp] theorem State.undoRequest_key (s : State) (o : Operation) : (s.undoRequest o).key = s.key := by
  have htaken : (if Config.endReserve < s.freeSlots then s.grantUndo o else s.refuseUndo o).key = s.key := by
    split
    · rfl
    · simp [State.refuseUndo]
  unfold State.undoRequest
  split
  · exact htaken
  · exact htaken
  all_goals rfl

/-! ## The Journal Writer and the Header Writer (chapter 3) -/

@[simp] theorem State.recordFailed_key (s : State) (r : AssignedRecord) : (s.recordFailed r).key = s.key := by
  unfold State.recordFailed State.failUndo
  split
  · split <;> simp
  · simp

@[simp] theorem State.operationWaits_key (s : State) (r : AssignedRecord) : (s.operationWaits r).key = s.key := by
  unfold State.operationWaits
  split <;> rfl

@[simp] theorem State.recordAnswered_key (s : State) (r : AssignedRecord) : (s.recordAnswered r).key = s.key := by
  unfold State.recordAnswered
  split
  · simp
  · split <;> simp

theorem State.recordWritten_key (result : WriteResult) (a : Access) (s : State) :
    (State.recordWritten result a s).key = s.key := by
  unfold State.recordWritten
  split
  · split
    · rfl
    · split
      · rfl
      · simp
  · rfl

@[simp] theorem State.takeEndRequest_key (s : State) (q : EndRequest) : (s.takeEndRequest q).key = s.key := by
  unfold State.takeEndRequest
  dsimp only
  split
  · rfl
  · unfold State.endWithoutRecord
    dsimp only
    split <;> simp

@[simp] theorem State.headerError_key (s : State) (w : HeaderWrite) : (s.headerError w).key = s.key := by
  unfold State.headerError
  split
  · simp
  · split <;> simp

theorem State.headerWritten_key (result : WriteResult) (a : Access) (s : State) :
    (State.headerWritten result a s).key = s.key := by
  unfold State.headerWritten
  split
  · split
    · split <;> rfl
    · split <;> simp
  · rfl

/-! ## The Rollback Engine (chapter 5) -/

@[simp] theorem State.claimRestore_key (s : State) : s.claimRestore.key = s.key := by
  unfold State.claimRestore
  split
  · rfl
  · split <;> rfl

@[simp] theorem State.claimRead_key (s : State) (slot : Nat) (h : Half) : (s.claimRead slot h).key = s.key := by
  unfold State.claimRead
  split <;> rfl

@[simp] theorem State.afterExamine_key (s : State) (c : RequesterId) (slot : Nat) :
    (s.afterExamine c slot).key = s.key := by
  unfold State.afterExamine
  dsimp only
  split
  · split <;> simp
  · simp

@[simp] theorem State.readOkay_key (s : State) (rd : EngineRead) (d : Line) : (s.readOkay rd d).key = s.key := by
  unfold State.readOkay State.examineSlot
  split
  · simp
  · split
    · rfl
    · exact State.afterExamine_key _ _ _

@[simp] theorem State.readError_key (s : State) (rd : EngineRead) : (s.readError rd).key = s.key := by
  unfold State.readError
  split <;> simp

theorem State.rollbackRead_key (result : ReadResult) (a : Access) (s : State) :
    (State.rollbackRead result a s).key = s.key := by
  unfold State.rollbackRead
  split
  · rfl
  · split
    · rfl
    · split <;> simp

@[simp] theorem State.restoreError_key (s : State) (w : EngineRestore) : (s.restoreError w).key = s.key := by
  unfold State.restoreError
  split <;> simp

theorem State.restored_key (result : WriteResult) (a : Access) (s : State) :
    (State.restored result a s).key = s.key := by
  unfold State.restored
  split
  · rfl
  · split
    · rfl
    · split <;> simp

@[simp] theorem State.takeContext_key (s : State) (c : RequesterId) (rest : List RequesterId) :
    (s.takeContext c rest).key = s.key := by
  unfold State.takeContext
  dsimp only
  split <;> rfl

/-! ## The Recovery Sequencer (chapter 10) -/

@[simp] theorem State.pump_key (s : State) : s.pump.key = s.key := by rw [State.pump_rest]

@[simp] theorem State.beginWalk_key (s : State) (c : Chosen) : (s.beginWalk c).key = s.key := State.pump_key _

@[simp] theorem State.beginReinit_key (s : State) : s.beginReinit.key = s.key := State.pump_key _

@[simp] theorem State.judgeHeaders_key (s : State) : s.judgeHeaders.key = s.key := by
  unfold State.judgeHeaders State.noHeader
  split
  · split
    · simp
    · split <;> simp
  · simp

theorem State.headerRead_key (result : ReadResult) (a : Access) (s : State) :
    (State.headerRead result a s).key = s.key := by
  unfold State.headerRead
  split <;> simp

theorem State.zeroed_key (result : WriteResult) (a : Access) (s : State) :
    (State.zeroed result a s).key = s.key := by
  unfold State.zeroed
  split <;> simp

theorem State.formatHeaderWritten_key (result : WriteResult) (a : Access) (s : State) :
    (State.formatHeaderWritten result a s).key = s.key := by
  unfold State.formatHeaderWritten
  split
  · dsimp only
    split <;> simp
  · simp
  · rfl

@[simp] theorem State.stopWalk_key (s : State) (p : Position) : (s.stopWalk p).key = s.key := by
  unfold State.stopWalk
  dsimp only
  split <;> simp

@[simp] theorem State.examineWalk_key (s : State) (v : Place) : (s.examineWalk v).key = s.key := by
  unfold State.examineWalk State.walkOn
  dsimp only
  split
  · simp
  · split
    · simp
    · split
      · simp
      · split <;> simp

theorem State.walkRead_key (result : ReadResult) (a : Access) (s : State) :
    (State.walkRead result a s).key = s.key := by
  unfold State.walkRead
  split
  · dsimp only
    split <;> simp
  · simp
  · rfl

@[simp] theorem State.undoExamine_key (fuel : Nat) (s : State) : (State.undoExamine fuel s).key = s.key := by
  induction fuel generalizing s with
  | zero => rfl
  | succ fuel ih =>
    unfold State.undoExamine
    split
    · rfl
    · split
      · rfl
      · split
        · simp
        · split
          · simp
          · split
            · split
              · rfl
              · exact ih _
            · exact ih _

@[simp] theorem State.undoGoOn_key (s : State) : s.undoGoOn.key = s.key := by
  unfold State.undoGoOn
  dsimp only
  split
  · split <;> simp
  · exact State.undoExamine_key _ s

theorem State.undoSlotRead_key (result : ReadResult) (a : Access) (s : State) :
    (State.undoSlotRead result a s).key = s.key := by
  unfold State.undoSlotRead
  split <;> simp

theorem State.recoveryRestored_key (result : WriteResult) (a : Access) (s : State) :
    (State.recoveryRestored result a s).key = s.key := by
  unfold State.recoveryRestored
  split <;> simp

theorem State.reinitWritten_key (result : WriteResult) (a : Access) (s : State) :
    (State.reinitWritten result a s).key = s.key := by
  unfold State.reinitWritten State.recoverySuccess
  split
  · dsimp only
    split <;> simp
  · simp
  · rfl

end Sys2Proof.Machine

/-! PROOFS. Family 07_key_checking_and_lockout: what a command can do to the Key Checker, and that this keeps its fields in
agreement (R116, R118, R119, R120, R123). -/

namespace Sys2Proof.Machine

/-! ## The Key Checker alone -/

/-- R116: the fields of the Key Checker agree. -/
structure KeyChecker.Consistent (k : KeyChecker) : Prop where
  emptyInLockout : ∀ e, k.checker = .lockedOut e → k.failures = []
  saturates : k.total ≤ 65535
  abuse_iff : k.abuse = true ↔ 64 ≤ k.total

theorem State.keyConsistent_iff (s : State) : s.keyConsistent ↔ s.key.Consistent :=
  ⟨fun ⟨hempty, htotal, habuse⟩ => ⟨hempty, htotal, habuse⟩, fun ⟨hempty, htotal, habuse⟩ => ⟨hempty, htotal, habuse⟩⟩

theorem KeyChecker.recordMismatch_total (k : KeyChecker) (p : Params) (now : Time) :
    (k.recordMismatch p now).total = if k.total < 65535 then k.total + 1 else k.total := by
  unfold KeyChecker.recordMismatch
  dsimp only
  split <;> rfl

theorem KeyChecker.recordMismatch_abuse (k : KeyChecker) (p : Params) (now : Time) :
    (k.recordMismatch p now).abuse = true ↔ k.abuse = true ∨ (k.total < 65535 ∧ k.total + 1 = 64) := by
  have habuse : (k.recordMismatch p now).abuse =
      (k.abuse || (decide (k.total < 65535) && decide (k.total + 1 = 64))) := by
    unfold KeyChecker.recordMismatch
    dsimp only
    split <;> rfl
  simp [habuse]

/-- R118: below the threshold the channel stays open with the aged list. -/
theorem KeyChecker.recordMismatch_below {k : KeyChecker} {p : Params} {now : Time}
    (h : (agedFailures p.windowMicros now k.failures).length < p.failureThreshold) :
    (k.recordMismatch p now).checker = .openChannel
      ∧ (k.recordMismatch p now).failures = agedFailures p.windowMicros now k.failures := by
  unfold KeyChecker.recordMismatch
  dsimp only
  rw [if_neg (Nat.not_le.2 h)]
  exact ⟨rfl, rfl⟩

/-- R118: at the threshold the lockout begins, and the list is emptied. -/
theorem KeyChecker.recordMismatch_atThreshold {k : KeyChecker} {p : Params} {now : Time}
    (h : p.failureThreshold ≤ (agedFailures p.windowMicros now k.failures).length) :
    (k.recordMismatch p now).failures = [] ∧ (k.recordMismatch p now).checker =
      .lockedOut (now + BitVec.ofNat 64 (p.lockoutDuration * 1000000)) := by
  unfold KeyChecker.recordMismatch
  dsimp only
  rw [if_pos h]
  exact ⟨rfl, rfl⟩

/-- R120: the total passes 64 only by reaching it, which sets the indicator. -/
theorem KeyChecker.Consistent.recordMismatch {k : KeyChecker} (hk : k.Consistent) (p : Params) (now : Time) :
    (k.recordMismatch p now).Consistent := by
  have htotal := hk.saturates
  have habuse := hk.abuse_iff
  refine ⟨fun e he => ?_, ?_, ?_⟩
  · rcases Nat.lt_or_ge (agedFailures p.windowMicros now k.failures).length p.failureThreshold with hbelow | hreached
    · rw [(KeyChecker.recordMismatch_below hbelow).1] at he
      cases he
    · exact (KeyChecker.recordMismatch_atThreshold hreached).1
  · rw [KeyChecker.recordMismatch_total]
    split <;> omega
  · rw [KeyChecker.recordMismatch_abuse, KeyChecker.recordMismatch_total, habuse]
    split <;> omega

/-! ## What a command does to it -/

/-- What one command can make of the Key Checker: nothing new, its power-on values (R123), the end of a lockout (R119),
or a mismatch recorded, which an open channel alone does (R117, R118). -/
inductive KeyChecker.StepsTo (k : KeyChecker) : KeyChecker → Prop
  | kept : k.StepsTo k
  | poweredOn : k.StepsTo .reset
  | reopened : k.StepsTo { k with checker := .openChannel }
  | mismatched (p : Params) (now : Time) (hopen : k.checker = .openChannel) : k.StepsTo (k.recordMismatch p now)

theorem KeyChecker.Consistent.stepsTo {k k' : KeyChecker} (hk : k.Consistent) (h : k.StepsTo k') : k'.Consistent := by
  cases h with
  | kept => exact hk
  | poweredOn => exact State.reset.keyConsistent_iff.1 reset_keyConsistent
  | reopened => exact ⟨nofun, hk.saturates, hk.abuse_iff⟩
  | mismatched p now => exact hk.recordMismatch p now

theorem KeyChecker.StepsTo.of_eq {k k' : KeyChecker} (h : k' = k) : k.StepsTo k' := h ▸ .kept

/-- R99, R117: a control line records a mismatch or leaves the Key Checker as it stands. -/
theorem State.controlLine_stepsKey (s : State) (r : RequesterId) (t : Tag) (l : LineAddr) (d : Line) :
    s.key.StepsTo (s.controlLine r t l d).key := by
  unfold State.controlLine
  split
  · exact .kept
  · rename_i hopen
    split
    · exact .of_eq (s.takeMatched_key r t l d)
    · exact .mismatched s.params s.timebase hopen

theorem State.classifyWrite_stepsKey (s : State) (take : Bool) (r : RequesterId) (t : Tag) (l : LineAddr)
    (mask : ByteMask) (d : Line) : s.key.StepsTo (s.classifyWrite take r t l mask d).key := by
  unfold State.classifyWrite
  split
  · exact .kept
  · split
    · exact .kept
    · split
      · exact .kept
      · split
        · split
          · exact s.controlLine_stepsKey r t l d
          · exact .kept
        · split
          · exact .of_eq (s.faultedWrite_key r t l mask d)
          · exact .of_eq (s.dataWrite_key r t l mask d)

theorem State.handleWrite_stepsKey (s : State) (take : Bool) (r : RequesterId) (t : Tag) (l : LineAddr)
    (mask : ByteMask) (d : Line) : s.key.StepsTo (s.handleWrite take r t l mask d).key := by
  unfold State.handleWrite
  split
  · exact .kept
  · split
    · exact .kept
    · split
      · refine .of_eq ?_
        split
        · rfl
        · split <;> simp
      · exact s.classifyWrite_stepsKey take r t l mask d

/-- R107: the command of a waiting line, and of one that arrives. -/
theorem State.handleLine_stepsKey (s : State) (r : RequesterId) (t : Tag) (l : LineAddr) (d : Line) :
    s.key.StepsTo (s.handleLine r t l d).key := by
  unfold State.handleLine State.takeWaiting
  dsimp only
  split
  · split
    · exact (s.withoutLine ⟨r, t, l, d⟩).controlLine_stepsKey r t l d
    · exact .kept
  · exact s.handleWrite_stepsKey true r t l fullMask d

/-! ## Every command -/

/-- An outcome whose next state, if it has one, has a Key Checker that one command can make. -/
def State.StepsKeyTo (s : State) (o : Result) : Prop := ∀ t, o = .next t → s.key.StepsTo t.key

theorem State.StepsKeyTo.next {s t : State} (h : s.key.StepsTo t.key) : s.StepsKeyTo (.next t) := by
  intro u hu
  cases hu
  exact h

theorem State.StepsKeyTo.of_key {s t : State} (h : t.key = s.key) : s.StepsKeyTo (.next t) := .next (.of_eq h)

theorem State.StepsKeyTo.refl (s : State) : s.StepsKeyTo (.next s) := .of_key rfl

theorem State.complete_stepsKeyTo (s : State) (k : AccessSlot) (mine : Purpose → Bool)
    (deliver : Access → State → State) (h : ∀ a (t : State), (deliver a t).key = t.key) :
    s.StepsKeyTo (.next (s.complete k mine deliver)) :=
  .of_key (s.complete_key k mine deliver h)

theorem execPorstNAssert_stepsKeyTo (s : State) : s.StepsKeyTo (execPorstNAssert s) := by
  refine .next ?_
  split
  · exact .kept
  · exact .poweredOn

theorem execPorstNDeassert_stepsKeyTo (s : State) : s.StepsKeyTo (execPorstNDeassert s) := by
  refine .next ?_
  dsimp only
  split
  · split
    · rw [State.takePowerFail_key]
      exact .poweredOn
    · exact .poweredOn
  · exact .kept

theorem execLinkReset_stepsKeyTo (s : State) : s.StepsKeyTo (execLinkReset s) := by
  refine .of_key ?_
  split
  · rfl
  · dsimp only
    split <;> simp

theorem execPfailNAssert_stepsKeyTo (s : State) : s.StepsKeyTo (execPfailNAssert s) := by
  refine .of_key ?_
  split
  · rfl
  · dsimp only
    split <;> simp

theorem execConflictTimerExpiry_stepsKeyTo (waiter : RequesterId) (s : State) :
    s.StepsKeyTo (execConflictTimerExpiry waiter s) := by
  unfold execConflictTimerExpiry
  split
  · split
    · exact .of_key (s.conflictExpiry_key waiter _)
    · exact .refl s
  · exact .refl s

theorem execLockoutExpiry_stepsKeyTo (s : State) : s.StepsKeyTo (execLockoutExpiry s) := by
  unfold execLockoutExpiry
  split
  · split
    · exact .next .reopened
    · exact .refl s
  · exact .refl s

theorem execLoadPauseEnd_stepsKeyTo (s : State) : s.StepsKeyTo (execLoadPauseEnd s) := by
  unfold execLoadPauseEnd
  split
  · split <;> exact .of_key rfl
  · exact .refl s
  · exact .refl s

theorem execConfigurationTransferEnd_stepsKeyTo (sampled : SampledBits) (s : State) :
    s.StepsKeyTo (execConfigurationTransferEnd sampled s) := by
  unfold execConfigurationTransferEnd
  split
  · split
    · exact .of_key (State.pump_key _)
    · exact .of_key s.loadFailure_key
  · exact .refl s
  · exact .refl s

theorem execArbiterGrant_stepsKeyTo (k : AccessSlot) (s : State) : s.StepsKeyTo (execArbiterGrant k s) := by
  unfold execArbiterGrant
  split
  · split
    · exact .of_key (s.grant_key k _)
    · exact .refl s
  · exact .refl s

theorem execUndoSlotRequest_stepsKeyTo (l : LineAddr) (s : State) : s.StepsKeyTo (execUndoSlotRequest l s) := by
  unfold execUndoSlotRequest
  split
  · split
    · exact .of_key (s.undoRequest_key _)
    · exact .refl s
  · exact .refl s

theorem execEndRecordRequest_stepsKeyTo (c : RequesterId) (s : State) : s.StepsKeyTo (execEndRecordRequest c s) := by
  unfold execEndRecordRequest
  split
  · split
    · exact .of_key (s.takeEndRequest_key _)
    · exact .refl s
  · exact .refl s

theorem execCommitRecordAsk_stepsKeyTo (c : RequesterId) (s : State) : s.StepsKeyTo (execCommitRecordAsk c s) := by
  unfold execCommitRecordAsk
  split <;> exact .of_key rfl

theorem execRollbackQueueAppend_stepsKeyTo (c : RequesterId) (s : State) :
    s.StepsKeyTo (execRollbackQueueAppend c s) := by
  unfold execRollbackQueueAppend
  split
  · split <;> exact .of_key rfl
  · exact .refl s

theorem execRollbackTakeContext_stepsKeyTo (s : State) : s.StepsKeyTo (execRollbackTakeContext s) := by
  unfold execRollbackTakeContext
  split
  · split
    · exact .of_key (s.takeContext_key _ _)
    · exact .refl s
  · exact .refl s

theorem execAbortRecordAsk_stepsKeyTo (s : State) : s.StepsKeyTo (execAbortRecordAsk s) := by
  unfold execAbortRecordAsk
  split
  · split <;> exact .of_key rfl
  · exact .refl s

theorem execTimebaseAdvance_stepsKeyTo (s : State) : s.StepsKeyTo (execTimebaseAdvance s) := by
  unfold execTimebaseAdvance
  split <;> exact .of_key rfl

/-- Power-on reset, the lockout's expiry and the control lines alone move the Key Checker. -/
theorem exec_stepsKeyTo (i : Instr) (s : State) : s.StepsKeyTo (exec i s) := by
  cases i with
  | porstNAssert => exact execPorstNAssert_stepsKeyTo s
  | porstNDeassert => exact execPorstNDeassert_stepsKeyTo s
  | linkReset => exact execLinkReset_stepsKeyTo s
  | lrstNDeassert => exact .of_key (State.drainTest_key _)
  | pfailNAssert => exact execPfailNAssert_stepsKeyTo s
  | pfailNDeassert => exact .of_key rfl
  | readRequest r t l => exact .of_key (s.handleRead_key r t l)
  | writeRequest r t l m d => exact .next (s.handleWrite_stepsKey false r t l m d)
  | queryRead r t l => exact .of_key (s.handleRead_key r t l)
  | openTransaction r t l f => exact .next (s.handleLine_stepsKey r t l _)
  | commit r t l f => exact .next (s.handleLine_stepsKey r t l _)
  | abort r t l f => exact .next (s.handleLine_stepsKey r t l _)
  | query r t l f => exact .next (s.handleLine_stepsKey r t l _)
  | acknowledge r t l f => exact .next (s.handleLine_stepsKey r t l _)
  | controlLineUnknownCommand r t l c f => exact .next (s.handleLine_stepsKey r t l _)
  | conflictTimerExpiry w => exact execConflictTimerExpiry_stepsKeyTo w s
  | lockoutExpiry => exact execLockoutExpiry_stepsKeyTo s
  | loadPauseEnd => exact execLoadPauseEnd_stepsKeyTo s
  | configurationTransferEnd b => exact execConfigurationTransferEnd_stepsKeyTo b s
  | forwardAccessComplete k r => exact s.complete_stepsKeyTo k _ _ (State.forwardComplete_key k r)
  | oldLineReadComplete k r => exact s.complete_stepsKeyTo k _ _ (State.oldLineReadDelivered_key r)
  | recordWriteComplete k r => exact s.complete_stepsKeyTo k _ _ (State.recordWritten_key r)
  | operationForwardedWriteComplete k r =>
    exact s.complete_stepsKeyTo k _ _ (State.operationWrittenDelivered_key r)
  | headerWriteComplete k r => exact s.complete_stepsKeyTo k _ _ (State.headerWritten_key r)
  | rollbackReadComplete k r => exact s.complete_stepsKeyTo k _ _ (State.rollbackRead_key r)
  | restoreWriteComplete k r => exact s.complete_stepsKeyTo k _ _ (State.restored_key r)
  | recoveryHeaderReadComplete k r => exact s.complete_stepsKeyTo k _ _ (State.headerRead_key r)
  | zeroingWriteComplete k r => exact s.complete_stepsKeyTo k _ _ (State.zeroed_key r)
  | formatHeaderWriteComplete k r => exact s.complete_stepsKeyTo k _ _ (State.formatHeaderWritten_key r)
  | forwardWalkReadComplete k r => exact s.complete_stepsKeyTo k _ _ (State.walkRead_key r)
  | undoPassReadComplete k r => exact s.complete_stepsKeyTo k _ _ (State.undoSlotRead_key r)
  | recoveryRestoreComplete k r => exact s.complete_stepsKeyTo k _ _ (State.recoveryRestored_key r)
  | reinitHeaderWriteComplete k r => exact s.complete_stepsKeyTo k _ _ (State.reinitWritten_key r)
  | memoryResponseUnknownSlot k r => exact .refl s
  | arbiterGrant k => exact execArbiterGrant_stepsKeyTo k s
  | undoSlotRequest l => exact execUndoSlotRequest_stepsKeyTo l s
  | endRecordRequest c => exact execEndRecordRequest_stepsKeyTo c s
  | commitRecordAsk c => exact execCommitRecordAsk_stepsKeyTo c s
  | rollbackQueueAppend c => exact execRollbackQueueAppend_stepsKeyTo c s
  | rollbackTakeContext => exact execRollbackTakeContext_stepsKeyTo s
  | abortRecordAsk => exact execAbortRecordAsk_stepsKeyTo s
  | timebaseAdvance => exact execTimebaseAdvance_stepsKeyTo s

/-- A step runs one command, or idles on an empty queue. -/
theorem step_stepsKey {s t : State} (h : step s = .next t) : s.key.StepsTo t.key := by
  unfold step at h
  split at h
  · cases h
    exact .kept
  · rename_i c rest _
    exact exec_stepsKeyTo c { s with pending := rest } t h

/-- Settles O57: each of the four things a command can make of the Key Checker keeps its fields in agreement. -/
theorem keyCheckerStaysConsistent : Obligations.KeyCheckerStaysConsistent :=
  fun s t hs hstep => t.keyConsistent_iff.2 ((s.keyConsistent_iff.1 hs).stepsTo (step_stepsKey hstep))

end Sys2Proof.Machine

/-! PROOFS. Family 07_key_checking_and_lockout: a key mismatch (R117, R118), and the end of a lockout (R119, R122, R161). -/

namespace Sys2Proof.Machine

/-! ## A key mismatch (R118) -/

theorem State.controlLine_mismatch {s : State} (r : RequesterId) (t : Tag) (l : LineAddr) {d : Line}
    (hopen : s.key.checker = .openChannel) (hkey : lineKey d ≠ s.params.key) :
    s.controlLine r t l d =
      { s.refuseLine r t .keyMismatch with key := s.key.recordMismatch s.params s.timebase } := by
  rw [State.controlLine, hopen]
  exact if_neg hkey

/-- Settles O28: the key comparison follows the lockout check, and a mismatch is all that it records. -/
theorem keyMismatchIsRecorded : Obligations.KeyMismatchIsRecorded := by
  rintro s c a failures hline hstate hdecodes hopen hkey rfl
  have hwrong : lineKey (controlLineData a.code a.fields) ≠ s.params.key := by rwa [lineKey_controlLineData]
  rw [exec_controlLine_decoded hline hstate hdecodes, State.controlLine_mismatch _ _ _ hopen hwrong, State.refuseLine_eq]
  exact ⟨_, rfl, KeyChecker.recordMismatch_total _ _ _, KeyChecker.recordMismatch_abuse _ _ _,
    KeyChecker.recordMismatch_below, KeyChecker.recordMismatch_atThreshold⟩

/-! ## The end of a lockout (R119) -/

/-- R122: where the lockout timer runs. -/
theorem State.lockoutTimerRuns_iff (s : State) : s.lockoutTimerRuns = true ↔ s.pins.porst = false
    ∧ (s.device.state = .serving ∨ s.device.state = .faulted ∨ s.device.state = .draining
      ∨ s.device.powerFailPending = true) := by
  simp [State.lockoutTimerRuns, or_assoc]

theorem exec_lockoutExpiry_due {s : State} {e : Time} (hlocked : s.key.checker = .lockedOut e)
    (hruns : s.lockoutTimerRuns = true) (hdue : e ≤ s.timebase) :
    exec .lockoutExpiry s = .next { s with key := { s.key with checker := .openChannel } } := by
  have hreached : s.reached e.toNat = true := decide_eq_true hdue
  simp only [exec, execLockoutExpiry, hlocked, hruns, hreached, Bool.and_self, if_true]

/-- Log 4: an expiry that is not enabled. -/
theorem exec_lockoutExpiry_notTaken {s : State} (h : s.lockoutTimerRuns = false ∨ s.key.checker = .openChannel
    ∨ ∃ e, s.key.checker = .lockedOut e ∧ s.timebase < e) : exec .lockoutExpiry s = .next s := by
  have hnot : ∀ e, s.key.checker = .lockedOut e → (s.lockoutTimerRuns && s.reached e.toNat) = false := by
    intro e he
    rcases h with hstopped | hopen | ⟨n, hn, hearly⟩
    · rw [hstopped, Bool.false_and]
    · rw [hopen] at he
      cases he
    · rw [hn] at he
      cases he
      have hbefore : s.reached e.toNat = false := decide_eq_false (Nat.not_le.2 hearly)
      rw [hbefore, Bool.and_false]
  unfold exec execLockoutExpiry
  dsimp only
  split
  · rename_i e he
    rw [hnot e he]
    rfl
  · rfl

/-- R122: outside the wind-down the timer runs in SERVING, FAULTED and DRAINING only. -/
theorem State.lockoutTimerRuns_elsewhere {s : State} (hpower : s.device.powerFailPending = false)
    (hstate : s.device.state = .halted ∨ s.device.state = .loading ∨ s.device.state = .recovering
      ∨ s.device.state = .passthrough) : s.lockoutTimerRuns = false := by
  rcases hstate with h | h | h | h <;> simp [State.lockoutTimerRuns, hpower, h]

/-- R156: HALTED is entered as power-fail pending ends. -/
theorem State.deviceConsistent.halted_notPending {s : State} (h : s.deviceConsistent) :
    s.device.state = .halted → s.device.powerFailPending = false := by
  obtain ⟨-, -, -, -, hpower, -⟩ := h
  exact hpower

/-- Settles O31: the expiry is taken where the timer runs and the end time is reached, and nowhere else. -/
theorem lockoutExpiryOpensTheChannel : Obligations.LockoutExpiryOpensTheChannel := by
  refine ⟨fun s e hlocked => ⟨fun hdue hporst hstate => ⟨?_, fun hkey => ?_⟩, fun hearly => ?_⟩,
    fun s hpower hstate => ?_, fun s hdevice hhalted => ?_, fun s h => ?_⟩
  · exact exec_lockoutExpiry_due hlocked (s.lockoutTimerRuns_iff.2 ⟨hporst, hstate⟩) hdue
  · exact (s.keyConsistent_iff.1 hkey).emptyInLockout e hlocked
  · exact exec_lockoutExpiry_notTaken (.inr (.inr ⟨e, hlocked, hearly⟩))
  · exact exec_lockoutExpiry_notTaken (.inl (State.lockoutTimerRuns_elsewhere hpower hstate))
  · exact exec_lockoutExpiry_notTaken
      (.inl (State.lockoutTimerRuns_elsewhere (hdevice.halted_notPending hhalted) (.inl hhalted)))
  · refine exec_lockoutExpiry_notTaken (h.imp (fun hporst => ?_) .inl)
    simp [State.lockoutTimerRuns, hporst]

end Sys2Proof.Machine

/-! PROOFS. Family 08_the_memory_link_and_arbitration: what each claimant puts forward (R128, R129, R130, R133). -/

namespace Sys2Proof.Machine

/-! ## FORWARD (R128) -/

theorem State.claim_forward_oldest {s : State} {older newer : List ForwardEntry} {e : ForwardEntry}
    (hqueue : s.forward = older ++ e :: newer) (holder : ∀ o ∈ older, o.issued ≠ none) (he : e.issued = none) :
    s.claim .forward = some { purpose := .forwarded, line := e.line, kind := e.kind } := by
  have hfound : s.forward.find? (fun e => e.issued.isNone) = some e :=
    List.find?_eq_some_iff_append.2 ⟨by simp [he], older, newer, hqueue,
      fun o ho => by simpa [Option.isSome_iff_ne_none] using holder o ho⟩
  rw [State.claim, State.forwardClaim, hfound, Option.map_some]

theorem State.claim_forward_none {s : State} (hissued : ∀ e ∈ s.forward, e.issued ≠ none) : s.claim .forward = none := by
  rw [State.claim, State.forwardClaim, List.find?_eq_none.2 (fun e he => by simpa using hissued e he), Option.map_none]

/-! ## JOURNAL (R129, R133) -/

theorem State.claim_journal {s : State} (hstate : s.device.state ≠ .passthrough) : s.claim .journal = s.journalClaim :=
  if_neg hstate

theorem State.claim_journal_passthrough {s : State} (hstate : s.device.state = .passthrough) : s.claim .journal = none :=
  if_pos hstate

theorem State.journalClaim_report {s : State} {l : LineAddr} {rest : List LineAddr} {o : Operation}
    (hreports : s.reports = l :: rest) (hop : s.op? l = some o) :
    s.journalClaim = some { purpose := .operationWrite, line := o.line, kind := .write o.mask o.data } := by
  rw [State.journalClaim, State.operationClaim, hreports, List.findSome?_cons, hop]
  rfl

theorem State.operationClaim_noReport {s : State} (hreports : s.reports = []) : s.operationClaim = none := by
  rw [State.operationClaim, hreports, List.findSome?_nil]

/-- A record from which the JOURNAL claimant has nothing to put forward. -/
theorem AssignedRecord.nextHalf_none_iff (r : AssignedRecord) (d : DeviceState) :
    r.nextHalf (decide (d = .faulted)) = none
      ↔ (r.first ≠ .waiting ∧ r.second ≠ .waiting) ∨ (r.first = .waiting ∧ d = .faulted) := by
  unfold AssignedRecord.nextHalf
  by_cases hfirst : r.first = .waiting
  · by_cases hfaulted : d = .faulted <;> simp [hfirst, hfaulted]
  · by_cases hsecond : r.second = .waiting <;> simp [hfirst, hsecond]

theorem AssignedRecord.nextHalf_first {r : AssignedRecord} {d : DeviceState} (hfirst : r.first = .waiting)
    (hlive : d ≠ .faulted) : r.nextHalf (decide (d = .faulted)) = some .first := by
  simp [AssignedRecord.nextHalf, hfirst, hlive]

theorem AssignedRecord.nextHalf_second {r : AssignedRecord} (faulted : Bool) (hfirst : r.first ≠ .waiting)
    (hsecond : r.second = .waiting) : r.nextHalf faulted = some .second := by
  rw [AssignedRecord.nextHalf, if_neg hfirst, if_pos hsecond]

/-- With no report, the JOURNAL claimant puts forward the next half of the first record that has one. -/
theorem State.journalClaim_record {s : State} {older newer : List AssignedRecord} {r : AssignedRecord} {h : Half}
    (hreports : s.reports = []) (hrecords : s.journal.records = older ++ r :: newer)
    (holder : ∀ q ∈ older, q.nextHalf (decide (s.device.state = .faulted)) = none)
    (hnext : r.nextHalf (decide (s.device.state = .faulted)) = some h) :
    s.journalClaim = some { purpose := .recordHalf r.record.seq h, line := s.params.slotLine r.slot h
                            kind := .write fullMask (placeHalf r.record.image h) } := by
  have hclaim : s.recordClaim = some { purpose := .recordHalf r.record.seq h, line := s.params.slotLine r.slot h
                                       kind := .write fullMask (placeHalf r.record.image h) } :=
    List.findSome?_eq_some_iff.2 ⟨older, r, newer, hrecords, by rw [hnext, Option.map_some],
      fun q hq => by rw [holder q hq, Option.map_none]⟩
  rw [State.journalClaim, State.operationClaim_noReport hreports, Option.none_or, hclaim, Option.some_or]

/-- With no report and no record half to write, what is left is the old-line reads. -/
theorem State.journalClaim_noRecord {s : State} (hreports : s.reports = [])
    (hrecords : ∀ q ∈ s.journal.records, q.nextHalf (decide (s.device.state = .faulted)) = none) :
    s.journalClaim = s.oldReadClaim := by
  have hnone : s.recordClaim = none :=
    List.findSome?_eq_none_iff.2 (fun q hq => by rw [hrecords q hq, Option.map_none])
  rw [State.journalClaim, State.operationClaim_noReport hreports, hnone, Option.none_or, Option.none_or]

theorem State.oldReadClaim_oldest {s : State} {older newer : List Operation} {o : Operation}
    (hops : s.ops = older ++ o :: newer) (holder : ∀ p ∈ older, p.stage ≠ .readingOld ∨ p.access ≠ none)
    (hstage : o.stage = .readingOld) (haccess : o.access = none) :
    s.oldReadClaim = some { purpose := .oldLineRead, line := o.line, kind := .read } := by
  have hfound : s.ops.find? (fun o => decide (o.stage = .readingOld) && o.access.isNone) = some o :=
    List.find?_eq_some_iff_append.2 ⟨by simp [hstage, haccess], older, newer, hops,
      fun p hp => by simpa [imp_iff_not_or, Option.isSome_iff_ne_none] using holder p hp⟩
  rw [State.oldReadClaim, hfound, Option.map_some]

theorem State.oldReadClaim_none {s : State} (hops : ∀ p ∈ s.ops, p.stage ≠ .readingOld ∨ p.access ≠ none) :
    s.oldReadClaim = none := by
  rw [State.oldReadClaim, List.find?_eq_none.2 (fun p hp => by simpa [imp_iff_not_or] using hops p hp),
    Option.map_none]

/-! ## ROLLBACK (R130, R133) -/

theorem State.claim_rollback {s : State} (hstate : s.device.state = .serving ∨ s.device.state = .draining) :
    s.claim .rollback = s.rollbackClaim :=
  if_pos (by simpa [State.inService] using hstate)

theorem State.claim_rollback_outOfService {s : State} (hserving : s.device.state ≠ .serving)
    (hdraining : s.device.state ≠ .draining) : s.claim .rollback = none :=
  if_neg (by simp [State.inService, hserving, hdraining])

theorem State.rollbackClaim_restore {s : State} {w : EngineRestore} (hrestore : s.engine.restore = some w)
    (hw : w.issued = false) :
    s.rollbackClaim = some { purpose := .rollbackRestore, line := w.line, kind := .write fullMask w.old } := by
  have hwaiting : s.engine.restore.filter (fun w => !w.issued) = some w :=
    Option.filter_eq_some_iff.2 ⟨hrestore, by simp [hw]⟩
  rw [State.rollbackClaim, hwaiting]

/-- With no restore waiting to be issued, what is left is the read. -/
theorem State.rollbackClaim_noRestore {s : State} (hrestore : ∀ w, s.engine.restore = some w → w.issued = true) :
    s.rollbackClaim = (s.engine.read.filter (fun r => !r.issued)).map (fun r =>
      { purpose := .rollbackRead, line := s.params.slotLine r.slot r.half, kind := .read }) := by
  have hnone : s.engine.restore.filter (fun w => !w.issued) = none :=
    Option.filter_eq_none_iff.2 (fun w hw => by simp [hrestore w hw])
  rw [State.rollbackClaim, hnone]

theorem State.rollbackClaim_read {s : State} {r : EngineRead}
    (hrestore : ∀ w, s.engine.restore = some w → w.issued = true) (hread : s.engine.read = some r)
    (hr : r.issued = false) :
    s.rollbackClaim = some { purpose := .rollbackRead, line := s.params.slotLine r.slot r.half, kind := .read } := by
  simp [State.rollbackClaim_noRestore hrestore, hread, hr]

theorem State.rollbackClaim_none {s : State} (hrestore : ∀ w, s.engine.restore = some w → w.issued = true)
    (hread : ∀ r, s.engine.read = some r → r.issued = true) : s.rollbackClaim = none := by
  rw [State.rollbackClaim_noRestore hrestore, Option.filter_eq_none_iff.2 (fun r hr => by simp [hread r hr]),
    Option.map_none]

/-! ## HEADER (R130, R133) -/

theorem State.claim_header {s : State} (hstate : s.device.state ≠ .passthrough) : s.claim .header = s.headerClaim :=
  if_neg hstate

theorem State.claim_header_passthrough {s : State} (hstate : s.device.state = .passthrough) : s.claim .header = none :=
  if_pos hstate

theorem State.headerClaim_noImage {s : State} (himage : s.header.inFlight = none) : s.headerClaim = none := by
  rw [State.headerClaim, himage]

/-- What the HEADER claimant puts forward of an image in flight, by the stage of its writing. -/
theorem State.headerClaim_image {s : State} {w : HeaderWrite} (himage : s.header.inFlight = some w) :
    (w.stage = .firstWaiting → s.device.state ≠ .faulted → s.headerClaim = some (s.headerHalfClaim w .first))
    ∧ (w.stage = .firstWaiting → s.device.state = .faulted → s.headerClaim = none)
    ∧ (w.stage = .secondWaiting → s.headerClaim = some (s.headerHalfClaim w .second))
    ∧ (w.stage = .firstIssued ∨ w.stage = .secondIssued → s.headerClaim = none) := by
  rw [State.headerClaim, himage]
  refine ⟨fun hstage hlive => ?_, fun hstage hfaulted => ?_, fun hstage => ?_, fun hissued => ?_⟩
  · simp only [hstage, if_neg hlive]
  · simp only [hstage, if_pos hfaulted]
  · simp only [hstage]
  · rcases hissued with hstage | hstage <;> simp only [hstage]

end Sys2Proof.Machine

/-! PROOFS. Family 08_the_memory_link_and_arbitration: when the Memory Arbiter grants, whom, and what the grant changes
(R126, R127, R133, R134, Table 8-1). -/

namespace Sys2Proof.Machine

/-! ## When it grants, and whom -/

/-- R126: no access of the Recovery Sequencer is in flight. -/
theorem State.seqOutstanding_eq_zero (s : State) :
    s.seqOutstanding = 0 ↔ ∀ k x, s.access k = some x → x.purpose.sequencer = false := by
  simp [State.seqOutstanding, List.countP_eq_zero, mem_allSlots, Option.any_eq_false]

theorem State.arbiterRuns_iff (s : State) : s.arbiterRuns = true ↔ s.pins.porst = false
    ∧ s.device.powerFailPending = false ∧ (∀ k x, s.access k = some x → x.purpose.sequencer = false)
    ∧ (s.device.state = .passthrough ∨ s.device.state = .serving ∨ s.device.state = .draining
      ∨ s.device.state = .faulted) := by
  rw [← s.seqOutstanding_eq_zero]
  simp [State.arbiterRuns, and_assoc, or_assoc]

theorem Claimant.next_four (c : Claimant) : c.next.next.next.next = c := by
  cases c <;> rfl

theorem State.eligible_of_claim {s : State} {c : Claimant} {x : Claim} (hclaim : s.claim c = some x)
    (hshare : s.claimantCount c < c.share) : s.eligible c = true := by
  simp [State.eligible, hclaim, hshare]

theorem State.eligible_eq_false_iff (s : State) (c : Claimant) :
    s.eligible c = false ↔ s.claim c = none ∨ c.share ≤ s.claimantCount c := by
  simp [State.eligible, imp_iff_not_or, Option.isSome_iff_ne_none]

/-- R127: the first claimant of the round that qualifies is the next. -/
theorem State.nextClaimant_first {s : State} {c : Claimant} {before after : List Claimant}
    (hround : s.pointer.roundFrom = before ++ c :: after) (hc : s.eligible c = true)
    (hbefore : ∀ b ∈ before, s.claim b = none ∨ b.share ≤ s.claimantCount b) : s.nextClaimant = some c :=
  List.find?_eq_some_iff_append.2 ⟨hc, before, after, hround,
    fun b hb => by rw [(s.eligible_eq_false_iff b).2 (hbefore b hb)]; rfl⟩

theorem State.nextClaimant_none {s : State} (h : ∀ c, s.claim c = none ∨ c.share ≤ s.claimantCount c) :
    s.nextClaimant = none :=
  List.find?_eq_none.2 (fun c _ => by rw [(s.eligible_eq_false_iff c).2 (h c)]; exact Bool.false_ne_true)

/-- The command table gives ARBITER_GRANT its meaning of Machine/Arbiter.lean. -/
theorem exec_arbiterGrant (k : AccessSlot) (s : State) : exec (.arbiterGrant k) s = execArbiterGrant k s := rfl

theorem exec_arbiterGrant_granted {s : State} {k : AccessSlot} {c : Claimant} (hruns : s.arbiterRuns = true)
    (hfree : s.access k = none) (hnext : s.nextClaimant = some c) :
    exec (.arbiterGrant k) s = .next (s.grant k c) := by
  rw [exec_arbiterGrant, execArbiterGrant, hruns, hfree, hnext]
  rfl

/-- R127, log 4: the arbiter does not run, the slot is not free, or no claimant qualifies. -/
theorem exec_arbiterGrant_notGranted {s : State} {k : AccessSlot} (h : s.arbiterRuns = false ∨ s.access k ≠ none
    ∨ ∀ c, s.claim c = none ∨ c.share ≤ s.claimantCount c) : exec (.arbiterGrant k) s = .next s := by
  rw [exec_arbiterGrant, execArbiterGrant]
  rcases h with hstopped | htaken | hnone
  · exact if_neg (by simp [hstopped])
  · exact if_neg (by simp [htaken])
  · rw [State.nextClaimant_none hnone]
    exact ite_self _

/-! ## The slot -/

theorem State.putAccess_access_same (s : State) (k : AccessSlot) (p : Purpose) (l : LineAddr) (kind : AccessKind) :
    (s.putAccess k p l kind).access k = some { purpose := p, line := l, kind := kind, order := s.issued } := by
  simp [State.access]

theorem State.putAccess_access_other (s : State) {j k : AccessSlot} (p : Purpose) (l : LineAddr) (kind : AccessKind)
    (hother : j ≠ k) : (s.putAccess k p l kind).access j = s.access j := by
  have hne : k.val ≠ j.val := fun e => hother (Fin.ext e.symm)
  simp [State.access, hne]

/-! ## What the owner keeps of the issue

`State.markIssued` writes one block's field, by the purpose of the access: the rest of the state is as it was. -/

/-- Only the fields of the claimants' owners can be marked. -/
theorem State.markIssued_frame (s : State) (k : AccessSlot) (a : Claim) : s.markIssued k a = { s with
    forward := (s.markIssued k a).forward, ops := (s.markIssued k a).ops, reports := (s.markIssued k a).reports
    journal := (s.markIssued k a).journal, header := (s.markIssued k a).header
    engine := (s.markIssued k a).engine } := by
  obtain ⟨p, l, kind⟩ := a
  cases p <;> rfl

theorem State.markIssued_access (s : State) (k j : AccessSlot) (a : Claim) :
    (s.markIssued k a).access j = s.access j := by
  rw [s.markIssued_frame k a]
  rfl

section Untouched
variable (s : State) (k : AccessSlot) {a : Claim}

theorem State.markIssued_forward_other (h : a.purpose ≠ .forwarded) : (s.markIssued k a).forward = s.forward := by
  obtain ⟨p, l, kind⟩ := a
  cases p with
  | forwarded => exact absurd rfl h
  | _ => rfl

theorem State.markIssued_ops_other (hread : a.purpose ≠ .oldLineRead) (hwrite : a.purpose ≠ .operationWrite) :
    (s.markIssued k a).ops = s.ops := by
  obtain ⟨p, l, kind⟩ := a
  cases p with
  | oldLineRead => exact absurd rfl hread
  | operationWrite => exact absurd rfl hwrite
  | _ => rfl

theorem State.markIssued_reports_other (h : a.purpose ≠ .operationWrite) :
    (s.markIssued k a).reports = s.reports := by
  obtain ⟨p, l, kind⟩ := a
  cases p with
  | operationWrite => exact absurd rfl h
  | _ => rfl

theorem State.markIssued_journal_other (h : ∀ seq half, a.purpose ≠ .recordHalf seq half) :
    (s.markIssued k a).journal = s.journal := by
  obtain ⟨p, l, kind⟩ := a
  cases p with
  | recordHalf seq half => exact absurd rfl (h seq half)
  | _ => rfl

theorem State.markIssued_header_other (h : ∀ half, a.purpose ≠ .headerHalf half) :
    (s.markIssued k a).header = s.header := by
  obtain ⟨p, l, kind⟩ := a
  cases p with
  | headerHalf half => exact absurd rfl (h half)
  | _ => rfl

theorem State.markIssued_engine_other (hread : a.purpose ≠ .rollbackRead) (hrestore : a.purpose ≠ .rollbackRestore) :
    (s.markIssued k a).engine = s.engine := by
  obtain ⟨p, l, kind⟩ := a
  cases p with
  | rollbackRead => exact absurd rfl hread
  | rollbackRestore => exact absurd rfl hrestore
  | _ => rfl

end Untouched

theorem modifyFirst_append {α : Type} {p : α → Bool} (f : α → α) {older : List α} {e : α} (newer : List α)
    (holder : ∀ o ∈ older, p o = false) (he : p e = true) :
    modifyFirst p f (older ++ e :: newer) = older ++ f e :: newer := by
  induction older with
  | nil => exact if_pos he
  | cons o rest ih =>
    obtain ⟨ho, hrest⟩ := List.forall_mem_cons.1 holder
    rw [List.cons_append, modifyFirst, if_neg (by simp [ho]), ih hrest, List.cons_append]

section Marked
variable (s : State) (k : AccessSlot) {a : Claim}

/-- R128: the entry FORWARD puts forward holds the slot of its access. -/
theorem State.markIssued_forward (hpurpose : a.purpose = .forwarded) {older newer : List ForwardEntry}
    {e : ForwardEntry} (hqueue : s.forward = older ++ e :: newer) (holder : ∀ o ∈ older, o.issued ≠ none)
    (he : e.issued = none) : (s.markIssued k a).forward = older ++ { e with issued := some k } :: newer := by
  have hmodified := modifyFirst_append (p := fun e : ForwardEntry => e.issued.isNone)
    (fun e => { e with issued := some k }) newer (fun o ho => by simpa [Option.isSome_iff_ne_none] using holder o ho)
    (Option.isNone_iff_eq_none.2 he)
  simp only [State.markIssued, hpurpose, hqueue, hmodified]

theorem State.markIssued_ops (hpurpose : a.purpose = .oldLineRead ∨ a.purpose = .operationWrite) :
    (s.markIssued k a).ops = s.ops.map (fun o => if o.line = a.line then { o with access := some k } else o) := by
  rcases hpurpose with h | h <;> simp only [State.markIssued, h, State.modOp]

theorem State.markIssued_reports (hpurpose : a.purpose = .operationWrite) :
    (s.markIssued k a).reports = s.reports.erase a.line := by
  simp only [State.markIssued, hpurpose]

theorem State.markIssued_journal {seq : Serial} {h : Half} (hpurpose : a.purpose = .recordHalf seq h) :
    (s.markIssued k a).journal = { s.journal with records := s.journal.records.map (fun r => if r.record.seq = seq then
      (if h = .first then { r with first := .issued } else { r with second := .issued }) else r) } := by
  simp only [State.markIssued, hpurpose]
  cases h <;> rfl

theorem State.markIssued_header {h : Half} {w : HeaderWrite} (hpurpose : a.purpose = .headerHalf h)
    (himage : s.header.inFlight = some w) : (s.markIssued k a).header = { s.header with
      inFlight := some { w with stage := if h = .first then .firstIssued else .secondIssued } } := by
  simp only [State.markIssued, hpurpose, himage]
  cases h <;> rfl

theorem State.markIssued_engine_read {r : EngineRead} (hpurpose : a.purpose = .rollbackRead)
    (hread : s.engine.read = some r) :
    (s.markIssued k a).engine = { s.engine with read := some { r with issued := true } } := by
  simp only [State.markIssued, hpurpose, hread, State.setEngine, Option.map_some]

theorem State.markIssued_engine_restore {w : EngineRestore} (hpurpose : a.purpose = .rollbackRestore)
    (hrestore : s.engine.restore = some w) :
    (s.markIssued k a).engine = { s.engine with restore := some { w with issued := true } } := by
  simp only [State.markIssued, hpurpose, hrestore, State.setEngine, Option.map_some]

end Marked

/-! ## The grant -/

theorem State.grant_of_claim {s : State} {c : Claimant} {x : Claim} (k : AccessSlot) (hclaim : s.claim c = some x) :
    s.grant k c = { (s.putAccess k x.purpose x.line x.kind).markIssued k x with pointer := c.next } := by
  rw [State.grant, hclaim]

/-- Besides the slot, the pointer and the count of accesses issued, only the owners' fields change. -/
theorem State.grant_frame {s : State} {c : Claimant} {x : Claim} (k : AccessSlot) (hclaim : s.claim c = some x) :
    s.grant k c = { s with
      link := (s.grant k c).link, issued := s.issued + 1, pointer := c.next, forward := (s.grant k c).forward
      ops := (s.grant k c).ops, reports := (s.grant k c).reports, journal := (s.grant k c).journal
      header := (s.grant k c).header, engine := (s.grant k c).engine } := by
  rw [s.grant_of_claim k hclaim, State.markIssued_frame]
  rfl

theorem State.grant_access {s : State} {c : Claimant} {x : Claim} (k j : AccessSlot) (hclaim : s.claim c = some x) :
    (s.grant k c).access j = (s.putAccess k x.purpose x.line x.kind).access j := by
  rw [s.grant_of_claim k hclaim]
  exact State.markIssued_access _ k j x

/-- What is forwarded is the oldest entry of the Forward Queue not yet issued. -/
theorem State.claim_forwarded_entry {s : State} {c : Claimant} {x : Claim} (hclaim : s.claim c = some x)
    (hpurpose : x.purpose = .forwarded) : ∃ older e newer, s.forward = older ++ e :: newer
      ∧ (∀ o ∈ older, o.issued ≠ none) ∧ e.issued = none := by
  obtain rfl : c = .forward := by
    have hmine := State.claim_claimant hclaim
    rw [hpurpose] at hmine
    exact (Option.some.inj hmine).symm
  obtain ⟨e, hfound, -⟩ := Option.map_eq_some_iff.1 (show s.forwardClaim = some x from hclaim)
  obtain ⟨he, older, newer, hqueue, holder⟩ := List.find?_eq_some_iff_append.1 hfound
  exact ⟨older, e, newer, hqueue, fun o ho => by simpa [Option.isSome_iff_ne_none] using holder o ho,
    Option.isNone_iff_eq_none.1 he⟩

/-- Settles O54: the grant by the purpose of the access, then the order, the shares and what each claimant puts
forward. -/
theorem arbiterGrants : Obligations.ArbiterGrants := by
  refine ⟨fun s k => ⟨fun c x hruns hfree hclaim hshare before after hround _ hbefore => ?granted,
      exec_arbiterGrant_notGranted⟩, fun c => ⟨rfl, c.next_four⟩, rfl, rfl, rfl, rfl, rfl, rfl, rfl,
    State.arbiterRuns_iff, fun _ _ _ _ => State.claim_forward_oldest, fun _ => State.claim_forward_none,
    fun _ hstate => ⟨State.claim_journal_passthrough hstate, State.claim_header_passthrough hstate⟩,
    fun _ => State.claim_rollback_outOfService, fun s hstate => ?journal, fun s hstate => ?rollback,
    fun s hstate => ?header⟩
  case granted =>
    have hnext := State.nextClaimant_first hround (State.eligible_of_claim hclaim hshare) hbefore
    refine ⟨s.grant k c, exec_arbiterGrant_granted hruns hfree hnext,
      (State.grant_access k k hclaim).trans (s.putAccess_access_same ..),
      fun j hj => (State.grant_access k j hclaim).trans (s.putAccess_access_other _ _ _ hj),
      by rw [State.grant_frame k hclaim], by rw [State.grant_frame k hclaim], State.grant_frame k hclaim, ?_⟩
    rw [State.grant_of_claim k hclaim]
    exact ⟨State.markIssued_forward_other _ k, State.markIssued_ops_other _ k, State.markIssued_reports_other _ k,
      State.markIssued_journal_other _ k, State.markIssued_header_other _ k, State.markIssued_engine_other _ k,
      fun hpurpose =>
        have ⟨older, e, newer, hqueue, holder, he⟩ := State.claim_forwarded_entry hclaim hpurpose
        ⟨older, e, newer, hqueue, holder, he, State.markIssued_forward _ k hpurpose hqueue holder he⟩,
      State.markIssued_ops _ k, State.markIssued_reports _ k, fun _ _ => State.markIssued_journal _ k,
      fun _ _ hpurpose himage => State.markIssued_header _ k hpurpose himage,
      fun _ hpurpose hread => State.markIssued_engine_read _ k hpurpose hread,
      fun _ hpurpose hrestore => State.markIssued_engine_restore _ k hpurpose hrestore⟩
  case journal =>
    rw [State.claim_journal hstate]
    refine ⟨fun _ _ _ => State.journalClaim_report, fun hreports =>
      ⟨fun older r newer hrecords holder => ?_, fun hrecords => ?_⟩⟩
    · have hpassed := fun q hq => (AssignedRecord.nextHalf_none_iff q s.device.state).2 (holder q hq)
      exact ⟨fun hfirst hlive => State.journalClaim_record hreports hrecords hpassed
          (AssignedRecord.nextHalf_first hfirst hlive),
        fun hfirst hsecond => State.journalClaim_record hreports hrecords hpassed
          (AssignedRecord.nextHalf_second _ hfirst hsecond)⟩
    · rw [State.journalClaim_noRecord hreports
        (fun q hq => (AssignedRecord.nextHalf_none_iff q s.device.state).2 (hrecords q hq))]
      exact ⟨fun _ _ _ => State.oldReadClaim_oldest, State.oldReadClaim_none⟩
  case rollback =>
    rw [State.claim_rollback hstate]
    exact ⟨fun _ => State.rollbackClaim_restore, fun _ => State.rollbackClaim_read, State.rollbackClaim_none⟩
  case header =>
    rw [State.claim_header hstate]
    exact ⟨State.headerClaim_noImage, fun _ => State.headerClaim_image⟩

end Sys2Proof.Machine

/-! PROOFS. Family 09_parameter_block_and_configuration_port: the configuration port, the end of a transfer and of a pause
(R136, R140, R141, R157). -/

namespace Sys2Proof.Machine

/-! ## The sampled bits (R136) -/

/-- R136: the sampled bits stand for one block only, the one the loader assembles. -/
theorem sampledAs.block_eq {sampled : SampledBits} {b : ParamBlock} (h : sampledAs sampled b) :
    blockOfSampled sampled = b := by
  refine BitVec.eq_of_getLsbD_eq (fun i hi => ?_)
  have hbit := h (i / 8) (by omega) (i % 8) (by omega)
  rw [Nat.div_add_mod] at hbit
  rw [blockOfSampled, BitVec.getLsbD_ofFnLE, dif_pos hi, hbit]

/-! ## The end of a transfer -/

theorem exec_configurationTransferEnd_passed {s : State} {sampled : SampledBits} {b : ParamBlock}
    (hphase : s.loader.phase = .transfer) (hsampled : sampledAs sampled b) (hvalid : blockValid b = true) :
    exec (.configurationTransferEnd sampled) s = .next (s.loadSuccess b) := by
  simp only [exec, execConfigurationTransferEnd, hphase, hsampled.block_eq, hvalid, if_true]

theorem exec_configurationTransferEnd_failed {s : State} {sampled : SampledBits} {b : ParamBlock}
    (hphase : s.loader.phase = .transfer) (hsampled : sampledAs sampled b) (hvalid : blockValid b = false) :
    exec (.configurationTransferEnd sampled) s = .next s.loadFailure := by
  simp only [exec, execConfigurationTransferEnd, hphase, hsampled.block_eq, hvalid, Bool.false_eq_true, if_false]

/-- Log 4: no transfer is under way. -/
theorem exec_configurationTransferEnd_noTransfer {s : State} (sampled : SampledBits)
    (hphase : s.loader.phase ≠ .transfer) : exec (.configurationTransferEnd sampled) s = .next s := by
  cases h : s.loader.phase with
  | transfer => exact absurd h hphase
  | idle => simp only [exec, execConfigurationTransferEnd, h]
  | pausing e => simp only [exec, execConfigurationTransferEnd, h]

/-! ## A block that passes (R141, R157) -/

/-- R145: from a fresh start each half of a header copy is waiting or issued after an opportunity: nothing is read yet. -/
theorem State.pump_headersUnread {s : State} (hA : s.recovery.io.headerA = .fresh)
    (hB : s.recovery.io.headerB = .fresh) : ∀ p ∈ [s.pump.recovery.io.headerA, s.pump.recovery.io.headerB],
      ∀ v ∈ [p.first, p.second], v = .waiting ∨ v = .issued := by
  have hfresh : ∀ p ∈ [PlaceRead.fresh, PlaceRead.fresh], ∀ v ∈ [p.first, p.second],
      v = HalfRead.waiting ∨ v = HalfRead.issued := by
    decide
  cases hpower : s.device.powerFailPending with
  | true =>
    rw [State.pump, if_pos hpower, hA, hB]
    exact hfresh
  | false =>
    obtain ⟨jobs, -, -, -, hio, -⟩ := s.pump_marks hpower
    obtain ⟨more, -, hmarks⟩ := SequencerIO.foldl_markIssued jobs s.recovery.io _ (fun _ _ => rfl) _ (fun _ _ => rfl)
    have hmark : ∀ j : SeqJob, (if j ∈ jobs then HalfRead.issued else .waiting) = .waiting
        ∨ (if j ∈ jobs then HalfRead.issued else .waiting) = .issued :=
      fun j => (ite_eq_or_eq _ _ _).symm
    rw [hio, hmarks, hA, hB]
    intro p hp v hv
    obtain rfl | rfl := List.mem_pair.1 hp <;> obtain rfl | rfl := List.mem_pair.1 hv <;> exact hmark _

/-- R141, R145, R157: what a block that passes leaves, field by field. -/
theorem State.loadSuccess_spec (s : State) (b : ParamBlock) :
    let t := s.loadSuccess b
    t.loader = { s.loader with phase := .idle, params := some (Params.ofBlock b) }
      ∧ t.device = { s.device with state := .recovering }
      ∧ t.recovery = { Recovery.reset with phase := .headers, io := t.recovery.io }
      ∧ (∀ p ∈ [t.recovery.io.headerA, t.recovery.io.headerB], ∀ v ∈ [p.first, p.second], v = .waiting ∨ v = .issued)
      ∧ t = { s with loader := t.loader, device := t.device, recovery := t.recovery, link := t.link
                     issued := t.issued, draws := t.draws } := by
  have hrest : s.loadSuccess b = _ := State.pump_rest _
  refine ⟨by rw [hrest], by rw [hrest], by rw [hrest], State.pump_headersUnread rfl rfl, ?_⟩
  rw [hrest]

/-! ## A block that fails (R140) -/

/-- R140: at attempts 1 and 2 a pause of 10 ms begins. -/
theorem State.loadFailure_again {s : State} (hattempt : s.loader.attempt < 3) :
    s.loadFailure = { s with loader := { s.loader with
      attempt := s.loader.attempt + 1, phase := .pausing (s.timebase + 10000) } } :=
  if_pos hattempt

/-- R140: at attempt 3 the device enters PASSTHROUGH. -/
theorem State.loadFailure_last {s : State} (hattempt : 3 ≤ s.loader.attempt) :
    s.loadFailure = State.entryLinkReset { s with
      loader := { s.loader with phase := .idle, params := none }
      device := { s.device with state := .passthrough } } :=
  if_neg (Nat.not_lt.2 hattempt)

/-- R159: a link reset in PASSTHROUGH only forgets the requests. -/
theorem State.takeLinkReset_passthrough {s : State} (hpower : s.device.powerFailPending = false)
    (hstate : s.device.state = .passthrough) : s.takeLinkReset = s.forget := by
  rw [State.takeLinkReset, if_neg (by simp [hpower]), hstate]

/-- R159: at an entry into PASSTHROUGH the device state stands, a link reset taken there or not. -/
theorem State.entryLinkReset_passthrough_device {s : State} (hstate : s.device.state = .passthrough) :
    s.entryLinkReset.device = s.device := by
  cases hlrst : s.pins.lrst with
  | false => rw [State.entryLinkReset, if_neg (by simp [hlrst])]
  | true =>
    rw [State.entryLinkReset, if_pos hlrst]
    cases hpower : s.device.powerFailPending with
    | true => rw [State.takeLinkReset, if_pos hpower]
    | false => rw [State.takeLinkReset_passthrough hpower hstate, State.forget]

/-- R140, R159: the last attempt has failed. -/
theorem State.loadFailure_entersPassthrough {s : State} (hattempt : 3 ≤ s.loader.attempt) :
    let t := s.loadFailure
    t.device.state = .passthrough ∧ t.loader = { s.loader with phase := .idle, params := none }
      ∧ (s.pins.lrst = false → t = { s with device := { s.device with state := .passthrough }, loader := t.loader })
      ∧ (s.pins.lrst = true → s.device.powerFailPending = false → t = { s with
          device := { s.device with state := .passthrough }, loader := t.loader, outstanding := [], classified := []
          forward := s.forward.map (fun e => { e with forgotten := true })
          ops := s.ops.map (fun o => { o with forgotten := true }) }) := by
  intro t
  have ht : t = State.entryLinkReset { s with
      loader := { s.loader with phase := .idle, params := none }
      device := { s.device with state := .passthrough } } := State.loadFailure_last hattempt
  have hloader : t.loader = { s.loader with phase := .idle, params := none } := by
    rw [ht, State.entryLinkReset_loader]
  refine ⟨?_, hloader, fun hlrst => ?_, fun hlrst hpower => ?_⟩
  · rw [ht, State.entryLinkReset_passthrough_device rfl]
  · rw [hloader, ht]
    exact if_neg (by simp [hlrst])
  · rw [hloader, ht, State.entryLinkReset, if_pos hlrst]
    exact State.takeLinkReset_passthrough hpower rfl

/-! ## The end of a pause (R140) -/

theorem exec_loadPauseEnd_due {s : State} {e : Time} (hphase : s.loader.phase = .pausing e) (hdue : e ≤ s.timebase) :
    exec .loadPauseEnd s = .next { s with loader := { s.loader with phase := .transfer } } := by
  have hreached : s.reached e.toNat = true := decide_eq_true hdue
  simp only [exec, execLoadPauseEnd, hphase, hreached, if_true]

/-- Log 4: the 10 ms have not passed. -/
theorem exec_loadPauseEnd_early {s : State} {e : Time} (hphase : s.loader.phase = .pausing e) (hearly : s.timebase < e) :
    exec .loadPauseEnd s = .next s := by
  have hbefore : s.reached e.toNat = false := decide_eq_false (Nat.not_le.2 hearly)
  simp only [exec, execLoadPauseEnd, hphase, hbefore, Bool.false_eq_true, if_false]

/-- Log 4: no pause is running. -/
theorem exec_loadPauseEnd_noPause {s : State} (hphase : ∀ e, s.loader.phase ≠ .pausing e) :
    exec .loadPauseEnd s = .next s := by
  cases h : s.loader.phase with
  | pausing e => exact absurd h (hphase e)
  | idle => simp only [exec, execLoadPauseEnd, h]
  | transfer => simp only [exec, execLoadPauseEnd, h]

/-! ## The lines of the port (R136) -/

theorem State.port_inTransfer {s : State} (hphase : s.loader.phase = .transfer) :
    s.cfgCsN = false ∧ s.cfgDo = transferCommand ∧ s.cfgClkPulses = transferCommand.length + 2048 := by
  simp [State.cfgCsN, State.cfgDo, State.cfgClkPulses, hphase]

theorem State.port_outsideTransfer {s : State} (hphase : s.loader.phase ≠ .transfer) :
    s.cfgCsN = true ∧ s.cfgDo = [] ∧ s.cfgClkPulses = 0 := by
  simp [State.cfgCsN, State.cfgDo, State.cfgClkPulses, hphase]

/-- Settles O32: the end of a transfer by what the block is and by the attempt, the end of a pause by its time, and the
lines by the loader's phase. -/
theorem configurationLoading : Obligations.ConfigurationLoading := by
  refine ⟨fun s sampled b hphase hsampled hvalid => ?_, fun s sampled b hphase hsampled hvalid hattempt => ?_,
    fun s sampled b hphase hsampled hvalid hattempt => ?_, fun _ _ => exec_loadPauseEnd_due,
    fun _ _ => exec_loadPauseEnd_early, fun _ => exec_loadPauseEnd_noPause,
    fun _ sampled => exec_configurationTransferEnd_noTransfer sampled, fun _ => State.port_inTransfer,
    fun _ => State.port_outsideTransfer⟩
  · obtain ⟨hloader, hdevice, hrecovery, hunread, hframe⟩ := s.loadSuccess_spec b
    refine ⟨_, exec_configurationTransferEnd_passed hphase hsampled hvalid, hloader, hdevice, ?_⟩
    have hpump : s.loadSuccess b = State.pump { s with
        loader := (s.loadSuccess b).loader, device := (s.loadSuccess b).device
        recovery := { Recovery.reset with phase := .headers } } := by
      rw [hloader, hdevice]
      rfl
    refine ⟨?_, ?_, ?_, ?_, ?_, ?_, ?_, ?_, ?_, ?_, ?_, hunread, hframe, hpump⟩ <;> rw [hrecovery] <;> rfl
  · rw [exec_configurationTransferEnd_failed hphase hsampled hvalid, State.loadFailure_again hattempt]
  · exact ⟨_, exec_configurationTransferEnd_failed hphase hsampled hvalid, State.loadFailure_entersPassthrough hattempt⟩

end Sys2Proof.Machine

/-! PROOFS. Family 09_parameter_block_and_configuration_port: which parameter blocks pass validation, and where each field
stands (R137, R138, R139). -/

namespace Sys2Proof.Machine

/-! ## The fields of a block (Table 12-6) -/

/-- The value of the `width` bits of a block from byte `byte` on. -/
def blockField (b : ParamBlock) (byte width : Nat) : Nat := (b.extractLsb' (8 * byte) width).toNat

theorem ofNat_blockField (b : ParamBlock) (byte width : Nat) :
    BitVec.ofNat width (blockField b byte width) = b.extractLsb' (8 * byte) width := by
  rw [blockField, BitVec.ofNat_toNat, BitVec.setWidth_eq]

theorem blockField_eq_zero_iff (b : ParamBlock) (byte width : Nat) :
    blockField b byte width = 0 ↔ b.extractLsb' (8 * byte) width = 0 := by
  exact BitVec.toNat_inj (y := 0)

/-- Range entry r takes 16 bytes from byte 64 + 16 r on: its base, then its length. -/
theorem rangeOf_eq (b : ParamBlock) (r : Nat) :
    rangeOf b r = { base := blockField b (64 + 16 * r) 64, length := blockField b (72 + 16 * r) 64 } := by
  rw [rangeOf, blockField, blockField, Nat.mul_add, Nat.mul_add, ← Nat.mul_assoc]

theorem Params.ofBlock_ranges (b : ParamBlock) : (Params.ofBlock b).ranges = (List.range 8).map (rangeOf b) := rfl

/-- Table 12-6: every field of Table 9-1 at its bytes. -/
theorem Params.ofBlock_eq (b : ParamBlock) : Params.ofBlock b = {
    version := blockField b 0 8, signature := BitVec.ofNat 64 (blockField b 8 64)
    key := BitVec.ofNat 64 (blockField b 16 64), journalBase := blockField b 24 64, journalSize := blockField b 32 32
    holdQuota := blockField b 36 16, rangeCount := blockField b 38 8, formatPermitted := blockField b 39 8
    conflictTimeout := blockField b 40 32, failureThreshold := blockField b 44 8, failureWindow := blockField b 45 8
    lockoutDuration := blockField b 46 16
    ranges := (List.range 8).map (fun r =>
      { base := blockField b (64 + 16 * r) 64, length := blockField b (72 + 16 * r) 64 })
    checkWord := BitVec.ofNat 32 (blockField b 252 32) } := by
  simp only [ofNat_blockField, ← rangeOf_eq]
  rfl

/-- R137: with a valid count the journaled ranges are the entries 0 to count - 1. -/
theorem Params.ofBlock_journaledRanges {b : ParamBlock} (hcount : (Params.ofBlock b).rangeCount ≤ 8) :
    (Params.ofBlock b).journaledRanges = (List.range (Params.ofBlock b).rangeCount).map (rangeOf b) := by
  rw [Params.journaledRanges, Params.ofBlock_ranges, ← List.map_take, List.take_range, Nat.min_eq_left hcount]

/-! ## The three stages (R138) -/

theorem blockValid_iff (b : ParamBlock) : blockValid b = true ↔ blockCheckWord b = true
    ∧ (Params.ofBlock b).fieldsValid = true ∧ blockUnusedZero b = true ∧ (Params.ofBlock b).crossValid = true := by
  simp only [blockValid, Bool.and_eq_true, and_assoc]

theorem blockUnusedZero_iff (b : ParamBlock) : blockUnusedZero b = true ↔
    blockField b 1 56 = 0 ∧ blockField b 48 128 = 0 ∧ blockField b 192 480 = 0 := by
  simp only [blockUnusedZero, Bool.and_eq_true, decide_eq_true_eq, blockField_eq_zero_iff, and_assoc]

/-- R137: the valid values, field by field. -/
theorem Params.fieldsValid_iff (p : Params) : p.fieldsValid = true ↔
    (p.version = 1 ∧ p.signature.toNat ≠ 0 ∧ p.signature.toNat ≠ 2 ^ 64 - 1)
    ∧ (p.journalBase % 64 = 0 ∧ p.journalBase < 2 ^ 40 ∧ p.journalSize ∈ journalSizes)
    ∧ (p.rangeCount ≤ 8 ∧ ∀ r ∈ p.journaledRanges, r.valid = true)
    ∧ (1 ≤ p.holdQuota ∧ p.holdQuota ≤ 512) ∧ (10 ≤ p.conflictTimeout ∧ p.conflictTimeout ≤ 1000000)
    ∧ (2 ≤ p.failureThreshold ∧ p.failureThreshold ≤ 15) ∧ (1 ≤ p.failureWindow ∧ p.failureWindow ≤ 60)
    ∧ (1 ≤ p.lockoutDuration ∧ p.lockoutDuration ≤ 300) ∧ p.formatPermitted ≤ 1 := by
  simp only [Params.fieldsValid, Bool.and_eq_true, decide_eq_true_eq, List.all_eq_true, List.contains_iff_mem,
    BitVec.toNat_ne, and_assoc]
  rfl

theorem Range.valid_iff (r : Range) : r.valid = true ↔
    r.base % 4096 = 0 ∧ r.base < 2 ^ 40 ∧ r.length ≠ 0 ∧ r.length % 4096 = 0 := by
  simp only [Range.valid, Bool.and_eq_true, decide_eq_true_eq, and_assoc]
  rfl

/-- Two regions are apart if the second ends before the first or the first before the second. -/
theorem regionsApart_iff (a b : Range) :
    regionsApart a b = true ↔ b.base + b.length ≤ a.base ∨ a.base + a.length ≤ b.base := by
  simp only [regionsApart, Bool.or_eq_true, decide_eq_true_eq, or_comm]

theorem allApart_iff (l : List Range) : allApart l = true ↔ l.Pairwise (fun a b => regionsApart a b = true) := by
  induction l with
  | nil => simp [allApart]
  | cons r rest ih => rw [allApart, Bool.and_eq_true, List.all_eq_true, List.pairwise_cons, ih]

/-- R139: the cross-checks. -/
theorem Params.crossValid_iff (p : Params) : p.crossValid = true ↔
    (p.journalBase % p.journalSize = 0 ∧ p.journalBase + p.journalSize ≤ 2 ^ 40)
    ∧ (∀ r ∈ p.journaledRanges, r.base + r.length ≤ 2 ^ 40)
    ∧ p.journaledRanges.Pairwise (fun a b => regionsApart a b = true)
    ∧ ∀ r ∈ p.journaledRanges, regionsApart { base := p.journalBase, length := p.journalSize } r = true := by
  simp only [Params.crossValid, Bool.and_eq_true, decide_eq_true_eq, List.all_eq_true, allApart_iff, and_assoc]
  rfl

/-! ## The journal area and the ranges -/

/-- R137: the valid sizes are 64 KiB times a power of two up to 2^8. -/
theorem mem_journalSizes_iff (n : Nat) : n ∈ journalSizes ↔ ∃ k ≤ 8, n = 65536 * 2 ^ k := by
  have hsizes : journalSizes = (List.range 9).map (fun k => 65536 * 2 ^ k) := by decide
  simp only [hsizes, List.mem_map, List.mem_range, Nat.lt_succ_iff, eq_comm]

/-- An area aligned to its size is aligned to a line. -/
theorem area_aligned_line {base size : Nat} (hsize : ∃ k ≤ 8, size = 65536 * 2 ^ k) (haligned : base % size = 0) :
    base % 64 = 0 := by
  obtain ⟨k, -, rfl⟩ := hsize
  have hline : 64 ∣ 65536 * 2 ^ k := Dvd.dvd.mul_right (by decide) _
  exact Nat.mod_eq_zero_of_dvd (hline.trans (Nat.dvd_of_mod_eq_zero haligned))

theorem pairwise_map_range {α : Type} (R : α → α → Prop) (f : Nat → α) (n : Nat) :
    ((List.range n).map f).Pairwise R ↔ ∀ i < n, ∀ j < i, R (f j) (f i) := by
  simp only [List.pairwise_iff_getElem, List.length_map, List.length_range, List.getElem_map, List.getElem_range]
  exact ⟨fun h i hi j hj => h j i (hj.trans hi) hi hj, fun h i j _ hj hij => h j hj i hij⟩

/-- R137, R139: a range's own values, with its end inside the address space. -/
theorem Range.valid_and_inside_iff (r : Range) : r.valid = true ∧ r.base + r.length ≤ 2 ^ 40 ↔
    r.base % 4096 = 0 ∧ r.length % 4096 = 0 ∧ 0 < r.length ∧ r.base + r.length ≤ 2 ^ 40 := by
  rw [Range.valid_iff]
  omega

/-- R137, R139: what the two stages ask of the journaled ranges, entry by entry. -/
theorem journaledRanges_valid_iff {b : ParamBlock} (area : Range) (hcount : (Params.ofBlock b).rangeCount ≤ 8) :
    let count := (Params.ofBlock b).rangeCount
    let ranges := (Params.ofBlock b).journaledRanges
    ((∀ r ∈ ranges, r.valid = true) ∧ (∀ r ∈ ranges, r.base + r.length ≤ 2 ^ 40)
        ∧ ranges.Pairwise (fun x y => regionsApart x y = true) ∧ ∀ r ∈ ranges, regionsApart area r = true) ↔
      (∀ i < count, (rangeOf b i).base % 4096 = 0 ∧ (rangeOf b i).length % 4096 = 0 ∧ 0 < (rangeOf b i).length
        ∧ (rangeOf b i).base + (rangeOf b i).length ≤ 2 ^ 40)
      ∧ (∀ i < count, ∀ j < i, (rangeOf b i).base + (rangeOf b i).length ≤ (rangeOf b j).base
        ∨ (rangeOf b j).base + (rangeOf b j).length ≤ (rangeOf b i).base)
      ∧ ∀ i < count, (rangeOf b i).base + (rangeOf b i).length ≤ area.base
        ∨ area.base + area.length ≤ (rangeOf b i).base := by
  simp only [Params.ofBlock_journaledRanges hcount, pairwise_map_range, List.forall_mem_map, List.mem_range,
    ← Range.valid_and_inside_iff, regionsApart_iff, forall_and, and_assoc]

/-- Settles O33: stage by stage, with the alignment of the area to a line following from that to its size. -/
theorem parameterBlockValidation : Obligations.ParameterBlockValidation := by
  intro b field base length count
  refine ⟨?_, Params.ofBlock_eq b⟩
  have hbase : ∀ i, (rangeOf b i).base = base i := fun i => congrArg Range.base (rangeOf_eq b i)
  have hlength : ∀ i, (rangeOf b i).length = length i := fun i => congrArg Range.length (rangeOf_eq b i)
  have hranges := journaledRanges_valid_iff (b := b) { base := field 24 64, length := field 32 32 }
  simp only [hbase, hlength] at hranges
  rw [blockValid_iff, Params.fieldsValid_iff, Params.crossValid_iff, blockUnusedZero_iff, mem_journalSizes_iff,
    blockCheckWord, decide_eq_true_eq]
  constructor
  · rintro ⟨hcheck, ⟨⟨hversion, hzero, hones⟩, ⟨-, harea, hsize⟩, ⟨hcount, hvalid⟩, hquota, htimeout, hthreshold, hwindow,
      hlockout, hformat⟩, hunused, ⟨haligned, hend⟩, hinside, hapart, hclear⟩
    obtain ⟨hentries, hpairs, hclear⟩ := (hranges hcount).1 ⟨hvalid, hinside, hapart, hclear⟩
    exact ⟨hcheck, hversion, hzero, hones, harea, hsize, haligned, hend, hcount, hentries, hpairs, hclear, hquota,
      htimeout, hthreshold, hwindow, hlockout, hformat, hunused⟩
  · rintro ⟨hcheck, hversion, hzero, hones, harea, hsize, haligned, hend, hcount, hentries, hpairs, hclear, hquota,
      htimeout, hthreshold, hwindow, hlockout, hformat, hunused⟩
    obtain ⟨hvalid, hinside, hapart, hclear⟩ := (hranges hcount).2 ⟨hentries, hpairs, hclear⟩
    exact ⟨hcheck, ⟨⟨hversion, hzero, hones⟩, ⟨area_aligned_line hsize haligned, harea, hsize⟩, ⟨hcount, hvalid⟩,
      hquota, htimeout, hthreshold, hwindow, hlockout, hformat⟩, hunused, ⟨haligned, hend⟩, hinside, hapart, hclear⟩

end Sys2Proof.Machine

/-! PROOFS. Family 10_start_up_recovery: what an opportunity of the Recovery Sequencer leaves of the halves answered,
and how a completion of the sequencer is delivered or leads to FAULTED (R132, R145, R153). -/

namespace Sys2Proof.Machine

/-! ## The halves of a place (R38) -/

theorem PlaceRead.set_eq (p : PlaceRead) (h : Half) (v : HalfRead) :
    p.set h v = if h = .first then { p with first := v } else { p with second := v } := by cases h <;> rfl

/-- A place has been read once both its halves have. -/
theorem PlaceRead.image_eq_none_iff (p : PlaceRead) :
    p.image = none ↔ (∀ b, p.first ≠ .got b) ∨ ∀ b, p.second ≠ .got b := by
  obtain ⟨first, second⟩ := p
  cases first <;> cases second <;> simp [PlaceRead.image]

/-- A half just read leaves its place unread while the other half is. -/
theorem PlaceRead.image_set_none {p : PlaceRead} {h : Half} {d : Line}
    (hother : ∀ b, (if h = .first then p.second else p.first) ≠ .got b) : (p.set h (.got d)).image = none := by
  rw [PlaceRead.image_eq_none_iff]
  cases h with
  | first => exact .inr hother
  | second => exact .inl hother

/-- A half just read completes its place where the other half has been read. -/
theorem PlaceRead.image_set_some {p : PlaceRead} {h : Half} {d other : Line}
    (hother : (if h = .first then p.second else p.first) = .got other) :
    (p.set h (.got d)).image = some (if h = .first then placeOf d other else placeOf other d) := by
  cases h with
  | first =>
    have hsecond : p.second = .got other := hother
    simp only [PlaceRead.image, PlaceRead.set, hsecond, if_true]
  | second =>
    have hfirst : p.first = .got other := hother
    simp only [PlaceRead.image, PlaceRead.set, hfirst, reduceCtorEq, if_false]

/-! ## What is no longer waiting is not asked for again (R145) -/

/-- A mark that only one job sets stays as it is at an opportunity that does not want the job. -/
theorem State.pump_keepsMark {β : Type} (f : SequencerIO → β) (issued : β) (job : SeqJob)
    (hmark : ∀ io j, f (SequencerIO.markIssued io j) = if j = job then issued else f io) (s : State)
    (hunwanted : job ∉ s.seqWanted) : f s.pump.recovery.io = f s.recovery.io := by
  cases hpower : s.device.powerFailPending with
  | true => rw [State.pump, if_pos hpower]
  | false =>
    obtain ⟨jobs, hprefix, -, -, hio, -⟩ := s.pump_marks hpower
    rw [hio, SequencerIO.foldl_markIssued_mark f issued job hmark, if_neg (fun hj => hunwanted (hprefix.subset hj))]

/-! ## Completions of the sequencer -/

/-- R124, R132: a completion is delivered to its owner, and the wind-down goes on. -/
theorem State.complete_eq {s : State} {k : AccessSlot} {a : Access} {mine : Purpose → Bool}
    (deliver : Access → State → State) (hacc : s.access k = some a) (hmine : mine a.purpose = true) :
    s.complete k mine deliver = (deliver a (s.freeAccess k)).woundDown := by
  rw [State.complete_delivered s k a mine deliver hacc hmine, State.settle_eq]

/-- R153, R158: a fault report of the sequencer at work, seen from the state before the step in which it changed its own
fields and the link. -/
theorem State.reportFault_sequencer {s : State} (link : Vector (Option Access) 8) (r : Recovery) (cause : FaultCause)
    (hruns : s.runsIn .recovering) (hactive : r.phase.active) :
    let t := ({ s with link := link, recovery := r } : State).reportFault cause
    t.woundDown = t ∧ s.faultedFrom t cause ∧ t.recovery.phase = .stopped := by
  obtain ⟨hfaulted, hrecovery⟩ := State.reportFault_recovering_faultedFrom
    ({ s with link := link, recovery := r } : State) cause hruns hactive
  refine ⟨State.woundDown_running _ ?_, hfaulted, congrArg Recovery.phase hrecovery⟩
  rw [State.reportFault_powerFail]
  exact hruns.2.1

theorem RecoveryPhase.active_of_mem {p : RecoveryPhase} (hp : p ∈ [.headers, .forwardWalk, .undoPass, .reinit]) :
    p.active := by
  simp only [List.mem_cons, List.not_mem_nil, or_false] at hp
  obtain rfl | rfl | rfl | rfl := hp <;> exact ⟨by decide, by decide, by decide⟩

/-- R153: a command that reports a fault of the sequencer leads to FAULTED, the sequencer STOPPED. -/
theorem exec_faults {c : Instr} {s : State} {link : Vector (Option Access) 8} {r : Recovery} {cause : FaultCause}
    (hruns : s.runsIn .recovering) (hactive : r.phase.active)
    (hexec : exec c s = .next (({ s with link := link, recovery := r } : State).reportFault cause).woundDown) :
    ∃ t : State, exec c s = .next t ∧ s.faultedFrom t cause ∧ t.recovery.phase = .stopped := by
  obtain ⟨hrunning, hfaulted, hstopped⟩ := State.reportFault_sequencer link r cause hruns hactive
  exact ⟨_, hexec.trans (congrArg _ hrunning), hfaulted, hstopped⟩

/-- R153: an ERROR leads to FAULTED, its slot free. -/
theorem exec_error {c : Instr} {s : State} (k : AccessSlot) {cause : FaultCause} (hruns : s.runsIn .recovering)
    (hactive : s.recovery.phase.active) (hexec : exec c s = .next ((s.freeAccess k).reportFault cause).woundDown) :
    ∃ t : State, exec c s = .next t ∧ s.faultedFrom t cause ∧ t.recovery.phase = .stopped :=
  exec_faults (link := s.link.set k none) hruns hactive hexec

end Sys2Proof.Machine

/-! PROOFS. Family 10_start_up_recovery: the header copies are read and one is chosen, and the bytes of a header copy
(R146, R147, Table 12-5). -/

namespace Sys2Proof.Machine

/-! ## The choice (R146) -/

section Choice

variable {a b : Chosen}

theorem chooseHeader_ahead (h : a.generation = b.generation + 1) : chooseHeader (some a) (some b) = some a :=
  congrArg some (if_pos h)

theorem chooseHeader_behind (h : a.generation ≠ b.generation + 1) (h' : b.generation = a.generation + 1) :
    chooseHeader (some a) (some b) = some b :=
  congrArg some ((if_neg h).trans (if_pos h'))

/-- R146: where neither copy is a generation ahead, the numerically greater generation is chosen. -/
theorem chooseHeader_apart (h : a.generation ≠ b.generation + 1) (h' : b.generation ≠ a.generation + 1) :
    chooseHeader (some a) (some b) = some (if b.generation.toNat ≤ a.generation.toNat then a else b) :=
  congrArg some ((if_neg h).trans (if_neg h'))

end Choice

/-! ## Both copies have been read (R146, R147) -/

section Judged

variable {s : State}

theorem State.beginWalk_device (s : State) (c : Chosen) : (s.beginWalk c).device = s.device := State.pump_device _

/-- R146, R147: where the forward walk begins. -/
theorem State.beginWalk_recovery (s : State) (c : Chosen) : (s.beginWalk c).recovery = { s.recovery with
    phase := .forwardWalk, chosen := some c, walkPosition := some c.tail.slot, expected := some c.tail.seq
    examined := 0, unended := [], io := (s.beginWalk c).recovery.io } :=
  State.pump_recovery _

/-- R147: formatting begins, no zeroing write issued or completed, the formatted field set (log 34). -/
def State.formattingBegun (s : State) : State :=
  { s with
    draws := s.draws + 1
    recovery := { s.recovery with
      phase := .formatting, formatted := true, zeroDone := 0, zeroDraw := s.draws
      io := { s.recovery.io with zeroIssued := 0, formatHeader := .fresh } } }

theorem State.noHeader_permitted (hpermitted : s.params.formatPermitted = 1) :
    s.noHeader = s.formattingBegun.pump :=
  if_pos hpermitted

theorem State.noHeader_forbidden (hforbidden : s.params.formatPermitted ≠ 1) :
    s.noHeader = s.reportFault .noValidHeader :=
  if_neg hforbidden

theorem State.judgeHeaders_unread (hunread : s.recovery.io.headerA.image = none ∨ s.recovery.io.headerB.image = none) :
    s.judgeHeaders = s.pump := by
  unfold State.judgeHeaders
  obtain hA | hB := hunread
  · rw [hA]
  · rw [hB]
    cases s.recovery.io.headerA.image <;> rfl

variable {imageA imageB : Place}

theorem State.judgeHeaders_chosen {c : Chosen} (hA : s.recovery.io.headerA.image = some imageA)
    (hB : s.recovery.io.headerB.image = some imageB)
    (hchosen : chooseHeader (parseHeader s.slotCount .a imageA) (parseHeader s.slotCount .b imageB) = some c) :
    s.judgeHeaders = s.beginWalk c := by
  unfold State.judgeHeaders
  simp only [hA, hB, hchosen]

theorem State.judgeHeaders_none (hA : s.recovery.io.headerA.image = some imageA)
    (hB : s.recovery.io.headerB.image = some imageB)
    (hnone : chooseHeader (parseHeader s.slotCount .a imageA) (parseHeader s.slotCount .b imageB) = none) :
    s.judgeHeaders = s.noHeader := by
  unfold State.judgeHeaders
  simp only [hA, hB, hnone]

end Judged

/-! ## A half of a header copy is answered (R146) -/

/-- R146: the 64 bytes of a half of a header copy are kept. -/
def Recovery.headerNoted (r : Recovery) (copy : Copy) (h : Half) (d : Line) : Recovery :=
  { r with io := { r.io with
    headerA := if copy = .a then r.io.headerA.set h (.got d) else r.io.headerA
    headerB := if copy = .b then r.io.headerB.set h (.got d) else r.io.headerB } }

/-- R132, R146: a half of a header copy has been read: its access slot is free, and its bytes are kept. -/
def State.headerHalfRead (s : State) (k : AccessSlot) (copy : Copy) (h : Half) (d : Line) : State :=
  { s with link := s.link.set k none, recovery := s.recovery.headerNoted copy h d }

theorem SequencerIO.markIssued_header (copy : Copy) (h : Half) (io : SequencerIO) (j : SeqJob) :
    (if h = .first then (if copy = .a then (io.markIssued j).headerA else (io.markIssued j).headerB).first
      else (if copy = .a then (io.markIssued j).headerA else (io.markIssued j).headerB).second)
    = if j = .headerRead copy h then .issued
      else if h = .first then (if copy = .a then io.headerA else io.headerB).first
      else (if copy = .a then io.headerA else io.headerB).second := by
  cases j with
  | headerRead copy' h' => cases copy <;> cases copy' <;> cases h <;> cases h' <;> rfl
  | zeroWrite => rfl
  | formatHeader h' => rfl
  | walkRead h' => rfl
  | undoRead slot h' => rfl
  | reinit h' => rfl

/-- R146: a half that has been read is not asked for again. -/
theorem State.pump_header {s : State} (copy : Copy) (h : Half) {d : Line} (hphase : s.recovery.phase = .headers)
    (hread : (if h = .first then (if copy = .a then s.recovery.io.headerA else s.recovery.io.headerB).first
      else (if copy = .a then s.recovery.io.headerA else s.recovery.io.headerB).second) = .got d) :
    (if h = .first then (if copy = .a then s.pump.recovery.io.headerA else s.pump.recovery.io.headerB).first
      else (if copy = .a then s.pump.recovery.io.headerA else s.pump.recovery.io.headerB).second) = .got d := by
  have hunwanted : SeqJob.headerRead copy h ∉ s.seqWanted := by
    rw [State.mem_seqWanted_headers hphase]
    rintro ⟨copy', h', heq, hwaiting⟩
    obtain ⟨rfl, rfl⟩ := SeqJob.headerRead.inj heq
    cases hwaiting.symm.trans hread
  exact (State.pump_keepsMark (fun io => if h = .first then (if copy = .a then io.headerA else io.headerB).first
    else (if copy = .a then io.headerA else io.headerB).second) _ _
    (SequencerIO.markIssued_header copy h) s hunwanted).trans hread

section Delivered

variable {s : State} {a : Access} {copy : Copy} {h : Half}

theorem State.headerRead_okay (d : Line) (hpurpose : a.purpose = .recoveryHeaderRead copy h)
    (hphase : s.recovery.phase = .headers) : State.headerRead (.okay d) a s
      = State.judgeHeaders { s with recovery := s.recovery.headerNoted copy h d } := by
  cases copy <;> simp only [State.headerRead, hphase, hpurpose, Recovery.headerNoted, reduceCtorEq, if_true, if_false]

theorem State.headerRead_error (hpurpose : a.purpose = .recoveryHeaderRead copy h)
    (hphase : s.recovery.phase = .headers) : State.headerRead .error a s = s.reportFault .recovery := by
  simp only [State.headerRead, hphase, hpurpose]

theorem State.headerRead_otherPhase (result : ReadResult) (hphase : s.recovery.phase ≠ .headers) :
    State.headerRead result a s = s := by
  unfold State.headerRead
  split
  · exact absurd ‹_› hphase
  · exact absurd ‹_› hphase
  · exact absurd ‹_› hphase
  · rfl

end Delivered

section Completion

variable {s : State} {k : AccessSlot} {a : Access} {copy : Copy} {h : Half}

theorem exec_recoveryHeaderReadComplete (result : ReadResult) (hacc : s.access k = some a)
    (hpurpose : a.purpose = .recoveryHeaderRead copy h) :
    exec (.recoveryHeaderReadComplete k result) s = .next (State.headerRead result a (s.freeAccess k)).woundDown :=
  congrArg _ (State.complete_eq (State.headerRead result) hacc (by rw [hpurpose]; rfl))

theorem exec_recoveryHeaderReadComplete_okay (d : Line) (hacc : s.access k = some a)
    (hpurpose : a.purpose = .recoveryHeaderRead copy h) (hphase : s.recovery.phase = .headers) :
    exec (.recoveryHeaderReadComplete k (.okay d)) s
      = .next (s.headerHalfRead k copy h d).judgeHeaders.woundDown := by
  rw [exec_recoveryHeaderReadComplete (.okay d) hacc hpurpose,
    State.headerRead_okay (s := s.freeAccess k) d hpurpose hphase]
  rfl

section BothRead

variable {d : Line} {imageA imageB : Place} (hacc : s.access k = some a)
  (hpurpose : a.purpose = .recoveryHeaderRead copy h) (hruns : s.runsIn .recovering)
  (hphase : s.recovery.phase = .headers)
  (hA : (s.headerHalfRead k copy h d).recovery.io.headerA.image = some imageA)
  (hB : (s.headerHalfRead k copy h d).recovery.io.headerB.image = some imageB)

include hacc hpurpose hruns hphase hA hB

/-- R146, R147: with both copies read, the forward walk begins at the chosen copy's tail. -/
theorem exec_recoveryHeaderReadComplete_chosen {c : Chosen}
    (hchosen : chooseHeader (parseHeader s.slotCount .a imageA) (parseHeader s.slotCount .b imageB) = some c) :
    exec (.recoveryHeaderReadComplete k (.okay d)) s = .next ((s.headerHalfRead k copy h d).beginWalk c) := by
  rw [exec_recoveryHeaderReadComplete_okay d hacc hpurpose hphase, State.judgeHeaders_chosen hA hB hchosen]
  refine congrArg _ (State.woundDown_running _ ?_)
  rw [State.beginWalk_device]
  exact hruns.2.1

/-- R147: with neither copy valid the part formats where it may. -/
theorem exec_recoveryHeaderReadComplete_formats
    (hnone : chooseHeader (parseHeader s.slotCount .a imageA) (parseHeader s.slotCount .b imageB) = none)
    (hpermitted : s.params.formatPermitted = 1) :
    exec (.recoveryHeaderReadComplete k (.okay d)) s = .next (s.headerHalfRead k copy h d).formattingBegun.pump := by
  rw [exec_recoveryHeaderReadComplete_okay d hacc hpurpose hphase, State.judgeHeaders_none hA hB hnone,
    State.noHeader_permitted (s := s.headerHalfRead k copy h d) hpermitted]
  exact congrArg _ (State.woundDown_pump _ hruns.2.1)

/-- R147: with neither copy valid and formatting not permitted the device enters FAULTED. -/
theorem exec_recoveryHeaderReadComplete_fails
    (hnone : chooseHeader (parseHeader s.slotCount .a imageA) (parseHeader s.slotCount .b imageB) = none)
    (hforbidden : s.params.formatPermitted ≠ 1) :
    ∃ t : State, exec (.recoveryHeaderReadComplete k (.okay d)) s = .next t ∧ s.faultedFrom t .noValidHeader
      ∧ t.recovery.phase = .stopped := by
  refine exec_faults hruns (r := s.recovery.headerNoted copy h d) (link := s.link.set k none)
    (RecoveryPhase.active_of_mem (by simp [Recovery.headerNoted, hphase])) ?_
  rw [exec_recoveryHeaderReadComplete_okay d hacc hpurpose hphase, State.judgeHeaders_none hA hB hnone,
    State.noHeader_forbidden (s := s.headerHalfRead k copy h d) hforbidden]
  rfl

end BothRead

end Completion

/-- R146: a copy half read and its other half, as the place stands. -/
theorem Recovery.headerNoted_eq (r : Recovery) (copy : Copy) (h : Half) (d : Line) {read kept : PlaceRead}
    (hread : read = (if copy = .a then r.io.headerA else r.io.headerB))
    (hkept : kept = (if h = .first then { read with first := .got d } else { read with second := .got d })) :
    r.headerNoted copy h d = { r with io := { r.io with
      headerA := if copy = .a then kept else r.io.headerA
      headerB := if copy = .a then r.io.headerB else kept } } := by
  subst hkept hread
  rw [← PlaceRead.set_eq]
  cases copy <;> rfl

/-- R146: while a half of either copy is unread, its copy is not whole. -/
theorem Recovery.headerNoted_unread (r : Recovery) (copy : Copy) (kept : PlaceRead)
    (hunread : ∃ v ∈ [kept.first, kept.second, (if copy = .a then r.io.headerB else r.io.headerA).first,
      (if copy = .a then r.io.headerB else r.io.headerA).second], ∀ b, v ≠ .got b) :
    (if copy = .a then kept else r.io.headerA).image = none
      ∨ (if copy = .a then r.io.headerB else kept).image = none := by
  obtain ⟨v, hv, hgot⟩ := hunread
  simp only [PlaceRead.image_eq_none_iff]
  simp only [List.mem_cons, List.not_mem_nil, or_false] at hv
  cases copy with
  | a =>
    obtain rfl | rfl | rfl | rfl := hv
    · exact .inl (.inl hgot)
    · exact .inl (.inr hgot)
    · exact .inr (.inl hgot)
    · exact .inr (.inr hgot)
  | b =>
    obtain rfl | rfl | rfl | rfl := hv
    · exact .inr (.inl hgot)
    · exact .inr (.inr hgot)
    · exact .inl (.inl hgot)
    · exact .inl (.inr hgot)

/-! ## The statement -/

/-- Settles O49, by whether both copies have been read, and which of them is valid. -/
theorem recoveryChoosesAHeader : Obligations.RecoveryChoosesAHeader := by
  refine ⟨fun s k a copy h d da db imageA imageB hacc hpurpose hruns hphase hA himageA hB himageB => ?_,
    fun s k a copy h d read kept other hacc hpurpose hruns hphase hread hother hkept hunread => ?_,
    fun s k a copy h hacc hpurpose hruns hphase => ?_,
    fun a b => ⟨chooseHeader_ahead, chooseHeader_behind, fun h h' hle => ?_, fun h h' hlt => ?_, rfl, rfl, rfl⟩,
    fun n image v hv => hv ▸ image.bytes_extract n,
    fun n copy v => ⟨parseHeader_eq_none n copy v, parseHeader_eq_some n copy v⟩,
    fun s k a copy h result hacc hpurpose hphase => ?_⟩
  · have hwhole : ∀ {p : PlaceRead} {image : Place} {first : Line},
        p = { first := .got first, second := .got (placeHalf image .second) } →
        image = placeOf first (placeHalf image .second) → p.image = some image :=
      fun hp himage => hp ▸ congrArg some himage.symm
    have hA' := hwhole hA himageA
    have hB' := hwhole hB himageB
    refine ⟨fun c hchosen => ?_, fun hnone hpermitted => ?_, fun hnone hforbidden => ?_⟩
    · refine ⟨_, exec_recoveryHeaderReadComplete_chosen hacc hpurpose hruns hphase hA' hB' hchosen,
        State.beginWalk_device _ c, ?_⟩
      rw [State.beginWalk_recovery]
      exact ⟨rfl, rfl, rfl, rfl, rfl, rfl⟩
    · refine ⟨_, exec_recoveryHeaderReadComplete_formats hacc hpurpose hruns hphase hA' hB' hnone hpermitted,
        State.pump_device _, ?_, ?_, _, rfl, rfl, rfl, rfl, rfl, rfl, rfl, rfl⟩ <;>
        rw [State.pump_recovery] <;> rfl
    · obtain ⟨t, ht, hfaulted, hstopped⟩ :=
        exec_recoveryHeaderReadComplete_fails hacc hpurpose hruns hphase hA' hB' hnone hforbidden
      obtain ⟨hstate, hcause, -⟩ := id hfaulted
      exact ⟨t, ht, hstate, hcause, hstopped, hfaulted⟩
  · have hnoted := s.recovery.headerNoted_eq copy h d hread hkept
    have hstate : s.headerHalfRead k copy h d = { s with
        link := s.link.set k none
        recovery := { s.recovery with io := { s.recovery.io with
          headerA := if copy = .a then kept else s.recovery.io.headerA
          headerB := if copy = .a then s.recovery.io.headerB else kept } } } := by
      rw [State.headerHalfRead, hnoted]
    have hpart : (s.headerHalfRead k copy h d).recovery.io.headerA.image = none
        ∨ (s.headerHalfRead k copy h d).recovery.io.headerB.image = none := by
      rw [hstate]
      exact s.recovery.headerNoted_unread copy kept (hother ▸ hunread)
    have hexec := exec_recoveryHeaderReadComplete_okay d hacc hpurpose hphase
    rw [State.judgeHeaders_unread hpart] at hexec
    have hplace : (if copy = .a then (s.headerHalfRead k copy h d).recovery.io.headerA
        else (s.headerHalfRead k copy h d).recovery.io.headerB) = kept := by
      rw [hstate]
      cases copy <;> rfl
    refine ⟨_, hexec.trans (congrArg _ (State.woundDown_pump _ hruns.2.1)), State.pump_device _, ?_,
      fun b hb => State.pump_header copy .first hphase (by rw [if_pos rfl, hplace, hb]),
      fun b hb => State.pump_header copy .second hphase (by rw [if_neg (by decide), hplace, hb]),
      congrArg State.pump hstate⟩
    rw [State.pump_recovery]
    exact hphase
  · refine exec_error k hruns (RecoveryPhase.active_of_mem (by simp [hphase])) ?_
    rw [exec_recoveryHeaderReadComplete .error hacc hpurpose,
      State.headerRead_error (s := s.freeAccess k) hpurpose hphase]
  · rw [chooseHeader_apart h h', if_pos (BitVec.le_def.1 hle)]
  · rw [chooseHeader_apart h h', if_neg (Nat.not_le.2 (BitVec.lt_def.1 hlt))]
  · rw [exec_recoveryHeaderReadComplete result hacc hpurpose,
      State.headerRead_otherPhase (s := s.freeAccess k) result hphase]
    rfl

end Sys2Proof.Machine

/-! PROOFS. Family 10_start_up_recovery: the forward walk examines a slot, and the bytes of a record (R148, R149, Table
12-4). -/

namespace Sys2Proof.Machine

/-! ## What a record does to the unended table (R148) -/

section Unended

variable {table : List Unended} {r : JournalRecord} {u : Unended}

theorem unendedAfter_otherNumber (hfind : table.find? (fun u => decide (u.context = r.context)) = some u)
    (hnumber : u.openNumber ≠ r.openNumber) : unendedAfter table r = none := by
  unfold unendedAfter
  rw [hfind]
  cases r.kind <;> exact if_neg hnumber

theorem unendedAfter_begins (hkind : r.kind = .undo)
    (hfind : table.find? (fun u => decide (u.context = r.context)) = none) :
    unendedAfter table r = some (table ++ [{ context := r.context, openNumber := r.openNumber }]) := by
  unfold unendedAfter
  rw [hfind, hkind]

theorem unendedAfter_continues (hkind : r.kind = .undo)
    (hfind : table.find? (fun u => decide (u.context = r.context)) = some u) (hnumber : u.openNumber = r.openNumber) :
    unendedAfter table r = some table := by
  unfold unendedAfter
  rw [hfind, hkind]
  exact if_pos hnumber

theorem unendedAfter_ends (hkind : r.kind ≠ .undo)
    (hfind : table.find? (fun u => decide (u.context = r.context)) = some u) (hnumber : u.openNumber = r.openNumber) :
    unendedAfter table r = some (table.eraseP (fun u => decide (u.context = r.context))) := by
  unfold unendedAfter
  rw [hfind]
  cases hk : r.kind with
  | undo => exact absurd hk hkind
  | commit => exact if_pos hnumber
  | abort => exact if_pos hnumber

theorem unendedAfter_passes (hkind : r.kind ≠ .undo)
    (hfind : table.find? (fun u => decide (u.context = r.context)) = none) : unendedAfter table r = some table := by
  unfold unendedAfter
  rw [hfind]
  cases hk : r.kind with
  | undo => exact absurd hk hkind
  | commit => rfl
  | abort => rfl

end Unended

/-! ## Where the walk goes (R148, R149) -/

/-- R149, R151: the forward walk has stopped at a position with no transaction to undo: REINIT. -/
def State.stoppedToReinit (s : State) (p : Position) : State :=
  { s with recovery := { s.recovery with
    phase := .reinit, stop := some p, undone := s.recovery.unended.length, walkPosition := none, expected := none
    io := { s.recovery.io with reinit := .fresh } } }

/-- R149, R150: the forward walk has stopped at a position with transactions to undo: UNDO_PASS. -/
def State.stoppedToUndo (s : State) (p : Position) : State :=
  { s with recovery := { s.recovery with
    phase := .undoPass, stop := some p, undone := s.recovery.unended.length, expected := none
    walkPosition := some (prevSlot s.slotCount p.slot), restoresOutstanding := 0
    io := { s.recovery.io with undo := [] } } }

theorem State.stopWalk_eq (s : State) (p : Position) : s.stopWalk p =
    if s.recovery.unended.length = 0 then (s.stoppedToReinit p).pump else (s.stoppedToUndo p).pump := rfl

/-- R148: the walk has moved one slot on, the unended table as the record left it. -/
def State.walkMoved (s : State) (slot : Nat) (seq : Serial) (table : List Unended) : State :=
  { s with recovery := { s.recovery with
    unended := table, examined := s.recovery.examined + 1, walkPosition := some (nextSlot s.slotCount slot)
    expected := some (seq + 1), io := { s.recovery.io with walk := .fresh } } }

/-- R149: after the N-th slot examined the walk stops. -/
theorem State.walkOn_eq (s : State) (slot : Nat) (seq : Serial) (table : List Unended) : s.walkOn slot seq table =
    if s.slotCount ≤ s.recovery.examined + 1
    then (s.walkMoved slot seq table).stopWalk { slot := nextSlot s.slotCount slot, seq := seq + 1 }
    else (s.walkMoved slot seq table).pump := rfl

theorem State.stopWalk_device (s : State) (p : Position) : (s.stopWalk p).device = s.device := by
  rw [State.stopWalk_eq]
  split <;> exact State.pump_device _

theorem State.walkOn_device (s : State) (slot : Nat) (seq : Serial) (table : List Unended) :
    (s.walkOn slot seq table).device = s.device := by
  rw [State.walkOn_eq]
  split
  · exact State.stopWalk_device _ _
  · exact State.pump_device _

/-- R149: where the forward walk stops, and what begins there. -/
theorem State.stopWalk_spec (s : State) (p : Position) :
    let n := s.recovery.unended.length
    (∃ u : State, s.stopWalk p = u.pump ∧ u.device = s.device ∧ u.loader = s.loader ∧ u.link = s.link
        ∧ (n = 0 → u.recovery.phase = .reinit ∧ u.recovery.walkPosition = none ∧ u.recovery.io.reinit = .fresh)
        ∧ (n ≠ 0 → u.recovery.phase = .undoPass
          ∧ u.recovery.walkPosition = some (if p.slot = 0 then s.slotCount - 1 else p.slot - 1)
          ∧ u.recovery.restoresOutstanding = 0 ∧ u.recovery.io.undo = []))
      ∧ (n ≠ 0 → (s.stopWalk p).recovery.walkPosition = some (if p.slot = 0 then s.slotCount - 1 else p.slot - 1)
        ∧ (s.stopWalk p).recovery.restoresOutstanding = 0)
      ∧ (s.stopWalk p).recovery.stop = some p ∧ (s.stopWalk p).recovery.unended = s.recovery.unended
      ∧ (s.stopWalk p).recovery.undone = n
      ∧ (s.stopWalk p).recovery.phase = if n = 0 then .reinit else .undoPass := by
  intro n
  rw [State.stopWalk_eq]
  by_cases hn : s.recovery.unended.length = 0
  · rw [if_pos hn, State.pump_recovery]
    exact ⟨⟨_, rfl, rfl, rfl, rfl, fun _ => ⟨rfl, rfl, rfl⟩, fun h => absurd hn h⟩, fun h => absurd hn h, rfl, rfl, rfl,
      (if_pos hn).symm⟩
  · rw [if_neg hn, State.pump_recovery]
    exact ⟨⟨_, rfl, rfl, rfl, rfl, fun h => absurd h hn, fun _ => ⟨rfl, rfl, rfl, rfl⟩⟩, fun _ => ⟨rfl, rfl⟩, rfl, rfl,
      rfl, (if_neg hn).symm⟩

/-- R148: the walk goes on at the next slot, none of whose halves has been asked for. -/
theorem State.walkMoved_pump_spec {s : State} {slot : Nat} {seq : Serial} {table : List Unended}
    (hphase : s.recovery.phase = .forwardWalk) :
    let t := (s.walkMoved slot seq table).pump
    t.device = s.device ∧ t.recovery.phase = .forwardWalk
      ∧ t.recovery.walkPosition = some ((slot + 1) % s.slotCount) ∧ t.recovery.expected = some (seq + 1)
      ∧ t.recovery.examined = s.recovery.examined + 1 ∧ t.recovery.unended = table
      ∧ ∃ u : State, t = u.pump ∧ u.device = s.device ∧ u.loader = s.loader ∧ u.link = s.link
        ∧ u.recovery.phase = .forwardWalk ∧ u.recovery.io.walk = .fresh
        ∧ u.recovery.walkPosition = some ((slot + 1) % s.slotCount) := by
  intro t
  refine ⟨State.pump_device _, ?_, ?_, ?_, ?_, ?_, _, rfl, rfl, rfl, rfl, hphase, rfl, rfl⟩ <;>
    rw [show t.recovery = _ from State.pump_recovery _]
  · exact hphase
  · rfl
  · rfl
  · rfl
  · rfl

section Examined

variable {s : State} {v : Place} {slot : Nat} {seq : Serial}

/-- R149: no record, a wrong sequence or an open number other than the table's stops the walk at the slot. -/
theorem State.examineWalk_stops (hposition : s.recovery.walkPosition = some slot)
    (hexpected : s.recovery.expected = some seq)
    (hstop : JournalRecord.parse v = none ∨ ∃ r, JournalRecord.parse v = some r
      ∧ (r.seq ≠ seq ∨ unendedAfter s.recovery.unended r = none)) :
    s.examineWalk v = s.stopWalk { slot := slot, seq := seq } := by
  unfold State.examineWalk
  simp only [hposition, hexpected, Option.getD_some]
  obtain hnone | ⟨r, hr, hseq | hnone⟩ := hstop
  · rw [hnone]
  · rw [hr]
    exact if_pos hseq
  · simp only [hr, hnone, ite_self]

/-- R148: a record in sequence acts on the unended table, and the walk goes on. -/
theorem State.examineWalk_acts {r : JournalRecord} {table : List Unended}
    (hposition : s.recovery.walkPosition = some slot) (hexpected : s.recovery.expected = some seq)
    (hr : JournalRecord.parse v = some r) (hseq : r.seq = seq)
    (htable : unendedAfter s.recovery.unended r = some table) : s.examineWalk v = s.walkOn slot seq table := by
  unfold State.examineWalk
  simp only [hposition, hexpected, Option.getD_some, hr, hseq, ne_eq, not_true_eq_false, if_false, htable]

theorem State.examineWalk_device (s : State) (v : Place) : (s.examineWalk v).device = s.device := by
  unfold State.examineWalk
  dsimp only
  split
  · exact State.stopWalk_device _ _
  · split
    · exact State.stopWalk_device _ _
    · split
      · exact State.stopWalk_device _ _
      · exact State.walkOn_device _ _ _ _

end Examined

/-! ## A half of the slot is answered (R148) -/

/-- R148: the 64 bytes of a half of the slot at the walk position are kept. -/
def Recovery.walkNoted (r : Recovery) (h : Half) (d : Line) : Recovery :=
  { r with io := { r.io with walk :=
    if h = .first then { r.io.walk with first := .got d } else { r.io.walk with second := .got d } } }

/-- R132, R148: a half of the slot at the walk position has been read: its access slot is free, its bytes are kept. -/
def State.walkHalfRead (s : State) (k : AccessSlot) (h : Half) (d : Line) : State :=
  { s with link := s.link.set k none, recovery := s.recovery.walkNoted h d }

theorem SequencerIO.markIssued_walk (h : Half) (io : SequencerIO) (j : SeqJob) :
    (if h = .first then (io.markIssued j).walk.first else (io.markIssued j).walk.second)
      = if j = .walkRead h then .issued else if h = .first then io.walk.first else io.walk.second := by
  cases j with
  | walkRead h' => cases h <;> cases h' <;> rfl
  | headerRead copy h' => cases copy <;> rfl
  | zeroWrite => rfl
  | formatHeader h' => rfl
  | undoRead slot h' => rfl
  | reinit h' => rfl

/-- R148: a half that has been read is not asked for again. -/
theorem State.pump_walk {s : State} {h : Half} {d : Line} (hphase : s.recovery.phase = .forwardWalk)
    (hread : (if h = .first then s.recovery.io.walk.first else s.recovery.io.walk.second) = .got d) :
    (if h = .first then s.pump.recovery.io.walk.first else s.pump.recovery.io.walk.second) = .got d := by
  have hunwanted : SeqJob.walkRead h ∉ s.seqWanted := by
    rw [State.seqWanted_forwardWalk hphase, (wanted_byHalf (fun _ _ => SeqJob.walkRead.inj)
      (s.recovery.io.walk.mem_wanted .walkRead)).2 h, hread]
    exact HalfRead.noConfusion
  exact (State.pump_keepsMark (fun io => if h = .first then io.walk.first else io.walk.second) _ _
    (SequencerIO.markIssued_walk h) s hunwanted).trans hread

section Delivered

variable {s : State} {a : Access} {h : Half} {d : Line}

theorem State.walkRead_first (hpurpose : a.purpose = .forwardWalkRead h) (hphase : s.recovery.phase = .forwardWalk)
    (hother : ∀ b, (if h = .first then s.recovery.io.walk.second else s.recovery.io.walk.first) ≠ .got b) :
    State.walkRead (.okay d) a s = State.pump { s with recovery := s.recovery.walkNoted h d } := by
  have hunread := PlaceRead.image_set_none (d := d) hother
  simp only [State.walkRead, hphase, hpurpose, hunread, Recovery.walkNoted, ← PlaceRead.set_eq]

theorem State.walkRead_last {other : Line} (hpurpose : a.purpose = .forwardWalkRead h)
    (hphase : s.recovery.phase = .forwardWalk)
    (hother : (if h = .first then s.recovery.io.walk.second else s.recovery.io.walk.first) = .got other) :
    State.walkRead (.okay d) a s = State.examineWalk { s with recovery := s.recovery.walkNoted h d }
      (if h = .first then placeOf d other else placeOf other d) := by
  have hread := PlaceRead.image_set_some (d := d) hother
  simp only [State.walkRead, hphase, hpurpose, hread, Recovery.walkNoted, ← PlaceRead.set_eq]

theorem State.walkRead_error (hpurpose : a.purpose = .forwardWalkRead h) (hphase : s.recovery.phase = .forwardWalk) :
    State.walkRead .error a s = s.reportFault .recovery := by
  simp only [State.walkRead, hphase, hpurpose]

theorem State.walkRead_otherPhase (result : ReadResult) (hphase : s.recovery.phase ≠ .forwardWalk) :
    State.walkRead result a s = s := by
  unfold State.walkRead
  split
  · exact absurd ‹_› hphase
  · exact absurd ‹_› hphase
  · rfl

end Delivered

section Completion

variable {s : State} {k : AccessSlot} {a : Access} {h : Half} {d : Line}

theorem exec_forwardWalkReadComplete (result : ReadResult) (hacc : s.access k = some a)
    (hpurpose : a.purpose = .forwardWalkRead h) :
    exec (.forwardWalkReadComplete k result) s = .next (State.walkRead result a (s.freeAccess k)).woundDown :=
  congrArg _ (State.complete_eq (State.walkRead result) hacc (by rw [hpurpose]; rfl))

/-- R148: the half answered first is kept, and the sequencer goes on issuing. -/
theorem exec_forwardWalkReadComplete_first (hacc : s.access k = some a) (hpurpose : a.purpose = .forwardWalkRead h)
    (hruns : s.runsIn .recovering) (hphase : s.recovery.phase = .forwardWalk)
    (hother : ∀ b, (if h = .first then s.recovery.io.walk.second else s.recovery.io.walk.first) ≠ .got b) :
    exec (.forwardWalkReadComplete k (.okay d)) s = .next (s.walkHalfRead k h d).pump := by
  rw [exec_forwardWalkReadComplete (.okay d) hacc hpurpose,
    State.walkRead_first (s := s.freeAccess k) hpurpose hphase hother]
  exact congrArg _ (State.woundDown_pump _ hruns.2.1)

/-- R148: with the half answered last the slot is examined. -/
theorem exec_forwardWalkReadComplete_last {other : Line} (hacc : s.access k = some a)
    (hpurpose : a.purpose = .forwardWalkRead h) (hruns : s.runsIn .recovering)
    (hphase : s.recovery.phase = .forwardWalk)
    (hother : (if h = .first then s.recovery.io.walk.second else s.recovery.io.walk.first) = .got other) :
    exec (.forwardWalkReadComplete k (.okay d)) s = .next ((s.walkHalfRead k h d).examineWalk
      (if h = .first then placeOf d other else placeOf other d)) := by
  rw [exec_forwardWalkReadComplete (.okay d) hacc hpurpose,
    State.walkRead_last (s := s.freeAccess k) hpurpose hphase hother]
  refine congrArg _ (State.woundDown_running _ ?_)
  rw [State.examineWalk_device]
  exact hruns.2.1

end Completion

/-! ## The bytes of a record (Table 12-4) -/

theorem RecordKind.code_eq (kind : RecordKind) :
    kind.code = if kind = .undo then 1#8 else if kind = .commit then 2#8 else 3#8 := by cases kind <;> rfl

/-- R38: the two halves of a place make it up. -/
theorem placeOf_halves (v : Place) : placeOf (v.extractLsb' 0 512) (v.extractLsb' 512 512) = v := by
  unfold placeOf
  rw [BitVec.extractLsb'_append_extractLsb'_eq_extractLsb' (by decide)]
  exact BitVec.extractLsb'_eq_self

/-! ## The statement -/

/-- Settles O51, by what the slot examined holds, and by the half answered first and the half answered last. -/
theorem forwardWalkExaminesASlot : Obligations.ForwardWalkExaminesASlot := by
  refine ⟨fun s k a h d other v slot seq hacc hpurpose hruns hphase hposition hexpected hother hv => ?_,
    fun s k a h hacc hpurpose hruns hphase => ?_, fun s k a h d hacc hpurpose hruns hphase hother => ?_,
    fun r v hv => ?_, fun v => ⟨?_, fun r hr => ?_, rfl, rfl, placeOf_halves v⟩,
    fun s k a h result hacc hpurpose hphase => ?_⟩
  · subst hv
    have hexec := exec_forwardWalkReadComplete_last (d := d) hacc hpurpose hruns hphase hother
    intro begins stops goesOn stopsAfter acts
    have hstops : (s.walkHalfRead k h d).examineWalk (if h = .first then placeOf d other else placeOf other d)
        = (s.walkHalfRead k h d).stopWalk { slot := slot, seq := seq } → stops := fun hexamined =>
      ⟨_, hexec.trans (congrArg _ hexamined), State.stopWalk_device _ _, State.stopWalk_spec _ _⟩
    have hacts : ∀ r table, JournalRecord.parse (if h = .first then placeOf d other else placeOf other d) = some r →
        r.seq = seq → unendedAfter s.recovery.unended r = some table → acts table := by
      intro r table hr hseq htable
      have hexamined := State.examineWalk_acts (s := s.walkHalfRead k h d) hposition hexpected hr hseq htable
      refine ⟨fun hmore => ⟨_, hexec.trans (congrArg _ (hexamined.trans (if_neg (Nat.not_le.2 hmore)))),
        State.walkMoved_pump_spec hphase⟩, fun hlast => ?_⟩
      exact ⟨_, hexec.trans (congrArg _ (hexamined.trans (if_pos hlast))), State.stopWalk_device _ _,
        State.stopWalk_spec _ _⟩
    refine ⟨fun hnone => hstops (State.examineWalk_stops hposition hexpected (.inl hnone)),
      fun r hr hseq => hstops (State.examineWalk_stops hposition hexpected (.inr ⟨r, hr, .inl hseq⟩)),
      fun r u hr hfind hnumber => hstops (State.examineWalk_stops hposition hexpected
        (.inr ⟨r, hr, .inr (unendedAfter_otherNumber hfind hnumber)⟩)),
      fun r hr hseq hkind hfind => hacts r _ hr hseq (unendedAfter_begins hkind hfind),
      fun r u hr hseq hkind hfind hnumber => hacts r _ hr hseq (unendedAfter_continues hkind hfind hnumber),
      fun r u hr hseq hkind hfind hnumber => hacts r _ hr hseq (unendedAfter_ends hkind hfind hnumber),
      fun r hr hseq hkind hfind => hacts r _ hr hseq (unendedAfter_passes hkind hfind)⟩
  · refine exec_error k hruns (RecoveryPhase.active_of_mem (by simp [hphase])) ?_
    rw [exec_forwardWalkReadComplete .error hacc hpurpose, State.walkRead_error (s := s.freeAccess k) hpurpose hphase]
  · refine ⟨_, exec_forwardWalkReadComplete_first hacc hpurpose hruns hphase hother, State.pump_device _, ?_,
      State.pump_walk hphase ?_, rfl⟩
    · rw [State.pump_recovery]
      rfl
    · cases h <;> rfl
  · obtain ⟨hkind, hrest⟩ := r.image_extract
    subst hv
    rw [← RecordKind.code_eq]
    simp only [hkind, hrest, and_self, JournalRecord.parse_image]
  · rw [JournalRecord.parse_eq_none]
    simp only [List.mem_cons, List.not_mem_nil, or_false, not_or, ne_eq]
    rfl
  · obtain ⟨hkind, hrest⟩ := JournalRecord.parse_eq_some v r hr
    exact ⟨hkind.symm.trans r.kind.code_eq, hrest⟩
  · rw [exec_forwardWalkReadComplete result hacc hpurpose,
      State.walkRead_otherPhase (s := s.freeAccess k) result hphase]
    rfl

end Sys2Proof.Machine

/-! PROOFS. Family 10_start_up_recovery: the undo pass examines the slots read, and a restore completes (R150, R153). -/

namespace Sys2Proof.Machine

/-! ## One slot is examined (R150) -/

/-- R150: the pass has moved one slot back from `slot`, or has examined the tail slot (log 29). -/
def State.undoAdvanced (s : State) (tail slot : Nat) (rest : List UndoRead) : State :=
  { s with recovery := { s.recovery with
    walkPosition := if slot = tail then none else some (prevSlot s.slotCount slot)
    io := { s.recovery.io with undo := rest } } }

/-- R150: the restore of a record is in flight in an access slot. -/
def State.restoreInFlight (s : State) (j : AccessSlot) (r : JournalRecord) : State :=
  { s with
    link := s.link.set j (some {
      purpose := .recoveryRestore, line := r.line, kind := .write fullMask r.old, order := s.issued })
    issued := s.issued + 1
    recovery := { s.recovery with restoresOutstanding := s.recovery.restoresOutstanding + 1 } }

/-- R150: which records are passed over. -/
theorem State.undoMatches_eq_false {s : State} {r : JournalRecord}
    (hpassed : r.kind ≠ .undo ∨ { context := r.context, openNumber := r.openNumber } ∉ s.recovery.unended) :
    s.undoMatches r = false := by
  rw [Bool.eq_false_iff, Ne, State.undoMatches_iff]
  exact fun ⟨hkind, hmem⟩ => hpassed.elim (fun h => h hkind) (fun h => h hmem)

theorem State.access_restoreInFlight (s : State) (j : AccessSlot) (r : JournalRecord) :
    (s.restoreInFlight j r).access j = some {
      purpose := .recoveryRestore, line := r.line, kind := .write fullMask r.old, order := s.issued } := by
  simp [State.restoreInFlight, State.access]

section Examined

variable {s : State} {u : UndoRead} {rest : List UndoRead} {v : Place} {c : Chosen}

/-- R150: where the slot at the front is not wholly read, the pass waits, or ends with nothing left to wait for. -/
theorem State.undoGoOn_waits_spec (hphase : s.recovery.phase = .undoPass)
    (hunread : ∀ u, s.recovery.io.undo.head? = some u → u.place.image = none) :
    s.undoGoOn.device = s.device
      ∧ s.undoGoOn.recovery.restoresOutstanding = s.recovery.restoresOutstanding
      ∧ s.undoGoOn.recovery.walkPosition = s.recovery.walkPosition
      ∧ s.undoGoOn.recovery.phase = (if s.recovery.walkPosition = none ∧ s.recovery.restoresOutstanding = 0 then .reinit
        else .undoPass)
      ∧ ∀ k x, s.access k = some x → s.undoGoOn.access k = some x := by
  rw [State.undoGoOn_waits s hphase (.inl hunread), State.pump_device, State.pump_recovery]
  split
  · refine ⟨rfl, rfl, rfl, rfl, fun k x hx => ?_⟩
    apply State.pump_keeps
    exact hx
  · exact ⟨rfl, rfl, rfl, hphase, State.pump_keeps s⟩

/-- R153: a slot without a record, or with one of another sequence, is a fault. -/
theorem State.undoGoOn_faults_running (hruns : s.runsIn .recovering) (hphase : s.recovery.phase = .undoPass)
    (hundo : s.recovery.io.undo = u :: rest) (himage : u.place.image = some v)
    (hbad : JournalRecord.parse v = none ∨ ∃ r, JournalRecord.parse v = some r ∧ r.seq ≠ s.undoSeq u.slot) :
    s.undoGoOn = s.reportFault .recovery := by
  refine State.undoGoOn_faults s u rest v hundo himage hbad ?_
  have hactive := RecoveryPhase.active_of_mem (p := s.recovery.phase) (by simp [hphase])
  rw [(State.reportFault_recovering_faultedFrom s .recovery hruns hactive).2]
  exact RecoveryPhase.noConfusion

variable {r : JournalRecord}

theorem State.undoGoOn_restores_eq (hundo : s.recovery.io.undo = u :: rest) (himage : u.place.image = some v)
    (hr : JournalRecord.parse v = some r) (hseq : r.seq = s.undoSeq u.slot) (hkind : r.kind = .undo)
    (hmem : { context := r.context, openNumber := r.openNumber } ∈ s.recovery.unended)
    (hchosen : s.recovery.chosen = some c) (hfree : ∃ k, s.access k = none) : ∃ j, s.access j = none
      ∧ s.undoGoOn = ((s.restoreInFlight j r).undoAdvanced c.tail.slot u.slot rest).undoGoOn := by
  obtain ⟨k, hk⟩ := hfree
  exact State.undoGoOn_restores s u rest v r c hundo himage hr hseq ((s.undoMatches_iff r).2 ⟨hkind, hmem⟩) hchosen k hk

theorem State.undoGoOn_passes_eq (hundo : s.recovery.io.undo = u :: rest) (himage : u.place.image = some v)
    (hr : JournalRecord.parse v = some r) (hseq : r.seq = s.undoSeq u.slot)
    (hpassed : r.kind ≠ .undo ∨ { context := r.context, openNumber := r.openNumber } ∉ s.recovery.unended)
    (hchosen : s.recovery.chosen = some c) :
    s.undoGoOn = (s.undoAdvanced c.tail.slot u.slot rest).undoGoOn :=
  State.undoGoOn_passes s u rest v r c hundo himage hr hseq (State.undoMatches_eq_false hpassed) hchosen

/-- R150: the slot at the front is restored, and the next one waits. -/
theorem State.undoGoOn_restores_spec (hphase : s.recovery.phase = .undoPass) (hundo : s.recovery.io.undo = u :: rest)
    (himage : u.place.image = some v) (hr : JournalRecord.parse v = some r) (hseq : r.seq = s.undoSeq u.slot)
    (hkind : r.kind = .undo)
    (hmem : { context := r.context, openNumber := r.openNumber } ∈ s.recovery.unended)
    (hchosen : s.recovery.chosen = some c) (hfree : ∃ k, s.access k = none)
    (hunread : ∀ w, rest.head? = some w → w.place.image = none) :
    s.undoGoOn.device = s.device ∧ s.undoGoOn.recovery.phase = .undoPass
      ∧ s.undoGoOn.recovery.restoresOutstanding = s.recovery.restoresOutstanding + 1
      ∧ s.undoGoOn.recovery.walkPosition = (if u.slot = c.tail.slot then none else some (prevSlot s.slotCount u.slot))
      ∧ ∃ j x, s.undoGoOn.access j = some x ∧ x.purpose = .recoveryRestore ∧ x.line = r.line
        ∧ x.kind = .write fullMask r.old := by
  obtain ⟨j, -, hgo⟩ := State.undoGoOn_restores_eq hundo himage hr hseq hkind hmem hchosen hfree
  obtain ⟨hdevice, houtstanding, hposition, hphase', hkeeps⟩ := State.undoGoOn_waits_spec
    (s := (s.restoreInFlight j r).undoAdvanced c.tail.slot u.slot rest) hphase hunread
  rw [hgo]
  refine ⟨hdevice, hphase'.trans (if_neg ?_), houtstanding, hposition, j, _,
    hkeeps j _ (s.access_restoreInFlight j r), rfl, rfl, rfl⟩
  exact fun h => Nat.succ_ne_zero _ h.2

/-- R150: the slot at the front is passed over, and the next one waits. -/
theorem State.undoGoOn_passes_spec (hphase : s.recovery.phase = .undoPass) (hundo : s.recovery.io.undo = u :: rest)
    (himage : u.place.image = some v) (hr : JournalRecord.parse v = some r) (hseq : r.seq = s.undoSeq u.slot)
    (hpassed : r.kind ≠ .undo ∨ { context := r.context, openNumber := r.openNumber } ∉ s.recovery.unended)
    (hchosen : s.recovery.chosen = some c) (hunread : ∀ w, rest.head? = some w → w.place.image = none) :
    s.undoGoOn.device = s.device
      ∧ s.undoGoOn.recovery.restoresOutstanding = s.recovery.restoresOutstanding
      ∧ s.undoGoOn.recovery.walkPosition = (if u.slot = c.tail.slot then none else some (prevSlot s.slotCount u.slot))
      ∧ s.undoGoOn.recovery.phase = (if u.slot = c.tail.slot ∧ s.recovery.restoresOutstanding = 0 then .reinit
        else .undoPass) := by
  obtain ⟨hdevice, houtstanding, hposition, hphase', -⟩ :=
    State.undoGoOn_waits_spec (s := s.undoAdvanced c.tail.slot u.slot rest) hphase hunread
  have hended : (s.undoAdvanced c.tail.slot u.slot rest).recovery.walkPosition = none ↔ u.slot = c.tail.slot := by
    simp [State.undoAdvanced]
  rw [State.undoGoOn_passes_eq hundo himage hr hseq hpassed hchosen]
  exact ⟨hdevice, houtstanding, hposition, hphase'.trans (if_congr (and_congr hended Iff.rfl) rfl rfl)⟩

end Examined

/-! ## A half of a slot is noted (R145, R150) -/

/-- R150: the half of a slot known is noted at the slot. -/
theorem setUndo_known {slot : Nat} {l : List UndoRead} (h : Half) (v : HalfRead) (hknown : ∃ u ∈ l, u.slot = slot) :
    setUndo slot h v l = l.map (fun u => if u.slot ≠ slot then u
      else if h = .first then { u with place := { u.place with first := v } }
      else { u with place := { u.place with second := v } }) := by
  rw [setUndo, if_pos (by simpa using hknown)]
  refine List.map_congr_left (fun u _ => ?_)
  rw [PlaceRead.set_eq, ite_not]
  cases h <;> rfl

/-- R150: the slot at the front, before and after a half of a slot is noted. -/
theorem setUndo_head? (slot : Nat) (h : Half) (v : HalfRead) (u : UndoRead) (rest : List UndoRead) :
    (setUndo slot h v (u :: rest)).head?
      = some (if u.slot = slot then { u with place := u.place.set h v } else u) := by
  unfold setUndo
  split
  · rfl
  · rename_i hnew
    have hother : u.slot ≠ slot := fun hslot => hnew (by simp [hslot])
    rw [if_neg hother]
    rfl

theorem setUndo_front {slot : Nat} (h : Half) (v : HalfRead) (place : PlaceRead) {rest : List UndoRead}
    (hrest : ∀ u ∈ rest, u.slot ≠ slot) : setUndo slot h v ({ slot := slot, place := place } :: rest)
      = { slot := slot, place := place.set h v } :: rest := by
  have hkept : rest.map (fun u => if u.slot = slot then { u with place := u.place.set h v } else u) = rest :=
    (List.map_congr_left (fun u hu => if_neg (hrest u hu))).trans (List.map_id _)
  rw [setUndo, if_pos (by simp), List.map_cons, hkept, if_pos rfl]

/-- R132, R150: a half of a slot has been read: its access slot is free, and its bytes are kept. -/
def State.undoHalfRead (s : State) (k : AccessSlot) (slot : Nat) (h : Half) (d : Line) : State :=
  { s with
    link := s.link.set k none
    recovery := { s.recovery with io := { s.recovery.io with
      undo := setUndo slot h (.got d) s.recovery.io.undo } } }

/-- R132, R150: a restore has been answered OKAY: its access slot is free, and it is counted. -/
def State.restoreCounted (s : State) (k : AccessSlot) : State :=
  { s with
    link := s.link.set k none
    recovery := { s.recovery with restoresOutstanding := s.recovery.restoresOutstanding - 1 } }

theorem State.undoHalfRead_free (s : State) (k : AccessSlot) (slot : Nat) (h : Half) (d : Line) :
    ∃ j, (s.undoHalfRead k slot h d).access j = none :=
  ⟨k, by simp [State.undoHalfRead, State.access]⟩

theorem State.restoreCounted_free (s : State) (k : AccessSlot) : ∃ j, (s.restoreCounted k).access j = none :=
  ⟨k, by simp [State.restoreCounted, State.access]⟩

/-! ## Completions (R150, R153) -/

section Delivered

variable {s : State} {a : Access} {slot : Nat} {h : Half}

theorem State.undoSlotRead_okay (d : Line) (hpurpose : a.purpose = .undoPassRead slot h)
    (hphase : s.recovery.phase = .undoPass) : State.undoSlotRead (.okay d) a s
      = State.undoGoOn { s with recovery := { s.recovery with io := { s.recovery.io with
          undo := setUndo slot h (.got d) s.recovery.io.undo } } } := by
  simp only [State.undoSlotRead, hphase, hpurpose]

theorem State.undoSlotRead_error (hpurpose : a.purpose = .undoPassRead slot h) (hphase : s.recovery.phase = .undoPass) :
    State.undoSlotRead .error a s = s.reportFault .recovery := by
  simp only [State.undoSlotRead, hphase, hpurpose]

theorem State.undoSlotRead_otherPhase (result : ReadResult) (hphase : s.recovery.phase ≠ .undoPass) :
    State.undoSlotRead result a s = s := by
  unfold State.undoSlotRead
  split
  · exact absurd ‹_› hphase
  · exact absurd ‹_› hphase
  · rfl

theorem State.recoveryRestored_okay (hphase : s.recovery.phase = .undoPass) : State.recoveryRestored .okay a s
    = State.undoGoOn { s with recovery := { s.recovery with
        restoresOutstanding := s.recovery.restoresOutstanding - 1 } } := by
  simp only [State.recoveryRestored, hphase]

theorem State.recoveryRestored_error (hphase : s.recovery.phase = .undoPass) :
    State.recoveryRestored .error a s = s.reportFault .recovery := by
  simp only [State.recoveryRestored, hphase]

theorem State.recoveryRestored_otherPhase (result : WriteResult) (hphase : s.recovery.phase ≠ .undoPass) :
    State.recoveryRestored result a s = s := by
  unfold State.recoveryRestored
  split
  · exact absurd ‹_› hphase
  · exact absurd ‹_› hphase
  · rfl

end Delivered

theorem State.undoGoOn_running {s : State} (hpower : s.device.powerFailPending = false) :
    s.undoGoOn.woundDown = s.undoGoOn :=
  State.woundDown_running _ (by rw [State.undoGoOn_powerFail, hpower])

section Completion

variable {s : State} {k : AccessSlot} {a : Access} {slot : Nat} {h : Half}

theorem exec_undoPassReadComplete (result : ReadResult) (hacc : s.access k = some a)
    (hpurpose : a.purpose = .undoPassRead slot h) :
    exec (.undoPassReadComplete k result) s = .next (State.undoSlotRead result a (s.freeAccess k)).woundDown :=
  congrArg _ (State.complete_eq (State.undoSlotRead result) hacc (by rw [hpurpose]; rfl))

theorem exec_recoveryRestoreComplete (result : WriteResult) (hacc : s.access k = some a)
    (hpurpose : a.purpose = .recoveryRestore) :
    exec (.recoveryRestoreComplete k result) s = .next (State.recoveryRestored result a (s.freeAccess k)).woundDown :=
  congrArg _ (State.complete_eq (State.recoveryRestored result) hacc (decide_eq_true hpurpose))

/-- R150: a half read leads to the examination of the slots read. -/
theorem exec_undoPassReadComplete_okay (d : Line) (hacc : s.access k = some a)
    (hpurpose : a.purpose = .undoPassRead slot h) (hruns : s.runsIn .recovering)
    (hphase : s.recovery.phase = .undoPass) :
    exec (.undoPassReadComplete k (.okay d)) s = .next (s.undoHalfRead k slot h d).undoGoOn := by
  rw [exec_undoPassReadComplete (.okay d) hacc hpurpose,
    State.undoSlotRead_okay (s := s.freeAccess k) d hpurpose hphase]
  exact congrArg _ (State.undoGoOn_running hruns.2.1)

/-- R150: a restore done leads to the examination of the slots read. -/
theorem exec_recoveryRestoreComplete_okay (hacc : s.access k = some a) (hpurpose : a.purpose = .recoveryRestore)
    (hruns : s.runsIn .recovering) (hphase : s.recovery.phase = .undoPass) :
    exec (.recoveryRestoreComplete k .okay) s = .next (s.restoreCounted k).undoGoOn := by
  rw [exec_recoveryRestoreComplete .okay hacc hpurpose, State.recoveryRestored_okay (s := s.freeAccess k) hphase]
  exact congrArg _ (State.undoGoOn_running hruns.2.1)

/-- R145, R150: a half that does not complete the slot at the front is kept for its slot. -/
theorem exec_undoPassReadComplete_kept {u : UndoRead} {rest : List UndoRead} (d : Line) (hacc : s.access k = some a)
    (hpurpose : a.purpose = .undoPassRead slot h) (hruns : s.runsIn .recovering)
    (hphase : s.recovery.phase = .undoPass) (hposition : s.recovery.walkPosition ≠ none)
    (hundo : s.recovery.io.undo = u :: rest) (himage : u.place.image = none)
    (hother : u.slot = slot → (if h = .first then u.place.second else u.place.first) = .waiting
      ∨ (if h = .first then u.place.second else u.place.first) = .issued) :
    exec (.undoPassReadComplete k (.okay d)) s = .next (s.undoHalfRead k slot h d).pump := by
  have hunread : ∀ w, (s.undoHalfRead k slot h d).recovery.io.undo.head? = some w → w.place.image = none := by
    intro w hw
    rw [State.undoHalfRead, hundo, setUndo_head?, Option.some.injEq] at hw
    subst hw
    split
    · rename_i hslot
      refine PlaceRead.image_set_none (fun b hgot => ?_)
      obtain hwaiting | hissued := hother hslot
      · cases hwaiting.symm.trans hgot
      · cases hissued.symm.trans hgot
    · exact himage
  have hwaits := State.undoGoOn_waits (s.undoHalfRead k slot h d) hphase (.inl hunread)
  rw [if_neg (fun hended => hposition hended.1)] at hwaits
  exact (exec_undoPassReadComplete_okay d hacc hpurpose hruns hphase).trans (congrArg _ hwaits)

end Completion

/-- R153: a completion that leads to the examination of a slot without a record in sequence leads to FAULTED. -/
theorem exec_undoFaults {i : Instr} {s : State} {link : Vector (Option Access) 8} {r : Recovery} {u : UndoRead}
    {rest : List UndoRead} {v : Place} (hruns : s.runsIn .recovering) (hphase : r.phase = .undoPass)
    (hexec : exec i s = .next ({ s with link := link, recovery := r } : State).undoGoOn)
    (hundo : r.io.undo = u :: rest) (himage : u.place.image = some v)
    (hbad : JournalRecord.parse v = none ∨ ∃ x, JournalRecord.parse v = some x
      ∧ x.seq ≠ ({ s with link := link, recovery := r } : State).undoSeq u.slot) :
    ∃ t : State, exec i s = .next t ∧ s.faultedFrom t .recovery ∧ t.recovery.phase = .stopped := by
  have hactive : r.phase.active := RecoveryPhase.active_of_mem (by simp [hphase])
  have hfaults := State.undoGoOn_faults_running (s := { s with link := link, recovery := r }) hruns hphase hundo
    himage hbad
  obtain ⟨-, hfaulted, hstopped⟩ := State.reportFault_sequencer link r .recovery hruns hactive
  exact ⟨_, hexec.trans (congrArg _ hfaults), hfaulted, hstopped⟩

/-! ## The statement -/

/-- Settles O52, by the completion, and by what the slot at the front of those read holds. -/
theorem undoPassRestores : Obligations.UndoPassRestores := by
  refine ⟨fun s k a h d other v slot place rest c hacc hpurpose hruns hphase _ hchosen hundo hrest hother hv => ?_,
    fun s k a h d slot u rest hacc hpurpose hruns hphase hposition hundo himage hother => ?_,
    fun s k a slot h hacc hpurpose hruns hphase => ?_, fun s k a hacc hpurpose hruns hphase => ?_,
    fun s k a slot h d hacc hpurpose hruns hphase hknown => ?_, fun s hphase => ?_,
    fun s k a slot h result hacc hpurpose hphase => ?_, fun s k a result hacc hpurpose hphase => ?_⟩
  · have hexec := exec_undoPassReadComplete_okay d hacc hpurpose hruns hphase
    have hfront : (s.undoHalfRead k slot h d).recovery.io.undo
        = { slot := slot, place := place.set h (.got d) } :: rest := by
      rw [State.undoHalfRead, hundo]
      exact setUndo_front h (.got d) place hrest
    have himage : (place.set h (.got d)).image = some v := hv ▸ PlaceRead.image_set_some hother
    have hfree := s.undoHalfRead_free k slot h d
    refine ⟨fun hbad =>
        exec_undoFaults (r := (s.undoHalfRead k slot h d).recovery) hruns hphase hexec hfront himage hbad,
      fun hunread => ⟨?_, ?_⟩, ?_⟩
    · exact fun r hr hseq hkind hmem => ⟨_, hexec, State.undoGoOn_restores_spec (s := s.undoHalfRead k slot h d) hphase
        hfront himage hr hseq hkind hmem hchosen hfree hunread⟩
    · exact fun r hr hseq hpassed => ⟨_, hexec, State.undoGoOn_passes_spec (s := s.undoHalfRead k slot h d) hphase
        hfront himage hr hseq hpassed hchosen hunread⟩
    · intro r r2 u v2 rest2 hr hseq hpassed _ hnext hunread himage2 hr2 hseq2 hkind2 hmem2
      have hpasses := State.undoGoOn_passes_eq (s := s.undoHalfRead k slot h d) hfront himage hr hseq hpassed hchosen
      exact ⟨_, hexec.trans (congrArg _ hpasses), State.undoGoOn_restores_spec
        (s := (s.undoHalfRead k slot h d).undoAdvanced c.tail.slot slot rest) hphase hnext himage2 hr2 hseq2 hkind2
        hmem2 hchosen hfree hunread⟩
  · refine ⟨_, exec_undoPassReadComplete_kept d hacc hpurpose hruns hphase hposition hundo himage hother,
      State.pump_device _, ?_, ?_, ?_, fun hknown => ?_⟩
    · rw [State.pump_recovery]
      exact hphase
    · rw [State.pump_recovery]
      rfl
    · rw [State.pump_recovery]
      rfl
    · rw [State.undoHalfRead, setUndo_known h (.got d) hknown]
  · refine exec_error k hruns (RecoveryPhase.active_of_mem (by simp [hphase])) ?_
    rw [exec_undoPassReadComplete .error hacc hpurpose,
      State.undoSlotRead_error (s := s.freeAccess k) hpurpose hphase]
  · have hexec := exec_recoveryRestoreComplete_okay hacc hpurpose hruns hphase
    have hnone : s.recovery.restoresOutstanding - 1 = 0 ↔ s.recovery.restoresOutstanding ≤ 1 := Nat.sub_eq_zero_iff_le
    refine ⟨fun hunread => ?_, fun u rest v c hundo himage hchosen =>
      ⟨fun hbad => exec_undoFaults (r := (s.restoreCounted k).recovery) hruns hphase hexec hundo himage hbad,
        fun hunread => ⟨?_, ?_⟩⟩, hexec, ?_⟩
    · obtain ⟨hdevice, houtstanding, -, hphase', -⟩ :=
        State.undoGoOn_waits_spec (s := s.restoreCounted k) hphase hunread
      exact ⟨_, hexec, hdevice, houtstanding, hphase'.trans (if_congr (and_congr Iff.rfl hnone) rfl rfl)⟩
    · exact fun r hr hseq hkind hmem => ⟨_, hexec, State.undoGoOn_restores_spec (s := s.restoreCounted k) hphase hundo
        himage hr hseq hkind hmem hchosen (s.restoreCounted_free k) hunread⟩
    · intro r hr hseq hpassed
      obtain ⟨hdevice, houtstanding, hposition, hphase'⟩ := State.undoGoOn_passes_spec (s := s.restoreCounted k) hphase
        hundo himage hr hseq hpassed hchosen hunread
      exact ⟨_, hexec, hdevice, houtstanding, hposition, hphase'.trans (if_congr (and_congr Iff.rfl hnone) rfl rfl)⟩
    · refine exec_error k hruns (RecoveryPhase.active_of_mem (by simp [hphase])) ?_
      rw [exec_recoveryRestoreComplete .error hacc hpurpose, State.recoveryRestored_error (s := s.freeAccess k) hphase]
  · rw [exec_undoPassReadComplete_okay d hacc hpurpose hruns hphase, State.undoHalfRead,
      setUndo_known h (.got d) hknown]
  · intro waits
    refine ⟨fun hunread => State.undoGoOn_waits s hphase (.inl hunread), fun u rest v c hundo himage hchosen =>
      ⟨fun hruns hbad => ?_, fun r hr hseq hkind hmem => ⟨fun hfull => ?_, fun hfree => ?_⟩,
        fun r hr hseq hpassed => State.undoGoOn_passes_eq hundo himage hr hseq hpassed hchosen⟩⟩
    · have hactive := RecoveryPhase.active_of_mem (p := s.recovery.phase) (by simp [hphase])
      obtain ⟨hfaulted, hrecovery⟩ := State.reportFault_recovering_faultedFrom s .recovery hruns hactive
      rw [State.undoGoOn_faults_running hruns hphase hundo himage hbad]
      exact ⟨hfaulted, congrArg Recovery.phase hrecovery⟩
    · exact State.undoGoOn_waits s hphase
        (.inr ⟨u, rest, v, r, hundo, himage, hr, hseq, (s.undoMatches_iff r).2 ⟨hkind, hmem⟩, hfull⟩)
    · exact State.undoGoOn_restores_eq hundo himage hr hseq hkind hmem hchosen hfree
  · rw [exec_undoPassReadComplete result hacc hpurpose,
      State.undoSlotRead_otherPhase (s := s.freeAccess k) result hphase]
    rfl
  · rw [exec_recoveryRestoreComplete result hacc hpurpose,
      State.recoveryRestored_otherPhase (s := s.freeAccess k) result hphase]
    rfl

end Sys2Proof.Machine

/-! PROOFS. Family 10_start_up_recovery: re-initialisation, and the entry into SERVING (R151, R152, R157, R159). -/

namespace Sys2Proof.Machine

/-! ## A link reset in SERVING (R159) -/

theorem State.cancelOps_noOps {s : State} (who : Operation → Bool) (hops : s.ops = []) : s.cancelOps who = s := by
  have hstate : ({ s with ops := [] } : State) = s := by rw [← hops]
  simp only [State.cancelOps, hops, List.filter_nil, List.map_nil, List.foldl_nil, hstate]

/-- R17: a link reset leaves no context ABORTED. -/
theorem Context.linkReset_state_ne_aborted (x : Context) : x.linkReset.state ≠ .aborted := by
  cases hstate : x.state <;> simp [Context.linkReset, hstate, Context.toAbortPending]

theorem State.ctx_syncNotices (s : State) (c : RequesterId) : s.syncNotices.ctx c = s.ctx c := rfl

theorem State.ctx_forget (s : State) (c : RequesterId) : s.forget.ctx c = s.ctx c := rfl

theorem Context.linkReset_idle {x : Context} (hstate : x.state = .idle) :
    x.linkReset = { x with wait := none, arming := none } := by
  simp only [Context.linkReset, hstate]

/-- R17: after a link reset no notice stands. -/
theorem State.syncNotices_linkReset (s : State) :
    (s.modAll Context.linkReset).syncNotices.device = { s.device with noticesStanding := false } := by
  have hnone : allContexts.any (fun c => decide (((s.modAll Context.linkReset).ctx c).state = .aborted)) = false := by
    simp [State.ctx_modAll, Context.linkReset_state_ne_aborted]
  rw [State.syncNotices, hnone, State.modAll_device]

section LinkReset

variable {s : State}

/-- R160: while LRST_N is asserted the drain does not end. -/
theorem State.drainTest_asserted (hlrst : s.pins.lrst = true) : s.drainTest = s := by
  rw [State.drainTest, if_neg (by simp [hlrst])]

/-- R159: a link reset with LRST_N asserted: what it does to the blocks, and the device in DRAINING. -/
theorem State.takeLinkReset_stays (hpower : s.device.powerFailPending = false)
    (hstate : s.device.state = .serving ∨ s.device.state = .draining) (hlrst : s.pins.lrst = true) :
    ∃ u : State, u = ((s.forget.cancelOps (fun _ => true)).modAll Context.linkReset).syncNotices.noteDrains
      ∧ s.takeLinkReset = { u with device := { u.device with state := .draining } } := by
  refine ⟨_, rfl, ?_⟩
  rw [State.takeLinkReset_working s hpower hstate]
  exact State.drainTest_asserted (by simpa using hlrst)

/-- R159: the device, the requests and the queued work after a link reset with LRST_N asserted. -/
theorem State.takeLinkReset_asserted (hpower : s.device.powerFailPending = false)
    (hstate : s.device.state = .serving ∨ s.device.state = .draining) (hlrst : s.pins.lrst = true) :
    s.takeLinkReset.device = { s.device with state := .draining, noticesStanding := false }
      ∧ s.takeLinkReset.outstanding = [] ∧ s.takeLinkReset.classified = []
      ∧ s.takeLinkReset.forward = s.forward.map (fun e => { e with forgotten := true }) := by
  have hforgotten : ∀ o ∈ s.forget.ops, o.forgotten = true := by simp
  obtain ⟨u, hu, hreset⟩ := State.takeLinkReset_stays hpower hstate hlrst
  have hdevice : u.device = { s.device with noticesStanding := false } := by
    simp [hu, State.syncNotices_linkReset]
  rw [hreset, hdevice]
  refine ⟨rfl, ?_, ?_, ?_⟩
  · simp [hu, (State.cancelOps_forgotten s.forget (fun _ => true) hforgotten).2]
  · simp [hu]
  · simp [hu]

/-- R17, R78: where no operation is under way, a link reset changes no hold, and of the contexts only what R17 says. -/
theorem State.takeLinkReset_noOps (hpower : s.device.powerFailPending = false)
    (hstate : s.device.state = .serving ∨ s.device.state = .draining) (hlrst : s.pins.lrst = true) (hops : s.ops = []) :
    s.takeLinkReset.ops = [] ∧ s.takeLinkReset.holds = s.holds
      ∧ ∀ c, s.takeLinkReset.ctx c = (s.ctx c).linkReset := by
  have hforget : s.forget.ops = [] := by simp [hops]
  obtain ⟨u, hu, hreset⟩ := State.takeLinkReset_stays hpower hstate hlrst
  rw [State.cancelOps_noOps _ hforget] at hu
  have hctx : ∀ c, u.ctx c = (s.ctx c).linkReset := by
    intro c
    rw [hu, State.ctx_noteDrains, State.ctx_syncNotices, State.ctx_modAll, State.ctx_forget]
  rw [hreset]
  refine ⟨?_, ?_, hctx⟩
  · simpa [hu] using hops
  · simp [hu]

end LinkReset

/-! ## The results are handed over (R151, R152) -/

/-- R151: the header image of re-initialisation. -/
theorem State.reinitImage_eq {s : State} {c : Chosen} {p : Position} (hchosen : s.recovery.chosen = some c)
    (hstop : s.recovery.stop = some p) : s.reinitImage = {
      copy := if c.copy = .a then .b else .a, generation := c.generation + 1
      tail := { slot := p.slot, seq := p.seq + BitVec.ofNat 32 s.slotCount }
      recoveryCount := if 1 ≤ s.recovery.undone ∧ c.recoveryCount.toNat < 65535 then c.recoveryCount + 1
        else c.recoveryCount } := by
  rw [State.reinitImage, hchosen, hstop, ← Copy.other_eq]
  rfl

/-- R152: what is handed over at the end of re-initialisation. -/
def State.handedOver (s : State) : State :=
  { s with
    device := { s.device with state := .serving }
    journal := { started := true, head := s.reinitImage.tail, durableHead := s.reinitImage.tail
                 published := s.reinitImage.tail, records := [], requests := [] }
    header := { lastCopy := s.reinitImage.copy, generation := s.reinitImage.generation
                recoveryCount := s.reinitImage.recoveryCount, pendingImage := none, inFlight := none }
    startupUndone := s.recovery.undone
    startupFormatted := s.recovery.formatted
    recovery := { s.recovery with phase := .done } }

theorem State.recoverySuccess_eq (s : State) : s.recoverySuccess = s.handedOver.entryLinkReset := rfl

/-- R43: where the journal holds no record, every slot is free. -/
theorem State.freeSlots_empty {s : State} (hempty : s.journal.head = s.journal.published) :
    s.freeSlots = s.slotCount := by
  rw [State.freeSlots, State.occupied, hempty, BitVec.sub_self]
  rfl

theorem State.recoverySuccess_freeSlots (s : State) : s.recoverySuccess.freeSlots = s.recoverySuccess.slotCount := by
  refine State.freeSlots_empty ?_
  rw [State.recoverySuccess_eq, State.entryLinkReset_journal]
  rfl

/-- R157: with LRST_N deasserted the device enters SERVING with nothing more. -/
theorem State.recoverySuccess_deasserted {s : State} (hlrst : s.pins.lrst = false) :
    s.recoverySuccess = s.handedOver := by
  have hpin : s.handedOver.pins.lrst = false := hlrst
  rw [State.recoverySuccess_eq, State.entryLinkReset, hpin]
  rfl

/-- R159: with LRST_N asserted a link reset is taken at the entry. -/
theorem State.recoverySuccess_asserted {s : State} (hlrst : s.pins.lrst = true) :
    s.recoverySuccess = s.handedOver.takeLinkReset := by
  have hpin : s.handedOver.pins.lrst = true := hlrst
  rw [State.recoverySuccess_eq, State.entryLinkReset, if_pos hpin]

theorem State.recoverySuccess_running {s : State} (hpower : s.device.powerFailPending = false) :
    s.recoverySuccess.woundDown = s.recoverySuccess := by
  refine State.woundDown_running _ ?_
  cases hlrst : s.pins.lrst with
  | false =>
    rw [State.recoverySuccess_deasserted hlrst]
    exact hpower
  | true =>
    rw [State.recoverySuccess_asserted hlrst, State.takeLinkReset_powerFail]
    exact hpower

/-! ## A half of the re-initialisation header is answered (R151) -/

/-- R151: a half of the re-initialisation header is noted as written. -/
def Recovery.reinitNoted (r : Recovery) (h : Half) : Recovery :=
  { r with io := { r.io with reinit :=
    if h = .first then { r.io.reinit with first := .okay } else { r.io.reinit with second := .okay } } }

theorem Recovery.reinitNoted_whole (r : Recovery) (h : Half) : (r.reinitNoted h).io.reinit.whole = true ↔
    (if h = .first then r.io.reinit.second else r.io.reinit.first) = .okay := by
  cases h <;> simp [Recovery.reinitNoted, PlaceWrite.whole]

theorem Recovery.reinitNoted_half (r : Recovery) (h : Half) :
    (if h = .first then (r.reinitNoted h).io.reinit.first else (r.reinitNoted h).io.reinit.second) = .okay := by
  cases h <;> rfl

theorem SequencerIO.markIssued_reinit (h : Half) (io : SequencerIO) (j : SeqJob) :
    (if h = .first then (io.markIssued j).reinit.first else (io.markIssued j).reinit.second)
      = if j = .reinit h then .issued else if h = .first then io.reinit.first else io.reinit.second := by
  cases j with
  | reinit h' => cases h <;> cases h' <;> rfl
  | headerRead copy h' => cases copy <;> rfl
  | zeroWrite => rfl
  | formatHeader h' => rfl
  | walkRead h' => rfl
  | undoRead slot h' => rfl

/-- R151: a half that is no longer waiting is not written again. -/
theorem State.pump_reinit {s : State} {h : Half} (hphase : s.recovery.phase = .reinit)
    (hnoted : (if h = .first then s.recovery.io.reinit.first else s.recovery.io.reinit.second) = .okay) :
    (if h = .first then s.pump.recovery.io.reinit.first else s.pump.recovery.io.reinit.second) = .okay := by
  have hunwanted : SeqJob.reinit h ∉ s.seqWanted := by
    rw [State.seqWanted_reinit hphase, (wanted_byHalf (fun _ _ => SeqJob.reinit.inj)
      (s.recovery.io.reinit.mem_wanted .reinit)).2 h, hnoted]
    decide
  exact (State.pump_keepsMark (fun io => if h = .first then io.reinit.first else io.reinit.second) _ _
    (SequencerIO.markIssued_reinit h) s hunwanted).trans hnoted

section Delivered

variable {s : State} {a : Access} {h : Half}

theorem State.reinitWritten_okay (hpurpose : a.purpose = .reinitHeader h) (hphase : s.recovery.phase = .reinit) :
    State.reinitWritten .okay a s =
      if (s.recovery.reinitNoted h).io.reinit.whole
      then State.recoverySuccess { s with recovery := s.recovery.reinitNoted h }
      else State.pump { s with recovery := s.recovery.reinitNoted h } := by
  unfold State.reinitWritten
  split
  · rename_i h' _ hpurpose' _
    obtain rfl := Purpose.reinitHeader.inj (hpurpose'.symm.trans hpurpose)
    cases h' <;> rfl
  · rename_i hresult
    cases hresult
  · rename_i hother
    exact (hother h hphase hpurpose rfl).elim

theorem State.reinitWritten_error (hpurpose : a.purpose = .reinitHeader h) (hphase : s.recovery.phase = .reinit) :
    State.reinitWritten .error a s = s.reportFault .recovery := by
  simp only [State.reinitWritten, hphase, hpurpose]

theorem State.reinitWritten_otherPhase (result : WriteResult) (hphase : s.recovery.phase ≠ .reinit) :
    State.reinitWritten result a s = s := by
  unfold State.reinitWritten
  split
  · exact absurd ‹_› hphase
  · exact absurd ‹_› hphase
  · rfl

end Delivered

theorem exec_reinitHeaderWriteComplete {s : State} {k : AccessSlot} {a : Access} {h : Half} (result : WriteResult)
    (hacc : s.access k = some a) (hpurpose : a.purpose = .reinitHeader h) :
    exec (.reinitHeaderWriteComplete k result) s = .next (State.reinitWritten result a (s.freeAccess k)).woundDown :=
  congrArg _ (State.complete_eq (State.reinitWritten result) hacc (by rw [hpurpose]; rfl))

/-! ## The statement -/

/-- R151, R152, R157: what the end of re-initialisation leaves, whether a link reset is taken at the entry or not. -/
theorem State.recoverySuccess_spec {s : State} {c : Chosen} {p : Position} (hchosen : s.recovery.chosen = some c)
    (hstop : s.recovery.stop = some p) :
    s.recoverySuccess.journal = {
        started := true, head := { slot := p.slot, seq := p.seq + BitVec.ofNat 32 s.slotCount }
        durableHead := { slot := p.slot, seq := p.seq + BitVec.ofNat 32 s.slotCount }
        published := { slot := p.slot, seq := p.seq + BitVec.ofNat 32 s.slotCount }, records := [], requests := [] }
      ∧ s.recoverySuccess.header = {
        lastCopy := (if c.copy = .a then .b else .a), generation := c.generation + 1
        recoveryCount := (if 1 ≤ s.recovery.undone ∧ c.recoveryCount.toNat < 65535 then c.recoveryCount + 1
          else c.recoveryCount)
        pendingImage := none, inFlight := none }
      ∧ s.recoverySuccess.freeSlots = s.recoverySuccess.slotCount
      ∧ s.recoverySuccess.startupUndone = s.recovery.undone
      ∧ s.recoverySuccess.startupFormatted = s.recovery.formatted ∧ s.recoverySuccess.recovery.phase = .done
      ∧ s.recoverySuccess.key = s.key ∧ s.recoverySuccess.openCounter = s.openCounter := by
  have himage := State.reinitImage_eq hchosen hstop
  refine ⟨?_, ?_, s.recoverySuccess_freeSlots, ?_, ?_, ?_, ?_, ?_⟩ <;> rw [State.recoverySuccess_eq]
  · rw [State.entryLinkReset_journal, State.handedOver, himage]
  · rw [State.entryLinkReset_header, State.handedOver, himage]
  · exact State.entryLinkReset_startupUndone _
  · exact State.entryLinkReset_startupFormatted _
  · rw [State.entryLinkReset_recovery]
    rfl
  · exact State.entryLinkReset_key _
  · exact State.entryLinkReset_openCounter _

/-- R157: the entry into SERVING with LRST_N deasserted. -/
theorem State.recoverySuccess_serving {s : State} (hlrst : s.pins.lrst = false) :
    s.recoverySuccess.device = { s.device with state := .serving } ∧ s.recoverySuccess.contexts = s.contexts
      ∧ s.recoverySuccess.holds = s.holds ∧ s.recoverySuccess.ops = s.ops ∧ s.recoverySuccess.forward = s.forward
      ∧ s.recoverySuccess.outstanding = s.outstanding := by
  rw [State.recoverySuccess_deasserted hlrst]
  exact ⟨rfl, rfl, rfl, rfl, rfl, rfl⟩

/-- R159: the entry into SERVING with LRST_N asserted. -/
theorem State.recoverySuccess_linkReset {s : State} (hpower : s.device.powerFailPending = false)
    (hlrst : s.pins.lrst = true) :
    s.recoverySuccess.device = { s.device with state := .draining, noticesStanding := false }
      ∧ s.recoverySuccess.rdy = false ∧ s.recoverySuccess.outstanding = [] ∧ s.recoverySuccess.classified = []
      ∧ s.recoverySuccess.forward = s.forward.map (fun e => { e with forgotten := true })
      ∧ (s.ops = [] → s.recoverySuccess.ops = [] ∧ s.recoverySuccess.holds = s.holds
        ∧ ∀ d, (s.ctx d).state = .idle → s.recoverySuccess.ctx d = { s.ctx d with wait := none, arming := none }) := by
  have hserving : s.handedOver.device.state = .serving ∨ s.handedOver.device.state = .draining := .inl rfl
  obtain ⟨hdevice, houtstanding, hclassified, hforward⟩ :=
    State.takeLinkReset_asserted (s := s.handedOver) hpower hserving hlrst
  rw [State.recoverySuccess_asserted hlrst]
  refine ⟨hdevice, ?_, houtstanding, hclassified, hforward, fun hops => ?_⟩
  · simp [State.rdy, hdevice]
  · obtain ⟨hops', hholds, hctx⟩ := State.takeLinkReset_noOps (s := s.handedOver) hpower hserving hlrst hops
    exact ⟨hops', hholds, fun d hidle => (hctx d).trans (Context.linkReset_idle hidle)⟩

/-- R132, R151: a half of the re-initialisation header has been answered OKAY: its slot is free, and it is noted. -/
def State.reinitHalfWritten (s : State) (k : AccessSlot) (h : Half) : State :=
  { s with link := s.link.set k none, recovery := s.recovery.reinitNoted h }

/-- R151: the half answered last ends re-initialisation; the half answered first is noted. -/
theorem exec_reinitHeaderWriteComplete_okay {s : State} {k : AccessSlot} {a : Access} {h : Half}
    (hacc : s.access k = some a) (hpurpose : a.purpose = .reinitHeader h) (hruns : s.runsIn .recovering)
    (hphase : s.recovery.phase = .reinit) : exec (.reinitHeaderWriteComplete k .okay) s = .next
      (if (if h = .first then s.recovery.io.reinit.second else s.recovery.io.reinit.first) = .okay
      then (s.reinitHalfWritten k h).recoverySuccess else (s.reinitHalfWritten k h).pump) := by
  have hphase' : (s.freeAccess k).recovery.phase = .reinit := hphase
  have hwhole := s.recovery.reinitNoted_whole h
  rw [exec_reinitHeaderWriteComplete .okay hacc hpurpose, State.reinitWritten_okay hpurpose hphase']
  refine congrArg _ ?_
  by_cases hother : (if h = .first then s.recovery.io.reinit.second else s.recovery.io.reinit.first) = .okay
  · rw [if_pos hother]
    exact (congrArg _ (if_pos (hwhole.2 hother))).trans (State.recoverySuccess_running hruns.2.1)
  · rw [if_neg hother]
    exact (congrArg _ (if_neg (fun hw => hother (hwhole.1 hw)))).trans (State.woundDown_pump _ hruns.2.1)

/-- Settles O53, by the half answered first, the half answered last, and the level of LRST_N at the entry. -/
theorem reinitialisationEntersServing : Obligations.ReinitialisationEntersServing := by
  refine ⟨fun s k a h c p hacc hpurpose hruns hphase hchosen hstop => ?_,
    fun s k a h result hacc hpurpose hphase => ?_⟩
  · have hphase' : (s.freeAccess k).recovery.phase = .reinit := hphase
    rw [exec_reinitHeaderWriteComplete_okay hacc hpurpose hruns hphase]
    refine ⟨fun hother => ?_, fun hother => ?_, ?_⟩
    · obtain ⟨hjournal, hheader, hfree, hundone, hformatted, hdone, hkey, hcounter⟩ :=
        State.recoverySuccess_spec (s := s.reinitHalfWritten k h) hchosen hstop
      rw [if_pos hother]
      exact ⟨_, rfl, hjournal, hheader, hfree, hundone, hformatted, hdone, hkey, hcounter,
        State.recoverySuccess_serving (s := s.reinitHalfWritten k h),
        State.recoverySuccess_linkReset (s := s.reinitHalfWritten k h) hruns.2.1⟩
    · rw [if_neg hother]
      refine ⟨_, rfl, State.pump_device _, ?_, State.pump_reinit hphase (s.recovery.reinitNoted_half h), rfl⟩
      rw [State.pump_recovery]
      exact hphase
    · refine exec_error k hruns (RecoveryPhase.active_of_mem (by simp [hphase])) ?_
      rw [exec_reinitHeaderWriteComplete .error hacc hpurpose, State.reinitWritten_error hpurpose hphase']
  · rw [exec_reinitHeaderWriteComplete result hacc hpurpose,
      State.reinitWritten_otherPhase (s := s.freeAccess k) result hphase]
    rfl

end Sys2Proof.Machine

/-! PROOFS. Family 11_device_states_power_fail_and_link_reset: what the device state, the notices and the queue of commands
rest on, and what the shared operations make of it (R11, R13, R82, R156, R158 to R161). -/

namespace Sys2Proof.Machine

/-! ## What the statements read -/

/-- All that the queue and the two invariants of the Device State Controller read of a state. -/
structure Overview where
  pending : List Instr
  device : Device
  loader : Loader
  phase : RecoveryPhase
  states : RequesterId → ContextState
  drains : List (List RequesterId)
  rollbackQueue : List RequesterId
  enginePhase : EnginePhase
  current : Option RequesterId
  asked : List RequesterId

/-- That of a state. -/
def State.overview (s : State) : Overview where
  pending := s.pending
  device := s.device
  loader := s.loader
  phase := s.recovery.phase
  states c := (s.ctx c).state
  drains := s.drains
  rollbackQueue := s.rollbackQueue
  enginePhase := s.engine.phase
  current := s.engine.current
  asked := s.endOwners

/-- R11, R82: the contexts whose drain is taken or which are queued for rollback. -/
def State.awaiting (s : State) : List RequesterId := s.drains.flatten ++ s.rollbackQueue

/-- A transaction is being ended (R7, R9, R84). -/
def ContextState.ending (x : ContextState) : Prop := x = .committing ∨ x = .abortPending ∨ x = .rollingBack

/-- R13: notices stand exactly when a context is ABORTED. -/
def State.noticesMatch (s : State) : Prop := s.device.noticesStanding = true ↔ ∃ c, (s.ctx c).state = .aborted

/-- The contexts on the two lists and under the engine are in the states that put them there; the end records asked for
are given apart from the Journal Writer, since a record the durable head passes leaves it before it is reported. -/
structure State.Listed (s : State) (asked : List RequesterId) : Prop where
  awaitingOnce : s.awaiting.Nodup
  awaitingStates : ∀ c ∈ s.awaiting, (s.ctx c).state = .abortPending
  askedOnce : asked.Nodup
  askedStates : ∀ c ∈ asked, (s.ctx c).state = .committing ∨ (s.ctx c).state = .rollingBack
  walking : s.engine.phase = .walking → ∀ c, s.engine.current = some c → (s.ctx c).state = .rollingBack ∧ c ∉ asked

/-- The invariant of the notices, for these end records asked for. -/
structure State.Tracked (s : State) (asked : List RequesterId) : Prop where
  standing : s.noticesMatch
  listed : s.Listed asked

theorem State.noticesTracked_iff (s : State) : s.noticesTracked ↔ s.Tracked s.endOwners :=
  ⟨fun ⟨hstanding, honce, hawaiting, haskedOnce, hasked, hwalking⟩ =>
    ⟨hstanding, honce, hawaiting, haskedOnce, hasked, hwalking⟩,
    fun ⟨hstanding, honce, hawaiting, haskedOnce, hasked, hwalking⟩ =>
    ⟨hstanding, honce, hawaiting, haskedOnce, hasked, hwalking⟩⟩

/-- The tracking passes to a state in which the same contexts wait, each that is being ended is so still, and no engine
has begun to walk. -/
theorem State.Listed.mono {s t : State} {asked : List RequesterId} (h : s.Listed asked)
    (hawaiting : t.awaiting = s.awaiting)
    (hstates : ∀ c, (s.ctx c).state.ending → (t.ctx c).state = (s.ctx c).state)
    (hengine : t.engine.phase = .walking → s.engine.phase = .walking ∧ t.engine.current = s.engine.current) :
    t.Listed asked where
  awaitingOnce := hawaiting ▸ h.awaitingOnce
  awaitingStates c hc := by
    have hstate := h.awaitingStates c (hawaiting ▸ hc)
    rw [hstates c (.inr (.inl hstate)), hstate]
  askedOnce := h.askedOnce
  askedStates c hc := by
    have hstate := h.askedStates c hc
    rwa [hstates c (hstate.imp id .inr)]
  walking hphase c hc := by
    obtain ⟨hwalks, hcurrent⟩ := hengine hphase
    obtain ⟨hstate, hnot⟩ := h.walking hwalks c (hcurrent ▸ hc)
    exact ⟨by rw [hstates c (.inr (.inr hstate)), hstate], hnot⟩

theorem State.Listed.subperm {s : State} {asked asked' : List RequesterId} (h : s.Listed asked)
    (hsub : asked'.Subperm asked) : s.Listed asked' where
  awaitingOnce := h.awaitingOnce
  awaitingStates := h.awaitingStates
  askedOnce := by
    obtain ⟨l, hperm, hl⟩ := hsub
    exact hperm.nodup_iff.1 (hl.nodup h.askedOnce)
  askedStates c hc := h.askedStates c (hsub.subset hc)
  walking hphase c hc := ⟨(h.walking hphase c hc).1, fun hmem => (h.walking hphase c hc).2 (hsub.subset hmem)⟩

/-- R7, R79, R90: an end record is asked for, for a context that is being ended and has none asked for. -/
theorem State.Listed.ask {s : State} {asked : List RequesterId} {c : RequesterId} (h : s.Listed asked)
    (hnew : c ∉ asked) (hstate : (s.ctx c).state = .committing ∨ (s.ctx c).state = .rollingBack)
    (hengine : s.engine.phase = .walking → s.engine.current ≠ some c) : s.Listed (c :: asked) where
  awaitingOnce := h.awaitingOnce
  awaitingStates := h.awaitingStates
  askedOnce := List.nodup_cons.2 ⟨hnew, h.askedOnce⟩
  askedStates d hd := by
    rcases List.mem_cons.1 hd with rfl | hd
    · exact hstate
    · exact h.askedStates d hd
  walking hphase d hd := by
    obtain ⟨hrolling, hnot⟩ := h.walking hphase d hd
    refine ⟨hrolling, fun hmem => ?_⟩
    rcases List.mem_cons.1 hmem with rfl | hmem
    · exact hengine hphase hd
    · exact hnot hmem

/-- A context whose end record is asked for does not wait for its rollback. -/
theorem State.Listed.notAwaiting {s : State} {asked : List RequesterId} {c : RequesterId} (h : s.Listed asked)
    (hc : c ∈ asked) : c ∉ s.awaiting := by
  intro hmem
  rcases h.askedStates c hc with hstate | hstate <;> cases hstate.symm.trans (h.awaitingStates c hmem)

/-- A context in a state in which none is asked for has none asked for. -/
theorem State.Listed.notAsked {s : State} {asked : List RequesterId} {c : RequesterId} (h : s.Listed asked)
    (hcommitting : (s.ctx c).state ≠ .committing) (hrolling : (s.ctx c).state ≠ .rollingBack) : c ∉ asked :=
  fun hc => (h.askedStates c hc).elim hcommitting hrolling

/-- R82: the drains of a group of contexts in ABORT_PENDING are taken. -/
theorem State.Listed.pushDrain {s : State} {asked : List RequesterId} (h : s.Listed asked) (group : List RequesterId)
    (honce : group.Nodup) (hgroup : ∀ c ∈ group, (s.ctx c).state = .abortPending ∧ c ∉ s.awaiting) :
    ({ s with drains := s.drains ++ [group] } : State).Listed asked := by
  have hperm : (State.awaiting { s with drains := s.drains ++ [group] }).Perm (group ++ s.awaiting) := by
    simp only [State.awaiting, List.flatten_append, List.flatten_singleton, List.append_assoc]
    exact List.perm_append_comm_assoc _ _ _
  refine ⟨hperm.nodup_iff.2 (honce.append h.awaitingOnce ?_), fun c hc => ?_, h.askedOnce, h.askedStates, h.walking⟩
  · exact List.disjoint_left.2 (fun c hc => (hgroup c hc).2)
  · rcases List.mem_append.1 (hperm.subset hc) with hc | hc
    · exact (hgroup c hc).1
    · exact h.awaitingStates c hc

/-! ## What an operation keeps -/

/-- The queue stays, and both invariants pass from s, with these end records asked for, to t, with those. -/
structure State.Evolves (s : State) (asked : List RequesterId) (t : State) (asked' : List RequesterId) : Prop where
  pending : t.pending = s.pending
  device : s.deviceConsistent → t.deviceConsistent
  tracked : s.Tracked asked → t.Tracked asked'

/-- The same of two whole states: the end records asked for are those of their Journal Writers. -/
def State.Steps (s t : State) : Prop := s.Evolves s.endOwners t t.endOwners

/-- The same whatever end records are asked for, none of which is new. -/
structure State.Upholds (s t : State) : Prop where
  evolves : ∀ asked, s.Evolves asked t asked
  asked : t.endOwners.Subperm s.endOwners

theorem State.Evolves.trans {s t u : State} {a b c : List RequesterId} (h : s.Evolves a t b) (k : t.Evolves b u c) :
    s.Evolves a u c :=
  ⟨k.pending.trans h.pending, fun hs => k.device (h.device hs), fun hs => k.tracked (h.tracked hs)⟩

theorem State.Evolves.subperm {s t : State} {a b c : List RequesterId} (h : s.Evolves a t b) (hsub : c.Subperm b) :
    s.Evolves a t c :=
  ⟨h.pending, h.device, fun hs => ⟨(h.tracked hs).standing, (h.tracked hs).listed.subperm hsub⟩⟩

theorem State.Upholds.steps {s t : State} (h : s.Upholds t) : s.Steps t := (h.evolves _).subperm h.asked

theorem State.Upholds.trans {s t u : State} (h : s.Upholds t) (k : t.Upholds u) : s.Upholds u :=
  ⟨fun asked => (h.evolves asked).trans (k.evolves asked), k.asked.trans h.asked⟩

theorem State.Steps.trans {s t u : State} (h : s.Steps t) (k : t.Steps u) : s.Steps u := State.Evolves.trans h k

/-- The agreement of the device state (R156) does not read which notices stand. -/
theorem State.deviceConsistent_of_fields {s t : State} (hstate : t.device.state = s.device.state)
    (hcause : t.device.cause = s.device.cause) (hpower : t.device.powerFailPending = s.device.powerFailPending)
    (hloader : t.loader = s.loader) (hphase : t.recovery.phase.active → s.recovery.phase.active)
    (hs : s.deviceConsistent) : t.deviceConsistent := by
  obtain ⟨hload, hactive, hrest⟩ := hs
  unfold State.deviceConsistent
  rw [hstate, hcause, hpower, hloader]
  exact ⟨hload, fun h => hactive (hphase h), hrest⟩

theorem State.noticesMatch_of_states {s t : State} (hdevice : t.device.noticesStanding = s.device.noticesStanding)
    (hstates : ∀ c, (t.ctx c).state = .aborted ↔ (s.ctx c).state = .aborted) (hs : s.noticesMatch) : t.noticesMatch := by
  unfold State.noticesMatch at hs ⊢
  simpa only [hdevice, hstates] using hs

/-- What changes the controller's fields, the loader, the sequencer and the engine alone, and makes no notice and no
walking engine, keeps the notices tracked. -/
theorem State.Evolves.of_controller {s t : State}
    (h : t.overview = { s.overview with
      device := t.device, loader := t.loader, phase := t.recovery.phase, enginePhase := t.engine.phase
      current := t.engine.current, asked := t.endOwners })
    (hstanding : t.device.noticesStanding = s.device.noticesStanding)
    (hengine : t.engine.phase = .walking → s.engine.phase = .walking ∧ t.engine.current = s.engine.current)
    (hdevice : s.deviceConsistent → t.deviceConsistent) (asked : List RequesterId) : s.Evolves asked t asked := by
  have hstates : ∀ c, (t.ctx c).state = (s.ctx c).state := fun c => congrFun (congrArg Overview.states h) c
  have hdrains : t.drains = s.drains := congrArg Overview.drains h
  have hqueue : t.rollbackQueue = s.rollbackQueue := congrArg Overview.rollbackQueue h
  have hawaiting : t.awaiting = s.awaiting := by simp only [State.awaiting, hdrains, hqueue]
  exact ⟨congrArg Overview.pending h, hdevice, fun hs =>
    ⟨State.noticesMatch_of_states hstanding (fun c => by rw [hstates c]) hs.standing,
      hs.listed.mono hawaiting (fun c _ => hstates c) hengine⟩⟩

theorem State.Upholds.of_controller {s t : State}
    (h : t.overview = { s.overview with
      device := t.device, loader := t.loader, phase := t.recovery.phase, enginePhase := t.engine.phase
      current := t.engine.current, asked := t.endOwners })
    (hstanding : t.device.noticesStanding = s.device.noticesStanding)
    (hengine : t.engine.phase = .walking → s.engine.phase = .walking ∧ t.engine.current = s.engine.current)
    (hasked : t.endOwners.Subperm s.endOwners) (hdevice : s.deviceConsistent → t.deviceConsistent) : s.Upholds t :=
  ⟨State.Evolves.of_controller h hstanding hengine hdevice, hasked⟩

/-- What changes the overview at most in the end records asked for, and in a sequencer phase, at work if it was. -/
theorem State.Evolves.of_overview {s t : State}
    (h : t.overview = { s.overview with phase := t.recovery.phase, asked := t.endOwners })
    (hphase : t.recovery.phase.active → s.recovery.phase.active) (asked : List RequesterId) :
    s.Evolves asked t asked := by
  have hdevice : t.device = s.device := congrArg Overview.device h
  have hloader : t.loader = s.loader := congrArg Overview.loader h
  have hengine : t.engine.phase = s.engine.phase := congrArg Overview.enginePhase h
  have hcurrent : t.engine.current = s.engine.current := congrArg Overview.current h
  refine .of_controller ?_ (by rw [hdevice]) (fun hwalking => ⟨hengine ▸ hwalking, hcurrent⟩) ?_ asked
  · rw [hdevice, hloader, hengine, hcurrent]
    exact h
  · exact State.deviceConsistent_of_fields (by rw [hdevice]) (by rw [hdevice]) (by rw [hdevice]) hloader hphase

theorem State.Upholds.of_phase {s t : State} (h : t.overview = { s.overview with phase := t.recovery.phase })
    (hphase : t.recovery.phase.active → s.recovery.phase.active) : s.Upholds t := by
  have hasked : t.endOwners = s.endOwners := congrArg Overview.asked h
  refine ⟨State.Evolves.of_overview ?_ hphase, by rw [hasked]⟩
  rw [h, hasked]
  rfl

theorem State.Upholds.of_overview {s t : State} (h : t.overview = s.overview) : s.Upholds t :=
  have hphase : t.recovery.phase = s.recovery.phase := congrArg Overview.phase h
  .of_phase (by rw [h, hphase]; rfl) (fun k => hphase ▸ k)

theorem State.Upholds.refl (s : State) : s.Upholds s := .of_overview rfl

theorem State.Upholds.then_same {s t u : State} (h : s.Upholds t) (e : u.overview = t.overview) : s.Upholds u :=
  h.trans (.of_overview e)

theorem State.Upholds.after_same {s t u : State} (h : t.Upholds u) (e : t.overview = s.overview) : s.Upholds u :=
  (State.Upholds.of_overview e).trans h

theorem State.Steps.of_overview {s t : State} (h : t.overview = s.overview) : s.Steps t :=
  (State.Upholds.of_overview h).steps

theorem State.Steps.refl (s : State) : s.Steps s := .of_overview rfl

theorem State.Steps.then_same {s t u : State} (h : s.Steps t) (e : u.overview = t.overview) : s.Steps u :=
  h.trans (.of_overview e)

theorem State.Steps.after_same {s t u : State} (h : t.Steps u) (e : t.overview = s.overview) : s.Steps u :=
  (State.Steps.of_overview e).trans h

/-! ## Context records -/

theorem State.overview_modCtx (s : State) (c : RequesterId) (f : Context → Context)
    (h : (f (s.ctx c)).state = (s.ctx c).state) : (s.modCtx c f).overview = s.overview := by
  have hstates : ∀ d, ((s.modCtx c f).ctx d).state = (s.ctx d).state := by
    intro d
    rw [State.ctx_modCtx]
    split
    · subst_vars; exact h
    · rfl
  unfold State.overview
  rw [funext hstates]
  rfl

/-- Contexts that are not being ended change state, none into or out of ABORTED. -/
theorem State.modCtx_upholds (s : State) (c : RequesterId) (f : Context → Context)
    (hending : ¬ (s.ctx c).state.ending) (haborted : (f (s.ctx c)).state = .aborted ↔ (s.ctx c).state = .aborted) :
    s.Upholds (s.modCtx c f) := by
  refine ⟨fun asked => ⟨rfl, id, fun hs => ⟨?_, hs.listed.mono rfl (fun d hd => ?_) (fun h => ⟨h, rfl⟩)⟩⟩, .refl _⟩
  · refine State.noticesMatch_of_states (s := s) rfl (fun d => ?_) hs.standing
    rw [State.ctx_modCtx]
    split
    · subst_vars; exact haborted
    · exact Iff.rfl
  · have hne : d ≠ c := fun e => hending (e ▸ hd)
    rw [State.ctx_modCtx_other s c d f hne]

/-! ## Responses, holds and operations -/

theorem State.Shrinks.overview {s t : State} (h : s.Shrinks t) : t.overview = s.overview := by
  have hstates : ∀ c, (t.ctx c).state = (s.ctx c).state :=
    h.contexts (·.state) ⟨fun _ _ => rfl, fun _ _ => rfl⟩
  unfold State.overview
  rw [funext hstates, h.rest]
  rfl

theorem State.overview_endOp (s : State) (o : Operation) (code : ResponseCode) (detail : ResponseDetail) :
    (s.endOp o code detail).overview = s.overview := (s.endOp_shrinks o code detail).overview

theorem State.overview_removeHold (s : State) (l : LineAddr) : (s.removeHold l).overview = s.overview :=
  (s.removeHold_shrinks l).overview

/-- R76: a cancellation marks operations and withdraws some. -/
theorem State.overview_cancelOps (s : State) (who : Operation → Bool) : (s.cancelOps who).overview = s.overview :=
  (s.cancelOps_shrinks who).overview.trans rfl

theorem State.overview_answerHeld (s : State) (c : RequesterId) (code : ResponseCode) (detail : ResponseDetail)
    (outcome : ControlOutcome) : (s.answerHeld c code detail outcome).overview = s.overview := by
  rw [State.answerHeld_eq]
  exact s.overview_modCtx c (fun x =>
    { x with held := [], lastOutcome := if x.held = [] then x.lastOutcome else outcome }) rfl

/-! ## Drains and abort requests (R9, R11, R82) -/

theorem State.notAwaiting_of_drainDue {s : State} {c : RequesterId} (h : s.drainDue c = true) :
    (s.ctx c).state = .abortPending ∧ c ∉ s.awaiting := by
  obtain ⟨hstate, -, -, -, hdrains, hqueue⟩ := (s.drainDue_iff c).1 h
  refine ⟨hstate, fun hmem => ?_⟩
  rcases List.mem_append.1 hmem with hmem | hmem
  · obtain ⟨group, hgroup, hc⟩ := List.mem_flatten.1 hmem
    exact hdrains group hgroup hc
  · exact hqueue hmem

theorem State.pushDrain_upholds (s : State) (group : List RequesterId) (honce : group.Nodup)
    (hgroup : ∀ c ∈ group, s.drainDue c = true) : s.Upholds { s with drains := s.drains ++ [group] } :=
  ⟨fun _ => ⟨rfl, id, fun hs =>
    ⟨hs.standing, hs.listed.pushDrain group honce (fun c hc => State.notAwaiting_of_drainDue (hgroup c hc))⟩⟩,
    .refl _⟩

theorem State.noteDrain_upholds (s : State) (c : RequesterId) : s.Upholds (s.noteDrain c) := by
  unfold State.noteDrain
  split
  · rename_i hdue
    refine s.pushDrain_upholds [c] (List.nodup_singleton c) (fun d hd => ?_)
    rwa [List.mem_singleton.1 hd]
  · exact .refl s

theorem State.noteDrains_upholds (s : State) : s.Upholds s.noteDrains := by
  unfold State.noteDrains
  dsimp only
  split
  · exact .refl s
  · exact s.pushDrain_upholds _ (nodup_allContexts.filter _) (fun c hc => (List.mem_filter.1 hc).2)

theorem State.retireOp_upholds (s : State) (o : Operation) (code : ResponseCode) (detail : ResponseDetail) :
    s.Upholds (s.retireOp o code detail) :=
  (State.noteDrain_upholds _ _).after_same (s.overview_endOp o code detail)

/-- R9: an abort request takes an OPEN context to ABORT_PENDING. -/
theorem State.abortRequest_upholds (s : State) (c : RequesterId) (reason : AbortReason) :
    s.Upholds (s.abortRequest c reason) := by
  by_cases hopen : (s.ctx c).state = .opened
  · rw [s.abortRequest_taken c reason hopen]
    have hbegun : s.Upholds (s.modCtx c (fun x => x.toAbortPending reason)) :=
      s.modCtx_upholds c _ (by simp [hopen, ContextState.ending]) (by simp [hopen, Context.toAbortPending])
    exact (hbegun.then_same (State.overview_cancelOps _ _)).trans (State.noteDrain_upholds _ c)
  · rw [s.abortRequest_ignored c reason hopen]
    exact .refl s

theorem State.failOp_upholds (s : State) (o : Operation) (detail : ResponseDetail) (reason : AbortReason) :
    s.Upholds (s.failOp o detail reason) :=
  ((State.abortRequest_upholds _ _ _).trans (State.noteDrain_upholds _ _)).after_same (s.overview_endOp o .error detail)

/-! ## Faults and link reset (R158 to R160) -/

/-- In SERVING and DRAINING the device may go from one to the other. -/
theorem State.inService_upholds (s : State) (d : DeviceState) (hs : s.journals) (hd : d = .serving ∨ d = .draining) :
    s.Upholds { s with device := { s.device with state := d } } := by
  have hplain : ∀ x : DeviceState, x = .serving ∨ x = .draining → x ≠ .loading ∧ x ≠ .recovering ∧ x ≠ .passthrough
      ∧ x ≠ .faulted ∧ x ≠ .halted := by
    rintro x (rfl | rfl) <;> decide
  obtain ⟨hloading, hrecovering, hpassthrough, hfaulted, hhalted⟩ := hplain _ hs
  obtain ⟨-, -, -, hfaulted', hhalted'⟩ := hplain d hd
  refine .of_controller rfl rfl (fun h => ⟨h, rfl⟩) (.refl _) ?_
  rintro ⟨hload, hactive, -, hcause, -, hparams⟩
  exact ⟨fun h => absurd (hload h).1 hloading, fun h => absurd (hactive h).1 hrecovering, fun h => absurd h hfaulted',
    fun _ _ => hcause hfaulted hhalted, fun h => absurd h hhalted',
    fun _ _ _ => hparams hloading hpassthrough hhalted⟩

theorem State.drainTest_upholds (s : State) : s.Upholds s.drainTest := by
  unfold State.drainTest
  split
  · rename_i h
    exact s.inService_upholds .serving (.inr h.1) (.inl rfl)
  · exact .refl s

/-- R17: a link reset lets no context go that is being ended. -/
theorem Context.linkReset_ending {x : Context} (h : x.state.ending) : x.linkReset.state = x.state := by
  rcases h with h | h | h <;> simp [Context.linkReset, h]

/-- R17: after a link reset of the contexts no notice stands, and none is ABORTED. -/
theorem State.syncNotices_linkReset_upholds (s : State) : s.Upholds (s.modAll Context.linkReset).syncNotices := by
  have hasked : (s.modAll Context.linkReset).syncNotices.endOwners = s.endOwners := by
    simp [State.endOwners]
  refine ⟨fun asked => ⟨by simp, ?_, fun hs => ⟨State.syncNotices_standing _, hs.listed.mono ?_ (fun c hc => ?_) ?_⟩⟩, ?_⟩
  · exact State.deviceConsistent_of_fields (by simp [State.syncNotices]) (by simp [State.syncNotices])
      (by simp [State.syncNotices]) (by simp) (by simp)
  · simp [State.awaiting]
  · rw [State.ctx_syncNotices, State.ctx_modAll, Context.linkReset_ending hc]
  · simp
  · rw [hasked]

theorem State.takeLinkReset_upholds (s : State) : s.Upholds s.takeLinkReset := by
  by_cases hpower : s.device.powerFailPending = true
  · unfold State.takeLinkReset
    rw [if_pos hpower]
    exact .refl s
  have hpower' : s.device.powerFailPending = false := by simpa using hpower
  have hservice : s.journals → s.Upholds s.takeLinkReset := by
    intro hs
    rw [State.takeLinkReset_working s hpower' hs]
    have hcancelled : (s.forget.cancelOps (fun _ => true)).overview = s.overview :=
      (State.overview_cancelOps _ _).trans rfl
    have hreset := ((State.syncNotices_linkReset_upholds _).after_same hcancelled).trans (State.noteDrains_upholds _)
    have hstate : ((s.forget.cancelOps (fun _ => true)).modAll Context.linkReset).syncNotices.noteDrains.device.state
        = s.device.state := by simp [State.syncNotices]
    generalize ((s.forget.cancelOps (fun _ => true)).modAll Context.linkReset).syncNotices.noteDrains = u at hreset hstate
    exact (hreset.trans (u.inService_upholds .draining (by rwa [State.journals, hstate]) (.inr rfl))).trans
      (State.drainTest_upholds _)
  cases hstate : s.device.state with
  | serving => exact hservice (.inl hstate)
  | draining => exact hservice (.inr hstate)
  | faulted =>
    obtain ⟨hrest, hctx⟩ := State.takeLinkReset_faulted s hpower' hstate
    have hstates : ∀ c, (s.takeLinkReset.ctx c).state = (s.ctx c).state := fun c => by rw [hctx]
    refine .of_overview ?_
    unfold State.overview
    rw [funext hstates, hrest]
    rfl
  | passthrough =>
    unfold State.takeLinkReset
    rw [if_neg hpower, hstate]
    exact .of_overview rfl
  | loading | recovering | halted =>
    unfold State.takeLinkReset
    rw [if_neg hpower, hstate]
    exact .refl s

theorem State.entryLinkReset_upholds (s : State) : s.Upholds s.entryLinkReset := by
  unfold State.entryLinkReset
  split
  · exact s.takeLinkReset_upholds
  · exact .refl s

/-- R158: a state in FAULTED with a cause, its engine and sequencer stopped and the rest of the overview that of a state
in which the loader has ended. -/
theorem State.Upholds.of_faulted {s t : State} {cause : FaultCause} (hs : s.journals ∨ s.device.state = .recovering)
    (hcause : cause ≠ .noCause) (hphase : ¬ t.recovery.phase.active) (hengine : t.engine.phase ≠ .walking)
    (hdevice : t.device = { s.device with state := .faulted, cause := cause })
    (hrest : t.overview = { s.overview with
      device := t.device, phase := t.recovery.phase, enginePhase := t.engine.phase, current := t.engine.current }) :
    s.Upholds t := by
  have hloader : t.loader = s.loader := congrArg Overview.loader hrest
  have hasked : t.endOwners = s.endOwners := congrArg Overview.asked hrest
  obtain ⟨hloading, hpassthrough, hhalted⟩ : s.device.state ≠ .loading ∧ s.device.state ≠ .passthrough
      ∧ s.device.state ≠ .halted := by
    rcases hs with (hs | hs) | hs <;> rw [hs] <;> decide
  refine .of_controller ?_ (by rw [hdevice]) (fun h => absurd h hengine) (by rw [hasked]) ?_
  · rw [hloader, hasked]
    exact hrest
  · rintro ⟨hload, -, -, -, -, hparams⟩
    unfold State.deviceConsistent
    rw [hloader, hdevice]
    exact ⟨fun h => absurd (hload h).1 hloading, fun h => absurd h hphase, fun _ => hcause, fun h => absurd rfl h,
      fun h => (by cases h), fun _ _ _ => hparams hloading hpassthrough hhalted⟩

theorem State.overview_faultHeld (s : State) : s.faultHeld.overview = s.overview :=
  foldl_keeps State.overview (fun t c => t.answerHeld c .error .fault .notAvailable)
    (fun t c => t.overview_answerHeld c .error .fault .notAvailable) allContexts s

theorem State.overview_faultOps (s : State) : s.faultOps.overview = s.overview :=
  foldl_keeps State.overview (fun t o => t.endOp o .error .fault) (fun t o => t.overview_endOp o .error .fault) _ s

/-- R158: the entry into FAULTED; what it answers and ends changes no context's state. -/
theorem State.enterFaulted_upholds (s : State) (cause : FaultCause) (hcause : cause ≠ .noCause)
    (hs : s.journals ∨ s.device.state = .recovering) : s.Upholds (s.enterFaulted cause) := by
  have hended : s.faultHeld.faultOps.overview = s.overview :=
    s.faultHeld.overview_faultOps.trans s.overview_faultHeld
  unfold State.enterFaulted
  dsimp only
  generalize s.faultHeld.faultOps = u at hended
  have hdevice : u.device = s.device := congrArg Overview.device hended
  refine State.Upholds.after_same ?_ hended
  have hs' : u.journals ∨ u.device.state = .recovering := by
    unfold State.journals
    rw [hdevice]
    exact hs
  refine .of_faulted (cause := cause) hs' hcause ?_ (by simp [Engine.halt]) rfl rfl
  dsimp only
  split
  · rename_i h
    exact fun hactive => h.elim hactive.1 hactive.2.1
  · exact fun hactive => hactive.2.2 rfl

/-- R158: a fault report with a cause. -/
theorem State.reportFault_upholds (s : State) (cause : FaultCause) (hcause : cause ≠ .noCause) :
    s.Upholds (s.reportFault cause) := by
  unfold State.reportFault
  split
  · exact .refl s
  · split
    · exact s.enterFaulted_upholds cause hcause (.inl (.inl ‹_›))
    · exact s.enterFaulted_upholds cause hcause (.inl (.inr ‹_›))
    · exact (s.enterFaulted_upholds cause hcause (.inr ‹_›)).trans (State.entryLinkReset_upholds _)
    all_goals exact .refl s

/-! ## Durability (R8, R12, R47, R74, R90) -/

theorem State.overview_reevaluateTail (s : State) : s.reevaluateTail.overview = s.overview := by
  rw [State.reevaluateTail_rest]
  rfl

/-- An engine that has not begun to walk changes nothing that is tracked. -/
theorem State.setEngine_upholds (s : State) (e : Engine)
    (h : e.phase = .walking → s.engine.phase = .walking ∧ e.current = s.engine.current) :
    s.Upholds (s.setEngine e) :=
  .of_controller rfl rfl h (.refl _) id

theorem State.engineFreed_upholds (s : State) : s.Upholds s.engineFreed := by
  have hfreed : s.Upholds (s.setEngine { s.engine with
      current := none, foundCount := 0, phase := if s.engine.phase = .stopped then .stopped else .free }) := by
    refine s.setEngine_upholds _ (fun h => ?_)
    dsimp only at h
    split at h <;> cases h
  have htested : ∀ (u : State) (p : Prop) [Decidable p], s.Upholds u → s.Upholds (if p then u.drainTest else u) := by
    intro u p _ hu
    split
    · exact hu.trans u.drainTest_upholds
    · exact hu
  exact htested _ _ hfreed

theorem State.undoDurable_upholds (s : State) (l : LineAddr) : s.Upholds (s.undoDurable l) := by
  have hpromote : (s.promoteHold l).overview = s.overview := rfl
  unfold State.undoDurable
  dsimp only
  split
  · exact .of_overview hpromote
  · split
    · exact (State.retireOp_upholds _ _ _ _).after_same hpromote
    · exact .of_overview rfl

/-- R8, R12, R13: the report that an end record is durable takes it off those asked for. -/
theorem State.endDurable_evolves (s : State) (c : RequesterId) (kind : RecordKind) (asked : List RequesterId) :
    s.Evolves (c :: asked) (s.endDurable c kind) asked := by
  have hrest := s.endDurable_rest c kind
  have hother := fun d => s.endDurable_ctx_other c d kind
  have hstanding : (s.endDurable c kind).noticesMatch := State.syncNotices_standing _
  generalize s.endDurable c kind = t at hrest hother hstanding
  refine ⟨by rw [hrest], ?_, fun hs => ⟨hstanding, ?_⟩⟩
  · exact State.deviceConsistent_of_fields (by rw [hrest]) (by rw [hrest]) (by rw [hrest]) (by rw [hrest])
      (by rw [hrest]; exact id)
  · obtain ⟨-, hlisted⟩ := hs
    have hnotAwaiting := hlisted.notAwaiting List.mem_cons_self
    have hawaiting : t.awaiting = s.awaiting := by rw [hrest]; rfl
    have hengine : t.engine = s.engine := by rw [hrest]
    obtain ⟨hnot, honce⟩ := List.nodup_cons.1 hlisted.askedOnce
    refine ⟨hawaiting ▸ hlisted.awaitingOnce, fun d hd => ?_, honce, fun d hd => ?_, fun hphase d hd => ?_⟩
    · rw [hawaiting] at hd
      rw [hother d (fun e => hnotAwaiting (e ▸ hd))]
      exact hlisted.awaitingStates d hd
    · rw [hother d (fun e => hnot (e ▸ hd))]
      exact hlisted.askedStates d (List.mem_cons_of_mem c hd)
    · rw [hengine] at hphase hd
      obtain ⟨hstate, hd'⟩ := hlisted.walking hphase d hd
      rw [List.mem_cons, not_or] at hd'
      rw [hother d hd'.1]
      exact ⟨hstate, hd'.2⟩

/-- The contexts that own the end records of a list. -/
def ownersOfEnds (records : List AssignedRecord) : List RequesterId :=
  (records.filter (fun r => decide (r.record.kind ≠ .undo))).map (·.owner)

theorem State.endOwners_eq (s : State) :
    s.endOwners = s.journal.requests.map (·.context) ++ ownersOfEnds s.journal.records := rfl

theorem ownersOfEnds_append (l l' : List AssignedRecord) :
    ownersOfEnds (l ++ l') = ownersOfEnds l ++ ownersOfEnds l' := by
  simp [ownersOfEnds]

theorem ownersOfEnds_cons (r : AssignedRecord) (l : List AssignedRecord) :
    ownersOfEnds (r :: l) = if r.record.kind = .undo then ownersOfEnds l else r.owner :: ownersOfEnds l := by
  by_cases h : r.record.kind = .undo <;> simp [ownersOfEnds, h]

theorem State.endOwners_of_journal {s t : State} (h : t.journal = s.journal) : t.endOwners = s.endOwners := by
  rw [State.endOwners_eq, State.endOwners_eq, h]

/-- A change of records that keeps what they are for keeps their owners. -/
theorem ownersOfEnds_map (l : List AssignedRecord) (f : AssignedRecord → AssignedRecord)
    (hf : ∀ r, (f r).record = r.record ∧ (f r).owner = r.owner) : ownersOfEnds (l.map f) = ownersOfEnds l := by
  simp [ownersOfEnds, List.filter_map, Function.comp_def, hf]

/-- R47: the records the durable head passes are reported in order, and each end record is off those asked for. -/
theorem State.reportDurable_evolves (passed : List AssignedRecord) (asked : List RequesterId) (s : State) :
    s.Evolves (ownersOfEnds passed ++ asked) (passed.foldl (fun t r => t.reportDurable r) s) asked := by
  induction passed generalizing s with
  | nil => exact (State.Upholds.refl s).evolves asked
  | cons r rest ih =>
    rw [List.foldl_cons, ownersOfEnds_cons]
    unfold State.reportDurable
    cases hkind : r.record.kind with
    | undo => exact ((s.undoDurable_upholds _).evolves _).trans (ih _)
    | commit => exact (s.endDurable_evolves r.owner .commit _).trans (ih _)
    | abort => exact (s.endDurable_evolves r.owner .abort _).trans (ih _)

/-- R47: the durable head has moved over the marked records at its front; they are yet to be reported. -/
def State.headMoved (s : State) : State :=
  { s with journal := { s.journal with
      records := s.journal.records.dropWhile (·.mark)
      durableHead := s.advancePosition s.journal.durableHead (s.journal.records.takeWhile (·.mark)).length } }

/-- R47: the records passed leave the Journal Writer, and are reported. -/
theorem State.advanceDurable_steps (s : State) : s.Steps s.advanceDurable := by
  have hreports : ∀ (l : List AssignedRecord) (t : State),
      (l.foldl (fun t r => t.reportDurable r) t).journal = t.journal :=
    fun l t => foldl_keeps (fun s => s.journal) _ (fun t r => t.reportDurable_journal r) l t
  have hsplit : s.endOwners.Perm (ownersOfEnds (s.journal.records.takeWhile (·.mark)) ++ s.headMoved.endOwners) := by
    have hrecords : ownersOfEnds s.journal.records = ownersOfEnds (s.journal.records.takeWhile (·.mark))
        ++ ownersOfEnds (s.journal.records.dropWhile (·.mark)) := by
      rw [← ownersOfEnds_append, List.takeWhile_append_dropWhile]
    rw [State.endOwners_eq, hrecords]
    exact List.perm_append_comm_assoc _ _ _
  have hmoved : s.Evolves s.endOwners s.headMoved
      (ownersOfEnds (s.journal.records.takeWhile (·.mark)) ++ s.headMoved.endOwners) :=
    (State.Evolves.of_overview (s := s) (t := s.headMoved) rfl id _).subperm hsplit.symm.subperm
  have hreported : s.Steps
      ((s.journal.records.takeWhile (·.mark)).foldl (fun t r => t.reportDurable r) s.headMoved) := by
    have howners := State.endOwners_of_journal (hreports (s.journal.records.takeWhile (·.mark)) s.headMoved)
    exact (hmoved.trans (State.reportDurable_evolves _ _ _)).subperm (by rw [howners])
  have hended : ∀ (u : State) (p q : Prop) [Decidable p] [Decidable q], s.Steps u →
      s.Steps (if q then (if p then u.reevaluateTail else u).engineFreed else if p then u.reevaluateTail else u) := by
    intro u p q _ _ hu
    have htail : s.Steps (if p then u.reevaluateTail else u) := by
      split
      · exact hu.then_same u.overview_reevaluateTail
      · exact hu
    split
    · exact htail.trans (State.engineFreed_upholds _).steps
    · exact htail
  exact hended _ _ _ hreported

end Sys2Proof.Machine

/-! PROOFS. Family 11_device_states_power_fail_and_link_reset: what the blocks' operations make of the device state, the
notices and the queue of commands (R4, R7, R10, R13, R84, R90, R145 to R152, R157, R161). -/

namespace Sys2Proof.Machine

/-! ## Requests (chapter 4) -/

theorem State.overview_clearWait_respond (s : State) (r : RequesterId) (t : Tag) (code : ResponseCode)
    (detail : ResponseDetail) (data : Option Line) :
    ((s.clearWait r).respond r t code detail data).overview = s.overview :=
  s.overview_modCtx r (fun x => { x with wait := none }) rfl

theorem State.overview_updateWait (s : State) (r : RequesterId) (l : LineAddr) (holder : RequesterId) :
    (s.updateWait r l holder).overview = s.overview :=
  s.overview_modCtx r _ (by split <;> rfl)

theorem State.overview_takeTag (s : State) (r : RequesterId) (t : Tag) : (s.takeTag r t).overview = s.overview := rfl

theorem State.overview_enqueue (s : State) (r : RequesterId) (t : Tag) (l : LineAddr) (kind : AccessKind)
    (journaled : Bool) : (s.enqueue r t l kind journaled).overview = s.overview := by
  unfold State.enqueue
  split
  · rfl
  · dsimp only
    split
    · rfl
    · exact State.overview_modCtx _ r (fun x => { x with wait := none }) rfl

/-- R67, R71: a first write; one refused by quota or capacity aborts its context. -/
theorem State.startOperation_upholds (s : State) (r : RequesterId) (t : Tag) (l : LineAddr) (mask : ByteMask)
    (d : Line) : s.Upholds (s.startOperation r t l mask d) := by
  unfold State.startOperation
  split
  · exact .of_overview rfl
  · split
    · exact (s.abortRequest_upholds r _).then_same (State.overview_clearWait_respond _ r t _ _ _)
    · rename_i u hu
      obtain ⟨-, -, rfl⟩ := State.insertHold_inserted hu
      refine .of_overview ((State.overview_modCtx _ r _ rfl).trans ((State.overview_takeTag _ r t).trans ?_))
      exact State.overview_modCtx { s with holds := s.holds ++ [{ line := l, owner := r, state := .journaling }] } r
        (fun x => { x with holdsCount := x.holdsCount + 1 }) rfl

theorem State.journaledWrite_upholds (s : State) (r : RequesterId) (t : Tag) (l : LineAddr) (mask : ByteMask)
    (d : Line) : s.Upholds (s.journaledWrite r t l mask d) := by
  unfold State.journaledWrite
  split
  · split
    · exact s.startOperation_upholds r t l mask d
    · split
      · exact .of_overview rfl
      · exact .of_overview ((State.overview_modCtx _ r _ rfl).trans (s.overview_enqueue r t l _ true))
  · exact .of_overview rfl
  iterate 3 exact .of_overview (s.overview_clearWait_respond r t _ _ _)
  · exact .of_overview (s.overview_enqueue r t l _ false)

theorem State.dataWrite_upholds (s : State) (r : RequesterId) (t : Tag) (l : LineAddr) (mask : ByteMask) (d : Line) :
    s.Upholds (s.dataWrite r t l mask d) := by
  unfold State.dataWrite
  split
  · exact .of_overview rfl
  · split
    · exact .of_overview (s.overview_updateWait r l _)
    · split
      · exact s.journaledWrite_upholds r t l mask d
      · exact .of_overview (s.overview_enqueue r t l _ false)

theorem State.overview_faultedWrite (s : State) (r : RequesterId) (t : Tag) (l : LineAddr) (mask : ByteMask)
    (d : Line) : (s.faultedWrite r t l mask d).overview = s.overview := by
  unfold State.faultedWrite
  split
  · exact s.overview_clearWait_respond r t _ _ _
  · split
    · rfl
    · exact s.overview_enqueue r t l _ false

theorem State.overview_classifyRead (s : State) (r : RequesterId) (t : Tag) (l : LineAddr) :
    (s.classifyRead r t l).overview = s.overview := by
  unfold State.classifyRead
  split
  · rfl
  · split
    · rfl
    · split
      · exact s.overview_modCtx r (fun x => { x with arming := none }) rfl
      · split
        · rfl
        · exact s.overview_enqueue r t l .read false

theorem State.overview_handleRead (s : State) (r : RequesterId) (t : Tag) (l : LineAddr) :
    (s.handleRead r t l).overview = s.overview := by
  unfold State.handleRead
  split
  · rfl
  · split
    · rfl
    · split
      · split
        · rfl
        · exact s.overview_enqueue r t l .read false
      · exact s.overview_classifyRead r t l

/-! ## Control lines (chapters 6 and 7) -/

theorem State.overview_answerLine (s : State) (r : RequesterId) (t : Tag) (code : ResponseCode)
    (detail : ResponseDetail) (outcome : ControlOutcome) :
    (s.answerLine r t code detail outcome).overview = s.overview :=
  s.overview_modCtx r (fun x => { x with lastOutcome := outcome }) rfl

theorem State.refuseLine_steps (s : State) (r : RequesterId) (t : Tag) (outcome : ControlOutcome) :
    s.Steps (s.refuseLine r t outcome) :=
  .of_overview (s.overview_answerLine r t _ _ outcome)

theorem State.acceptLine_upholds (s : State) (r : RequesterId) (t : Tag) (outcome : ControlOutcome) :
    s.Upholds (s.acceptLine r t outcome) :=
  .of_overview (s.overview_answerLine r t _ _ outcome)

/-- R4: an IDLE context opens. -/
theorem State.takeOpen_steps (s : State) (r : RequesterId) (t : Tag) (label : Word64) :
    s.Steps (s.takeOpen r t label) := by
  unfold State.takeOpen
  split
  · rename_i hidle
    have hopened := (s.modCtx_upholds r (fun x => { x with
        state := .opened, openNumber := some s.openCounter, label := some label, undoCount := 0, holdsCount := 0
        opsInFlight := 0, forwardedOutstanding := 0, firstSlot := none, lastSlot := none, reason := none
        noticeDue := none, held := [] }) (by simp [hidle, ContextState.ending]) (by simp [hidle])).steps
    exact hopened.then_same ((State.overview_answerLine _ r t _ _ _).trans rfl)
  · exact s.refuseLine_steps r t _
  · exact s.refuseLine_steps r t _
  · exact .of_overview rfl
  · exact .of_overview rfl
  · exact s.refuseLine_steps r t _

/-- R79, R90: an end record is asked for, for one context more. -/
theorem State.askEndRecord_perm (s : State) (c : RequesterId) (kind : RecordKind) :
    (c :: s.endOwners).Perm (s.askEndRecord c kind).endOwners := by
  simp only [State.endOwners_eq, State.askEndRecord, List.map_append, List.map_singleton, List.append_assoc]
  exact List.perm_middle.symm

/-- R79, R90: an end record is asked for, for a context that is COMMITTING or ROLLING_BACK, has none asked for, and is
not the one a walking engine rolls back. -/
theorem State.Steps.asks {s t : State} {c : RequesterId} (kind : RecordKind) (h : s.Steps t)
    (hasks : s.Tracked s.endOwners → c ∉ t.endOwners
      ∧ ((t.ctx c).state = .committing ∨ (t.ctx c).state = .rollingBack)
      ∧ (t.engine.phase = .walking → t.engine.current ≠ some c)) : s.Steps (t.askEndRecord c kind) := by
  refine State.Evolves.subperm (b := c :: t.endOwners) ⟨h.pending, h.device, fun hs => ?_⟩
    (t.askEndRecord_perm c kind).symm.subperm
  obtain ⟨hnew, hstate, hengine⟩ := hasks hs
  have ht := h.tracked hs
  exact ⟨ht.standing, (ht.listed.ask hnew hstate hengine).mono rfl (fun _ _ => rfl) (fun k => ⟨k, rfl⟩)⟩

/-- R7, R79: an OPEN context is COMMITTING, and asks for its record at once if nothing is in flight. -/
theorem State.takeCommit_steps (s : State) (r : RequesterId) (t : Tag) : s.Steps (s.takeCommit r t) := by
  unfold State.takeCommit
  split
  case h_2 hopen =>
    have hheld : s.Upholds (s.modCtx r (fun x => { x with state := .committing, held := x.held ++ [t] })) :=
      s.modCtx_upholds r _ (by simp [hopen, ContextState.ending]) (by simp [hopen])
    have hcommitting := s.ctx_modCtx_self r (fun x => { x with state := .committing, held := x.held ++ [t] })
    dsimp only
    split
    · refine (hheld.steps.then_same (State.overview_takeTag _ r t)).asks .commit (fun hs =>
        ⟨?_, .inl (congrArg Context.state hcommitting), fun hwalking hcurrent => ?_⟩)
      · exact hs.listed.notAsked (by simp [hopen]) (by simp [hopen])
      · cases hopen.symm.trans (hs.listed.walking hwalking r hcurrent).1
    · exact hheld.steps.then_same (State.overview_takeTag _ r t)
  all_goals exact s.refuseLine_steps r t _

/-- R10: an ABORT joins the abort under way. -/
theorem State.overview_joinAbort (s : State) (r : RequesterId) (t : Tag) :
    (s.joinAbort r t).overview = s.overview :=
  s.overview_modCtx r (fun x => { x with held := x.held ++ [t], noticeDue := some false }) rfl

theorem State.takeAbort_steps (s : State) (r : RequesterId) (t : Tag) : s.Steps (s.takeAbort r t) := by
  unfold State.takeAbort
  split
  · exact s.refuseLine_steps r t _
  · exact (s.abortRequest_upholds r .requested).steps.then_same
      ((State.overview_takeTag _ r t).trans (State.overview_modCtx _ r (fun x => { x with held := [t] }) rfl))
  · exact s.refuseLine_steps r t _
  · exact .of_overview (s.overview_joinAbort r t)
  · exact .of_overview (s.overview_joinAbort r t)
  · exact s.refuseLine_steps r t _

/-- R13: the Context Table's report, after a change of contexts none of which is being ended. -/
theorem State.modCtx_syncNotices_upholds (s : State) (c : RequesterId) (f : Context → Context)
    (hending : ¬ (s.ctx c).state.ending) : s.Upholds (s.modCtx c f).syncNotices := by
  refine ⟨fun asked => ⟨rfl, State.deviceConsistent_of_fields rfl rfl rfl rfl id, fun hs =>
    ⟨State.syncNotices_standing _, hs.listed.mono rfl (fun d hd => ?_) (fun h => ⟨h, rfl⟩)⟩⟩, .refl _⟩
  rw [State.ctx_syncNotices, State.ctx_modCtx_other s c d f (fun e => hending (e ▸ hd))]

theorem State.overview_respond_syncNotices (s : State) (r : RequesterId) (t : Tag) (code : ResponseCode)
    (detail : ResponseDetail) (data : Option Line) :
    (s.respond r t code detail data).syncNotices.overview = s.syncNotices.overview := rfl

/-- R13, R105: an acknowledged context is IDLE, and its notice no longer stands. -/
theorem State.takeAcknowledge_upholds (s : State) (r : RequesterId) (t : Tag) : s.Upholds (s.takeAcknowledge r t) := by
  unfold State.takeAcknowledge
  split
  iterate 5 exact s.acceptLine_upholds r t _
  · rename_i haborted
    unfold State.acceptLine State.answerLine
    rw [State.modCtx_modCtx]
    exact State.Upholds.then_same (s.modCtx_syncNotices_upholds r _ (by simp [haborted, ContextState.ending]))
      (State.overview_respond_syncNotices _ r t _ _ _)

theorem State.overview_takeQuery (s : State) (r : RequesterId) (t : Tag) (l : LineAddr) :
    (s.takeQuery r t l).overview = s.overview :=
  (State.overview_answerLine _ r t _ _ .done).trans (s.overview_modCtx r (fun x => { x with arming := some l }) rfl)

theorem State.takeCommand_steps (s : State) (r : RequesterId) (t : Tag) (l : LineAddr) (label : Word64) (c : Command) :
    s.Steps (s.takeCommand r t l label c) := by
  cases c with
  | openTransaction => exact s.takeOpen_steps r t label
  | commit => exact s.takeCommit_steps r t
  | abort => exact s.takeAbort_steps r t
  | query => exact .of_overview (s.overview_takeQuery r t l)
  | acknowledge => exact (s.takeAcknowledge_upholds r t).steps

theorem State.takeFaulted_steps (s : State) (r : RequesterId) (t : Tag) (l : LineAddr) (c : Command) :
    s.Steps (s.takeFaulted r t l c) := by
  cases c with
  | query => exact .of_overview (s.overview_takeQuery r t l)
  | openTransaction | commit | abort | acknowledge => exact s.refuseLine_steps r t _

theorem State.controlLine_steps (s : State) (r : RequesterId) (t : Tag) (l : LineAddr) (d : Line) :
    s.Steps (s.controlLine r t l d) := by
  unfold State.controlLine State.takeMatched
  split
  · exact s.refuseLine_steps r t _
  · split
    · split
      · exact s.refuseLine_steps r t _
      · split
        · exact s.refuseLine_steps r t _
        · split
          · exact s.takeFaulted_steps r t l _
          · exact s.takeCommand_steps r t l _ _
    · exact (State.refuseLine_steps _ r t _).after_same rfl

theorem State.classifyWrite_steps (s : State) (take : Bool) (r : RequesterId) (t : Tag) (l : LineAddr)
    (mask : ByteMask) (d : Line) : s.Steps (s.classifyWrite take r t l mask d) := by
  have hsame : ∀ {u : State}, u.overview = s.overview → s.Steps u := .of_overview
  unfold State.classifyWrite
  split
  · exact hsame rfl
  · split
    · exact hsame (s.overview_clearWait_respond r t _ _ _)
    · split
      · exact hsame (s.overview_clearWait_respond r t _ _ _)
      · split
        · split
          · exact s.controlLine_steps r t l d
          · exact hsame rfl
        · split
          · exact hsame (s.overview_faultedWrite r t l mask d)
          · exact (s.dataWrite_upholds r t l mask d).steps

theorem State.handleWrite_steps (s : State) (take : Bool) (r : RequesterId) (t : Tag) (l : LineAddr) (mask : ByteMask)
    (d : Line) : s.Steps (s.handleWrite take r t l mask d) := by
  have hsame : ∀ {u : State}, u.overview = s.overview → s.Steps u := .of_overview
  unfold State.handleWrite
  split
  · exact hsame rfl
  · split
    · exact hsame rfl
    · split
      · split
        · exact hsame rfl
        · split
          · exact hsame (s.overview_clearWait_respond r t _ _ _)
          · exact hsame (s.overview_enqueue r t l _ false)
      · exact s.classifyWrite_steps take r t l mask d

/-- R107: the command of a waiting line, and of one that arrives. -/
theorem State.handleLine_steps (s : State) (r : RequesterId) (t : Tag) (l : LineAddr) (d : Line) :
    s.Steps (s.handleLine r t l d) := by
  unfold State.handleLine State.takeWaiting
  dsimp only
  split
  · split
    · exact ((s.withoutLine ⟨r, t, l, d⟩).controlLine_steps r t l d).after_same rfl
    · exact .refl s
  · exact s.handleWrite_steps true r t l fullMask d

/-! ## Loading, pins and timers (chapters 1, 7, 9 and 11) -/

/-- R94, R161: the engine stops, and with the link idle the wind-down ends in HALTED. -/
theorem State.settle_upholds (s : State) : s.Upholds s.settle := by
  unfold State.settle
  split
  · have hengine : s.Upholds (s.setEngine s.engine.windDown) := by
      refine s.setEngine_upholds _ (fun h => ?_)
      unfold Engine.windDown at h ⊢
      split at h
      · rename_i hflight
        rw [if_pos hflight]
        exact ⟨h, rfl⟩
      · cases h
    refine hengine.trans ?_
    change (s.setEngine s.engine.windDown).Upholds (s.setEngine s.engine.windDown).haltIfIdle
    generalize s.setEngine s.engine.windDown = u
    unfold State.haltIfIdle
    split
    · rename_i h
      refine .of_controller rfl rfl (fun h => ⟨h, rfl⟩) (.refl _) ?_
      rintro ⟨hload, hactive, -⟩
      have hpower : ¬ u.device.powerFailPending = false := by simp [h.1]
      exact ⟨fun k => absurd (hload k).2 hpower, fun k => absurd (hactive k).2 hpower, fun k => (by cases k),
        fun _ k => absurd rfl k, fun _ => rfl, fun _ _ k => absurd rfl k⟩
    · exact .refl u
  · exact .refl s

/-- R161: the wind-down begins; the loader and the sequencer stop. -/
theorem State.takePowerFail_upholds (s : State) : s.Upholds s.takePowerFail := by
  unfold State.takePowerFail
  split
  · exact .refl s
  · rename_i hrunning
    rw [not_or] at hrunning
    refine State.Upholds.trans ?_ (State.settle_upholds _)
    refine .of_controller rfl rfl (fun h => ⟨h, rfl⟩) (.refl _) ?_
    rintro ⟨-, hactive, hfaulted, hcause, -, hparams⟩
    refine ⟨fun h => absurd rfl h, fun h => ?_, hfaulted, hcause, fun h => absurd h hrunning.1, hparams⟩
    dsimp only at h
    split at h
    · exact absurd rfl h.2.2
    · rename_i hstate
      exact absurd (hactive h).1 hstate

theorem State.chooseVictim_upholds (s : State) (waiter holder : RequesterId) :
    s.Upholds (s.chooseVictim waiter holder) := by
  have hcleared : s.Upholds (s.modCtx waiter (fun x => { x with wait := none })) :=
    .of_overview (s.overview_modCtx waiter _ rfl)
  have hrestarted : ∀ u : State, (u.restartWait waiter).overview = u.overview := fun u => u.overview_modCtx waiter _ rfl
  have hholder : s.Upholds (s.victimHolder waiter holder) :=
    (s.abortRequest_upholds holder _).then_same (hrestarted _)
  unfold State.chooseVictim
  split
  iterate 4 exact hcleared
  iterate 6 exact .of_overview (hrestarted s)
  · exact hholder
  · split
    · exact s.abortRequest_upholds waiter _
    · exact hholder
  all_goals exact .refl s

theorem State.conflictExpiry_upholds (s : State) (waiter : RequesterId) (w : WaitRecord) :
    s.Upholds (s.conflictExpiry waiter w) := by
  unfold State.conflictExpiry
  split
  · exact .of_overview (s.overview_modCtx waiter _ rfl)
  · split
    · exact s.chooseVictim_upholds _ _
    · exact .of_overview (s.overview_modCtx waiter _ rfl)

theorem State.overview_pump (s : State) : s.pump.overview = s.overview := by
  rw [State.pump_rest]
  rfl

/-- R157: from LOADING the device enters RECOVERING with a parameter set, and the sequencer begins. -/
theorem State.loadSuccess_upholds (s : State) (b : ParamBlock) (hphase : s.loader.phase = .transfer) :
    s.Upholds (s.loadSuccess b) := by
  refine State.Upholds.then_same ?_ (State.overview_pump _)
  refine .of_controller rfl rfl (fun h => ⟨h, rfl⟩) (.refl _) ?_
  rintro ⟨hload, -, -, hcause, -, -⟩
  obtain ⟨hstate, hpower⟩ := hload (by simp [hphase])
  exact ⟨fun h => absurd rfl h, fun _ => ⟨rfl, hpower⟩, fun h => (by cases h),
    fun _ _ => hcause (by simp [hstate]) (by simp [hstate]), fun h => (by cases h), fun _ _ _ => rfl⟩

/-- R140: the loader pauses before another attempt, or the device enters PASSTHROUGH without a parameter set. -/
theorem State.loadFailure_upholds (s : State) (hphase : s.loader.phase = .transfer) : s.Upholds s.loadFailure := by
  have hloading : s.deviceConsistent → s.device.state = .loading ∧ s.device.powerFailPending = false :=
    fun hs => hs.1 (by simp [hphase])
  unfold State.loadFailure
  split
  · refine .of_controller rfl rfl (fun h => ⟨h, rfl⟩) (.refl _) (fun hs => ?_)
    exact ⟨fun _ => hloading hs, hs.2⟩
  · refine State.Upholds.trans ?_ (State.entryLinkReset_upholds _)
    refine .of_controller rfl rfl (fun h => ⟨h, rfl⟩) (.refl _) (fun hs => ?_)
    obtain ⟨hstate, hpower⟩ := hloading hs
    obtain ⟨-, hactive, -, hcause, -, -⟩ := hs
    exact ⟨fun h => absurd rfl h, fun h => (by cases hstate.symm.trans (hactive h).1), fun h => (by cases h),
      fun _ _ => hcause (by simp [hstate]) (by simp [hstate]), fun h => (by cases h), fun _ h => absurd rfl h⟩

/-! ## The memory link and the arbiter (chapter 8) -/

/-- A completion keeps what its delivery keeps: the freed slot and the wind-down add nothing. -/
theorem State.complete_steps (s : State) (k : AccessSlot) (mine : Purpose → Bool) (deliver : Access → State → State)
    (hdeliver : ∀ a (t : State), t.Steps (deliver a t)) : s.Steps (s.complete k mine deliver) := by
  unfold State.complete
  split
  · split
    · exact ((hdeliver _ (s.freeAccess k)).trans (State.settle_upholds _).steps).after_same rfl
    · exact .refl s
  · exact .refl s

/-- The records' owners and kinds stay where only their progress changes. -/
theorem State.overview_modRecord (s : State) (seq : Serial) (f : AssignedRecord → AssignedRecord)
    (hf : ∀ r, (f r).record = r.record ∧ (f r).owner = r.owner) : (s.modRecord seq f).overview = s.overview := by
  have hasked : (s.modRecord seq f).endOwners = s.endOwners := by
    have howners := ownersOfEnds_map s.journal.records (fun r => if r.record.seq = seq then f r else r)
      (fun r => by split; exacts [hf r, ⟨rfl, rfl⟩])
    rw [State.endOwners_eq, State.endOwners_eq, ← howners]
    rfl
  unfold State.overview
  rw [hasked]
  rfl

theorem AssignedRecord.setHalf_owner (r : AssignedRecord) (h : Half) (v : HalfWrite) :
    (r.setHalf h v).owner = r.owner := by cases h <;> rfl

theorem State.overview_markIssued (s : State) (k : AccessSlot) (a : Claim) :
    (s.markIssued k a).overview = s.overview := by
  unfold State.markIssued
  split
  case h_4 seq h _ => exact s.overview_modRecord seq _ (fun r => ⟨r.setHalf_record h _, r.setHalf_owner h _⟩)
  all_goals rfl

theorem State.overview_grant (s : State) (k : AccessSlot) (c : Claimant) : (s.grant k c).overview = s.overview := by
  unfold State.grant
  split
  · rename_i a _
    exact (s.putAccess k a.purpose a.line a.kind).overview_markIssued k a
  · rfl

/-! ## Forwarded accesses and journaling operations (4.4, 4.7) -/

theorem State.overview_answerForwarded (s : State) (e : ForwardEntry) (result : ReadResult) :
    (s.answerForwarded e result).overview = s.overview := by
  unfold State.answerForwarded
  split <;> rfl

theorem State.forwardComplete_upholds (k : AccessSlot) (result : ReadResult) (a : Access) (s : State) :
    s.Upholds (State.forwardComplete k result a s) := by
  have hcounted : ∀ (u : State) (e : ForwardEntry), u.Upholds (u.forwardedCounted e result) := by
    intro u e
    have hless : State.overview
        (u.modCtx e.requester (fun x => { x with forwardedOutstanding := x.forwardedOutstanding - 1 })) = u.overview := u.overview_modCtx _ _ rfl
    unfold State.forwardedCounted
    split
    · dsimp only
      refine State.Upholds.trans ?_ (State.noteDrain_upholds _ _)
      split
      · exact (State.abortRequest_upholds _ _ _).after_same hless
      · exact .of_overview hless
    · exact .refl u
  unfold State.forwardComplete
  split
  · exact .refl s
  · exact (hcounted _ _).after_same ((State.overview_answerForwarded _ _ result).trans rfl)

theorem State.oldLineReadDelivered_upholds (result : ReadResult) (a : Access) (s : State) :
    s.Upholds (State.oldLineReadDelivered result a s) := by
  unfold State.oldLineReadDelivered State.oldLineRead
  split
  · exact .refl s
  · split
    · exact (State.retireOp_upholds _ _ _ _).after_same (s.overview_removeHold _)
    · split
      · exact (State.failOp_upholds _ _ _ _).after_same (s.overview_removeHold _)
      · exact .of_overview rfl

theorem State.operationWrittenDelivered_upholds (result : WriteResult) (a : Access) (s : State) :
    s.Upholds (State.operationWrittenDelivered result a s) := by
  unfold State.operationWrittenDelivered
  split
  · exact .refl s
  · cases result with
    | okay => exact s.retireOp_upholds _ _ _
    | error => exact s.failOp_upholds _ _ _

/-- R42, R47: an UNDO record asks for no end. -/
theorem State.overview_grantUndo (s : State) (o : Operation) : (s.grantUndo o).overview = s.overview := by
  have hasked : (s.grantSlot o.requester (s.undoRecord o)).endOwners = s.endOwners := by
    rw [State.endOwners_eq, State.endOwners_eq]
    simp only [State.grantSlot, ownersOfEnds_append]
    simp [ownersOfEnds, State.undoRecord]
  have hgranted : (s.grantSlot o.requester (s.undoRecord o)).overview = s.overview := by
    unfold State.overview
    rw [hasked]
    rfl
  exact (State.overview_modCtx _ o.requester _ rfl).trans hgranted

theorem State.undoRequest_upholds (s : State) (o : Operation) : s.Upholds (s.undoRequest o) := by
  have htaken : s.Upholds (if Config.endReserve < s.freeSlots then s.grantUndo o else s.refuseUndo o) := by
    split
    · exact .of_overview (s.overview_grantUndo o)
    · exact (State.failOp_upholds _ _ _ _).after_same (s.overview_removeHold _)
  unfold State.undoRequest
  split
  · exact htaken
  · exact htaken
  · exact .of_overview (s.overview_endOp o _ _)
  all_goals exact .refl s

/-! ## The Journal Writer and the Header Writer (chapter 3) -/

theorem State.overview_operationWaits (s : State) (r : AssignedRecord) : (s.operationWaits r).overview = s.overview := by
  unfold State.operationWaits
  split <;> rfl

theorem State.recordFailed_upholds (s : State) (r : AssignedRecord) : s.Upholds (s.recordFailed r) := by
  have hfault : s.Upholds (s.reportFault r.record.kind.faultCause) :=
    s.reportFault_upholds _ (by cases r.record.kind <;> decide)
  unfold State.recordFailed State.failUndo
  split
  · split
    · exact hfault.trans (State.retireOp_upholds _ _ _ _)
    · exact hfault
  · exact hfault

theorem State.recordWritten_steps (result : WriteResult) (a : Access) (s : State) :
    s.Steps (State.recordWritten result a s) := by
  unfold State.recordWritten
  split
  · rename_i seq h _
    split
    · exact .refl s
    · rename_i r _
      split
      · exact (State.Upholds.of_overview
          (s.overview_modRecord _ _ (fun q => ⟨q.setHalf_record h _, q.setHalf_owner h _⟩))).steps
      · have hanswered : (s.modRecord seq (fun q => q.answer h result)).overview = s.overview :=
          s.overview_modRecord seq _ (fun q => ⟨q.answer_record h result, q.setHalf_owner h _⟩)
        unfold State.recordAnswered
        split
        · exact (State.advanceDurable_steps _).after_same ((State.overview_operationWaits _ _).trans hanswered)
        · split
          · exact ((State.recordFailed_upholds _ _).after_same hanswered).steps
          · exact (State.Upholds.of_overview hanswered).steps
  · exact .refl s

theorem State.headerWritten_upholds (result : WriteResult) (a : Access) (s : State) :
    s.Upholds (State.headerWritten result a s) := by
  have herror : ∀ w, s.Upholds (s.headerError w) := by
    intro w
    unfold State.headerError
    split
    · exact (State.reportFault_upholds _ .headerWrite (by decide)).after_same rfl
    · split
      · exact .of_overview rfl
      · exact (State.reportFault_upholds _ .headerWrite (by decide)).after_same rfl
  unfold State.headerWritten
  split
  · split
    · split <;> exact .of_overview rfl
    · split
      · exact .of_overview rfl
      · exact .of_overview rfl
      · exact herror _
  · exact .refl s

/-- R44: the request taken is one of those asked for, and the first of its context. -/
theorem State.endOwners_perm_of_request {s : State} {q : EndRequest} (hq : q ∈ s.journal.requests) :
    s.endOwners.Perm (q.context :: (s.endRequestTaken q.context).endOwners) := by
  have hrequests : (s.journal.requests.eraseP (fun p => decide (p.context = q.context))).map (·.context)
      = (s.journal.requests.map (·.context)).erase q.context := by
    have hsame : (fun p : EndRequest => decide (p.context = q.context)) = (· == q.context) ∘ (·.context) := by
      funext p
      simp [Bool.beq_eq_decide_eq]
    rw [List.erase_eq_eraseP', List.eraseP_map, hsame]
  have hperm := List.perm_cons_erase (List.mem_map_of_mem (f := (·.context)) hq)
  rw [← hrequests] at hperm
  exact hperm.append_right _

/-- R44: a granted end record stands for its request; an UNDO record would stand for none. -/
theorem State.grantSlot_endOwners (s : State) (c : RequesterId) (record : JournalRecord) :
    (s.grantSlot c record).endOwners.Subperm (c :: s.endOwners) := by
  have hgranted : (s.grantSlot c record).endOwners = s.endOwners ++ if record.kind = .undo then [] else [c] := by
    rw [State.endOwners_eq, State.endOwners_eq]
    simp only [State.grantSlot, ownersOfEnds_append, ownersOfEnds_cons, List.append_assoc]
    rfl
  rw [hgranted]
  split
  · rw [List.append_nil]
    exact (List.sublist_cons_self c _).subperm
  · exact List.perm_append_singleton c _ |>.subperm

/-- R44: a request taken is granted its record, or is reported durable at once. -/
theorem State.takeEndRequest_steps (s : State) (q : EndRequest) (hq : q ∈ s.journal.requests) :
    s.Steps (s.takeEndRequest q) := by
  have hperm := State.endOwners_perm_of_request hq
  have htaken : s.Evolves s.endOwners (s.endRequestTaken q.context)
      (q.context :: (s.endRequestTaken q.context).endOwners) :=
    (State.Evolves.of_overview (s := s) (t := s.endRequestTaken q.context) rfl id _).subperm hperm.symm.subperm
  unfold State.takeEndRequest
  dsimp only
  change s.Steps (if _ then (s.endRequestTaken q.context).grantSlot q.context q.record
    else (s.endRequestTaken q.context).endWithoutRecord q)
  generalize s.endRequestTaken q.context = u at htaken
  split
  · have hgranted : u.Evolves (q.context :: u.endOwners) (u.grantSlot q.context q.record) (q.context :: u.endOwners) :=
      State.Evolves.of_overview (s := u) (t := u.grantSlot q.context q.record) rfl id _
    exact (htaken.trans hgranted).subperm (u.grantSlot_endOwners q.context q.record)
  · have hended : s.Steps (u.endDurable q.context q.kind) := by
      have howners := State.endOwners_of_journal (u.endDurable_journal q.context q.kind)
      exact (htaken.trans (u.endDurable_evolves q.context q.kind _)).subperm (by rw [howners])
    have htail := hended.then_same (State.overview_reevaluateTail _)
    unfold State.endWithoutRecord
    dsimp only
    split
    · exact htail.trans (State.engineFreed_upholds _).steps
    · exact htail

end Sys2Proof.Machine

/-! PROOFS. Family 11_device_states_power_fail_and_link_reset: the Rollback Engine, the Recovery Sequencer, and every
command; the queue, and the agreement of device state, loader, sequencer and notices (R82, R84 to R90, R145 to R157). -/

namespace Sys2Proof.Machine

/-! ## The Rollback Engine (chapter 5) -/

theorem State.overview_claimRestore (s : State) : s.claimRestore.overview = s.overview := by
  unfold State.claimRestore
  split
  · rfl
  · split <;> rfl

theorem State.overview_claimRead (s : State) (slot : Nat) (h : Half) : (s.claimRead slot h).overview = s.overview := rfl

theorem State.afterExamine_upholds (s : State) (c : RequesterId) (slot : Nat) : s.Upholds (s.afterExamine c slot) := by
  unfold State.afterExamine
  dsimp only
  split
  · split
    · exact (State.reportFault_upholds _ .rollbackAccess (by decide)).after_same rfl
    · exact .of_overview (State.overview_claimRestore _)
  · exact .of_overview (State.overview_claimRestore _)

theorem State.readOkay_upholds (s : State) (rd : EngineRead) (d : Line) : s.Upholds (s.readOkay rd d) := by
  unfold State.readOkay State.examineSlot
  split
  · exact .of_overview (State.overview_claimRead _ _ _)
  · split
    · exact .refl s
    · exact (State.afterExamine_upholds _ _ _).after_same rfl

theorem State.readError_upholds (s : State) (rd : EngineRead) : s.Upholds (s.readError rd) := by
  unfold State.readError
  split
  · exact .of_overview rfl
  · exact (State.reportFault_upholds _ .rollbackAccess (by decide)).after_same rfl

theorem State.rollbackRead_upholds (result : ReadResult) (a : Access) (s : State) :
    s.Upholds (State.rollbackRead result a s) := by
  unfold State.rollbackRead
  split
  · exact .refl s
  · split
    · exact .of_overview rfl
    · split
      · exact s.readOkay_upholds _ _
      · exact s.readError_upholds _

theorem State.restoreError_upholds (s : State) (w : EngineRestore) : s.Upholds (s.restoreError w) := by
  unfold State.restoreError
  split
  · exact .of_overview rfl
  · exact (State.reportFault_upholds _ .rollbackAccess (by decide)).after_same rfl

theorem State.restored_upholds (result : WriteResult) (a : Access) (s : State) :
    s.Upholds (State.restored result a s) := by
  unfold State.restored
  split
  · exact .refl s
  · split
    · exact .of_overview rfl
    · split
      · exact .of_overview (State.overview_claimRestore _)
      · exact s.restoreError_upholds _

/-- R84: context c has left the queue, is ROLLING_BACK, and the engine is at work for it. -/
def State.taken (s : State) (c : RequesterId) (rest : List RequesterId) (e : Engine) : State :=
  (State.modCtx { s with rollbackQueue := rest } c (fun x => { x with state := .rollingBack })).setEngine e

theorem State.takeContext_eq (s : State) (c : RequesterId) (rest : List RequesterId) :
    s.takeContext c rest =
      if (s.ctx c).undoCount = 0 then
        (s.taken c rest { Engine.reset with phase := .closing, current := some c }).askEndRecord c .abort
      else
        s.taken c rest { Engine.reset with
          phase := .walking, current := some c, walkPosition := some ((s.ctx c).lastSlot.getD 0)
          read := some { slot := (s.ctx c).lastSlot.getD 0, half := .first, attempt := 1, issued := false } } := rfl

theorem State.taken_ctx_self (s : State) (c : RequesterId) (rest : List RequesterId) (e : Engine) :
    ((s.taken c rest e).ctx c).state = .rollingBack :=
  congrArg Context.state
    (State.ctx_modCtx_self { s with rollbackQueue := rest } c (fun x => { x with state := .rollingBack }))

theorem State.taken_ctx_other (s : State) (c d : RequesterId) (rest : List RequesterId) (e : Engine) (h : d ≠ c) :
    (s.taken c rest e).ctx d = s.ctx d :=
  State.ctx_modCtx_other { s with rollbackQueue := rest } c d (fun x => { x with state := .rollingBack }) h

/-- R82, R84: a context at the head of the queue waits no more, and has no end record asked for. -/
theorem State.taken_upholds (s : State) (c : RequesterId) (rest : List RequesterId) (e : Engine)
    (hqueue : s.rollbackQueue = c :: rest) (hcurrent : e.current = some c) : s.Upholds (s.taken c rest e) := by
  have hself := s.taken_ctx_self c rest e
  have hother := fun d => s.taken_ctx_other c d rest e
  have hawaiting : s.awaiting.Perm (c :: (s.taken c rest e).awaiting) := by
    unfold State.awaiting
    rw [hqueue]
    exact List.perm_middle
  refine ⟨fun asked => ⟨rfl, id, fun ⟨hstanding, hlisted⟩ => ?_⟩, .refl _⟩
  have hpending := hlisted.awaitingStates c (hawaiting.symm.subset List.mem_cons_self)
  have hnew : c ∉ asked := hlisted.notAsked (by simp [hpending]) (by simp [hpending])
  obtain ⟨hnot, honce⟩ := List.nodup_cons.1 (hawaiting.nodup_iff.1 hlisted.awaitingOnce)
  refine ⟨State.noticesMatch_of_states (s := s) rfl (fun d => ?_) hstanding, honce, fun d hd => ?_, hlisted.askedOnce,
    fun d hd => ?_, fun _ d hd => ?_⟩
  · by_cases hdc : d = c
    · subst hdc
      simp [hself, hpending]
    · rw [hother d hdc]
  · rw [hother d (fun h => hnot (h ▸ hd))]
    exact hlisted.awaitingStates d (hawaiting.symm.subset (List.mem_cons_of_mem c hd))
  · rw [hother d (fun h => hnew (h ▸ hd))]
    exact hlisted.askedStates d hd
  · obtain rfl : c = d := Option.some.inj (hcurrent.symm.trans hd)
    exact ⟨hself, hnew⟩

/-- R84, R90: the engine walks the context's records, or asks for the ABORT record of a context that has none. -/
theorem State.takeContext_steps (s : State) (c : RequesterId) (rest : List RequesterId)
    (hqueue : s.rollbackQueue = c :: rest) : s.Steps (s.takeContext c rest) := by
  rw [State.takeContext_eq]
  split
  · refine (s.taken_upholds c rest _ hqueue rfl).steps.asks .abort (fun hs =>
      ⟨?_, .inr (s.taken_ctx_self c rest _), ?_⟩)
    · have hpending := hs.listed.awaitingStates c (List.mem_append_right _ (hqueue ▸ List.mem_cons_self))
      exact hs.listed.notAsked (by simp [hpending]) (by simp [hpending])
    · exact fun h => (by cases h)
  · exact (s.taken_upholds c rest _ hqueue rfl).steps

/-- R90: the engine closes, and asks for the record of the context it has walked. -/
theorem State.closing_steps (s : State) (c : RequesterId) (hcurrent : s.engine.current = some c)
    (hwalking : s.engine.phase = .walking) :
    s.Steps (State.askEndRecord (s.setEngine { s.engine with phase := .closing, walkEnded := false }) c .abort) := by
  have hclosing := s.setEngine_upholds { s.engine with phase := .closing, walkEnded := false } (fun h => (by cases h))
  refine hclosing.steps.asks .abort (fun hs => ?_)
  obtain ⟨hstate, hnew⟩ := hs.listed.walking hwalking c hcurrent
  exact ⟨hnew, .inr hstate, fun h => (by cases h)⟩

/-! ## Drains and end records asked for (R79, R82) -/

/-- R82: a context that leaves its group leaves the others of the group and the groups behind it. -/
theorem flatten_dropDrain (c : RequesterId) (group : List RequesterId) (rest : List (List RequesterId)) :
    (dropDrain c group rest).flatten = group.erase c ++ rest.flatten := by
  unfold dropDrain
  split
  · rename_i h
    rw [List.isEmpty_iff.1 h, List.nil_append]
  · rfl

/-- R11, R82: the context waits on, in the queue. -/
theorem State.appendQueue_upholds (s : State) (c : RequesterId) (group : List RequesterId)
    (rest : List (List RequesterId)) (hdrains : s.drains = group :: rest) (hc : c ∈ group) :
    s.Upholds { s with rollbackQueue := s.rollbackQueue ++ [c], drains := dropDrain c group rest } := by
  have hmoved : s.awaiting.Perm
      (State.awaiting { s with rollbackQueue := s.rollbackQueue ++ [c], drains := dropDrain c group rest }) := by
    unfold State.awaiting
    dsimp only
    rw [hdrains, flatten_dropDrain, List.flatten_cons]
    calc group ++ rest.flatten ++ s.rollbackQueue
        _ = group ++ (rest.flatten ++ s.rollbackQueue) := List.append_assoc _ _ _
        _ |>.Perm (c :: (group.erase c ++ (rest.flatten ++ s.rollbackQueue))) :=
          (List.perm_cons_erase hc).append_right _
        _ |>.Perm (group.erase c ++ (rest.flatten ++ s.rollbackQueue) ++ [c]) :=
          (List.perm_append_singleton c _).symm
        _ = group.erase c ++ rest.flatten ++ (s.rollbackQueue ++ [c]) := by simp only [List.append_assoc]
  exact ⟨fun asked => ⟨rfl, id, fun ⟨hstanding, hlisted⟩ => ⟨hstanding, hmoved.nodup_iff.1 hlisted.awaitingOnce,
    fun d hd => hlisted.awaitingStates d (hmoved.symm.subset hd), hlisted.askedOnce, hlisted.askedStates,
    hlisted.walking⟩⟩, .refl _⟩

theorem State.endAsked_iff_mem (s : State) (c : RequesterId) : s.endAsked c = true ↔ c ∈ s.endOwners := by
  simp [State.endAsked_iff, State.endOwners, and_comm, and_left_comm, and_assoc]

/-! ## The Recovery Sequencer (chapter 10) -/

/-- The sequencer, at work, changes phase and issues. -/
theorem State.sequenced_upholds (s : State) (r : Recovery) (hactive : s.recovery.phase.active) :
    s.Upholds (State.pump { s with recovery := r }) := by
  have hchanged : s.Upholds { s with recovery := r } := .of_phase rfl (fun _ => hactive)
  exact hchanged.then_same (State.overview_pump _)

theorem State.beginWalk_upholds (s : State) (c : Chosen) (hactive : s.recovery.phase.active) :
    s.Upholds (s.beginWalk c) :=
  s.sequenced_upholds _ hactive

theorem State.beginReinit_upholds (s : State) (hactive : s.recovery.phase.active) : s.Upholds s.beginReinit :=
  s.sequenced_upholds _ hactive

theorem State.noHeader_upholds (s : State) (hactive : s.recovery.phase.active) : s.Upholds s.noHeader := by
  unfold State.noHeader
  split
  · exact (State.sequenced_upholds { s with draws := s.draws + 1 } _ hactive).after_same rfl
  · exact s.reportFault_upholds .noValidHeader (by decide)

theorem State.judgeHeaders_upholds (s : State) (hactive : s.recovery.phase.active) : s.Upholds s.judgeHeaders := by
  unfold State.judgeHeaders
  split
  · split
    · exact s.beginWalk_upholds _ hactive
    · exact s.noHeader_upholds hactive
  · exact .of_overview s.overview_pump

theorem State.stopWalk_upholds (s : State) (p : Position) (hactive : s.recovery.phase.active) :
    s.Upholds (s.stopWalk p) := by
  unfold State.stopWalk
  dsimp only
  split
  · exact (State.beginReinit_upholds _ (by exact hactive)).after_same rfl
  · exact s.sequenced_upholds _ hactive

theorem State.walkOn_upholds (s : State) (slot : Nat) (seq : Serial) (table : List Unended)
    (hactive : s.recovery.phase.active) : s.Upholds (s.walkOn slot seq table) := by
  unfold State.walkOn
  dsimp only
  split
  · exact (State.stopWalk_upholds _ _ (by exact hactive)).after_same rfl
  · exact s.sequenced_upholds _ hactive

theorem State.examineWalk_upholds (s : State) (v : Place) (hactive : s.recovery.phase.active) :
    s.Upholds (s.examineWalk v) := by
  unfold State.examineWalk
  dsimp only
  split
  · exact s.stopWalk_upholds _ hactive
  · split
    · exact s.stopWalk_upholds _ hactive
    · split
      · exact s.stopWalk_upholds _ hactive
      · exact s.walkOn_upholds _ _ _ hactive

theorem State.undoExamine_upholds (fuel : Nat) (s : State) : s.Upholds (State.undoExamine fuel s) := by
  induction fuel generalizing s with
  | zero => exact .refl s
  | succ n ih =>
    have hfault : s.Upholds (s.reportFault .recovery) := s.reportFault_upholds .recovery (by decide)
    unfold State.undoExamine
    split
    · exact .refl s
    · split
      · exact .refl s
      · split
        · exact hfault
        · split
          · exact hfault
          · split
            · split
              · exact .refl s
              · exact (ih _).after_same rfl
            · exact (ih _).after_same rfl

theorem State.undoGoOn_upholds (s : State) : s.Upholds s.undoGoOn := by
  have hexamined := State.undoExamine_upholds s.recovery.io.undo.length s
  unfold State.undoGoOn
  dsimp only
  split
  · rename_i hphase
    split
    · exact hexamined.trans (State.beginReinit_upholds _ (by simp [hphase, RecoveryPhase.active]))
    · exact hexamined.then_same (State.overview_pump _)
  · exact hexamined

/-- R41, R152, R157: from RECOVERING, with a parameter set, the device enters SERVING; the new journal has no record. -/
theorem State.recoverySuccess_upholds (s : State) (hactive : s.recovery.phase.active) :
    s.Upholds s.recoverySuccess := by
  refine State.Upholds.trans ?_ (State.entryLinkReset_upholds _)
  refine .of_controller rfl rfl (fun h => ⟨h, rfl⟩) (List.nil_sublist _).subperm ?_
  rintro ⟨hload, hrecovering, -, hcause, -, hparams⟩
  obtain ⟨hstate, -⟩ := hrecovering hactive
  refine ⟨fun h => ?_, fun h => absurd rfl h.2.1, fun h => (by cases h), fun _ _ => ?_, fun h => (by cases h),
    fun _ _ _ => ?_⟩
  · cases hstate.symm.trans (hload h).1
  · exact hcause (by simp [hstate]) (by simp [hstate])
  · exact hparams (by simp [hstate]) (by simp [hstate]) (by simp [hstate])

theorem State.headerRead_upholds (result : ReadResult) (a : Access) (s : State) :
    s.Upholds (State.headerRead result a s) := by
  unfold State.headerRead
  split
  case h_1 hphase _ => exact (State.judgeHeaders_upholds _ (by simp [hphase, RecoveryPhase.active])).after_same rfl
  case h_2 hphase _ => exact (State.judgeHeaders_upholds _ (by simp [hphase, RecoveryPhase.active])).after_same rfl
  · exact s.reportFault_upholds .recovery (by decide)
  · exact .refl s

theorem State.zeroed_upholds (result : WriteResult) (a : Access) (s : State) : s.Upholds (State.zeroed result a s) := by
  unfold State.zeroed
  split
  · exact .of_overview (State.overview_pump _)
  · exact s.reportFault_upholds .recovery (by decide)
  · exact .refl s

theorem State.formatHeaderWritten_upholds (result : WriteResult) (a : Access) (s : State) :
    s.Upholds (State.formatHeaderWritten result a s) := by
  unfold State.formatHeaderWritten
  split
  case h_1 hphase _ =>
    dsimp only
    split
    · exact (State.beginWalk_upholds _ _ (by simp [hphase, RecoveryPhase.active])).after_same rfl
    · exact .of_overview (State.overview_pump _)
  · exact s.reportFault_upholds .recovery (by decide)
  · exact .refl s

theorem State.walkRead_upholds (result : ReadResult) (a : Access) (s : State) :
    s.Upholds (State.walkRead result a s) := by
  unfold State.walkRead
  split
  case h_1 hphase _ =>
    dsimp only
    split
    · exact (State.examineWalk_upholds _ _ (by simp [hphase, RecoveryPhase.active])).after_same rfl
    · exact .of_overview (State.overview_pump _)
  · exact s.reportFault_upholds .recovery (by decide)
  · exact .refl s

theorem State.undoSlotRead_upholds (result : ReadResult) (a : Access) (s : State) :
    s.Upholds (State.undoSlotRead result a s) := by
  unfold State.undoSlotRead
  split
  · exact (State.undoGoOn_upholds _).after_same rfl
  · exact s.reportFault_upholds .recovery (by decide)
  · exact .refl s

theorem State.recoveryRestored_upholds (result : WriteResult) (a : Access) (s : State) :
    s.Upholds (State.recoveryRestored result a s) := by
  unfold State.recoveryRestored
  split
  · exact (State.undoGoOn_upholds _).after_same rfl
  · exact s.reportFault_upholds .recovery (by decide)
  · exact .refl s

theorem State.reinitWritten_upholds (result : WriteResult) (a : Access) (s : State) :
    s.Upholds (State.reinitWritten result a s) := by
  unfold State.reinitWritten
  split
  case h_1 hphase _ =>
    dsimp only
    split
    · exact (State.recoverySuccess_upholds _ (by simp [hphase, RecoveryPhase.active])).after_same rfl
    · exact .of_overview (State.overview_pump _)
  · exact s.reportFault_upholds .recovery (by decide)
  · exact .refl s

/-! ## Every command -/

/-- An outcome that is a next state, to which the queue and both invariants pass. -/
def State.StepsTo (s : State) (o : Result) : Prop := ∃ t, o = .next t ∧ s.Steps t

theorem State.Steps.next {s t : State} (h : s.Steps t) : s.StepsTo (.next t) := ⟨t, rfl, h⟩

theorem State.Upholds.next {s t : State} (h : s.Upholds t) : s.StepsTo (.next t) := h.steps.next

theorem State.StepsTo.of_overview {s t : State} (h : t.overview = s.overview) : s.StepsTo (.next t) :=
  (State.Steps.of_overview h).next

theorem State.StepsTo.refl (s : State) : s.StepsTo (.next s) := .of_overview rfl

/-- R156: at power-on the device states and the tables agree, whatever went before; the queue stays. -/
theorem State.powerOn_steps (s : State) (porst : Bool) : s.Steps (s.powerOnValues porst) :=
  ⟨rfl, fun _ => reset_deviceConsistent, fun _ => (State.noticesTracked_iff _).1 reset_noticesTracked⟩

/-- R140, R142: the loader is idle. -/
theorem State.loaderIdle_upholds (s : State) : s.Upholds { s with loader := { s.loader with phase := .idle } } :=
  .of_controller rfl rfl (fun h => ⟨h, rfl⟩) (.refl _) (fun ⟨_, hrest⟩ => ⟨fun h => absurd rfl h, hrest⟩)

theorem execPorstNAssert_stepsTo (s : State) : s.StepsTo (execPorstNAssert s) := by
  refine State.Steps.next ?_
  split
  · exact .refl s
  · exact (s.powerOn_steps true).trans (State.loaderIdle_upholds _).steps

theorem execPorstNDeassert_stepsTo (s : State) : s.StepsTo (execPorstNDeassert s) := by
  have hreset := s.powerOn_steps false
  refine State.Steps.next ?_
  dsimp only
  generalize s.powerOnValues false = u at hreset
  split
  · split
    · exact hreset.trans u.takePowerFail_upholds.steps
    · exact hreset
  · exact .refl s

theorem execLinkReset_stepsTo (s : State) : s.StepsTo (execLinkReset s) := by
  refine State.Upholds.next ?_
  split
  · exact .refl s
  · dsimp only
    split
    · exact .of_overview rfl
    · exact (State.takeLinkReset_upholds _).after_same rfl

theorem execLrstNDeassert_stepsTo (s : State) : s.StepsTo (execLrstNDeassert s) :=
  State.Upholds.next ((State.drainTest_upholds { s with pins := { s.pins with lrst := false } }).after_same rfl)

theorem execPfailNAssert_stepsTo (s : State) : s.StepsTo (execPfailNAssert s) := by
  refine State.Upholds.next ?_
  split
  · exact .refl s
  · dsimp only
    split
    · exact .of_overview rfl
    · exact (State.takePowerFail_upholds _).after_same rfl

theorem execConflictTimerExpiry_stepsTo (waiter : RequesterId) (s : State) :
    s.StepsTo (execConflictTimerExpiry waiter s) := by
  unfold execConflictTimerExpiry
  split
  · split
    · exact (s.conflictExpiry_upholds waiter _).next
    · exact .refl s
  · exact .refl s

theorem execLockoutExpiry_stepsTo (s : State) : s.StepsTo (execLockoutExpiry s) := by
  unfold execLockoutExpiry
  split
  · split <;> exact .of_overview rfl
  · exact .refl s

/-- R140: a loader that pauses works on. -/
theorem execLoadPauseEnd_stepsTo (s : State) : s.StepsTo (execLoadPauseEnd s) := by
  unfold execLoadPauseEnd
  split
  · rename_i hphase
    split
    · refine State.Upholds.next (.of_controller rfl rfl (fun h => ⟨h, rfl⟩) (.refl _) ?_)
      rintro ⟨hload, hrest⟩
      exact ⟨fun _ => hload (by simp [hphase]), hrest⟩
    · exact .refl s
  · exact .refl s
  · exact .refl s

theorem execConfigurationTransferEnd_stepsTo (sampled : SampledBits) (s : State) :
    s.StepsTo (execConfigurationTransferEnd sampled s) := by
  unfold execConfigurationTransferEnd
  split
  · rename_i hphase
    split
    · exact (s.loadSuccess_upholds _ hphase).next
    · exact (s.loadFailure_upholds hphase).next
  · exact .refl s
  · exact .refl s

theorem execArbiterGrant_stepsTo (k : AccessSlot) (s : State) : s.StepsTo (execArbiterGrant k s) := by
  unfold execArbiterGrant
  split
  · split
    · exact .of_overview (s.overview_grant k _)
    · exact .refl s
  · exact .refl s

theorem execUndoSlotRequest_stepsTo (l : LineAddr) (s : State) : s.StepsTo (execUndoSlotRequest l s) := by
  unfold execUndoSlotRequest
  split
  · split
    · exact (s.undoRequest_upholds _).next
    · exact .refl s
  · exact .refl s

theorem execEndRecordRequest_stepsTo (c : RequesterId) (s : State) : s.StepsTo (execEndRecordRequest c s) := by
  unfold execEndRecordRequest
  split
  · rename_i hq
    split
    · exact (s.takeEndRequest_steps _ (List.mem_of_find?_eq_some hq)).next
    · exact .refl s
  · exact .refl s

theorem execCommitRecordAsk_stepsTo (c : RequesterId) (s : State) : s.StepsTo (execCommitRecordAsk c s) := by
  unfold execCommitRecordAsk
  split
  · rename_i h
    obtain ⟨hcommitting, -, hnew⟩ := h
    refine State.Steps.next ((State.Steps.refl s).asks .commit (fun hs =>
      ⟨?_, .inl hcommitting, fun hwalking hc => ?_⟩))
    · rw [← s.endAsked_iff_mem, hnew]
      decide
    · cases hcommitting.symm.trans (hs.listed.walking hwalking c hc).1
  · exact .refl s

theorem execRollbackQueueAppend_stepsTo (c : RequesterId) (s : State) : s.StepsTo (execRollbackQueueAppend c s) := by
  unfold execRollbackQueueAppend
  split
  · rename_i hdrains
    split
    · rename_i hc
      exact (s.appendQueue_upholds c _ _ hdrains (List.contains_iff_mem.1 hc)).next
    · exact .refl s
  · exact .refl s

theorem execRollbackTakeContext_stepsTo (s : State) : s.StepsTo (execRollbackTakeContext s) := by
  unfold execRollbackTakeContext
  split
  · rename_i hqueue
    split
    · exact (s.takeContext_steps _ _ hqueue).next
    · exact .refl s
  · exact .refl s

theorem execAbortRecordAsk_stepsTo (s : State) : s.StepsTo (execAbortRecordAsk s) := by
  unfold execAbortRecordAsk
  split
  · rename_i c hcurrent
    split
    · rename_i h
      exact (s.closing_steps c hcurrent ((Engine.finished_iff _).1 h.1).1).next
    · exact .refl s
  · exact .refl s

theorem execTimebaseAdvance_stepsTo (s : State) : s.StepsTo (execTimebaseAdvance s) := by
  unfold execTimebaseAdvance
  split <;> exact .of_overview rfl

theorem State.complete_stepsTo (s : State) (k : AccessSlot) (mine : Purpose → Bool) (deliver : Access → State → State)
    (hdeliver : ∀ a (t : State), t.Upholds (deliver a t)) : s.StepsTo (.next (s.complete k mine deliver)) :=
  (s.complete_steps k mine deliver (fun a t => (hdeliver a t).steps)).next

/-- Every command answers a next state, to which the queue and both invariants pass. -/
theorem exec_stepsTo (i : Instr) (s : State) : s.StepsTo (exec i s) := by
  cases i with
  | porstNAssert => exact execPorstNAssert_stepsTo s
  | porstNDeassert => exact execPorstNDeassert_stepsTo s
  | linkReset => exact execLinkReset_stepsTo s
  | lrstNDeassert => exact execLrstNDeassert_stepsTo s
  | pfailNAssert => exact execPfailNAssert_stepsTo s
  | pfailNDeassert => exact .of_overview rfl
  | readRequest r t l => exact .of_overview (s.overview_handleRead r t l)
  | writeRequest r t l m d => exact (s.handleWrite_steps false r t l m d).next
  | queryRead r t l => exact .of_overview (s.overview_handleRead r t l)
  | openTransaction r t l f => exact (s.handleLine_steps r t l _).next
  | commit r t l f => exact (s.handleLine_steps r t l _).next
  | abort r t l f => exact (s.handleLine_steps r t l _).next
  | query r t l f => exact (s.handleLine_steps r t l _).next
  | acknowledge r t l f => exact (s.handleLine_steps r t l _).next
  | controlLineUnknownCommand r t l c f => exact (s.handleLine_steps r t l _).next
  | conflictTimerExpiry w => exact execConflictTimerExpiry_stepsTo w s
  | lockoutExpiry => exact execLockoutExpiry_stepsTo s
  | loadPauseEnd => exact execLoadPauseEnd_stepsTo s
  | configurationTransferEnd b => exact execConfigurationTransferEnd_stepsTo b s
  | forwardAccessComplete k r => exact s.complete_stepsTo k _ _ (State.forwardComplete_upholds k r)
  | oldLineReadComplete k r => exact s.complete_stepsTo k _ _ (State.oldLineReadDelivered_upholds r)
  | recordWriteComplete k r => exact (s.complete_steps k _ _ (State.recordWritten_steps r)).next
  | operationForwardedWriteComplete k r => exact s.complete_stepsTo k _ _ (State.operationWrittenDelivered_upholds r)
  | headerWriteComplete k r => exact s.complete_stepsTo k _ _ (State.headerWritten_upholds r)
  | rollbackReadComplete k r => exact s.complete_stepsTo k _ _ (State.rollbackRead_upholds r)
  | restoreWriteComplete k r => exact s.complete_stepsTo k _ _ (State.restored_upholds r)
  | recoveryHeaderReadComplete k r => exact s.complete_stepsTo k _ _ (State.headerRead_upholds r)
  | zeroingWriteComplete k r => exact s.complete_stepsTo k _ _ (State.zeroed_upholds r)
  | formatHeaderWriteComplete k r => exact s.complete_stepsTo k _ _ (State.formatHeaderWritten_upholds r)
  | forwardWalkReadComplete k r => exact s.complete_stepsTo k _ _ (State.walkRead_upholds r)
  | undoPassReadComplete k r => exact s.complete_stepsTo k _ _ (State.undoSlotRead_upholds r)
  | recoveryRestoreComplete k r => exact s.complete_stepsTo k _ _ (State.recoveryRestored_upholds r)
  | reinitHeaderWriteComplete k r => exact s.complete_stepsTo k _ _ (State.reinitWritten_upholds r)
  | memoryResponseUnknownSlot k r => exact .refl s
  | arbiterGrant k => exact execArbiterGrant_stepsTo k s
  | undoSlotRequest l => exact execUndoSlotRequest_stepsTo l s
  | endRecordRequest c => exact execEndRecordRequest_stepsTo c s
  | commitRecordAsk c => exact execCommitRecordAsk_stepsTo c s
  | rollbackQueueAppend c => exact execRollbackQueueAppend_stepsTo c s
  | rollbackTakeContext => exact execRollbackTakeContext_stepsTo s
  | abortRecordAsk => exact execAbortRecordAsk_stepsTo s
  | timebaseAdvance => exact execTimebaseAdvance_stepsTo s

/-- A step on an empty queue idles; any other runs a command on the rest of the queue. -/
theorem step_eq_exec {s : State} {c : Instr} {rest : List Instr} (h : s.pending = c :: rest) :
    step s = exec c { s with pending := rest } := by
  unfold step
  rw [h]

theorem step_idles {s : State} (h : s.pending = []) : step s = .next s := by
  unfold step
  rw [h]

/-- Both invariants pass over a step. -/
theorem step_keepsInvariants {s t : State} (h : step s = .next t) :
    (s.deviceConsistent → t.deviceConsistent) ∧ (s.noticesTracked → t.noticesTracked) := by
  cases hpending : s.pending with
  | nil =>
    cases (step_idles hpending).symm.trans h
    exact ⟨id, id⟩
  | cons c rest =>
    obtain ⟨u, hu, hsteps⟩ := exec_stepsTo c { s with pending := rest }
    cases (hu.symm.trans (step_eq_exec hpending).symm).trans h
    exact ⟨hsteps.device, fun hs =>
      t.noticesTracked_iff.2 (hsteps.tracked ((State.noticesTracked_iff { s with pending := rest }).1 hs))⟩

/-- Settles O1: a step is the front command on the rest of the queue, or idles. -/
theorem stepRunsTheFrontCommand : Obligations.StepRunsTheFrontCommand :=
  ⟨fun _ _ _ => step_eq_exec, fun _ => step_idles⟩

/-- Settles O2: each command answers a next state with the same queue. -/
theorem commandsCompleteAndKeepTheQueue : Obligations.CommandsCompleteAndKeepTheQueue := by
  intro c s
  obtain ⟨t, ht, hsteps⟩ := exec_stepsTo c s
  exact ⟨t, ht, hsteps.pending⟩

/-- Settles O58: each operation that a command runs keeps both invariants. -/
theorem deviceStateStaysConsistent : Obligations.DeviceStateStaysConsistent :=
  ⟨fun _ _ hs hstep => (step_keepsInvariants hstep).1 hs, fun _ _ hs hstep => (step_keepsInvariants hstep).2 hs⟩

end Sys2Proof.Machine

/-! PROOFS. Family 11_device_states_power_fail_and_link_reset: RDY and ATTN, and what the assertion and the deassertion of
each pin does (R156, R157, R159 to R162). -/

namespace Sys2Proof.Machine

/-! ## RDY and ATTN (R162) -/

/-- Settles O9: both are read off the pins and the device state. -/
theorem readyAndAttention : Obligations.ReadyAndAttention := by
  intro s
  constructor
  · simp [State.rdy, and_assoc, or_assoc]
  · simp [State.attn, or_assoc]

/-! ## Deassertions (R160, R161) -/

theorem State.noneAborting_iff (s : State) :
    s.noneAborting = true ↔ ∀ c, (s.ctx c).state ≠ .abortPending ∧ (s.ctx c).state ≠ .rollingBack := by
  simp [State.noneAborting, Context.aborting, mem_allContexts]

/-- R160: the end of DRAINING. -/
theorem State.drainTest_ends {s : State} (hdraining : s.device.state = .draining) (hlrst : s.pins.lrst = false)
    (hpower : s.device.powerFailPending = false) (hnone : s.noneAborting = true) :
    s.drainTest = { s with device := { s.device with state := .serving } } :=
  if_pos ⟨hdraining, hlrst, hpower, hnone⟩

/-- Settles O7: the deassertion of LRST_N is the test for the end of DRAINING. -/
theorem pinDeassertions : Obligations.PinDeassertions := by
  refine ⟨fun s hdraining hpower hnone => ?_, fun s hnot => ?_, fun s => rfl⟩
  · exact congrArg Host.Outcome.next (State.drainTest_ends (s := { s with pins := { s.pins with lrst := false } })
      hdraining rfl hpower ((State.noneAborting_iff _).2 hnone))
  · refine congrArg Host.Outcome.next (if_neg ?_)
    rintro ⟨hdraining, -, hpower, hnone⟩
    exact hnot ⟨hdraining, hpower, (State.noneAborting_iff _).1 hnone⟩

/-! ## The assertion of PFAIL_N (R161) -/

/-- R161: power-fail is pending, and the loader, the header image and the sequencer are stopped; the engine and the link
are yet to settle. -/
def State.failing (s : State) : State :=
  { s with
    device := { s.device with powerFailPending := true }
    loader := { s.loader with phase := .idle }
    header := { s.header with pendingImage := none }
    recovery := if s.device.state = .recovering then { s.recovery with phase := .stopped } else s.recovery }

theorem State.takePowerFail_running {s : State} (hhalted : s.device.state ≠ .halted)
    (hpower : s.device.powerFailPending = false) : s.takePowerFail = s.failing.woundDown := by
  unfold State.takePowerFail
  rw [if_neg (by simp [hhalted, hpower]), State.settle_eq]
  rfl

theorem State.takePowerFail_none {s : State} (h : s.device.state = .halted ∨ s.device.powerFailPending = true) :
    s.takePowerFail = s :=
  if_pos h

/-- R94: an access of the engine's own is in flight. -/
def Engine.inFlight (e : Engine) : Prop := (∃ r ∈ e.read, r.issued = true) ∨ ∃ w ∈ e.restore, w.issued = true

theorem Engine.inFlight_iff (e : Engine) :
    e.inFlight ↔ e.read.any (fun r => r.issued) = true ∨ e.restore.any (fun w => w.issued) = true := by
  simp [Engine.inFlight, Option.any_eq_true]

theorem State.woundDown_engine_inFlight {u : State} (h : u.engine.inFlight) : u.woundDown.engine = u.engine := by
  unfold State.woundDown
  split
  · rfl
  · exact if_pos h

theorem State.woundDown_engine_stopped {u : State} (hpower : u.device.powerFailPending = true)
    (h : ¬ u.engine.inFlight) :
    u.woundDown.engine = { Engine.reset with phase := .stopped, current := u.engine.current } := by
  unfold State.woundDown
  rw [if_neg (by simp [hpower])]
  exact if_neg h

theorem State.woundDown_device_halted {u : State} (hpower : u.device.powerFailPending = true)
    (hidle : ∀ k, u.access k = none) :
    u.woundDown.device = { u.device with state := .halted, powerFailPending := false } := by
  unfold State.woundDown
  rw [if_neg (by simp [hpower])]
  exact if_pos hidle

theorem State.woundDown_device_busy {u : State} (hbusy : ∃ k, u.access k ≠ none) : u.woundDown.device = u.device := by
  unfold State.woundDown
  split
  · rfl
  · exact if_neg (fun hidle => hbusy.elim (fun k hk => hk (hidle k)))

/-- R161: the wind-down changes the engine and the device only. -/
theorem State.woundDown_rest (u : State) :
    u.woundDown = { u with engine := u.woundDown.engine, device := u.woundDown.device } := by
  unfold State.woundDown
  split <;> rfl

/-- R161, R162: once the wind-down has begun RDY is low. -/
theorem State.woundDown_rdy {u : State} (hpower : u.device.powerFailPending = true) : u.woundDown.rdy = false := by
  by_cases hidle : ∀ k, u.access k = none
  · simp [State.rdy, State.woundDown_device_halted hpower hidle]
  · simp [State.rdy, State.woundDown_device_busy (not_forall.1 hidle), hpower]

/-- R161: the assertion of PFAIL_N in a powered state. -/
theorem exec_pfailNAssert_powered {s : State} (hporst : s.pins.porst = false) (hpfail : s.pins.pfail = false) :
    exec .pfailNAssert s = .next (State.takePowerFail { s with pins := { s.pins with pfail := true } }) := by
  have hpowered : ¬ s.pins.porst = true := by simp [hporst]
  exact congrArg Host.Outcome.next ((if_neg (by simp [hpfail])).trans (if_neg hpowered))

/-- R161: what the wind-down, as it begins, makes of the state. -/
theorem State.windDown_begins {s : State} (hhalted : s.device.state ≠ .halted)
    (hpower : s.device.powerFailPending = false) :
    s.takePowerFail.rdy = false
      ∧ s.takePowerFail.loader = { s.loader with phase := .idle }
      ∧ s.takePowerFail.header = { s.header with pendingImage := none }
      ∧ ((∀ k, s.access k = none) → s.takePowerFail.device = { s.device with state := .halted })
      ∧ ((∃ k, s.access k ≠ none) → s.takePowerFail.device = { s.device with powerFailPending := true })
      ∧ s.takePowerFail.recovery = s.failing.recovery
      ∧ (¬ s.engine.inFlight →
          s.takePowerFail.engine = { Engine.reset with phase := .stopped, current := s.engine.current })
      ∧ (s.engine.inFlight → s.takePowerFail.engine = s.engine)
      ∧ s.takePowerFail = { s.failing with engine := s.takePowerFail.engine, device := s.takePowerFail.device } := by
  rw [State.takePowerFail_running hhalted hpower]
  have hrest := s.failing.woundDown_rest
  refine ⟨State.woundDown_rdy rfl, by rw [hrest]; rfl, by rw [hrest]; rfl, fun hidle => ?_,
    State.woundDown_device_busy (u := s.failing), by rw [hrest], State.woundDown_engine_stopped (u := s.failing) rfl,
    State.woundDown_engine_inFlight (u := s.failing), hrest⟩
  rw [State.woundDown_device_halted (u := s.failing) rfl hidle, ← hpower]
  rfl

/-- Settles O8, by what the wind-down makes of the state once the level of the pin is taken. -/
theorem powerFailBeginsTheWindDown : Obligations.PowerFailBeginsTheWindDown := by
  refine ⟨fun s hporst hpfail =>
      ⟨fun hhalted hpower => ⟨_, exec_pfailNAssert_powered hporst hpfail, ?_⟩, fun hnone => ?_⟩,
    fun s => ⟨fun hpfail => congrArg Host.Outcome.next (if_pos hpfail), fun hporst => ?_⟩⟩
  · obtain ⟨hrdy, hloader, hheader, hidle, hbusy, hrecovery, hstopped, hflight, hrest⟩ :=
      State.windDown_begins (s := { s with pins := { s.pins with pfail := true } }) hhalted hpower
    generalize State.takePowerFail { s with pins := { s.pins with pfail := true } } = t at *
    refine ⟨hrdy, hloader, hheader, hidle, hbusy, fun h => hrecovery.trans (if_pos h),
      fun h => hrecovery.trans (if_neg h), fun hread hrestore => ?_, fun h => hflight ((Engine.inFlight_iff _).2 h), ?_⟩
    · have hnot : ¬ s.engine.inFlight := by simp [Engine.inFlight_iff, hread, hrestore]
      rw [hstopped hnot]
      exact ⟨rfl, rfl⟩
    · rw [hrest]
      rfl
  · rw [exec_pfailNAssert_powered hporst hpfail,
      State.takePowerFail_none (s := { s with pins := { s.pins with pfail := true } }) hnone]
  · refine congrArg Host.Outcome.next ?_
    cases hpfail : s.pins.pfail with
    | true => rw [if_pos rfl, ← hpfail]
    | false => exact (if_neg (by simp)).trans (if_pos hporst)

/-! ## PORST_N (R156, R157) -/

/-- R156: where PORST_N is deasserted, its assertion leaves the power-on values and an idle loader. -/
theorem exec_porstNAssert_deasserted {s : State} (hporst : s.pins.porst = false) :
    exec .porstNAssert s = .next { s.powerOnValues true with
      loader := { (s.powerOnValues true).loader with phase := .idle } } :=
  congrArg Host.Outcome.next (if_neg (by simp [hporst]))

/-- R156: the blocks have their power-on values. -/
theorem reset_blocksAtPowerOn : State.reset.blocksAtPowerOn :=
  ⟨rfl, State.reset_ctx, rfl, rfl, rfl, rfl, rfl, rfl, rfl, rfl, rfl, fun k => Vector.getElem_replicate k.isLt, rfl, rfl,
    rfl, rfl, rfl, rfl, rfl, rfl, rfl, rfl⟩

/-- R157: with PFAIL_N asserted the wind-down ends at once: the link is idle. -/
theorem State.powerOn_takePowerFail (s : State) :
    (s.powerOnValues false).takePowerFail = { s.powerOnValues false with
      device := { (s.powerOnValues false).device with state := .halted }
      loader := { (s.powerOnValues false).loader with phase := .idle }
      engine := { Engine.reset with phase := .stopped } } := by
  have hidle : ∀ k, (s.powerOnValues false).access k = none := fun k => Vector.getElem_replicate k.isLt
  have hflight : ¬ (s.powerOnValues false).engine.inFlight := by
    simp [State.powerOnValues, State.reset, Engine.reset, Engine.inFlight]
  obtain ⟨-, -, -, hdevice, -, -, hengine, -, hrest⟩ :=
    State.windDown_begins (s := s.powerOnValues false) (fun h => (by cases h)) rfl
  rw [hrest, hdevice hidle, hengine hflight]
  rfl

/-- Settles O4, by whether PFAIL_N stands at the deassertion. -/
theorem powerOnResetOfThePart : Obligations.PowerOnResetOfThePart := by
  refine ⟨fun s hporst => ⟨_, exec_porstNAssert_deasserted hporst, rfl, rfl, reset_blocksAtPowerOn, ?_⟩,
    fun s hporst hpfail => ⟨_, exec_porstNDeassert_asserted hporst, ?_⟩,
    fun s hporst hpfail => ⟨_, exec_porstNDeassert_asserted hporst, ?_⟩,
    fun s => ⟨fun hporst => congrArg Host.Outcome.next (if_pos hporst),
      fun hporst => congrArg Host.Outcome.next (if_neg (by simp [hporst]))⟩,
    reset_blocksAtPowerOn, rfl, rfl, rfl, rfl⟩
  · exact ⟨rfl, rfl, rfl, rfl, rfl, rfl⟩
  · rw [if_neg (by simp [State.powerOnValues, hpfail])]
    exact ⟨rfl, rfl, reset_blocksAtPowerOn, rfl, rfl, rfl⟩
  · rw [if_pos (by exact hpfail), State.powerOn_takePowerFail]
    exact ⟨rfl, rfl, by simp [State.rdy], by simp [State.attn, State.powerOnValues, State.reset, Device.reset],
      rfl, rfl, rfl, rfl, rfl, reset_blocksAtPowerOn⟩

/-! ## The assertion of LRST_N (R159) -/

/-- R159: LRST_N is asserted. -/
def State.lrstLow (s : State) : State := { s with pins := { s.pins with lrst := true } }

theorem exec_linkReset_powered {s : State} (hporst : s.pins.porst = false) (hlrst : s.pins.lrst = false) :
    exec .linkReset s = .next s.lrstLow.takeLinkReset := by
  have hpowered : ¬ s.pins.porst = true := by simp [hporst]
  exact congrArg Host.Outcome.next ((if_neg (by simp [hlrst])).trans (if_neg hpowered))

/-- R159: the device states, and the wind-down, in which a link reset has no effect. -/
theorem State.takeLinkReset_none {s : State} (h : s.device.powerFailPending = true ∨ s.device.state = .loading
    ∨ s.device.state = .recovering ∨ s.device.state = .halted) : s.takeLinkReset = s := by
  unfold State.takeLinkReset
  split
  · rfl
  · rename_i hpower
    rcases h with h | h | h | h
    · exact absurd h hpower
    all_goals rw [h]

/-- Settles O6, by device state. -/
theorem linkResetElsewhere : Obligations.LinkResetElsewhere := by
  refine ⟨fun s hlrst => ⟨?_, ?_, fun h => ?_⟩, fun s hlrst => congrArg Host.Outcome.next (if_pos hlrst)⟩
  · rintro ⟨hporst, hpower, hstate⟩
    obtain ⟨hrest, hctx⟩ := State.takeLinkReset_faulted s.lrstLow hpower hstate
    exact ⟨_, exec_linkReset_powered hporst hlrst, hctx, hrest⟩
  · rintro ⟨hporst, hpower, hstate⟩
    rw [exec_linkReset_powered hporst hlrst, State.takeLinkReset_passthrough (by exact hpower) (by exact hstate)]
    rfl
  · cases hporst : s.pins.porst with
    | true =>
      have hlevel : ¬ s.pins.lrst = true := by simp [hlrst]
      exact congrArg Host.Outcome.next ((if_neg hlevel).trans (if_pos hporst))
    | false =>
      rw [exec_linkReset_powered hporst hlrst]
      exact congrArg Host.Outcome.next (State.takeLinkReset_none (h.resolve_left (by simp [hporst])))

end Sys2Proof.Machine

/-! PROOFS. Family 11_device_states_power_fail_and_link_reset: a link reset in SERVING and DRAINING (R17, R76, R78, R82,
R159). -/

namespace Sys2Proof.Machine

/-! ## Context records (R17) -/

/-- R17: a context with these two counts at a link reset, by its state. -/
theorem Context.linkReset_cases (y : Context) (holds ops : Nat) :
    let z : Context := { y with holdsCount := holds, opsInFlight := ops }
    let x : Context := { y with wait := none, arming := none, holdsCount := holds, opsInFlight := ops }
    (y.state = .idle → z.linkReset = x)
      ∧ (y.state = .opened → z.linkReset = { x with
          state := .abortPending, reason := some .linkReset, noticeDue := some false, held := [] })
      ∧ (y.state = .committing → z.linkReset = { x with held := [] })
      ∧ (y.state = .abortPending ∨ y.state = .rollingBack → z.linkReset = { x with
          held := [], noticeDue := some false })
      ∧ (y.state = .aborted → z.linkReset = { x with
          state := .idle, openNumber := none, label := none, reason := none }) := by
  refine ⟨fun h => ?_, fun h => ?_, fun h => ?_, fun h => ?_, fun h => ?_⟩
  · simp only [Context.linkReset, h]
  · simp only [Context.linkReset, h, Context.toAbortPending, AbortReason.noticeDue]
  · simp only [Context.linkReset, h]
  · rcases h with h | h <;> simp only [Context.linkReset, h]
  · simp only [Context.linkReset, h]

/-- R17: a link reset leaves both counts. -/
theorem Context.linkReset_counts (x : Context) :
    x.linkReset.holdsCount = x.holdsCount ∧ x.linkReset.opsInFlight = x.opsInFlight := by
  cases h : x.state <;> simp [Context.linkReset, h, Context.toAbortPending]

/-! ## Operations forgotten and cancelled (R76, R78) -/

/-- R78, R76: what is left once all is forgotten and every operation cancelled. -/
def State.resetCancelled (s : State) : State := s.forget.cancelOps (fun _ => true)

/-- R78, R76: an operation that a link reset leaves. -/
def Operation.reset (o : Operation) : Operation := { o with cancelled := true, forgotten := true }

theorem Operation.asking_eq (o : Operation) : o.asking = decide (o.stage = .appending ∧ o.slot = none) := by
  rw [Bool.eq_iff_iff]
  simp [Operation.asking]

/-- R24, R76: of a context record the cancellation changes the two counts at most. -/
theorem State.resetCancelled_ctx (s : State) (c : RequesterId) : s.resetCancelled.ctx c = { s.ctx c with
    holdsCount := (s.resetCancelled.ctx c).holdsCount, opsInFlight := (s.resetCancelled.ctx c).opsInFlight } := by
  have hblind := (State.cancelOps_shrinks s.forget (fun _ => true)).contexts
    (fun x => ({ x with holdsCount := 0, opsInFlight := 0 } : Context)) ⟨fun _ _ => rfl, fun _ _ => rfl⟩ c
  exact congrArg (fun x : Context => { x with
    holdsCount := (s.resetCancelled.ctx c).holdsCount, opsInFlight := (s.resetCancelled.ctx c).opsInFlight }) hblind

/-- R76: where no slot request waits nothing is withdrawn. -/
theorem State.resetCancelled_noneAsking {s : State} (hnone : ∀ o ∈ s.ops, o.asking = false) :
    s.resetCancelled.ops = s.ops.map Operation.reset ∧ s.resetCancelled.holds = s.holds
      ∧ ∀ c, s.resetCancelled.ctx c = s.ctx c := by
  have hforgotten : ∀ o ∈ s.forget.ops, true = true → o.asking = false := by
    intro o ho _
    obtain ⟨q, hq, rfl⟩ := List.mem_map.1 ho
    exact hnone q hq
  unfold State.resetCancelled
  rw [State.cancelOps_noneAsking s.forget _ hforgotten]
  refine ⟨?_, rfl, fun c => rfl⟩
  simp [State.markCancelled, State.forget, Operation.reset]

/-- R76: the operations withdrawn. -/
def State.slotRequests (s : State) : List Operation :=
  s.ops.filter (fun o => decide (o.stage = .appending ∧ o.slot = none))

/-- R24, R76: with one operation and one entry for a line, exactly the slot requests and their entries go. -/
theorem State.resetCancelled_withdrawn {s : State} (hops : (s.ops.map (fun o => o.line)).Nodup)
    (hholds : (s.holds.map (fun e => e.line)).Nodup) :
    s.resetCancelled.ops = (s.ops.filter (fun o => decide (o ∉ s.slotRequests))).map Operation.reset
      ∧ s.resetCancelled.holds = s.holds.filter (fun e => decide (∀ o ∈ s.slotRequests, o.line ≠ e.line))
      ∧ ∀ c, (s.resetCancelled.ctx c).holdsCount = (s.ctx c).holdsCount
            - s.holds.countP (fun e => decide (e.owner = c ∧ ∃ o ∈ s.slotRequests, o.line = e.line))
          ∧ (s.resetCancelled.ctx c).opsInFlight = (s.ctx c).opsInFlight
            - s.slotRequests.countP (fun o => decide (o.requester = c)) := by
  have hgone : s.forget.ops.filter (fun o => o.asking)
      = s.slotRequests.map (fun o => { o with forgotten := true }) := by
    simp only [State.slotRequests, State.forget, List.filter_map, ← Operation.asking_eq]
    rfl
  have hmarked : (s.forget.markCancelled (fun _ => true)).ops = s.ops.map Operation.reset := by
    simp [State.markCancelled, State.forget, Operation.reset]
  have hlines : (s.ops.map Operation.reset).map (fun o => o.line) = s.ops.map (fun o => o.line) := by
    simp [Operation.reset]
  have hsub : s.slotRequests.Sublist s.ops := List.filter_sublist
  obtain ⟨hrest, hctx⟩ := State.foldl_withdraw (s.slotRequests.map (fun o => { o with forgotten := true }))
    (s.forget.markCancelled (fun _ => true)) (by rw [List.map_map]; exact (hsub.map _).nodup hops)
    (by rw [hmarked, hlines]; exact hops)
    hholds
  unfold State.resetCancelled
  rw [State.cancelOps_all, hgone]
  generalize List.foldl _ (s.forget.markCancelled (fun _ => true)) _ = t at hrest hctx
  refine ⟨?_, ?_, fun c => ?_⟩
  · rw [hrest]
    dsimp only
    rw [hmarked, List.filter_map]
    refine congrArg (List.map Operation.reset) (List.filter_congr (fun o ho => decide_eq_decide.2 ?_))
    simp only [List.forall_mem_map]
    exact ⟨fun h hmem => h o hmem rfl, fun h q hq hline =>
      h (List.inj_on_of_nodup_map hops (hsub.subset hq) ho hline ▸ hq)⟩
  · rw [hrest]
    simp [State.markCancelled, State.forget]
  · rw [hctx c]
    simp [State.markCancelled, State.forget, List.countP_map, Function.comp_def, State.ctx]

/-! ## The link reset (R159) -/

/-- R82: the drains that one event brings about are one group, if there is any. -/
theorem State.noteDrains_drains (s : State) : s.noteDrains.drains
    = s.drains ++ if allContexts.filter s.drainDue = [] then [] else [allContexts.filter s.drainDue] := by
  unfold State.noteDrains
  dsimp only
  split
  · rename_i h
    rw [if_pos (List.isEmpty_iff.1 h), List.append_nil]
  · rename_i h
    rw [if_neg (fun e => h (List.isEmpty_iff.2 e))]

section LinkReset

variable {s : State}

/-- R159: the tables, the contexts and the responses after a link reset with LRST_N asserted. -/
theorem State.takeLinkReset_tables (hpower : s.device.powerFailPending = false)
    (hstate : s.device.state = .serving ∨ s.device.state = .draining) (hlrst : s.pins.lrst = true) :
    s.takeLinkReset.ops = s.resetCancelled.ops ∧ s.takeLinkReset.holds = s.resetCancelled.holds
      ∧ s.takeLinkReset.sent = s.sent ∧ ∀ c, s.takeLinkReset.ctx c = (s.resetCancelled.ctx c).linkReset := by
  obtain ⟨u, hu, hreset⟩ := State.takeLinkReset_stays hpower hstate hlrst
  have hctx : ∀ c, u.ctx c = (s.resetCancelled.ctx c).linkReset := by
    intro c
    rw [hu, State.ctx_noteDrains, State.ctx_syncNotices, State.ctx_modAll]
    rfl
  rw [hreset]
  refine ⟨by simp [hu, State.resetCancelled], by simp [hu, State.resetCancelled], ?_, hctx⟩
  have hsent := (State.cancelOps_forgotten s.forget (fun _ => true) (by simp)).1
  simpa [hu] using hsent

/-- R11, R82: the drains that a link reset brings about. -/
theorem State.takeLinkReset_drains (hpower : s.device.powerFailPending = false)
    (hstate : s.device.state = .serving ∨ s.device.state = .draining) (hlrst : s.pins.lrst = true)
    (together : List RequesterId) (htogether : together = allContexts.filter (fun c => decide (
      (s.takeLinkReset.ctx c).state = .abortPending ∧ (s.takeLinkReset.ctx c).opsInFlight = 0
        ∧ (s.takeLinkReset.ctx c).forwardedOutstanding = 0 ∧ (∀ g ∈ s.drains, c ∉ g) ∧ c ∉ s.rollbackQueue))) :
    s.takeLinkReset.drains = s.drains ++ if together = [] then [] else [together] := by
  obtain ⟨u, hu, hreset⟩ := State.takeLinkReset_stays hpower hstate hlrst
  obtain ⟨v, hv⟩ : ∃ v : State, v = (s.resetCancelled.modAll Context.linkReset).syncNotices := ⟨_, rfl⟩
  have huv : u = v.noteDrains := by
    rw [hu, hv]
    rfl
  have hdrains : v.drains = s.drains := by simp [hv, State.resetCancelled]
  have hqueue : v.rollbackQueue = s.rollbackQueue := by simp [hv, State.resetCancelled]
  have hjournals : v.journals := by simpa [State.journals, hv, State.resetCancelled, State.syncNotices] using hstate
  have hctx : ∀ c, s.takeLinkReset.ctx c = v.ctx c := by
    intro c
    rw [hreset, huv]
    exact v.ctx_noteDrains c
  have hdue : allContexts.filter v.drainDue = together := by
    rw [htogether]
    refine List.filter_congr (fun c _ => ?_)
    rw [Bool.eq_iff_iff, State.drainDue_iff, decide_eq_true_iff, hctx, State.drainReached, hdrains, hqueue]
    simp only [hjournals, true_and]
  rw [hreset, huv]
  dsimp only
  rw [State.noteDrains_drains, hdue, hdrains]

end LinkReset

/-- Settles O5, by what the link reset makes of the tables, the contexts and the drains. -/
theorem linkResetInServiceDrains : Obligations.LinkResetInServiceDrains := by
  intro s hworks hlrst
  have hporst : s.pins.porst = false := hworks.elim (·.1) (·.1)
  have hpower : s.lrstLow.device.powerFailPending = false := hworks.elim (·.2.1) (·.2.1)
  have hstate : s.lrstLow.device.state = .serving ∨ s.lrstLow.device.state = .draining := hworks.imp (·.2.2) (·.2.2)
  obtain ⟨hdevice, houtstanding, hclassified, hforward⟩ := State.takeLinkReset_asserted hpower hstate rfl
  obtain ⟨hops, hholds, hsent, hctx⟩ := State.takeLinkReset_tables hpower hstate rfl
  have hdrains := State.takeLinkReset_drains hpower hstate rfl
  have hcounts : ∀ c, (s.lrstLow.takeLinkReset.ctx c).holdsCount = (s.lrstLow.resetCancelled.ctx c).holdsCount
      ∧ (s.lrstLow.takeLinkReset.ctx c).opsInFlight = (s.lrstLow.resetCancelled.ctx c).opsInFlight := by
    intro c
    rw [hctx]
    exact Context.linkReset_counts _
  have hrest : s.lrstLow.takeLinkReset = { s.lrstLow with
      device := s.lrstLow.takeLinkReset.device, contexts := s.lrstLow.takeLinkReset.contexts
      holds := s.lrstLow.takeLinkReset.holds, ops := s.lrstLow.takeLinkReset.ops
      drains := s.lrstLow.takeLinkReset.drains, outstanding := [], classified := []
      forward := s.lrstLow.forward.map (fun e => { e with forgotten := true }) } := by
    apply State.ext_fields <;> simp [houtstanding, hclassified, hforward, hsent]
  refine ⟨_, exec_linkReset_powered hporst hlrst, hdevice, by simp [State.rdy, hdevice], fun c x hx => ?_, fun hnone => ?_,
    fun hopsOnce hholdsOnce gone hgone => ?_, hdrains, hrest⟩
  · rw [(hcounts c).1, (hcounts c).2] at hx
    rw [hx, hctx c, s.lrstLow.resetCancelled_ctx c]
    exact Context.linkReset_cases (s.ctx c) _ _
  · obtain ⟨hops', hholds', hctx'⟩ := State.resetCancelled_noneAsking (s := s.lrstLow) hnone
    refine ⟨hops.trans hops', hholds.trans hholds', fun c => ?_⟩
    rw [(hcounts c).1, (hcounts c).2, hctx' c]
    exact ⟨rfl, rfl⟩
  · obtain ⟨hops', hholds', hctx'⟩ := State.resetCancelled_withdrawn (s := s.lrstLow) hopsOnce hholdsOnce
    subst hgone
    refine ⟨hops.trans hops', hholds.trans hholds', fun c => ?_⟩
    rw [(hcounts c).1, (hcounts c).2]
    exact hctx' c

end Sys2Proof.Machine
